-- ==== Sys2Proof/Word.lean ====
section
/-! DEFINITION. The word and byte types of the DTU (R20, R21, R90). -/

namespace Sys2Proof

/-- A register, an address, a packed NoC address: 64 bits (R20, R70). -/
abbrev Word := BitVec 64

/-- The smallest unit of local memory and of a packet (R70, R90). -/
abbrev Byte := BitVec 8

end Sys2Proof
end

