-- ==== Sys2Proof/Machine/Bits.lean ====
section
/-! DEFINITION. Bit fields of a register and byte strings: slices and packing (R12), little-endian order (R80, R81),
and byte strings addressed by position (R82). -/

namespace Sys2Proof.Machine

/-- The field of `len` bits that starts at bit `lo` (R12). -/
def field (w : Word) (lo len : Nat) : BitVec len := w.extractLsb' lo len

/-- `w` with the field that starts at bit `lo` replaced; the other bits stay (R13). -/
def setField {len : Nat} (w : Word) (lo : Nat) (v : BitVec len) : Word :=
  (w &&& ~~~((BitVec.allOnes len).setWidth 64 <<< lo)) ||| (v.setWidth 64 <<< lo)

/-- The `n` low bytes of `v`, least significant first (R80). -/
def leBytes : Nat → Nat → List Byte
  | 0, _ => []
  | n + 1, v => BitVec.ofNat 8 v :: leBytes n (v / 256)

/-- The number a little-endian byte string stands for (R80). -/
def ofLeBytes : List Byte → Nat
  | [] => 0
  | b :: bs => b.toNat + 256 * ofLeBytes bs

/-- The eight bytes of a register (R80). -/
def wordBytes (w : Word) : List Byte := leBytes 8 w.toNat

/-- The register whose bytes are `bs` (R80). -/
def bytesWord (bs : List Byte) : Word := BitVec.ofNat 64 (ofLeBytes bs)

/-- The `n` bytes of `bs` from position `pos`. -/
def slice (bs : List Byte) (pos n : Nat) : List Byte := (bs.drop pos).take n

/-- `bs` with `d` laid over it from position `pos`; the length stays. -/
def splice (bs : List Byte) (pos : Nat) (d : List Byte) : List Byte :=
  (bs.take pos ++ d ++ bs.drop (pos + d.length)).take bs.length

/-- One of the alternatives: the only one if there is one, the one a free choice `n` picks if there are several. -/
def choose {α : Type} (n : Nat) : List α → Option α
  | [] => none
  | [x] => some x
  | x :: y :: zs => (x :: y :: zs)[n % (zs.length + 2)]?

end Sys2Proof.Machine
end

