-- ==== Sys2Proof/Config.lean ====
section
/-! DEFINITION. What an instance fixes (R7), the constants of the specification, and the free values that it
leaves open. The parameters are a record, held in State, so that a statement about every state is a statement
about every instance; the free values are opaque constants. -/

namespace Sys2Proof

/-- Bits of the page offset (R7). -/
def pageBits : Nat := 12

/-- Bytes in a page. -/
def pageSize : Nat := 2 ^ pageBits

/-- Index bits of one page-table level (R7). -/
def levelBits : Nat := 9

/-- Bytes in a page-table entry, `2^PTE_BITS` (R7). -/
def pteSize : Nat := 8

/-- Bytes in the packed message header (R7, R141). -/
def headerSize : Nat := 25

/-- Bytes in the body of a page-fault upcall (R147). -/
def upcallBodySize : Nat := 24

/-- `CREDITS_UNLIM`, the unlimited-credit sentinel (R7, R43). -/
def creditsUnlim : BitVec 16 := 0xFFFF#16

/-- `OPCODE_PF`, the first word of an upcall body (R7, R147). -/
def opcodePf : Word := 0#64

/-- `PF_REPEAT_LIMIT` (R7, R360). -/
def pfRepeatLimit : Nat := 100

/-- `PF_IRQ_VECTOR` (R7, R360, R415). -/
def pfIrqVector : Word := 0x41#64

/-- The parameters of one DTU instance (R7). They do not change while the machine runs (R453). -/
structure Config where
  /-- N, the number of endpoints. -/
  numEndpoints : Nat
  /-- Bytes in a local-memory block. -/
  blockSize : Nat
  /-- Number of transfer buffers. -/
  bufCount : Nat
  /-- Bytes in a transfer buffer. -/
  bufSize : Nat
  /-- TLB capacity; 0 means no TLB and no translation (R71). -/
  tlbEntries : Nat
  /-- This DTU's id on the NoC. -/
  coreId : BitVec 10
  /-- Base address of the register window (R100). -/
  regFileBaseAddr : Word
  /-- Largest packet payload in bytes. -/
  maxNocPacketSize : Nat
  /-- Number of page-table levels. -/
  levelCnt : Nat
  /-- Endpoint used for upcalls to the kernel (R351). -/
  syscallEp : Nat
  /-- The code of the memory engine's access error (R282, R410). -/
  errAccess : BitVec 53
  /-- Reset value of `RW_BARRIER` (R450). -/
  resetRwBarrier : Word
  /-- Whether a CPU write at exactly `RW_BARRIER` is rejected (R177). -/
  rwBarrierInclusive : Bool
  /-- Whether the barrier also rejects CPU writes of command registers (R177). -/
  rwBarrierAppliesToRegs : Bool
  /-- Which physical addresses local memory backs, as base and length (R90, R102). -/
  localMem : List (Nat × Nat)
  deriving DecidableEq, Repr

/-- Bytes in the register window (R100). -/
def Config.windowSize (c : Config) : Nat := 0x70 + 24 * c.numEndpoints

/-- The constraints R7 puts on the parameters. -/
def Config.valid (c : Config) : Bool :=
  decide (1 ≤ c.numEndpoints) && decide (c.numEndpoints ≤ 255) &&
  [8, 16, 32, 64, 128, 256, 512, 1024, 2048, 4096].contains c.blockSize &&
  decide (1 ≤ c.bufCount) && decide (c.maxNocPacketSize ≤ c.bufSize) &&
  decide (headerSize < c.maxNocPacketSize) &&
  decide (c.regFileBaseAddr.toNat % 8 = 0) &&
  decide (c.regFileBaseAddr.toNat + c.windowSize ≤ 2 ^ 37) &&
  [2, 4].contains c.levelCnt && decide (4 < c.errAccess.toNat)

/-- Whether local memory backs the `n` bytes from address `a` (R90); nothing is asked of an empty access. -/
def Config.backs (c : Config) (a n : Nat) : Bool :=
  n == 0 || c.localMem.any fun r => decide (r.1 ≤ a) && decide (a + n ≤ r.1 + r.2)

/-- The configuration CFG of 95_test_vectors.md section 0, used by `State.reset`. CFG gives no core id and no map of local
memory: that `coreId` is 0 and that all 2^64 addresses are backed is the model's choice (assumption 2, DESIGN CHOICE). -/
def Config.vectors : Config where
  numEndpoints := 8
  blockSize := 64
  bufCount := 2
  bufSize := 256
  tlbEntries := 0
  coreId := 0#10
  regFileBaseAddr := 0xF0000000#64
  maxNocPacketSize := 256
  levelCnt := 2
  syscallEp := 0
  errAccess := 5#53
  resetRwBarrier := 0xFFFFFFFFFFFFFFFF#64
  rwBarrierInclusive := false
  rwBarrierAppliesToRegs := true
  localMem := [(0, 2 ^ 64)]

/-- The n-th free 64-bit value: an upcall token (R353) or an operand register after READ or WRITE (R290).
Nothing constrains it (assumption 4). -/
opaque Config.freeWord : Nat → Word

/-- The n-th free choice among alternatives: a TLB victim (R333), a rewritten operand (R472), the next step when
the agenda is empty (R470). Nothing constrains it (assumption 4). -/
opaque Config.freeChoice : Nat → Nat

end Sys2Proof
end

