-- ==== Sys2Proof/Syntax.lean ====
section
/-! DEFINITION. The operations of the DTU as a term: one constructor of `Instr` for each row of
spec/opcode_table.json (R3), with the formats its operands have. -/

namespace Sys2Proof

/-- The direction of a memory request or of a packet (R95). -/
inductive AccessKind where
  | read
  | write
  deriving DecidableEq, Repr

/-- The error codes of R410; their numbers are `errorCode` of Machine/Flags.lean. -/
inductive ErrorCode where
  /-- `NONE` -/
  | noError
  /-- `MISS_CREDITS` -/
  | missCredits
  /-- `NO_RING_SPACE` -/
  | noRingSpace
  /-- `VPE_GONE` -/
  | vpeGone
  /-- `NO_MAPPING` -/
  | noMapping
  /-- `ERR_ACCESS` -/
  | access
  deriving DecidableEq, Repr

/-- The closed set of packet types (R135); the tags have no numbers. -/
inductive PacketType where
  | message
  | pagefault
  | readReq
  | writeReq
  | cacheMemReq
  | cacheMemReqFunc
  deriving DecidableEq, Repr

/-- A 64-bit NoC address taken apart (R130). -/
structure NocAddr where
  reserved : BitVec 5
  valid : BitVec 1
  coreId : BitVec 10
  vpeId : BitVec 11
  offset : BitVec 37
  deriving DecidableEq, Repr

/-- The message header (R141). -/
structure Header where
  flags : Byte
  senderCore : BitVec 16
  senderEp : Byte
  replyEp : Byte
  length : BitVec 16
  senderVpe : BitVec 16
  label : Word
  replyLabel : Word
  deriving DecidableEq, Repr

/-- An inbound request packet with its address decoded (R95, R133). The constructor of `Instr` that holds it is the one of
its type; the type stays in the packet because a response carries it too. -/
structure Packet where
  ptype : PacketType
  addr : NocAddr
  kind : AccessKind
  size : Nat
  data : List Byte
  needsResponse : Bool
  srcCore : BitVec 10
  deriving DecidableEq, Repr

/-- A packet as the NoC carries it: a type tag and a packed 64-bit address (R95). -/
structure WirePacket where
  ptype : PacketType
  addr : Word
  kind : AccessKind
  size : Nat
  data : List Byte
  needsResponse : Bool
  srcCore : BitVec 10
  deriving DecidableEq, Repr

/-- Where a register access came in, and so its origin and where its answer goes (R171): from the local CPU, under
the number of its request, or in a NoC packet. -/
inductive Port where
  | cpu (id : Nat)
  | noc (p : Packet)
  deriving DecidableEq, Repr

/-- The operations of the DTU (R3). `err` is the error field of a COMMAND value, which the dispatcher ignores
(R126) but which the register keeps until the command finishes. -/
inductive Instr where
  /-- REG_READ: `size` bytes from window offset `off` (R173). -/
  | regRead (port : Port) (off : BitVec 13) (size : Nat)
  /-- REG_WRITE: the bytes `data` from window offset `off` (R174 to R178). -/
  | regWrite (port : Port) (off : BitVec 13) (data : List Byte)
  /-- IDLE (R204). -/
  | idle (arg : BitVec 8) (err : BitVec 53)
  /-- SEND on endpoint `arg` (R231). -/
  | send (arg : BitVec 8) (err : BitVec 53)
  /-- REPLY on endpoint `arg` (R240). -/
  | reply (arg : BitVec 8) (err : BitVec 53)
  /-- READ through endpoint `arg` (R284). -/
  | read (arg : BitVec 8) (err : BitVec 53)
  /-- WRITE through endpoint `arg` (R287). -/
  | write (arg : BitVec 8) (err : BitVec 53)
  /-- FETCH_MSG on endpoint `arg` (R265). -/
  | fetchMsg (arg : BitVec 8) (err : BitVec 53)
  /-- ACK_MSG on endpoint `arg` (R270). -/
  | ackMsg (arg : BitVec 8) (err : BitVec 53)
  /-- DEBUG_MSG (R208). -/
  | debugMsg (payload : BitVec 61)
  /-- WAKEUP_CORE (R383). -/
  | wakeupCore (arg : BitVec 61)
  /-- INV_PAGE (R384). -/
  | invPage (arg : BitVec 61)
  /-- INV_TLB (R385). -/
  | invTlb (arg : BitVec 61)
  /-- INV_CACHE (R386). -/
  | invCache (arg : BitVec 61)
  /-- INJECT_IRQ (R387). -/
  | injectIrq (arg : BitVec 61)
  /-- Inbound MESSAGE (R250). -/
  | message (p : Packet)
  /-- Inbound PAGEFAULT (R250, R251). -/
  | pagefault (p : Packet)
  /-- Inbound READ_REQ (R293, R294). -/
  | readReq (p : Packet)
  /-- Inbound WRITE_REQ (R293, R295). -/
  | writeReq (p : Packet)
  /-- Inbound CACHE_MEM_REQ (R398). -/
  | cacheMemReq (p : Packet)
  /-- Inbound CACHE_MEM_REQ_FUNC (R398). -/
  | cacheMemReqFunc (p : Packet)
  deriving DecidableEq, Repr

end Sys2Proof
end

