-- ==== Sys2Proof/WellFormed.lean ====
section
/-! DEFINITION. Which terms are operations of the DTU: `Instr.shapeOk` is what the encodings admit, `Instr.wellFormed`
adds what the instance's parameters ask of the operands. -/

namespace Sys2Proof

/-- The payload a packet of R95 carries: `size` bytes in a write request, none in a read request. -/
def Packet.dataOk (p : Packet) : Bool :=
  match p.kind with
  | .read => p.data.isEmpty
  | .write => p.data.length == p.size

/-- What the encodings admit: the packet types, kinds and payloads of R95; every operand field of a command at every value. -/
def Instr.shapeOk : Instr → Bool
  | .regRead _ _ _ => true
  | .regWrite _ _ _ => true
  | .idle _ _ => true
  | .send _ _ => true
  | .reply _ _ => true
  | .read _ _ => true
  | .write _ _ => true
  | .fetchMsg _ _ => true
  | .ackMsg _ _ => true
  | .debugMsg _ => true
  | .wakeupCore _ => true
  | .invPage _ => true
  | .invTlb _ => true
  | .invCache _ => true
  | .injectIrq _ => true
  | .message p => p.ptype == .message && p.kind == .write && p.dataOk
  | .pagefault p => p.ptype == .pagefault && p.kind == .write && p.dataOk
  | .readReq p => p.ptype == .readReq && p.kind == .read && p.dataOk
  | .writeReq p => p.ptype == .writeReq && p.kind == .write && p.dataOk
  | .cacheMemReq p => p.ptype == .cacheMemReq && p.dataOk
  | .cacheMemReqFunc p => p.ptype == .cacheMemReqFunc && p.dataOk

/-- The form of a register access (R83): it starts at a multiple of 8, has a size that is a nonzero multiple of 8,
and ends inside the window. -/
def regAccessOk (c : Config) (off size : Nat) : Bool :=
  off % 8 == 0 && size % 8 == 0 && size != 0 && decide (off + size ≤ c.windowSize)

/-- What the instance asks of the operands: a register access of the form of R83, an endpoint id in range (R206), a
message that holds a header and names an endpoint in range (R250). -/
def Instr.inRange (c : Config) : Instr → Bool
  | .regRead _ off size => regAccessOk c off.toNat size
  | .regWrite _ off data => regAccessOk c off.toNat data.length
  | .idle _ _ => true
  | .send arg _ => decide (arg.toNat < c.numEndpoints)
  | .reply arg _ => decide (arg.toNat < c.numEndpoints)
  | .read arg _ => decide (arg.toNat < c.numEndpoints)
  | .write arg _ => decide (arg.toNat < c.numEndpoints)
  | .fetchMsg arg _ => decide (arg.toNat < c.numEndpoints)
  | .ackMsg arg _ => decide (arg.toNat < c.numEndpoints)
  | .debugMsg _ => true
  | .wakeupCore _ => true
  | .invPage _ => true
  | .invTlb _ => true
  | .invCache _ => true
  | .injectIrq _ => true
  | .message p => decide (headerSize ≤ p.size) && decide (p.addr.offset.toNat < c.numEndpoints)
  | .pagefault p => decide (headerSize ≤ p.size) && decide (p.addr.offset.toNat < c.numEndpoints)
  | .readReq p => decide (p.size ≤ c.bufSize)
  | .writeReq p => decide (p.size ≤ c.bufSize)
  | .cacheMemReq _ => true
  | .cacheMemReqFunc _ => true

/-- A well-formed operation of the instance `c`. -/
def Instr.wellFormed (c : Config) (i : Instr) : Bool := i.shapeOk && i.inRange c

end Sys2Proof
end

