-- ==== Sys2Proof/Decode.lean ====
section
/-! DEFINITION. The four kinds of encoded things (30_encoding.md) and what each stands for: the value of COMMAND, the
value of EXT_CMD, a packet's NoC address, the message header; and the encoders written from the same tables. A value has
a meaning only together with the place it came in by (assumption 12), so the raw form is tagged with that place. -/

namespace Sys2Proof

open Sys2Proof.Machine

/-- What the DTU decodes, tagged with the place it came in by. -/
inductive Raw where
  /-- A read request whose address lies in the register window. -/
  | registerRead (port : Port) (off : BitVec 13) (size : Nat)
  /-- A write request whose address lies in the register window. -/
  | registerWrite (port : Port) (off : BitVec 13) (data : List Byte)
  /-- The value of the COMMAND register. -/
  | command (w : Word)
  /-- The value of the EXT_CMD register. -/
  | external (w : Word)
  /-- A packet from the NoC. -/
  | packet (p : WirePacket)
  deriving DecidableEq, Repr

/-- Why a raw form is no operation. -/
inductive DecodeError where
  /-- EXT_CMD opcode 5, 6 or 7 (R129). -/
  | unknownOpcode
  /-- The packet's direction is not the one its type has (R95). -/
  | wrongPacketKind
  /-- The packet's payload is not the one its direction and size ask for (R95). -/
  | wrongPacketData
  deriving DecidableEq, Repr

/-! ## Decoding -/

/-- The fields of a raw NoC address (R130, R131). -/
def decodeNocAddr (w : Word) : NocAddr where
  offset := field w 0 37
  vpeId := field w 37 11
  coreId := field w 48 10
  valid := field w 58 1
  reserved := field w 59 5

/-- The command a value of COMMAND stands for (R121 to R124). All eight opcodes are defined (R125). -/
def decodeCommand (w : Word) : Instr :=
  let arg := field w 3 8
  let err := field w 11 53
  match (field w 0 3).toNat with
  | 0 => .idle arg err
  | 1 => .send arg err
  | 2 => .reply arg err
  | 3 => .read arg err
  | 4 => .write arg err
  | 5 => .fetchMsg arg err
  | 6 => .ackMsg arg err
  | _ => .debugMsg (field w 3 61)

/-- The external command a value of EXT_CMD stands for (R128, R129). -/
def decodeExternal (w : Word) : Except DecodeError Instr :=
  let arg := field w 3 61
  match (field w 0 3).toNat with
  | 0 => .ok (.wakeupCore arg)
  | 1 => .ok (.invPage arg)
  | 2 => .ok (.invTlb arg)
  | 3 => .ok (.invCache arg)
  | 4 => .ok (.injectIrq arg)
  | _ => .error .unknownOpcode

/-- The direction a packet of each type has; none where both occur (R95, R237, R284, R287, R353, R397). -/
def packetKind : PacketType → Option AccessKind
  | .message => some .write
  | .pagefault => some .write
  | .readReq => some .read
  | .writeReq => some .write
  | .cacheMemReq => none
  | .cacheMemReqFunc => none

/-- The packet with its address taken apart. -/
def openPacket (p : WirePacket) : Packet where
  ptype := p.ptype
  addr := decodeNocAddr p.addr
  kind := p.kind
  size := p.size
  data := p.data
  needsResponse := p.needsResponse
  srcCore := p.srcCore

/-- The inbound operation a packet stands for, selected by its type (R135, R390). -/
def decodePacket (p : WirePacket) : Except DecodeError Instr :=
  let q := openPacket p
  if (packetKind p.ptype).getD p.kind ≠ p.kind then .error .wrongPacketKind
  else if q.dataOk = false then .error .wrongPacketData
  else match p.ptype with
    | .message => .ok (.message q)
    | .pagefault => .ok (.pagefault q)
    | .readReq => .ok (.readReq q)
    | .writeReq => .ok (.writeReq q)
    | .cacheMemReq => .ok (.cacheMemReq q)
    | .cacheMemReqFunc => .ok (.cacheMemReqFunc q)

/-- The operation a raw form stands for. -/
def decode : Raw → Except DecodeError Instr
  | .registerRead port off size => .ok (.regRead port off size)
  | .registerWrite port off data => .ok (.regWrite port off data)
  | .command w => .ok (decodeCommand w)
  | .external w => decodeExternal w
  | .packet p => decodePacket p

/-- The header at the front of a message (R141). -/
def decodeHeader (bs : List Byte) : Header where
  flags := BitVec.ofNat 8 (ofLeBytes (slice bs 0 1))
  senderCore := BitVec.ofNat 16 (ofLeBytes (slice bs 1 2))
  senderEp := BitVec.ofNat 8 (ofLeBytes (slice bs 3 1))
  replyEp := BitVec.ofNat 8 (ofLeBytes (slice bs 4 1))
  length := BitVec.ofNat 16 (ofLeBytes (slice bs 5 2))
  senderVpe := BitVec.ofNat 16 (ofLeBytes (slice bs 7 2))
  label := bytesWord (slice bs 9 8)
  replyLabel := bytesWord (slice bs 17 8)

/-! ## Encoding -/

/-- The packed form of a NoC address (R130). -/
def encodeNocAddr (a : NocAddr) : Word :=
  a.reserved ++ a.valid ++ a.coreId ++ a.vpeId ++ a.offset

/-- `NocAddr(c, v, o)` built from a tuple: `valid` is 1; none if a field does not fit its width (R131). -/
def nocAddr (core vpe off : Nat) : Option Word :=
  if core < 2 ^ 10 ∧ vpe < 2 ^ 11 ∧ off < 2 ^ 37 then
    some (encodeNocAddr ⟨0#5, 1#1, BitVec.ofNat 10 core, BitVec.ofNat 11 vpe, BitVec.ofNat 37 off⟩)
  else none

/-- `[error : 53] ∥ [arg : 8] ∥ [opcode : 3]` (R121). -/
def commandWord (op : BitVec 3) (arg : BitVec 8) (err : BitVec 53) : Word := err ++ arg ++ op

/-- `[arg : 61] ∥ [opcode : 3]` (R123, R128). -/
def wideWord (op : BitVec 3) (arg : BitVec 61) : Word := arg ++ op

/-- The packet with its address packed, under the type tag of the operation that holds it. -/
def sealPacket (t : PacketType) (p : Packet) : WirePacket where
  ptype := t
  addr := encodeNocAddr p.addr
  kind := p.kind
  size := p.size
  data := p.data
  needsResponse := p.needsResponse
  srcCore := p.srcCore

/-- The raw form of an operation, from the encoding tables (R122, R129, R130, R172). -/
def encode : Instr → Raw
  | .regRead port off size => .registerRead port off size
  | .regWrite port off data => .registerWrite port off data
  | .idle arg err => .command (commandWord 0#3 arg err)
  | .send arg err => .command (commandWord 1#3 arg err)
  | .reply arg err => .command (commandWord 2#3 arg err)
  | .read arg err => .command (commandWord 3#3 arg err)
  | .write arg err => .command (commandWord 4#3 arg err)
  | .fetchMsg arg err => .command (commandWord 5#3 arg err)
  | .ackMsg arg err => .command (commandWord 6#3 arg err)
  | .debugMsg payload => .command (wideWord 7#3 payload)
  | .wakeupCore arg => .external (wideWord 0#3 arg)
  | .invPage arg => .external (wideWord 1#3 arg)
  | .invTlb arg => .external (wideWord 2#3 arg)
  | .invCache arg => .external (wideWord 3#3 arg)
  | .injectIrq arg => .external (wideWord 4#3 arg)
  | .message p => .packet (sealPacket .message p)
  | .pagefault p => .packet (sealPacket .pagefault p)
  | .readReq p => .packet (sealPacket .readReq p)
  | .writeReq p => .packet (sealPacket .writeReq p)
  | .cacheMemReq p => .packet (sealPacket .cacheMemReq p)
  | .cacheMemReqFunc p => .packet (sealPacket .cacheMemReqFunc p)

/-- The 25 bytes of a header (R141). -/
def encodeHeader (h : Header) : List Byte :=
  leBytes 1 h.flags.toNat ++ leBytes 2 h.senderCore.toNat ++ leBytes 1 h.senderEp.toNat ++
  leBytes 1 h.replyEp.toNat ++ leBytes 2 h.length.toNat ++ leBytes 2 h.senderVpe.toNat ++
  wordBytes h.label ++ wordBytes h.replyLabel

/-! ## The opcode table's words -/

/-- The command whose eight bytes, as a register stores them, are `bs`. -/
def decodeCommandBytes (bs : List Byte) : Instr := decodeCommand (bytesWord bs)

/-- The table's 16-bit rows are register accesses, named by the window offset alone; its other rows with a numeric
encoding are values of COMMAND. The rows of EXT_CMD have the same words as the first five commands, and the packet rows
have no number: neither can be told from a word without the place it came in by (assumption 12). -/
def decodeTableWord (nbits w : Nat) : Option Instr :=
  if nbits = 16 then
    if w < 2 ^ 13 then some (.regRead (.cpu 0) (BitVec.ofNat 13 w) 8) else none
  else if w < 2 ^ 64 then some (decodeCommandBytes (leBytes 8 w))
  else none

end Sys2Proof
end

