-- ==== Sys2Proof/Machine/State.lean ====
section
/-! DEFINITION. The state of one DTU instance (10_state.md) together with its local memory and the script of the
outside world, as plain data; the faults (60_exceptions.md R425) and refusals; the reset state (R450, R451). -/

namespace Sys2Proof.Machine

/-- The fatal errors of R425, one constructor per reason. A step that raises one has no successor state. Each is
SAFE: the specification ends the DTU's defined behaviour there. -/
inductive Fault where
  /-- A register access misaligned, of bad size, or leaving the window (R83, R172). Raised by REG_READ, REG_WRITE and the
  inbound READ_REQ and WRITE_REQ of the register window. Safe. -/
  | badRegAccess
  /-- A non-IDLE command executed while one is in progress (R201, R203). Raised by every command but IDLE. Safe. -/
  | commandInProgress
  /-- `finishCommand` without a command in progress (R212). Safe. -/
  | noCommand
  /-- EXT_CMD opcode 5, 6 or 7 (R129, R381). Raised by the ExtCmd step. Safe. -/
  | unknownOpcode
  /-- A command's endpoint, or a message's target endpoint, is not below N (R206, R250). Safe. -/
  | endpointOutOfRange
  /-- The endpoint has not the type the operation needs, or `msgSize` is 0 (R206, R250, R271, R351). Safe. -/
  | badEndpoint
  /-- A size limit of a message is broken (R233, R240, R256, R351), or a REPLY does not fit its 16-bit `length` (R165;
  assumption 28). Safe. -/
  | messageTooLarge
  /-- REPLY to a stored header without `REPLY_ENABLED` (R242). Safe. -/
  | replyDisabled
  /-- A message shorter than a header, or a page-fault reply without its error word (R250, R354). Safe. -/
  | missingHeader
  /-- An acknowledged address outside the ring (R271). Safe. -/
  | slotOutOfRange
  /-- An acknowledged slot that is free (R271). Safe. -/
  | slotNotOccupied
  /-- A credit grant above `2^16 - 2` (R161, R261). Safe. -/
  | creditOverflow
  /-- A NocAddr field that does not fit its width (R131). Safe. -/
  | nocAddrField
  /-- `OFFSET + DATA_SIZE` beyond `reqSize` (R283). Safe. -/
  | memOutOfBounds
  /-- A transfer that does not fit one buffer (R302). Safe. -/
  | transferTooLarge
  /-- A page-fault reply with no resolution in flight or with a wrong token (R354). Safe. -/
  | unknownPagefaultReply
  /-- A page-fault reply with an error word other than 0, 3, 4 (R354). Safe. -/
  | badPagefaultReply
  deriving DecidableEq, Repr

/-- Inputs that the specification gives no meaning. -/
inductive Refusal where
  /-- An instruction whose meaning is not modelled yet; raised by `exec` only. Safe. -/
  | notModelled (mnemonic : String)
  /-- The NoC delivered something that is no packet of R95 (a direction its type does not have, or a payload of
  another length). Raised by the delivery step. Safe: the specification describes no such packet. -/
  | malformedPacket (e : DecodeError)
  /-- The NoC delivered a response whose data is not as long as the request asked (R95, R97). Raised by the response
  step, and by the CPU step for a reply to a functional request. Safe: the specification's NoC alters nothing. -/
  | malformedResponse
  /-- A CPU memory access that crosses a page (R395 describes only accesses that do not). Raised by the CPU step.
  Safe. -/
  | pageCrossingAccess
  deriving DecidableEq, Repr

/-! ## Registers -/

/-- The eight DTU registers (R21). -/
structure DtuRegs where
  status : Word
  rootPt : Word
  pfEp : Word
  lastPf : Word
  rwBarrier : Word
  vpeId : Word
  msgCnt : Word
  extCmd : Word
  deriving DecidableEq, Repr

/-- The five command registers beside COMMAND (R30). -/
structure Operands where
  dataAddr : Word
  dataSize : Word
  offset : Word
  replyEpid : Word
  replyLabel : Word
  deriving DecidableEq, Repr

/-- The three words of an endpoint (R40). -/
structure EpWords where
  w0 : Word
  w1 : Word
  w2 : Word
  deriving DecidableEq, Repr

/-! ## The TLB -/

/-- A TLB entry (R55). -/
structure TlbEntry where
  vpn : BitVec 52
  phys : Word
  flags : BitVec 5
  blocked : Bool
  deriving DecidableEq, Repr

/-! ## Requests from outside -/

/-- The kinds of request on the slave port (R395, R399). -/
inductive CpuKind where
  | read
  | write
  | fetch
  | invalidateReq
  | badAddressError
  | cleanEvict
  deriving DecidableEq, Repr

/-- A request of the local CPU on the slave port. `func` marks a functional request; `replies` is what the NoC answers,
within the step, to the packets of a functional request, one after the other (R397; assumption 8). -/
structure CpuReq where
  id : Nat
  kind : CpuKind
  func : Bool
  addr : Word
  size : Nat
  data : List Byte
  replies : List (ErrorCode × List Byte)
  deriving DecidableEq, Repr

/-! ## Transfers -/

/-- The four types of transfer (R300). -/
inductive XferType where
  | localRead
  | localWrite
  | remoteRead
  | remoteWrite
  deriving DecidableEq, Repr

/-- The flags of a transfer (R301). -/
structure XferFlags where
  msgRecv : Bool
  last : Bool
  message : Bool
  deriving DecidableEq, Repr

/-- The arguments of `startTransfer` (R301). `pktType` is the type of the packet a `localRead` sends; the other types send
no packet of their own, and theirs is the model's choice (assumption 27). `payload` holds the bytes of the inbound packet or response the transfer
serves, `pkt` the inbound packet that must be answered, `recv` the endpoint and slot of a message receive (R255). -/
structure XferReq where
  type : XferType
  remoteAddr : Word
  localAddr : Word
  size : Nat
  header : Option Header
  payload : List Byte
  pkt : Option Packet
  flags : XferFlags
  pktType : PacketType
  recv : Option (Nat × Nat)
  deriving DecidableEq, Repr

/-- The transfer event of a buffer in use (R59, with `start`, `total` and `base` of R304). `waiting` says that the
translation of the next block is awaited, `failed` that it failed (R312). -/
structure XferEvent where
  type : XferType
  remoteAddr : Word
  localAddr : Word
  size : Nat
  flags : XferFlags
  pkt : Option Packet
  pktType : PacketType
  outstanding : Nat
  start : Word
  total : Nat
  base : Nat
  recv : Option (Nat × Nat)
  waiting : Bool
  failed : Bool
  deriving DecidableEq, Repr

/-- A transfer buffer (R58). -/
structure Buffer where
  bytes : List Byte
  offset : Nat
  free : Bool
  event : Option XferEvent
  deriving DecidableEq, Repr

/-! ## The command in progress -/

/-- What a REPLY in progress carries: the endpoint, the address of the message, the physical address of its stored
header once known, and the stored flags with `REPLY_ENABLED` cleared (R241, R244, R246). -/
structure ReplyCtx where
  ep : Nat
  msg : Word
  phys : Option Word
  flags : Byte
  deriving DecidableEq, Repr

/-- The operands of a READ or WRITE in progress, read in the `executeCommand` step (R281), and its endpoint. -/
structure MemCtx where
  ep : Nat
  dataAddr : Word
  dataSize : Word
  offset : Word
  deriving DecidableEq, Repr

/-- What the command in progress waits for (R63). -/
inductive CmdState where
  | none
  | sendXfer (reply : Option ReplyCtx)
  | sendNoc (reply : Option ReplyCtx)
  | replyHeader (ctx : ReplyCtx) (got : List Byte)
  | memRead (m : MemCtx) (done : Nat)
  | memWrite (m : MemCtx) (done : Nat)
  deriving DecidableEq, Repr

/-! ## The page-table unit -/

/-- Who waits for a translation (R335): a transfer, the header read of REPLY, a CPU access, or the page-fault record
whose upcall carried this token (the retry walk of R355). -/
inductive Waiter where
  | xfer (buf : Nat)
  | replyHeader
  | cpu (req : CpuReq)
  | retry (token : Word)
  deriving DecidableEq, Repr

/-- How far a translate event is (R340, R341): created, or waiting for the entry of this level in this table. -/
inductive WalkPhase where
  | fresh
  | walking (level : Nat) (table : Word)
  deriving DecidableEq, Repr

/-- A translate event (R64, R340). `id` ties the answer of a table load to its event. -/
structure TranslateEvent where
  id : Nat
  virt : Word
  access : BitVec 5
  waiter : Waiter
  pf : Bool
  phase : WalkPhase
  deriving DecidableEq, Repr

/-- A page-fault record (R64). Until its first upcall is sent its token is 0, which nothing reads: the model's choice
(assumption 26). -/
structure PfRecord where
  vpn : BitVec 52
  virt : Word
  access : BitVec 5
  waiters : List Waiter
  toKernel : Bool
  token : Word
  deriving DecidableEq, Repr

/-! ## Requests in flight -/

/-- What waits for a NoC response (R65, R392). -/
inductive NocWaiter where
  | message
  | readChunk (last : Bool)
  | writeChunk (last : Bool)
  | upcall (token : Word)
  | cpu (req : CpuReq)
  deriving DecidableEq, Repr

/-- A packet this DTU has sent and that has not been answered (R65). -/
structure NocReq where
  pkt : WirePacket
  waiter : NocWaiter
  deriving DecidableEq, Repr

/-- A read of `n` bytes or a write of these bytes (R90). -/
inductive MemOp where
  | read (n : Nat)
  | write (data : List Byte)
  deriving DecidableEq, Repr

/-- What waits for a local-memory answer: a block of a transfer with its place in the buffer (R308), a table load
(R341), the header read of REPLY (R241), a CPU access (R397), an inbound cache-memory request (R398). -/
inductive MemTag where
  | xfer (buf pos : Nat)
  | walk (id : Nat)
  | replyHeader
  | cpu (req : CpuReq)
  | cacheReq (p : Packet)
  deriving DecidableEq, Repr

/-- A request on the master port that has not been answered (R10 (b), R90). -/
structure MemReq where
  addr : Word
  op : MemOp
  tag : MemTag
  deriving DecidableEq, Repr

/-! ## The script of the outside world, and what leaves the DTU -/

/-- One atomic step, named by the agent that makes it and, for an outside agent, by what it brings (R9, R470). -/
inductive Event where
  /-- The Dispatcher's `executeCommand` (R200). -/
  | dispatch
  /-- The ExtCmd agent's `execExternCmd` (R381). -/
  | extern
  /-- One step of transfer buffer `b` (R305, R310). -/
  | xfer (b : Nat)
  /-- Pending transfer request number `k` gets its buffer (R303). -/
  | xferPending (k : Nat)
  /-- The first step of translate event number `k` (R340). -/
  | ptu (k : Nat)
  /-- Local memory performs and answers outstanding request number `k` (R90). -/
  | memAnswer (k : Nat)
  /-- A CPU request arrives on the slave port (R170, R395). -/
  | cpu (req : CpuReq)
  /-- The NoC delivers a request packet (R390). -/
  | deliver (p : WirePacket)
  /-- The NoC delivers the response to outstanding packet number `k` (R392). -/
  | respond (k : Nat) (result : ErrorCode) (data : List Byte)
  deriving DecidableEq, Repr

/-- What leaves the DTU: the Emit events of R13, the packets and responses handed to the NoC, the answers to the
CPU. A response is the inbound packet, type tag and all, with its result and its payload (R13, R95). -/
inductive Output where
  | wakeCore
  | setDenySuspend (b : Bool)
  | injectIrq (vector : Word)
  | invalidateCaches
  | trace (payload : Word)
  | nocRequest (p : WirePacket)
  | nocResponse (p : Packet) (result : ErrorCode) (data : List Byte)
  | cpuAnswer (id : Nat) (data : List Byte)
  deriving DecidableEq, Repr

/-- The contents of local memory: the bytes that differ from 0, by rising address (assumption 3). -/
abbrev Memory := List Host.Cell

/-! ## The state -/

/-- The state of the machine. -/
structure State where
  /-- The instance's parameters; no step changes them (R7, R453). -/
  cfg : Config
  /-- The DTU registers (R21). -/
  dtu : DtuRegs
  /-- The COMMAND register (R30, R121). -/
  command : Word
  /-- The other command registers (R30). -/
  opnd : Operands
  /-- The endpoint registers (R40). -/
  eps : List EpWords
  /-- R50 -/
  cmdInProgress : Bool
  /-- R61 -/
  execPending : Bool
  /-- R62 -/
  extPending : Option Word
  /-- The packets that wrote EXT_CMD and wait for the command to run (R380, R388). -/
  extWaiting : List Packet
  /-- R63 -/
  cmdState : CmdState
  /-- The model's own: earlier contents of the operand registers that the pending or running command may still use
  (R115, R472; assumption 7). -/
  staleOperands : List Operands
  /-- R55 -/
  tlb : List TlbEntry
  /-- R58 -/
  bufs : List Buffer
  /-- R60 -/
  pendingTransfers : List XferReq
  /-- R64 -/
  pfQueue : List PfRecord
  /-- R64 -/
  translateEvents : List TranslateEvent
  /-- The model's own: the number of the next translate event (assumption 17). -/
  nextEvent : Nat
  /-- R64 -/
  lastPfVpn : Option (BitVec 52)
  /-- R64 -/
  pfRepeat : Nat
  /-- R65 -/
  nocOutstanding : List NocReq
  /-- The local-memory requests sent and not answered (R10 (b), R90). -/
  memOutstanding : List MemReq
  /-- The byte store of the LocalMem agent (R90). -/
  mem : Memory
  /-- The model's own: the steps that come next (assumption 1). -/
  agenda : List Event
  /-- The model's own: what has left the DTU, oldest first (assumption 17). -/
  out : List Output
  /-- The model's own: how many free values have been drawn (assumption 4). -/
  draws : Nat
  deriving DecidableEq, Repr

/-- A free buffer as State.reset holds it; its contents are the model's choice (R58, U23; assumption 5). -/
def Buffer.unused (c : Config) : Buffer where
  bytes := List.replicate c.bufSize 0#8
  offset := 0
  free := true
  event := none

/-- The reset state of the instance with parameters `c` whose loader has put `m` into local memory (R450, R451, R452). -/
def State.resetOf (c : Config) (m : Memory) : State where
  cfg := c
  dtu :=
    { status := 0, rootPt := 0, pfEp := 0, lastPf := 0, rwBarrier := c.resetRwBarrier, vpeId := 0, msgCnt := 0,
      extCmd := 0 }
  command := 0
  opnd := { dataAddr := 0, dataSize := 0, offset := 0, replyEpid := 0, replyLabel := 0 }
  eps := List.replicate c.numEndpoints ⟨0, 0, 0⟩
  cmdInProgress := false
  execPending := false
  extPending := none
  extWaiting := []
  cmdState := .none
  staleOperands := []
  tlb := []
  bufs := List.replicate c.bufCount (Buffer.unused c)
  pendingTransfers := []
  pfQueue := []
  translateEvents := []
  nextEvent := 0
  lastPfVpn := none
  pfRepeat := 0
  nocOutstanding := []
  memOutstanding := []
  mem := m
  agenda := []
  out := []
  draws := 0

/-- The machine right after reset: the reset state of the configuration of the specification's vectors (assumption 2), with
nothing loaded into local memory (assumption 3). -/
def State.reset : State := State.resetOf Config.vectors []

/-- The outcome of a step. -/
abbrev Result := Host.Outcome State Fault Refusal

end Sys2Proof.Machine
end

