-- ==== Sys2Proof/Machine/Memory.lean ====
section
/-! DEFINITION. The byte store of the LocalMem agent (R90): a list of the bytes that are not 0, by rising address. -/

namespace Sys2Proof.Machine

/-- What an unlisted address reads as (assumption 3, DESIGN CHOICE). -/
def unlistedByte : Byte := 0#8

/-- The byte at an address. -/
def Memory.read : Memory → Nat → Byte
  | [], _ => unlistedByte
  | (b, v) :: rest, a => if a = b then v else Memory.read rest a

/-- The store with one byte written; writing the byte an unlisted address reads as removes the entry. -/
def Memory.write : Memory → Nat → Byte → Memory
  | [], a, v => if v = unlistedByte then [] else [(a, v)]
  | (b, w) :: rest, a, v =>
    if a = b then (if v = unlistedByte then rest else (a, v) :: rest)
    else if a < b then (if v = unlistedByte then (b, w) :: rest else (a, v) :: (b, w) :: rest)
    else (b, w) :: Memory.write rest a v

/-- The canonical form: addresses rise strictly and lie in the 64-bit space, and no entry holds what an unlisted
address reads as. -/
def Memory.wf (m : Memory) : Bool :=
  decide (m.Pairwise fun x y => x.1 < y.1) && m.all fun c => c.2 != unlistedByte && decide (c.1 < 2 ^ 64)

/-- The `n` bytes from an address; addresses are taken modulo 2^64 (R163). -/
def Memory.readBytes (m : Memory) (a : Word) : Nat → List Byte
  | 0 => []
  | n + 1 => m.read a.toNat :: Memory.readBytes m (a + 1) n

/-- The store with a byte string written from an address (R82: byte k goes to place k). -/
def Memory.writeBytes (m : Memory) (a : Word) : List Byte → Memory
  | [] => m
  | v :: vs => Memory.writeBytes (m.write a.toNat v) (a + 1) vs

/-- The address is one of the `n` bytes from `base`, modulo 2^64. -/
def inSpan (base : Word) (n : Nat) (a : Nat) : Bool := decide (a < 2 ^ 64) && decide ((BitVec.ofNat 64 a - base).toNat < n)

end Sys2Proof.Machine
end

