-- ==== Sys2Proof/Machine/Flags.lean ====
section
/-! DEFINITION. Every status and flag computation of the DTU: the error codes (R410) and the value `finishCommand` writes
(R212), the header flags (R142), the access bits and their subset test (R144, R331, R341). There are no condition codes
(R52). -/

namespace Sys2Proof.Machine

/-! ## Error codes -/

/-- The number of an error code (R410). -/
def errorCode (c : Config) : ErrorCode → BitVec 53
  | .noError => 0
  | .missCredits => 1
  | .noRingSpace => 2
  | .vpeGone => 3
  | .noMapping => 4
  | .access => c.errAccess

/-- The COMMAND value after completion: opcode IDLE, arg 0, the code in the error field (R212). -/
def finishedCommand (c : Config) (e : ErrorCode) : Word := (errorCode c e).setWidth 64 <<< 11

/-! ## Header flags -/

/-- The numbers of the header flags (R142). -/
def flagReply : Byte := 0x01#8
/-- GRANT_CREDITS (R142). -/
def flagGrantCredits : Byte := 0x02#8
/-- REPLY_ENABLED (R142). -/
def flagReplyEnabled : Byte := 0x04#8
/-- PAGEFAULT (R142). -/
def flagPagefault : Byte := 0x08#8
/-- REPLY_FAILED (R142). -/
def flagReplyFailed : Byte := 0x10#8

/-- A header flag is set. -/
def hasFlag (flags f : Byte) : Bool := flags &&& f != 0#8

/-! ## Access bits -/

/-- R (R144). -/
def accR : BitVec 5 := 0x01#5
/-- W (R144). -/
def accW : BitVec 5 := 0x02#5
/-- X (R144). -/
def accX : BitVec 5 := 0x04#5
/-- I, INTERN (R144). -/
def accI : BitVec 5 := 0x08#5
/-- GONE (R144). -/
def accGone : BitVec 5 := 0x10#5

/-- `need` is a subset of `held` (R331, R341). -/
def grants (held need : BitVec 5) : Bool := held &&& need == need

/-- The rights a page-table entry carries, as access bits: GONE is none of them (R145, R342). -/
def pteRights (pte : Word) : BitVec 5 := (field pte 0 4).setWidth 5

/-- The physical address a page-table entry names (R145). -/
def pteBase (pte : Word) : Word := (field pte 12 52).setWidth 64 <<< pageBits

/-- The rights a walk asks of the entry at a level: the four PTE rights, without INTERN above the leaf (R341). -/
def walkNeed (access : BitVec 5) (level : Nat) : BitVec 5 :=
  if level = 0 then access &&& 0x0F#5 else access &&& 0x0F#5 &&& ~~~accI

/-- Whether a transfer of this type writes local memory (R300). -/
def XferType.writesLocal : XferType → Bool
  | .localRead => false
  | .localWrite => true
  | .remoteRead => false
  | .remoteWrite => true

/-- The access bits a transfer asks for (R307). -/
def XferType.access (t : XferType) : BitVec 5 := if t.writesLocal then accW ||| accI else accR ||| accI

/-- The access bit of a forwarded CPU access (R395). -/
def CpuKind.access : CpuKind → BitVec 5
  | .write => accW
  | .fetch => accX
  | _ => accR

end Sys2Proof.Machine
end

