-- ==== Sys2Proof/Machine/Operands.lean ====
section
/-! DEFINITION. Every form an operand has: the fields of the three endpoint layouts (R43, R44, R45), the operand
registers of a command (R30, R124) with the hazard of R472, the parts of a virtual address (R146). -/

namespace Sys2Proof.Machine

/-! ## Endpoint fields -/

/-- `EpType` (R41). -/
def EpWords.type (e : EpWords) : BitVec 3 := field e.w0 0 3

/-- The numbers of the endpoint types (R41). -/
def typeSend : BitVec 3 := 1
/-- RECEIVE (R41). -/
def typeReceive : BitVec 3 := 2
/-- MEMORY (R41). -/
def typeMemory : BitVec 3 := 3

/-- SEND `maxMsgSize` (R43). -/
def EpWords.maxMsgSize (e : EpWords) : BitVec 16 := field e.w0 3 16
/-- SEND `vpeId` (R43). -/
def EpWords.sendVpe (e : EpWords) : BitVec 32 := field e.w0 19 32
/-- SEND `credits` (R43). -/
def EpWords.credits (e : EpWords) : BitVec 16 := field e.w1 0 16
/-- SEND `tgtEp` (R43). -/
def EpWords.tgtEp (e : EpWords) : BitVec 8 := field e.w1 16 8
/-- SEND `tgtCore` (R43). -/
def EpWords.tgtCore (e : EpWords) : BitVec 10 := field e.w1 24 10
/-- SEND `label` (R43). -/
def EpWords.label (e : EpWords) : Word := e.w2

/-- RECEIVE `msgCount` (R44). -/
def EpWords.msgCount (e : EpWords) : BitVec 16 := field e.w0 3 16
/-- RECEIVE `size` (R44). -/
def EpWords.size (e : EpWords) : BitVec 16 := field e.w0 19 16
/-- RECEIVE `msgSize` (R44). -/
def EpWords.msgSize (e : EpWords) : BitVec 16 := field e.w0 35 16
/-- RECEIVE `wrPos` (R44). -/
def EpWords.wrPos (e : EpWords) : BitVec 6 := field e.w0 51 6
/-- RECEIVE `rdPos` (R44). -/
def EpWords.rdPos (e : EpWords) : BitVec 6 := field e.w0 57 6
/-- RECEIVE `bufAddr` (R44). -/
def EpWords.bufAddr (e : EpWords) : Word := e.w1
/-- RECEIVE `occupied` (R44). -/
def EpWords.occupied (e : EpWords) : BitVec 32 := field e.w2 0 32
/-- RECEIVE `unread` (R44). -/
def EpWords.unread (e : EpWords) : BitVec 32 := field e.w2 32 32

/-- MEMORY `reqSize` (R45). -/
def EpWords.reqSize (e : EpWords) : BitVec 61 := field e.w0 3 61
/-- MEMORY `remoteAddr` (R45). -/
def EpWords.remoteAddr (e : EpWords) : Word := e.w1
/-- MEMORY `flags` (R45). -/
def EpWords.memFlags (e : EpWords) : BitVec 4 := field e.w2 0 4
/-- MEMORY `remoteCore` (R45). -/
def EpWords.remoteCore (e : EpWords) : BitVec 10 := field e.w2 4 10
/-- MEMORY `vpeId` (R45). -/
def EpWords.memVpe (e : EpWords) : BitVec 16 := field e.w2 14 16

/-- A write of `credits` (R43). -/
def EpWords.withCredits (e : EpWords) (v : BitVec 16) : EpWords := { e with w1 := setField e.w1 0 v }
/-- A write of `msgCount` (R44). -/
def EpWords.withMsgCount (e : EpWords) (v : BitVec 16) : EpWords := { e with w0 := setField e.w0 3 v }
/-- A write of `wrPos` (R44). -/
def EpWords.withWrPos (e : EpWords) (v : BitVec 6) : EpWords := { e with w0 := setField e.w0 51 v }
/-- A write of `rdPos` (R44). -/
def EpWords.withRdPos (e : EpWords) (v : BitVec 6) : EpWords := { e with w0 := setField e.w0 57 v }
/-- A write of `occupied` (R44). -/
def EpWords.withOccupied (e : EpWords) (v : BitVec 32) : EpWords := { e with w2 := setField e.w2 0 v }
/-- A write of `unread` (R44). -/
def EpWords.withUnread (e : EpWords) (v : BitVec 32) : EpWords := { e with w2 := setField e.w2 32 v }

/-- A bitmap with one bit set; there is no bit above 31 (assumption 13). -/
def setSlot (m : BitVec 32) (idx : Nat) : BitVec 32 := m ||| (1#32 <<< idx)
/-- A bitmap with one bit cleared. -/
def clearSlot (m : BitVec 32) (idx : Nat) : BitVec 32 := m &&& ~~~(1#32 <<< idx)

/-- The address of slot `idx` of a ring (R16, R163). -/
def EpWords.slotAddr (e : EpWords) (idx : Nat) : Word := e.bufAddr + BitVec.ofNat 64 idx * e.msgSize.setWidth 64

/-- The endpoint with number `e` (R47). Callers test the range first; an endpoint that is not there reads as 0. -/
def State.ep (s : State) (e : Nat) : EpWords := s.eps.getD e ⟨0, 0, 0⟩

/-- A DTU-origin write of an endpoint (R40). -/
def State.setEp (s : State) (e : Nat) (w : EpWords) : State := { s with eps := s.eps.set e w }

/-! ## Operand registers of a command -/

/-- The operand a command reads: the register's content, or, if software rewrote the register while the command was
pending or in progress, a free choice between its contents since then (R115, R472, U5). `k` tells apart the reads of
one step. -/
def State.operand (s : State) (k : Nat) (f : Operands → Word) : Word :=
  if s.staleOperands.all fun o => f o == f s.opnd then f s.opnd
  else (choose (Config.freeChoice (s.draws + k)) (f s.opnd :: s.staleOperands.map f)).getD (f s.opnd)

/-! ## Virtual addresses -/

/-- The virtual page number (R146). -/
def vpnOf (virt : Word) : BitVec 52 := field virt 12 52

/-- The page offset (R146). -/
def pageOffset (virt : Word) : Word := (field virt 0 12).setWidth 64

/-- The start of the page (R335). -/
def pageBase (virt : Word) : Word := (vpnOf virt).setWidth 64 <<< pageBits

/-- The address of the page-table entry for `virt` at a level (R341, R146). -/
def pteAddr (table virt : Word) (level : Nat) : Word :=
  table + (field virt (pageBits + levelBits * level) 9).setWidth 64 * BitVec.ofNat 64 pteSize

/-- Bytes from `a` to the end of its block, at most `n` (R84, R305). -/
def blockPiece (c : Config) (a : Word) (n : Nat) : Nat := min n (c.blockSize - a.toNat % c.blockSize)

end Sys2Proof.Machine
end

