-- ==== Sys2Proof/Machine/Tlb.lean ====
section
/-! DEFINITION. The TLB operations (45_tlb_ptu.md section 1). -/

namespace Sys2Proof.Machine

/-- The outcome of a lookup (R331). -/
inductive Lookup where
  | hit (phys : Word)
  | miss
  | pagefault
  | nomap
  deriving DecidableEq, Repr

/-- The entry of a page. -/
def tlbFind (tlb : List TlbEntry) (vpn : BitVec 52) : Option TlbEntry := tlb.find? fun e => e.vpn == vpn

/-- `lookup(virt, access)` (R331). -/
def tlbLookup (tlb : List TlbEntry) (virt : Word) (access : BitVec 5) : Lookup :=
  match tlbFind tlb (vpnOf virt) with
  | none => .miss
  | some e =>
    if e.blocked then .pagefault
    else if e.flags = 0#5 then .nomap
    else if grants e.flags access then .hit e.phys
    else .pagefault

/-- The places of the entries that are not blocked: the candidates for replacement (R333). -/
def tlbVictims (tlb : List TlbEntry) : List Nat :=
  (List.range tlb.length).filter fun i => (tlb[i]?.map (·.blocked)) == some false

/-- The placement of an entry (R332, R333): over the entry of its page, or in a free place, or over a victim picked by
the free choice `n` among the unblocked entries, or nowhere if all are blocked. -/
def tlbPlace (cap n : Nat) (tlb : List TlbEntry) (e : TlbEntry) : List TlbEntry :=
  if tlb.any fun x => x.vpn == e.vpn then tlb.map fun x => if x.vpn = e.vpn then e else x
  else if tlb.length < cap then tlb ++ [e]
  else match choose n (tlbVictims tlb) with
    | none => tlb
    | some i => tlb.set i e

/-- `remove(virt)` (R334). -/
def tlbRemove (tlb : List TlbEntry) (vpn : BitVec 52) : List TlbEntry := tlb.filter fun e => e.vpn != vpn

/-- `insert(vpn, phys, flags)` (R332). -/
def State.tlbInsert (s : State) (vpn : BitVec 52) (phys : Word) (flags : BitVec 5) : State :=
  { s with
    tlb := tlbPlace s.cfg.tlbEntries (Config.freeChoice s.draws) s.tlb ⟨vpn, phys, flags, false⟩
    draws := s.draws + 1 }

/-- `block(vpn)` (R336). -/
def State.tlbBlock (s : State) (vpn : BitVec 52) : State :=
  match tlbFind s.tlb vpn with
  | some _ => { s with tlb := s.tlb.map fun x => if x.vpn = vpn then { x with blocked := true } else x }
  | none =>
    { s with
      tlb := tlbPlace s.cfg.tlbEntries (Config.freeChoice s.draws) s.tlb ⟨vpn, 0, 0, true⟩
      draws := s.draws + 1 }

/-- `unblock(vpn)` (R336). -/
def State.tlbUnblock (s : State) (vpn : BitVec 52) : State :=
  match tlbFind s.tlb vpn with
  | none => s
  | some e =>
    if e.flags = 0#5 then { s with tlb := tlbRemove s.tlb vpn }
    else { s with tlb := s.tlb.map fun x => if x.vpn = vpn then { x with blocked := false } else x }

end Sys2Proof.Machine
end

