-- ==== Sys2Proof/Machine/Ops.lean ====
section
/-! DEFINITION. The named operations over registers, memory, buffers and packets that the meanings share, and the one
call from the DTU into software: taking a page-fault upcall (`sendPagefault`) and returning from it
(`finishPagefault`). -/

namespace Sys2Proof.Machine

/-! ## Outcomes -/

/-- Go on from a next state. -/
def andThen (r : Result) (k : State → Result) : Result :=
  match r with
  | .next s => k s
  | .fault f => .fault f
  | .refused q => .refused q

/-- Do the same for each element, in order. -/
def forEach {α : Type} (f : α → State → Result) : List α → State → Result
  | [], s => .next s
  | x :: xs, s => andThen (f x s) (forEach f xs)

/-! ## Outputs and requests -/

/-- `Emit` (R13), and every other thing that leaves the DTU. -/
def State.emit (s : State) (o : Output) : State := { s with out := s.out ++ [o] }

/-- `NocRespond(pkt, result, bytes)` (R13). -/
def State.nocRespond (s : State) (p : Packet) (r : ErrorCode) (data : List Byte) : State :=
  s.emit (.nocResponse p r data)

/-- `NocSend`: the packet goes to the NoC and its response is awaited (R13, R65, R99). -/
def State.nocSend (s : State) (t : PacketType) (addr : Word) (kind : AccessKind) (size : Nat) (data : List Byte)
    (w : NocWaiter) : State :=
  let p : WirePacket :=
    { ptype := t, addr := addr, kind := kind, size := size, data := data, needsResponse := true,
      srcCore := s.cfg.coreId }
  { s with out := s.out ++ [.nocRequest p], nocOutstanding := s.nocOutstanding ++ [⟨p, w⟩] }

/-- The issue of a `LocalRead` or `LocalWrite` (R90). -/
def State.memIssue (s : State) (addr : Word) (op : MemOp) (tag : MemTag) : State :=
  { s with memOutstanding := s.memOutstanding ++ [⟨addr, op, tag⟩] }

/-- `FuncWrite` (R91). -/
def State.funcWrite (s : State) (addr : Word) (data : List Byte) : State :=
  { s with mem := s.mem.writeBytes addr data }

/-- The flag byte of a stored header rewritten by a `FuncWrite`, if the place of the header is known (R244, R246). -/
def State.setStoredFlags (s : State) (phys : Option Word) (flags : Byte) : State :=
  { s with
    mem := match phys with
      | some pa => s.mem.writeBytes pa [flags]
      | none => s.mem }

/-- A count of free values has been drawn. -/
def State.drawn (s : State) (n : Nat) : State := { s with draws := s.draws + n }

/-- A buffer rewritten. -/
def State.setBuf (s : State) (b : Nat) (buf : Buffer) : State := { s with bufs := s.bufs.set b buf }

/-- `MSG_CNT` takes a new value and the suspend pin follows it (R27, R439). -/
def State.setMsgCnt (s : State) (v : Word) : State :=
  { s with dtu := { s.dtu with msgCnt := v }, out := s.out ++ [.setDenySuspend (v != 0)] }

/-! ## Endpoint selection -/

/-- The endpoint mux with its checks (R47, R206). -/
def withEndpoint (s : State) (e : Nat) (type : BitVec 3) (k : EpWords → Result) : Result :=
  if s.cfg.numEndpoints ≤ e then .fault .endpointOutOfRange
  else if (s.ep e).type ≠ type then .fault .badEndpoint
  else k (s.ep e)

/-! ## Rings -/

/-- The first slot at or after `start`, wrapping, that passes the test (R252, R265). -/
def scanRing (size start : Nat) (p : Nat → Bool) : Option Nat :=
  ((List.range size).map fun k => (start + k) % size).find? p

/-- `allocSlot` (R252). -/
def EpWords.freeSlot (e : EpWords) : Option Nat :=
  scanRing e.size.toNat e.wrPos.toNat fun i => !e.occupied.getLsbD i

/-- The slot a fetch takes (R265). -/
def EpWords.unreadSlot (e : EpWords) : Option Nat :=
  scanRing e.size.toNat e.rdPos.toNat fun i => e.unread.getLsbD i

/-- The slot that holds an address (R271, R163). -/
def EpWords.slotOf (e : EpWords) (m : Word) : Nat := (m - e.bufAddr).toNat / e.msgSize.toNat

/-- The endpoint after a slot was allocated (R254). -/
def EpWords.allocated (e : EpWords) (idx : Nat) : EpWords :=
  (e.withOccupied (setSlot e.occupied idx)).withWrPos (BitVec.ofNat 6 ((idx + 1) % e.size.toNat))

/-- The endpoint after the receive into a slot completed (R258). -/
def EpWords.received (e : EpWords) (idx : Nat) : EpWords :=
  (e.withMsgCount (e.msgCount + 1)).withUnread (setSlot e.unread idx)

/-- The endpoint after a fetch from a slot (R266). -/
def EpWords.fetched (e : EpWords) (idx : Nat) : EpWords :=
  ((e.withUnread (clearSlot e.unread idx)).withMsgCount (e.msgCount - 1)).withRdPos
    (BitVec.ofNat 6 ((idx + 1) % e.size.toNat))

/-- The endpoint after a slot was freed (R271). -/
def EpWords.freed (e : EpWords) (idx : Nat) : EpWords := e.withOccupied (clearSlot e.occupied idx)

/-- The endpoint after an unread slot lost its message (R271). -/
def EpWords.unreadDropped (e : EpWords) (idx : Nat) : EpWords :=
  (e.withUnread (clearSlot e.unread idx)).withMsgCount (e.msgCount - 1)

/-- `ackMessage(e, m)` (R271). -/
def ackMessage (e : Nat) (m : Word) (s : State) : Result :=
  let ep := s.ep e
  let idx := ep.slotOf m
  if ep.msgSize = 0 then .fault .badEndpoint
  else if ep.size.toNat ≤ idx then .fault .slotOutOfRange
  else if ep.occupied.getLsbD idx = false then .fault .slotNotOccupied
  else if ep.unread.getLsbD idx then
    .next ((s.setEp e ((ep.freed idx).unreadDropped idx)).setMsgCnt (s.dtu.msgCnt - 1))
  else .next (s.setEp e (ep.freed idx))

/-- `finishMsgReceive(t, idx)` (R258); the suspend pin follows MSG_CNT as after every change of it (R27, R439, D44;
assumption 31). -/
def State.finishMsgReceive (s : State) (t idx : Nat) : State :=
  ((s.setEp t ((s.ep t).received idx)).setMsgCnt (s.dtu.msgCnt + 1)).emit .wakeCore

/-- `grantCredits(H)` (R261). -/
def grantCredits (h : Header) (s : State) : Result :=
  let e := h.replyEp.toNat
  let ep := s.ep e
  if hasFlag h.flags flagReply && hasFlag h.flags flagGrantCredits && decide (e < s.cfg.numEndpoints) &&
      ep.type == typeSend && ep.credits != creditsUnlim then
    if 0xFFFE < ep.credits.toNat + ep.maxMsgSize.toNat then .fault .creditOverflow
    else .next (s.setEp e (ep.withCredits (ep.credits + ep.maxMsgSize)))
  else .next s

/-! ## Beginning and finishing a command -/

/-- The in-progress test of `executeCommand` (R201, R203). -/
def beginCommand (s : State) : Result :=
  if s.cmdInProgress then .fault .commandInProgress else .next { s with cmdInProgress := true }

/-- The REPLY the command in progress is, if it is one (R213). -/
def CmdState.replyCtx : CmdState → Option ReplyCtx
  | .sendXfer r => r
  | .sendNoc r => r
  | .replyHeader r _ => some r
  | _ => Option.none

/-- Whether the command in progress is a READ or a WRITE (R290). -/
def CmdState.isMem : CmdState → Bool
  | .memRead _ _ => true
  | .memWrite _ _ => true
  | _ => false

/-- `finishMsgReply(error)` (R246): on VPE_GONE the stored header is marked if its place is known, and the slot is freed
in every case (assumption 9). -/
def finishMsgReply (r : ReplyCtx) (err : ErrorCode) (s : State) : Result :=
  ackMessage r.ep r.msg
    (if err = .vpeGone then s.setStoredFlags r.phys (r.flags ||| flagReplyFailed) else s)

/-- The operand registers after a READ or WRITE: three independent free values (R290, U4). -/
def State.scrambleOperands (s : State) : State :=
  { s with
    opnd :=
      { s.opnd with
        dataAddr := Config.freeWord s.draws
        dataSize := Config.freeWord (s.draws + 1)
        offset := Config.freeWord (s.draws + 2) }
    draws := s.draws + 3 }

/-- The writes of `finishCommand` itself (R212). -/
def State.closeCommand (s : State) (err : ErrorCode) : State :=
  { s with
    command := finishedCommand s.cfg err
    cmdInProgress := false
    cmdState := .none
    staleOperands := [] }

/-- `finishCommand(error)` (R212), with `finishMsgReply` for a REPLY (R213) and the operand registers of a READ or WRITE
left open (R290). -/
def finishCommand (err : ErrorCode) (s : State) : Result :=
  if s.cmdInProgress = false then .fault .noCommand
  else match s.cmdState.replyCtx with
    | some r => andThen (finishMsgReply r err s) fun s' => .next (s'.closeCommand err)
    | none =>
      if s.cmdState.isMem then .next (s.scrambleOperands.closeCommand err)
      else .next (s.closeCommand err)

/-! ## Starting transfers and issuing their blocks -/

/-- `startTransfer` (R301, R302, R303): the request waits for the XferPending agent (assumption 6). -/
def startTransfer (r : XferReq) (s : State) : Result :=
  if s.cfg.bufSize < r.size + (if r.header.isSome then headerSize else 0) then .fault .transferTooLarge
  else .next { s with pendingTransfers := s.pendingTransfers ++ [r] }

/-- The transfer event of buffer `b`, if it is in use. -/
def State.event (s : State) (b : Nat) : Option XferEvent :=
  match s.bufs[b]? with
  | some buf => if buf.free then none else buf.event
  | none => none

/-- The transfer event of buffer `b` rewritten. -/
def State.setEvent (s : State) (b : Nat) (ev : XferEvent) : State :=
  match s.bufs[b]? with
  | some buf => s.setBuf b { buf with event := some ev }
  | none => s

/-- The place of the next block in the buffer (R308). -/
def XferEvent.pos (ev : XferEvent) : Nat := ev.base + (ev.localAddr - ev.start).toNat

/-- The event after a block of `n` bytes was issued (R305, R308). -/
def XferEvent.advanced (ev : XferEvent) (n : Nat) : XferEvent :=
  { ev with
    localAddr := ev.localAddr + BitVec.ofNat 64 n
    size := ev.size - n
    outstanding := ev.outstanding + 1
    waiting := false }

/-- The block request of R308, once the block's page is known (R306). -/
def State.issueBlock (s : State) (b : Nat) (page : Word) : State :=
  match s.bufs[b]?, s.event b with
  | some buf, some ev =>
    let n := blockPiece s.cfg ev.localAddr ev.size
    let op : MemOp := if ev.type.writesLocal then .write (slice buf.bytes ev.pos n) else .read n
    (s.memIssue (page + pageOffset ev.localAddr) op (.xfer b ev.pos)).setEvent b (ev.advanced n)
  | _, _ => s

/-- The transfer of buffer `b` has no translation for its next block (R312). -/
def State.failBlock (s : State) (b : Nat) : State :=
  match s.event b with
  | some ev => s.setEvent b { ev with waiting := false, failed := true }
  | none => s

/-! ## The page-fault upcall: taking it -/

/-- `PF_EP` is valid: in range and of type SEND (R351). -/
def State.pfEpValid (s : State) : Bool :=
  decide (s.dtu.pfEp.toNat < s.cfg.numEndpoints) && (s.ep s.dtu.pfEp.toNat).type == typeSend

/-- The endpoint an upcall goes to (R351). -/
def State.upcallEp (s : State) (toKernel : Bool) : Nat :=
  if toKernel then s.cfg.syscallEp else if s.pfEpValid then s.dtu.pfEp.toNat else s.cfg.syscallEp

/-- The repeated-failure count (R360). -/
def State.countPagefault (s : State) (vpn : BitVec 52) : State :=
  let n := if s.lastPfVpn = some vpn then s.pfRepeat + 1 else 1
  if n = pfRepeatLimit then
    { s with
      lastPfVpn := some vpn
      pfRepeat := 0
      dtu := { s.dtu with lastPf := vpn.setWidth 64 <<< pageBits }
      out := s.out ++ [.injectIrq pfIrqVector] }
  else { s with lastPfVpn := some vpn, pfRepeat := n }

/-- The header of an upcall sent through endpoint `e` with this token (R353). -/
def State.upcallHeader (s : State) (e : Nat) (token : Word) : Header where
  flags := flagPagefault ||| flagReplyEnabled
  senderCore := s.cfg.coreId.setWidth 16
  senderEp := BitVec.ofNat 8 e
  replyEp := BitVec.ofNat 8 s.cfg.numEndpoints
  length := BitVec.ofNat 16 upcallBodySize
  senderVpe := s.dtu.vpeId.setWidth 16
  label := (s.ep e).label
  replyLabel := token

/-- The body of an upcall (R147). -/
def upcallBody (virt : Word) (access : BitVec 5) : List Byte :=
  wordBytes opcodePf ++ wordBytes virt ++ wordBytes (access.setWidth 64)

/-- Taking the page-fault upcall for the record at the head of the queue (R351, R352, R353, R360): the repeated-failure
count, the choice of the endpoint, the block of the page, the token, the packet. -/
def sendPagefault (s : State) : Result :=
  match s.pfQueue with
  | [] => .next s
  | q :: rest =>
    let s := s.countPagefault q.vpn
    let e := s.upcallEp q.toKernel
    let ep := s.ep e
    if s.cfg.numEndpoints ≤ e ∨ ep.type ≠ typeSend then .fault .badEndpoint
    else if ep.maxMsgSize.toNat < headerSize + upcallBodySize then .fault .messageTooLarge
    else match nocAddr ep.tgtCore.toNat ep.sendVpe.toNat ep.tgtEp.toNat with
      | none => .fault .nocAddrField
      | some target =>
        let s := s.tlbBlock q.vpn
        let token := Config.freeWord s.draws
        let s := s.drawn 1
        .next
          ({ s with pfQueue := { q with token := token } :: rest }.nocSend .pagefault target .write
            (headerSize + upcallBodySize) (encodeHeader (s.upcallHeader e token) ++ upcallBody q.virt q.access)
            (.upcall token))

/-- `startPagefault(E)` (R350): the fault joins a record of the same page and access, or becomes a record of its own,
whose upcall is sent at once if it is the only one. The token of a record without an upcall is the model's (assumption 26). -/
def startPagefault (virt : Word) (access : BitVec 5) (w : Waiter) (s : State) : Result :=
  if s.pfQueue.any fun q => q.vpn == vpnOf virt && q.access == access then
    .next { s with
      pfQueue := s.pfQueue.map fun q =>
        if q.vpn = vpnOf virt ∧ q.access = access then { q with waiters := q.waiters ++ [w] } else q }
  else
    let s' := { s with pfQueue := s.pfQueue ++ [⟨vpnOf virt, virt, access, [w], false, 0⟩] }
    if s.pfQueue.isEmpty then sendPagefault s' else .next s'

/-! ## CPU accesses that are forwarded -/

/-- The answer the CPU gets when its access is not served: zero bytes for a read, nothing for a write (R395). -/
def State.cpuDummy (s : State) (req : CpuReq) : State :=
  s.emit (.cpuAnswer req.id (if req.kind = .write then [] else List.replicate req.size 0#8))

/-- The memory operation of a CPU access. -/
def CpuReq.memOp (req : CpuReq) : MemOp := if req.kind = .write then .write req.data else .read req.size

/-- The bytes an access moves. -/
def MemOp.size : MemOp → Nat
  | .read n => n
  | .write d => d.length

/-- A local-memory operation performed at once: the store after it, and what it answers. -/
def State.memPerform (s : State) (addr : Word) : MemOp → State × List Byte
  | .read n => (s, s.mem.readBytes addr n)
  | .write d => (s.funcWrite addr d, [])

/-- The physical address of a forwarded access reads as a NocAddr with `valid` = 1: it goes to the NoC (R397). -/
def isNocAddress (a : Word) : Bool := (decodeNocAddr a).valid == 1#1

/-- R397: a translated CPU access goes to local memory or to the NoC; a functional one is performed on backed local
memory within the step. -/
def State.forwardCpu (s : State) (req : CpuReq) (page : Word) : State :=
  let pa := page + pageOffset req.addr
  if isNocAddress pa then
    s.nocSend (if req.func then .cacheMemReqFunc else .cacheMemReq) pa
      (if req.kind = .write then .write else .read) req.memOp.size (if req.kind = .write then req.data else []) (.cpu req)
  else if req.func && s.cfg.backs pa.toNat req.memOp.size then
    let (s', bytes) := s.memPerform pa req.memOp
    s'.emit (.cpuAnswer req.id bytes)
  else s.memIssue pa req.memOp (.cpu req)

/-- The data of a response is what R95 says: the bytes asked for in a successful read response, none in a successful
write response. -/
def responseOk (p : WirePacket) (r : ErrorCode) (data : List Byte) : Bool :=
  if r = .noError then
    match p.kind with
    | .read => data.length == p.size
    | .write => data.isEmpty
  else true

/-- The packet of a functional access to another tile (R397). -/
def State.funcPacket (s : State) (req : CpuReq) (pa : Word) : WirePacket where
  ptype := .cacheMemReqFunc
  addr := pa
  kind := if req.kind = .write then .write else .read
  size := req.memOp.size
  data := if req.kind = .write then req.data else []
  needsResponse := true
  srcCore := s.cfg.coreId

/-- R397 for a functional access: the NoC's replies come within the step. NONE answers the CPU; VPE_GONE translates again
with GONE (R398), and what is then found is forwarded in the same step, or the pager is asked (R340, R342); any other result
gives the dummy answer. A packet for which no reply is left waits for one (assumption 8). -/
def forwardFunc (req : CpuReq) : List (ErrorCode × List Byte) → Word → State → Result
  | [], page, s => .next (s.forwardCpu { req with replies := [] } page)
  | (r, data) :: rest, page, s =>
    let pa := page + pageOffset req.addr
    if isNocAddress pa = false then .next (s.forwardCpu req page)
    else if responseOk (s.funcPacket req pa) r data = false then .refused .malformedResponse
    else
      let t := s.emit (.nocRequest (s.funcPacket req pa))
      let access := req.kind.access ||| accGone
      match r with
      | .noError => .next (t.emit (.cpuAnswer req.id data))
      | .vpeGone =>
        if t.cfg.tlbEntries = 0 then forwardFunc req rest (pageBase req.addr) t
        else match tlbLookup t.tlb req.addr access with
          | .hit p => forwardFunc req rest p t
          | .nomap => .next (t.cpuDummy req)
          | .miss => startPagefault req.addr access (.cpu { req with replies := rest }) t
          | .pagefault => startPagefault req.addr access (.cpu { req with replies := rest }) t
      | _ => .next (t.cpuDummy req)

/-- A translated CPU access (R397). -/
def forwardRequest (req : CpuReq) (page : Word) (s : State) : Result :=
  if req.func then forwardFunc req req.replies page s else .next (s.forwardCpu req page)

/-! ## The header read of REPLY -/

/-- The next piece of the stored header, once its page is known (R241). The first piece gives the header's physical
address. -/
def State.issueHeaderPiece (s : State) (page : Word) : State :=
  match s.cmdState with
  | .replyHeader ctx got =>
    let a := ctx.msg + BitVec.ofNat 64 got.length
    let pa := page + pageOffset a
    let ctx' := if got.isEmpty then { ctx with phys := some pa } else ctx
    { s with
      cmdState := .replyHeader ctx' got
      memOutstanding := s.memOutstanding ++
        [⟨pa, .read (blockPiece s.cfg a (headerSize - got.length)), .replyHeader⟩] }
  | _ => s

/-! ## Notifying a waiter -/

/-- The step of a waiter that is told its translation (R335): a page, or failure. The waiters are a transfer (R306,
R312), the header read of REPLY (R241), a CPU access (R395). A retry walk has its own continuation (R355). -/
def notify (w : Waiter) (page : Option Word) (s : State) : Result :=
  match w, page with
  | .xfer b, some p => .next (s.issueBlock b p)
  | .xfer b, none => .next (s.failBlock b)
  | .replyHeader, some p => .next (s.issueHeaderPiece p)
  | .replyHeader, none => finishCommand .noMapping s
  | .cpu req, some p => forwardRequest req p s
  | .cpu req, none => .next (s.cpuDummy req)
  | .retry _, _ => .next s

/-- `startTranslate` (R340): a translate event is created. -/
def State.startTranslate (s : State) (virt : Word) (access : BitVec 5) (w : Waiter) (pf : Bool) : State :=
  { s with
    translateEvents := s.translateEvents ++ [⟨s.nextEvent, virt, access, w, pf, .fresh⟩]
    nextEvent := s.nextEvent + 1 }

/-- `Translate(virt, access)` for a waiter (R335). -/
def translateFor (virt : Word) (access : BitVec 5) (w : Waiter) (s : State) : Result :=
  if s.cfg.tlbEntries = 0 then notify w (some (pageBase virt)) s
  else match tlbLookup s.tlb virt access with
    | .hit p => notify w (some p) s
    | .nomap => notify w none s
    | .miss => .next (s.startTranslate virt access w false)
    | .pagefault => .next (s.startTranslate virt access w true)

/-! ## The walk -/

/-- A translate event leaves the set (R340 to R343). -/
def State.dropEvent (s : State) (id : Nat) : State :=
  { s with translateEvents := s.translateEvents.filter fun e => e.id != id }

/-- A translate event moves on to a level of the walk, and its entry load is issued (R341). -/
def State.loadPte (s : State) (ev : TranslateEvent) (level : Nat) (table : Word) : State :=
  { s with
    translateEvents := s.translateEvents.map fun e =>
      if e.id = ev.id then { e with phase := .walking level table } else e
    memOutstanding := s.memOutstanding ++ [⟨pteAddr table ev.virt level, .read pteSize, .walk ev.id⟩] }

/-- The beginning of a walk: from `ROOT_PT`, at the root level (R341). -/
def State.beginWalk (s : State) (ev : TranslateEvent) : State := s.loadPte ev (s.cfg.levelCnt - 1) s.dtu.rootPt

/-! ## The page-fault upcall: returning from it -/

/-- The record at the head leaves the queue, its waiters are told, and the upcall of the record that was next is sent (R355,
R356, R359). A record that a told waiter begins when none was next has had its upcall from `startPagefault` (R350): it is
not sent again (R110, R361). That the waiters are told in the order in which they joined is the model's choice (assumption 32,
DESIGN CHOICE). -/
def resolvePagefault (page : Option Word) (s : State) : Result :=
  match s.pfQueue with
  | [] => .next s
  | q :: rest =>
    andThen (forEach (fun w => notify w page) q.waiters { s with pfQueue := rest }) fun t =>
      if rest.isEmpty then .next t else sendPagefault t

/-- The record at the head goes to the tail, bound for the kernel endpoint, and the next record's upcall is sent
(R357, R358, R359). -/
def requeuePagefault (s : State) : Result :=
  match s.pfQueue with
  | [] => .next s
  | q :: rest => sendPagefault { s with pfQueue := rest ++ [{ q with toKernel := true }] }

/-- The retry walk of a record (R355): begun at once, without a look at the TLB. -/
def State.retryWalk (s : State) (q : PfRecord) : State :=
  let ev : TranslateEvent := ⟨s.nextEvent, q.virt, q.access, .retry q.token, false, .fresh⟩
  { s with translateEvents := s.translateEvents ++ [ev], nextEvent := s.nextEvent + 1 }.beginWalk ev

/-- Returning from the page-fault upcall: `finishPagefault(p)` (R354 to R357). -/
def finishPagefault (p : Packet) (s : State) : Result :=
  let h := decodeHeader p.data
  match s.pfQueue with
  | [] => .fault .unknownPagefaultReply
  | q :: _ =>
    if h.label ≠ q.token then .fault .unknownPagefaultReply
    else if h.length.toNat < 8 ∨ p.data.length < headerSize + 8 then .fault .missingHeader
    else
      let s := s.nocRespond p .noError []
      match (bytesWord (slice p.data headerSize 8)).toNat with
      | 0 => .next ((s.tlbUnblock q.vpn).retryWalk q)
      | 3 => requeuePagefault s
      | 4 => resolvePagefault none (s.tlbInsert q.vpn 0 0)
      | _ => .fault .badPagefaultReply

end Sys2Proof.Machine
end

