-- ==== Sys2Proof/Machine/RegisterAccess.lean ====
section
/-! DEFINITION. The register file (40_register_access.md): REG_READ and REG_WRITE. -/

namespace Sys2Proof.Machine

/-! ## The registers by offset -/

/-- DTU register number `k` (R21). -/
def DtuRegs.get (d : DtuRegs) : Nat → Word
  | 0 => d.status
  | 1 => d.rootPt
  | 2 => d.pfEp
  | 3 => d.lastPf
  | 4 => d.rwBarrier
  | 5 => d.vpeId
  | 6 => d.msgCnt
  | _ => d.extCmd

/-- DTU register number `k` replaced (R21). -/
def DtuRegs.put (d : DtuRegs) (v : Word) : Nat → DtuRegs
  | 0 => { d with status := v }
  | 1 => { d with rootPt := v }
  | 2 => { d with pfEp := v }
  | 3 => { d with lastPf := v }
  | 4 => { d with rwBarrier := v }
  | 5 => { d with vpeId := v }
  | 6 => { d with msgCnt := v }
  | _ => { d with extCmd := v }

/-- Command register number `k` (R30). -/
def State.getCmd (s : State) : Nat → Word
  | 0 => s.command
  | 1 => s.opnd.dataAddr
  | 2 => s.opnd.dataSize
  | 3 => s.opnd.offset
  | 4 => s.opnd.replyEpid
  | _ => s.opnd.replyLabel

/-- Command register number `k` replaced (R30). -/
def State.putCmd (s : State) (v : Word) : Nat → State
  | 0 => { s with command := v }
  | 1 => { s with opnd := { s.opnd with dataAddr := v } }
  | 2 => { s with opnd := { s.opnd with dataSize := v } }
  | 3 => { s with opnd := { s.opnd with offset := v } }
  | 4 => { s with opnd := { s.opnd with replyEpid := v } }
  | _ => { s with opnd := { s.opnd with replyLabel := v } }

/-- Word `k` of an endpoint (R40). -/
def EpWords.get (e : EpWords) : Nat → Word
  | 0 => e.w0
  | 1 => e.w1
  | _ => e.w2

/-- Word `k` of an endpoint replaced (R40). -/
def EpWords.put (e : EpWords) (v : Word) : Nat → EpWords
  | 0 => { e with w0 := v }
  | 1 => { e with w1 := v }
  | _ => { e with w2 := v }

/-- The register at a window offset (R172). -/
def State.readReg (s : State) (off : Nat) : Word :=
  if off < 0x40 then s.dtu.get (off / 8)
  else if off < 0x70 then s.getCmd ((off - 0x40) / 8)
  else (s.ep ((off - 0x70) / 24)).get ((off - 0x70) % 24 / 8)

/-- The register at a window offset replaced (R172). -/
def State.writeReg (s : State) (off : Nat) (v : Word) : State :=
  if off < 0x40 then { s with dtu := s.dtu.put v (off / 8) }
  else if off < 0x70 then s.putCmd v ((off - 0x40) / 8)
  else s.setEp ((off - 0x70) / 24) ((s.ep ((off - 0x70) / 24)).put v ((off - 0x70) % 24 / 8))

/-! ## Permissions -/

/-- The write barrier rejects a CPU write at this address (R177, R396). -/
def State.barrierRejects (s : State) (addr : Word) : Bool :=
  if s.cfg.rwBarrierInclusive then decide (s.dtu.rwBarrier ≤ addr) else decide (s.dtu.rwBarrier < addr)

/-- The access came from the local CPU (R171). -/
def portIsCpu : Port → Bool
  | .cpu _ => true
  | .noc _ => false

/-- Whether a write of the register at this offset is performed: always from the NoC; from the CPU only for command
registers that the barrier does not protect (R174 to R177, R430). -/
def State.mayWrite (s : State) (cpu : Bool) (off : Nat) : Bool :=
  !cpu || (decide (0x40 ≤ off) && decide (off < 0x70) &&
    !(s.cfg.rwBarrierAppliesToRegs && s.barrierRejects (s.cfg.regFileBaseAddr + BitVec.ofNat 64 off)))

/-! ## The accesses -/

/-- The answer to a register access goes back where the access came from (R173, R180, R182). -/
def State.answerPort (s : State) (port : Port) (data : List Byte) : State :=
  match port with
  | .cpu id => s.emit (.cpuAnswer id data)
  | .noc p => s.nocRespond p .noError data

/-- The bytes of `n` registers from an offset (R173, R181). -/
def State.readRegs (s : State) (off n : Nat) : List Byte :=
  (List.range n).flatMap fun k => wordBytes (s.readReg (off + 8 * k))

/-- A register read (R173, R181). -/
def registerRead (port : Port) (off size : Nat) (s : State) : Result :=
  if regAccessOk s.cfg off size then .next (s.answerPort port (s.readRegs off (size / 8)))
  else .fault .badRegAccess

/-- The words of a write's data (R81, R181). -/
def dataWords (data : List Byte) : List Word :=
  (List.range (data.length / 8)).map fun k => bytesWord (slice data (8 * k) 8)

/-- The words of a write, one register after the other by rising offset, each under its own permission (R181). -/
def State.writeRegs (cpu : Bool) : Nat → List Word → State → State
  | _, [], s => s
  | off, v :: vs, s => State.writeRegs cpu (off + 8) vs (if s.mayWrite cpu off then s.writeReg off v else s)

/-- An access of `size` bytes from `off` covers the register at offset `r`. -/
def covers (off size r : Nat) : Bool := decide (off ≤ r) && decide (r < off + size)

/-- The access writes COMMAND (R176, R178). -/
def State.writesCommand (s : State) (cpu : Bool) (off size : Nat) : Bool :=
  covers off size 0x40 && s.mayWrite cpu 0x40

/-- The access writes EXT_CMD (R174, R178). -/
def State.writesExtCmd (s : State) (cpu : Bool) (off size : Nat) : Bool :=
  covers off size 0x38 && s.mayWrite cpu 0x38

/-- What the command in progress, or the pending one, may still use of the operand registers, after the access that turned
`s` into `t`: a write under a command leaves the old contents usable (R115, R472); a command given to an idle DTU starts
afresh, and so does one that takes the place of a pending command (R179); a pending IDLE is no command (R472;
assumption 7). -/
def staleAfter (s t : State) (cmdWritten : Bool) : List Operands :=
  if s.cmdInProgress || (s.execPending && field s.command 0 3 != 0#3 && !cmdWritten) then
    (if t.opnd = s.opnd then s.staleOperands else s.staleOperands ++ [s.opnd])
  else if cmdWritten then [] else s.staleOperands

/-- The suspend pin follows a register write that changes `MSG_CNT` (R27, R439; assumption 29). -/
def suspendPin (s t : State) : List Output :=
  if t.dtu.msgCnt = s.dtu.msgCnt then [] else [.setDenySuspend (t.dtu.msgCnt != 0)]

/-- The state after a register write, before its answer: the registers, the suspend pin, and the events the result bitmask
schedules (R178, R200, R380). -/
def State.afterRegWrite (s : State) (cpu : Bool) (off : Nat) (data : List Byte) : State :=
  let t := State.writeRegs cpu off (dataWords data) s
  let cw := s.writesCommand cpu off data.length
  let ew := s.writesExtCmd cpu off data.length
  { t with
    staleOperands := staleAfter s t cw
    execPending := t.execPending || cw
    extPending := if ew then some t.dtu.extCmd else t.extPending
    out := t.out ++ suspendPin s t }

/-- A register write (R174 to R181). The answer to a packet that wrote EXT_CMD waits for the command (R182, R388). -/
def registerWrite (port : Port) (off : Nat) (data : List Byte) (s : State) : Result :=
  if regAccessOk s.cfg off data.length then
    let t := s.afterRegWrite (portIsCpu port) off data
    match port with
    | .cpu id => .next (t.emit (.cpuAnswer id []))
    | .noc p =>
      if s.writesExtCmd false off data.length then .next { t with extWaiting := t.extWaiting ++ [p] }
      else .next (t.nocRespond p .noError [])
  else .fault .badRegAccess

/-- The address lies in the register window (R100, R182, R395). -/
def inWindow (c : Config) (a : Nat) : Bool :=
  decide (c.regFileBaseAddr.toNat ≤ a) && decide (a < c.regFileBaseAddr.toNat + c.windowSize)

/-- The window offset of an address in the window (R172). -/
def windowOffset (c : Config) (a : Nat) : Nat := a - c.regFileBaseAddr.toNat

/-! ## Meanings -/

/-- REG_READ (R173). -/
def execRegRead (port : Port) (off : BitVec 13) (size : Nat) (s : State) : Result :=
  registerRead port off.toNat size s

/-- REG_WRITE (R174 to R178). -/
def execRegWrite (port : Port) (off : BitVec 13) (data : List Byte) (s : State) : Result :=
  registerWrite port off.toNat data s

end Sys2Proof.Machine
end

