-- ==== Sys2Proof/Machine/CpuForward.lean ====
section
/-! DEFINITION. CPU memory accesses that the DTU forwards (46_external.md section 3). -/

namespace Sys2Proof.Machine

/-- A walk made within one step, for a functional request (R397): none if an entry lies where no memory is, some none if
a right is missing, else the leaf entry (assumption 8). -/
def State.funcWalk (s : State) (virt : Word) (access : BitVec 5) : Nat → Word → Option (Option Word)
  | level, table =>
    let a := pteAddr table virt level
    let pte := bytesWord (s.mem.readBytes a pteSize)
    if s.cfg.backs a.toNat pteSize = false then none
    else if grants (pteRights pte) (walkNeed access level) = false then some none
    else match level with
      | 0 => some (some pte)
      | l + 1 => s.funcWalk virt access l (pteBase pte)

/-- The translation of a functional request, within the step where it can be (R397; assumption 8). -/
def translateFunc (req : CpuReq) (s : State) : Result :=
  let access := req.kind.access
  if s.cfg.tlbEntries = 0 then notify (.cpu req) (some (pageBase req.addr)) s
  else match tlbLookup s.tlb req.addr access with
    | .hit p => notify (.cpu req) (some p) s
    | .nomap => notify (.cpu req) none s
    | .pagefault => startPagefault req.addr access (.cpu req) s
    | .miss =>
      match s.funcWalk req.addr access (s.cfg.levelCnt - 1) s.dtu.rootPt with
      | some (some pte) =>
        notify (.cpu req) (some (pteBase pte)) (s.tlbInsert (vpnOf req.addr) (pteBase pte) (pteRights pte))
      | some none => startPagefault req.addr access (.cpu req) s
      | none => .next (s.startTranslate req.addr access (.cpu req) false)

/-- The access lies in one page (R395). -/
def CpuReq.inOnePage (req : CpuReq) : Bool := decide ((pageOffset req.addr).toNat + req.memOp.size ≤ pageSize)

/-- The request writes; the two other served kinds read (R395). -/
def CpuReq.isWrite (req : CpuReq) : Bool := req.kind == .write

/-- The three kinds of request that are dropped (R399). -/
def CpuKind.unsupported : CpuKind → Bool
  | .invalidateReq => true
  | .badAddressError => true
  | .cleanEvict => true
  | _ => false

/-- A CPU memory access outside the register window (R395, R396). -/
def cpuMemAccess (req : CpuReq) (s : State) : Result :=
  if req.inOnePage = false then .refused .pageCrossingAccess
  else if req.isWrite && s.barrierRejects req.addr then .next (s.emit (.cpuAnswer req.id []))
  else if req.func then translateFunc req s
  else translateFor req.addr req.kind.access (.cpu req) s

/-- The response to a forwarded access has come (R397, R398). -/
def cpuResponse (req : CpuReq) (r : ErrorCode) (data : List Byte) (s : State) : Result :=
  match r with
  | .noError => .next (s.emit (.cpuAnswer req.id data))
  | .vpeGone => translateFor req.addr (req.kind.access ||| accGone) (.cpu req) s
  | _ => .next (s.cpuDummy req)

end Sys2Proof.Machine
end

