-- ==== Sys2Proof/Machine/External.lean ====
section
/-! DEFINITION. The external commands (46_external.md section 1) and the inbound cache-memory requests (R398). -/

namespace Sys2Proof.Machine

/-! ## External commands -/

/-- The completion of an external command: every packet that wrote EXT_CMD is answered (R380, R388). That several are
answered in the order in which they came is the model's choice (assumption 30). -/
def State.answerExternal (s : State) : State :=
  { s with
    extWaiting := []
    out := s.out ++ s.extWaiting.map fun p => .nocResponse p .noError [] }

/-- WAKEUP_CORE (R383). -/
def execWakeupCore (s : State) : Result := .next (s.emit .wakeCore).answerExternal

/-- INV_PAGE (R384): the entry of the page goes, blocked or not (R334). -/
def execInvPage (arg : BitVec 61) (s : State) : Result :=
  .next { s with tlb := tlbRemove s.tlb (vpnOf (arg.setWidth 64)) }.answerExternal

/-- INV_TLB (R385): every entry goes, blocked or not (R334). -/
def execInvTlb (s : State) : Result := .next { s with tlb := [] }.answerExternal

/-- INV_CACHE (R386): an output; the DTU and the model's memory hold no cache. -/
def execInvCache (s : State) : Result := .next (s.emit .invalidateCaches).answerExternal

/-- INJECT_IRQ (R387). -/
def execInjectIrq (arg : BitVec 61) (s : State) : Result :=
  .next (s.emit (.injectIrq (arg.setWidth 64))).answerExternal

/-! ## Inbound cache-memory requests -/

/-- The local-memory operation a cache-memory request asks for (R398). -/
def packetMemOp (p : Packet) : MemOp :=
  match p.kind with
  | .read => .read p.size
  | .write => .write p.data

/-- The local physical address a cache-memory request names (R133, R398). -/
def packetPhys (p : Packet) : Word := p.addr.offset.setWidth 64

/-- The packet's target VPE is not the one bound to this PE (R398). -/
def State.wrongVpe (s : State) (p : Packet) : Bool := p.addr.vpeId.setWidth 64 != s.dtu.vpeId

/-- Inbound CACHE_MEM_REQ (R398). -/
def execCacheMemReq (p : Packet) (s : State) : Result :=
  if s.wrongVpe p then .next (s.nocRespond p .vpeGone [])
  else .next (s.memIssue (packetPhys p) (packetMemOp p) (.cacheReq p))

/-- Inbound CACHE_MEM_REQ_FUNC: the access and the response within the step (R398); an access that local memory does not
back is never answered (R90, U19). -/
def execCacheMemReqFunc (p : Packet) (s : State) : Result :=
  if s.wrongVpe p then .next (s.nocRespond p .vpeGone [])
  else if s.cfg.backs (packetPhys p).toNat (packetMemOp p).size then
    .next ((s.memPerform (packetPhys p) (packetMemOp p)).1.nocRespond p .noError (s.memPerform (packetPhys p) (packetMemOp p)).2)
  else .next (s.memIssue (packetPhys p) (packetMemOp p) (.cacheReq p))

end Sys2Proof.Machine
end

