-- ==== Sys2Proof/Machine/MemEngine.lean ====
section
/-! DEFINITION. The memory engine (43_memory_engine.md): READ, WRITE, inbound READ_REQ and WRITE_REQ. -/

namespace Sys2Proof.Machine

/-! ## Chunks -/

/-- The length of the chunk that starts at byte `done` of `total` (R289). -/
def chunkLength (c : Config) (total done : Nat) : Nat := min c.maxNocPacketSize (total - done)

/-- The chunk that starts at byte `done` is the last (R289). -/
def isLastChunk (c : Config) (total done : Nat) : Bool := decide (total ≤ done + c.maxNocPacketSize)

/-- The NoC address of byte `done` of a command (R281, R284, R287, R163). The endpoint is read at each chunk
(assumption 20). -/
def State.chunkTarget (s : State) (m : MemCtx) (done : Nat) : Option Word :=
  let e := s.ep m.ep
  nocAddr e.remoteCore.toNat e.memVpe.toNat (e.remoteAddr + m.offset + BitVec.ofNat 64 done).toNat

/-- READ, step A: the request of the chunk that starts at byte `done` (R284). -/
def readChunk (m : MemCtx) (done : Nat) (s : State) : Result :=
  match s.chunkTarget m done with
  | none => .fault .nocAddrField
  | some target =>
    .next ({ s with cmdState := .memRead m done }.nocSend .readReq target .read
      (chunkLength s.cfg m.dataSize.toNat done) [] (.readChunk (isLastChunk s.cfg m.dataSize.toNat done)))

/-- READ, step B: the transfer that stores a chunk's data (R284); it sends no packet, and its packet type is the model's
choice (assumption 27). -/
def readChunkXfer (target localAddr : Word) (data : List Byte) (size : Nat) (last : Bool) : XferReq where
  type := .localWrite
  remoteAddr := target
  localAddr := localAddr
  size := size
  header := none
  payload := data
  pkt := none
  flags := ⟨false, last, false⟩
  pktType := .readReq
  recv := none

/-- WRITE, step A: the transfer that reads a chunk's data (R287). -/
def writeChunkXfer (target localAddr : Word) (size : Nat) (last : Bool) : XferReq where
  type := .localRead
  remoteAddr := target
  localAddr := localAddr
  size := size
  header := none
  payload := []
  pkt := none
  flags := ⟨false, last, false⟩
  pktType := .writeReq
  recv := none

/-- WRITE, step A for the chunk that starts at byte `done` (R287). -/
def writeChunk (m : MemCtx) (done : Nat) (s : State) : Result :=
  match s.chunkTarget m done with
  | none => .fault .nocAddrField
  | some target =>
    startTransfer
      (writeChunkXfer target (m.dataAddr + BitVec.ofNat 64 done) (chunkLength s.cfg m.dataSize.toNat done)
        (isLastChunk s.cfg m.dataSize.toNat done))
      { s with cmdState := .memWrite m done }

/-! ## READ and WRITE -/

/-- The operands of a READ or WRITE through endpoint `e`, each read once, in the `executeCommand` step (R281). -/
def State.memOperands (s : State) (e : Nat) : MemCtx where
  ep := e
  dataAddr := s.operand 2 (·.dataAddr)
  dataSize := s.operand 0 (·.dataSize)
  offset := s.operand 1 (·.offset)

/-- The checks and the first chunk of a READ or WRITE (R206, R280 to R283, R291): `right` is the bit of the endpoint's
flags it needs, `start` the state of the command, `chunk` its first chunk. What is checked is what every chunk uses. -/
def memCommand (arg : BitVec 8) (right : Nat) (start : MemCtx → CmdState) (chunk : MemCtx → State → Result)
    (s : State) : Result :=
  andThen (beginCommand s) fun s =>
  withEndpoint s arg.toNat typeMemory fun ep =>
  let m := s.memOperands arg.toNat
  let t := { s with cmdState := start m }.drawn 3
  if ep.memFlags.getLsbD right = false then finishCommand .access t
  else if ep.reqSize.toNat < m.offset.toNat + m.dataSize.toNat then .fault .memOutOfBounds
  else if m.dataSize = 0 then finishCommand .noError t
  else chunk m t

/-- READ (R284); it needs R, bit 0 (R282). -/
def execRead (arg : BitVec 8) (s : State) : Result :=
  memCommand arg 0 (.memRead · 0) (readChunk · 0) s

/-- WRITE (R287); it needs W, bit 1 (R282). -/
def execWrite (arg : BitVec 8) (s : State) : Result :=
  memCommand arg 1 (.memWrite · 0) (writeChunk · 0) s

/-! ## Inbound READ_REQ and WRITE_REQ -/

/-- The transfer that serves an inbound memory request (R294, R295); it sends no packet, and its packet type is the
model's choice (assumption 27). -/
def remoteXfer (type : XferType) (p : Packet) : XferReq where
  type := type
  remoteAddr := encodeNocAddr p.addr
  localAddr := p.addr.offset.setWidth 64
  size := p.size
  header := none
  payload := if type.writesLocal then p.data else []
  pkt := some p
  flags := ⟨false, false, false⟩
  pktType := .readReq
  recv := none

/-- Inbound READ_REQ: a register read of origin NOC if the offset lies in the window, else a read of local memory (R182,
R293, R294). -/
def execReadReq (p : Packet) (s : State) : Result :=
  let a := p.addr.offset.toNat
  if inWindow s.cfg a then registerRead (.noc p) (windowOffset s.cfg a) p.size s
  else startTransfer (remoteXfer .remoteRead p) s

/-- Inbound WRITE_REQ: a register write of origin NOC if the offset lies in the window, else a write of local memory
(R182, R293, R295). -/
def execWriteReq (p : Packet) (s : State) : Result :=
  let a := p.addr.offset.toNat
  if inWindow s.cfg a then registerWrite (.noc p) (windowOffset s.cfg a) p.data s
  else startTransfer (remoteXfer .remoteWrite p) s

end Sys2Proof.Machine
end

