-- ==== Sys2Proof/Machine/Message.lean ====
section
/-! DEFINITION. The message engine (42_message.md): SEND, REPLY, FETCH_MSG, ACK_MSG and the inbound MESSAGE and
PAGEFAULT. -/

namespace Sys2Proof.Machine

/-- The flags of a transfer that ends in a MESSAGE packet (R301). -/
def messageFlags : XferFlags := ⟨false, false, true⟩

/-! ## SEND -/

/-- A send needs credits that the endpoint has not (R232). -/
def EpWords.lacksCredits (e : EpWords) : Bool :=
  e.credits != creditsUnlim && decide (e.credits.toNat < e.maxMsgSize.toNat)

/-- The endpoint after the debit (R234). -/
def EpWords.debited (e : EpWords) : EpWords :=
  if e.credits = creditsUnlim then e else e.withCredits (e.credits - e.maxMsgSize)

/-- The header of a SEND through endpoint `e` (R235, R249). -/
def State.sendHeader (s : State) (e : Nat) (size replyEpid replyLabel : Word) : Header where
  flags := flagReplyEnabled
  senderCore := s.cfg.coreId.setWidth 16
  senderEp := if (s.ep e).credits = creditsUnlim then BitVec.ofNat 8 s.cfg.numEndpoints else BitVec.ofNat 8 e
  replyEp := replyEpid.setWidth 8
  length := size.setWidth 16
  senderVpe := s.dtu.vpeId.setWidth 16
  label := (s.ep e).label
  replyLabel := replyLabel

/-- The transfer of a message: its payload from local memory, its header before it (R237, R245). -/
def messageXfer (target localAddr : Word) (size : Nat) (h : Header) : XferReq where
  type := .localRead
  remoteAddr := target
  localAddr := localAddr
  size := size
  header := some h
  payload := []
  pkt := none
  flags := messageFlags
  pktType := .message
  recv := none

/-- SEND (R231 to R239). -/
def execSend (arg : BitVec 8) (s : State) : Result :=
  andThen (beginCommand s) fun s =>
  withEndpoint s arg.toNat typeSend fun ep =>
  if ep.lacksCredits then finishCommand .missCredits s
  else
    let size := s.operand 0 (·.dataSize)
    if ep.maxMsgSize.toNat < size.toNat + headerSize then .fault .messageTooLarge
    else if s.cfg.maxNocPacketSize < ep.maxMsgSize.toNat then .fault .messageTooLarge
    else match nocAddr ep.tgtCore.toNat ep.sendVpe.toNat ep.tgtEp.toNat with
      | none => .fault .nocAddrField
      | some target =>
        let h := s.sendHeader arg.toNat size (s.operand 1 (·.replyEpid)) (s.operand 2 (·.replyLabel))
        startTransfer (messageXfer target (s.operand 3 (·.dataAddr)) size.toNat h)
          ({ s.setEp arg.toNat ep.debited with cmdState := .sendXfer none }.drawn 4)

/-! ## REPLY -/

/-- A reply of this size is too large for a packet (R240), or does not fit the 16-bit `length` of its header (R124, R165;
assumption 28). -/
def replyTooLarge (c : Config) (size : Word) : Bool :=
  decide (c.maxNocPacketSize < size.toNat + headerSize) || decide (2 ^ 16 ≤ size.toNat)

/-- REPLY, up to the read of the stored header (R240, R241). -/
def execReply (arg : BitVec 8) (s : State) : Result :=
  andThen (beginCommand s) fun s =>
  withEndpoint s arg.toNat typeReceive fun _ =>
  if replyTooLarge s.cfg (s.operand 0 (·.dataSize)) then .fault .messageTooLarge
  else
    let m := s.operand 1 (·.offset)
    translateFor m (accR ||| accI) .replyHeader
      ({ s with cmdState := .replyHeader ⟨arg.toNat, m, none, 0⟩ [] }.drawn 2)

/-- The header of the reply to a message with header `hs` (R243). -/
def State.replyHeader (s : State) (e : Nat) (hs : Header) (size : Word) : Header where
  flags := flagReply ||| flagGrantCredits ||| (hs.flags &&& flagPagefault)
  senderCore := s.cfg.coreId.setWidth 16
  senderEp := BitVec.ofNat 8 e
  replyEp := hs.senderEp
  length := size.setWidth 16
  senderVpe := s.dtu.vpeId.setWidth 16
  label := hs.replyLabel
  replyLabel := 0

/-- REPLY, once the stored header has been read (R242 to R245). DATA_SIZE is read again (R202, R243, R245), and its size
rule holds again of what is read (R143, R165; assumption 28). -/
def replyWithHeader (ctx : ReplyCtx) (hs : Header) (s : State) : Result :=
  if hasFlag hs.flags flagReplyEnabled = false then .fault .replyDisabled
  else
    let cleared := hs.flags &&& ~~~flagReplyEnabled
    let size := s.operand 0 (·.dataSize)
    if replyTooLarge s.cfg size then .fault .messageTooLarge
    else match nocAddr hs.senderCore.toNat hs.senderVpe.toNat hs.replyEp.toNat with
    | none => .fault .nocAddrField
    | some target =>
      startTransfer
        (messageXfer target (s.operand 1 (·.dataAddr)) size.toNat (s.replyHeader ctx.ep hs size))
        ({ s.setStoredFlags ctx.phys cleared with cmdState := .sendXfer (some { ctx with flags := cleared }) }.drawn 2)

/-- A piece of the stored header has been read (R241). -/
def headerAnswer (bytes : List Byte) (s : State) : Result :=
  match s.cmdState with
  | .replyHeader ctx got =>
    let got' := got ++ bytes
    if got'.length < headerSize then
      translateFor (ctx.msg + BitVec.ofNat 64 got'.length) (accR ||| accI) .replyHeader
        { s with cmdState := .replyHeader ctx got' }
    else replyWithHeader ctx (decodeHeader got') s
  | _ => .next s

/-! ## FETCH_MSG and ACK_MSG -/

/-- The fetch from slot `idx` (R266). -/
def State.fetchSlot (s : State) (e idx : Nat) : State :=
  let ep := s.ep e
  let t := (s.setEp e (ep.fetched idx)).setMsgCnt (s.dtu.msgCnt - 1)
  { t with opnd := { t.opnd with offset := ep.slotAddr idx } }

/-- FETCH_MSG (R265, R266). -/
def execFetchMsg (arg : BitVec 8) (s : State) : Result :=
  andThen (beginCommand s) fun s =>
  withEndpoint s arg.toNat typeReceive fun ep =>
  finishCommand .noError
    (match ep.unreadSlot with
      | none => { s with opnd := { s.opnd with offset := 0 } }
      | some idx => s.fetchSlot arg.toNat idx)

/-- ACK_MSG (R270, R271). -/
def execAckMsg (arg : BitVec 8) (s : State) : Result :=
  andThen (beginCommand s) fun s =>
  withEndpoint s arg.toNat typeReceive fun _ =>
  andThen (ackMessage arg.toNat (s.operand 0 (·.offset)) (s.drawn 1)) (finishCommand .noError)

/-! ## Inbound MESSAGE and PAGEFAULT -/

/-- The transfer that stores an inbound message (R255); it sends no packet, and its packet type is the model's choice
(assumption 27). -/
def receiveXfer (p : Packet) (localAddr : Word) (t idx : Nat) : XferReq where
  type := .remoteWrite
  remoteAddr := encodeNocAddr p.addr
  localAddr := localAddr
  size := p.size
  header := none
  payload := p.data
  pkt := some p
  flags := ⟨true, false, false⟩
  pktType := .message
  recv := some (t, idx)

/-- The receive of a message (R250 to R256, R260, R261). -/
def receiveMessage (p : Packet) (s : State) : Result :=
  if p.size < headerSize then .fault .missingHeader
  else
    let h := decodeHeader p.data
    if s.dtu.vpeId ≠ p.addr.vpeId.setWidth 64 then .next (s.nocRespond p .vpeGone [])
    else if hasFlag h.flags flagReply && hasFlag h.flags flagPagefault then finishPagefault p s
    else
      let t := p.addr.offset.toNat
      withEndpoint s t typeReceive fun ep =>
      if ep.msgSize.toNat < p.size then .fault .messageTooLarge
      else match ep.freeSlot with
        | none => .next (s.nocRespond p .noRingSpace [])
        | some idx =>
          andThen (grantCredits h s) fun s =>
          startTransfer (receiveXfer p (ep.slotAddr idx) t idx) (s.setEp t ((s.ep t).allocated idx))

/-- Inbound MESSAGE (R250). -/
def execMessage (p : Packet) (s : State) : Result := receiveMessage p s

/-- Inbound PAGEFAULT: the same path (R251). -/
def execPagefault (p : Packet) (s : State) : Result := receiveMessage p s

end Sys2Proof.Machine
end

