-- ==== Sys2Proof/Machine/Transfer.lean ====
section
/-! DEFINITION. The transfer engine (44_transfer.md): the allocation of buffers, the per-block loop, the completions. -/

namespace Sys2Proof.Machine

/-! ## Allocation -/

/-- A message receive holds a buffer (R66). -/
def State.msgRecvBusy (s : State) : Bool :=
  s.bufs.any fun b => !b.free && (b.event.any fun ev => ev.flags.msgRecv)

/-- A pending request can be served (R303). -/
def State.canServe (s : State) (r : XferReq) : Bool :=
  (s.bufs.any fun b => b.free) && (!r.flags.msgRecv || !s.msgRecvBusy)

/-- The bytes a buffer starts with: the header, or the packet's bytes for a type that writes local memory (R304). -/
def XferReq.preload (r : XferReq) : List Byte :=
  match r.header with
  | some h => encodeHeader h
  | none => if r.type.writesLocal then r.payload else []

/-- The place in the buffer where the transfer's bytes begin (R304). -/
def XferReq.base (r : XferReq) : Nat := if r.header.isSome then headerSize else 0

/-- The transfer event of a request (R304). -/
def XferReq.event (r : XferReq) : XferEvent where
  type := r.type
  remoteAddr := r.remoteAddr
  localAddr := r.localAddr
  size := r.size
  flags := r.flags
  pkt := r.pkt
  pktType := r.pktType
  outstanding := 0
  start := r.localAddr
  total := r.size
  base := r.base
  recv := r.recv
  waiting := false
  failed := false

/-- A buffer given to a request (R304). -/
def Buffer.allocate (b : Buffer) (r : XferReq) : Buffer where
  bytes := splice b.bytes 0 r.preload
  offset := r.base
  free := false
  event := some r.event

/-- The step of the XferPending agent for request number `k`: the free buffer with the lowest index (R303, R304).
Without a free buffer, or while the MSGRECV rule holds the request back, there is no step. -/
def servePending (k : Nat) (s : State) : State :=
  match s.pendingTransfers[k]?, s.bufs.findIdx? (fun b => b.free) with
  | some r, some b =>
    if s.canServe r then
      { s with
        pendingTransfers := s.pendingTransfers.eraseIdx k
        bufs := s.bufs.modify b fun buf => buf.allocate r }
    else s
  | _, _ => s

/-! ## Completion -/

/-- A buffer released (R313). -/
def Buffer.release (b : Buffer) : Buffer := { b with free := true, event := none }

/-- The release of buffer `b` (R313). -/
def State.releaseBuf (s : State) (b : Nat) : State := { s with bufs := s.bufs.modify b Buffer.release }

/-- What the command in progress waits for once its message packet has been handed to the NoC (R237). -/
def CmdState.packetSent : CmdState → CmdState
  | .sendXfer r => .sendNoc r
  | c => c

/-- A response, if the packet needs one (R259, R311). -/
def State.respondIfNeeded (s : State) (p : Option Packet) (r : ErrorCode) : State :=
  match p with
  | some p => if p.needsResponse then s.nocRespond p r [] else s
  | none => s

/-- The completion actions of a transfer whose buffer held `bytes` (R311). That the last transfer of a READ finishes the
command in this step, not in a later one of the Dispatcher, is the model's choice (R311, R480; assumption 25). -/
def completeTransfer (bytes : List Byte) (ev : XferEvent) (s : State) : Result :=
  match ev.type with
  | .localRead =>
    let data := slice bytes 0 (ev.base + ev.total)
    .next (State.nocSend { s with cmdState := s.cmdState.packetSent } ev.pktType ev.remoteAddr .write data.length data
      (if ev.flags.message then .message else .writeChunk ev.flags.last))
  | .localWrite =>
    if ev.flags.last then finishCommand .noError s
    else match s.cmdState with
      | .memRead m done => readChunk m (done + ev.total) s
      | _ => .next s
  | .remoteRead =>
    match ev.pkt with
    | some p => .next (s.nocRespond p .noError (slice bytes 0 ev.total))
    | none => .next s
  | .remoteWrite =>
    let t := match ev.flags.msgRecv, ev.recv with
      | true, some (t, idx) => s.finishMsgReceive t idx
      | _, _ => s
    .next (t.respondIfNeeded ev.pkt .noError)

/-- What a transfer does instead, if the translation of a block failed (R312). -/
def failTransfer (ev : XferEvent) (s : State) : Result :=
  match ev.type with
  | .localRead => finishCommand .noMapping s
  | .localWrite => finishCommand .noMapping s
  | .remoteRead =>
    match ev.pkt with
    | some p => .next (s.nocRespond p .noMapping [])
    | none => .next s
  | .remoteWrite =>
    let t := match ev.flags.msgRecv, ev.recv with
      | true, some (t, idx) => s.setEp t ((s.ep t).freed idx)
      | _, _ => s
    match ev.pkt with
    | some p => .next (t.nocRespond p .noMapping [])
    | none => .next t

/-! ## The steps of a buffer -/

/-- The agent of a buffer has a step: a block to translate, or all answers have come and the transfer ends (R305, R310,
R312). -/
def XferEvent.ready (ev : XferEvent) : Bool :=
  !ev.waiting && (if ev.failed || ev.size == 0 then ev.outstanding == 0 else true)

/-- One step of agent Xfer[b] (R305, R310 to R313). -/
def xferStep (b : Nat) (s : State) : Result :=
  match s.bufs[b]?, s.event b with
  | some buf, some ev =>
    if ev.ready = false then .next s
    else if ev.failed then failTransfer ev (s.releaseBuf b)
    else if ev.size = 0 then completeTransfer buf.bytes ev (s.releaseBuf b)
    else translateFor ev.localAddr ev.type.access (.xfer b) (s.setEvent b { ev with waiting := true })
  | _, _ => .next s

/-- Local memory has answered a block request of buffer `b` (R309). -/
def State.blockAnswer (s : State) (b pos n : Nat) (bytes : List Byte) : State :=
  match s.bufs[b]?, s.event b with
  | some buf, some ev =>
    s.setBuf b
      { buf with
        bytes := splice buf.bytes pos bytes
        offset := buf.offset + n
        event := some { ev with outstanding := ev.outstanding - 1 } }
  | _, _ => s

end Sys2Proof.Machine
end

