-- ==== Sys2Proof/Machine/Walk.lean ====
section
/-! DEFINITION. The page-table walker (45_tlb_ptu.md section 3): the first step of a translate event and the answers of
its entry loads. -/

namespace Sys2Proof.Machine

/-- The first step of a translate event (R340, R342). -/
def ptuFirst (ev : TranslateEvent) (s : State) : Result :=
  if grants ev.access accGone then startPagefault ev.virt ev.access ev.waiter (s.dropEvent ev.id)
  else match tlbLookup s.tlb ev.virt ev.access with
    | .hit p => notify ev.waiter (some p) (s.dropEvent ev.id)
    | .nomap => notify ev.waiter none (s.dropEvent ev.id)
    | .pagefault => startPagefault ev.virt ev.access ev.waiter (s.dropEvent ev.id)
    | .miss => .next (s.beginWalk ev)

/-- The step of the Ptu for translate event number `k`: there is one only while the event is fresh; a walk goes on with
the answers of local memory. -/
def ptuStep (k : Nat) (s : State) : Result :=
  match s.translateEvents[k]? with
  | some ev => if ev.phase = .fresh then ptuFirst ev s else .next s
  | none => .next s

/-- A walk has failed (R341): a new fault, or for the retry of the record at the head of the queue a new upcall (R350,
R355). -/
def walkFailed (ev : TranslateEvent) (s : State) : Result :=
  match ev.waiter with
  | .retry token =>
    if (s.pfQueue.head?.map (·.token)) = some token then sendPagefault s else .next s
  | w => startPagefault ev.virt ev.access w s

/-- A walk has reached its leaf (R343): the page goes into the TLB and the waiter is told; for a retry, the record at the
head leaves the queue and all its waiters are told (R355). -/
def walkDone (ev : TranslateEvent) (pte : Word) (s : State) : Result :=
  let s := s.tlbInsert (vpnOf ev.virt) (pteBase pte) (pteRights pte)
  match ev.waiter with
  | .retry token =>
    if (s.pfQueue.head?.map (·.token)) = some token then resolvePagefault (some (pteBase pte)) s else .next s
  | w => notify w (some (pteBase pte)) s

/-- Local memory has answered the entry load of translate event `id` (R341). -/
def walkAnswer (id : Nat) (bytes : List Byte) (s : State) : Result :=
  match s.translateEvents.find? (fun e => e.id == id) with
  | none => .next s
  | some ev =>
    match ev.phase with
    | .fresh => .next s
    | .walking level _ =>
      let pte := bytesWord bytes
      if grants (pteRights pte) (walkNeed ev.access level) = false then walkFailed ev (s.dropEvent ev.id)
      else match level with
        | 0 => walkDone ev pte (s.dropEvent ev.id)
        | l + 1 => .next (s.loadPte ev l (pteBase pte))

end Sys2Proof.Machine
end

