-- ==== Sys2Proof/Machine/Answers.lean ====
section
/-! DEFINITION. The steps that an answer drives: local memory performs and answers a request (R90), the NoC delivers the
response to a packet of this DTU (R392). -/

namespace Sys2Proof.Machine

/-- An answer of local memory reaches what waits for it. -/
def memDeliver (r : MemReq) (bytes : List Byte) (s : State) : Result :=
  match r.tag with
  | .xfer b pos => .next (s.blockAnswer b pos r.op.size bytes)
  | .walk id => walkAnswer id bytes s
  | .replyHeader => headerAnswer bytes s
  | .cpu req => .next (s.emit (.cpuAnswer req.id bytes))
  | .cacheReq p => .next (s.nocRespond p .noError bytes)

/-- Local memory performs and answers outstanding request number `k`; a request to an address it does not back is never
answered (R90, U19). -/
def memAnswer (k : Nat) (s : State) : Result :=
  match s.memOutstanding[k]? with
  | none => .next s
  | some r =>
    if s.cfg.backs r.addr.toNat r.op.size = false then .next s
    else
      let t := { s with memOutstanding := s.memOutstanding.eraseIdx k }
      memDeliver r (t.memPerform r.addr r.op).2 (t.memPerform r.addr r.op).1

/-- A response reaches what waits for it (R392). -/
def nocDeliver (q : NocReq) (r : ErrorCode) (data : List Byte) (s : State) : Result :=
  match q.waiter with
  | .message => finishCommand r s
  | .readChunk last =>
    if r ≠ .noError then finishCommand r s
    else match s.cmdState with
      | .memRead m done =>
        startTransfer (readChunkXfer q.pkt.addr (m.dataAddr + BitVec.ofNat 64 done) data q.pkt.size last) s
      | _ => .next s
  | .writeChunk last =>
    if r ≠ .noError then finishCommand r s
    else if last then finishCommand .noError s
    else match s.cmdState with
      | .memWrite m done => writeChunk m (done + q.pkt.size) s
      | _ => .next s
  | .upcall token =>
    if r ≠ .noError ∧ (s.pfQueue.head?.map (·.token)) = some token then requeuePagefault s else .next s
  | .cpu req => cpuResponse req r data s

/-- The NoC delivers the response to outstanding packet number `k` (R392). -/
def nocRespondStep (k : Nat) (r : ErrorCode) (data : List Byte) (s : State) : Result :=
  match s.nocOutstanding[k]? with
  | none => .next s
  | some q =>
    if responseOk q.pkt r data = false then .refused .malformedResponse
    else nocDeliver q r data { s with nocOutstanding := s.nocOutstanding.eraseIdx k }

end Sys2Proof.Machine
end

