-- ==== Sys2Proof/Machine/Dispatcher.lean ====
section
/-! DEFINITION. The commands the top level executes by itself (41_dispatch.md): IDLE and DEBUG_MSG. -/

namespace Sys2Proof.Machine

/-- IDLE (R204): nothing, whether or not a command is in progress. -/
def execIdle (s : State) : Result := .next s

/-- DEBUG_MSG (R208). -/
def execDebugMsg (payload : BitVec 61) (s : State) : Result :=
  andThen (beginCommand s) fun s => finishCommand .noError (s.emit (.trace (payload.setWidth 64)))

end Sys2Proof.Machine
end

