-- ==== Sys2Proof/Machine/Dispatch.lean ====
section
/-! DEFINITION. The meaning of each operation: one arm per constructor of Instr, one direct call each. -/

namespace Sys2Proof.Machine

def exec (i : Instr) (s : State) : Host.Outcome State Fault Refusal :=
  match i with
  | .regRead port off size => Sys2Proof.Machine.execRegRead port off size s
  | .regWrite port off data => Sys2Proof.Machine.execRegWrite port off data s
  | .idle _ _ => Sys2Proof.Machine.execIdle s
  | .send arg _ => Sys2Proof.Machine.execSend arg s
  | .reply arg _ => Sys2Proof.Machine.execReply arg s
  | .read arg _ => Sys2Proof.Machine.execRead arg s
  | .write arg _ => Sys2Proof.Machine.execWrite arg s
  | .fetchMsg arg _ => Sys2Proof.Machine.execFetchMsg arg s
  | .ackMsg arg _ => Sys2Proof.Machine.execAckMsg arg s
  | .debugMsg payload => Sys2Proof.Machine.execDebugMsg payload s
  | .wakeupCore _ => Sys2Proof.Machine.execWakeupCore s
  | .invPage arg => Sys2Proof.Machine.execInvPage arg s
  | .invTlb _ => Sys2Proof.Machine.execInvTlb s
  | .invCache _ => Sys2Proof.Machine.execInvCache s
  | .injectIrq arg => Sys2Proof.Machine.execInjectIrq arg s
  | .message p => Sys2Proof.Machine.execMessage p s
  | .pagefault p => Sys2Proof.Machine.execPagefault p s
  | .readReq p => Sys2Proof.Machine.execReadReq p s
  | .writeReq p => Sys2Proof.Machine.execWriteReq p s
  | .cacheMemReq p => Sys2Proof.Machine.execCacheMemReq p s
  | .cacheMemReqFunc p => Sys2Proof.Machine.execCacheMemReqFunc p s

end Sys2Proof.Machine
end

