-- ==== Sys2Proof/Machine/Schedule.lean ====
section
/-! DEFINITION. The atomic steps of the agents (R8, R9, R470), what each fetches and decodes before it calls `exec`, and
the choice of the next one (assumption 1). -/

namespace Sys2Proof.Machine

/-! ## The steps that decode an operation -/

/-- A decoded operation is executed; a raw form that is none is reported. The one decoding error of a register value is
an unknown external opcode, a fatal error (R381); the others are of packets that R95 does not describe. -/
def execDecoded (d : Except DecodeError Instr) (s : State) : Result :=
  match d with
  | .ok i => exec i s
  | .error .unknownOpcode => .fault .unknownOpcode
  | .error e => .refused (.malformedPacket e)

/-- `executeCommand`: COMMAND is read when the step runs (R200 to R202); there is no step without `execPending`. -/
def dispatchStep (s : State) : Result :=
  if s.execPending then execDecoded (decode (.command s.command)) { s with execPending := false } else .next s

/-- `execExternCmd` (R380, R381); there is no step without `extPending`. -/
def externStep (s : State) : Result :=
  match s.extPending with
  | some w => execDecoded (decode (.external w)) { s with extPending := none }
  | none => .next s

/-- A packet is delivered (R390). -/
def deliverStep (p : WirePacket) (s : State) : Result := execDecoded (decode (.packet p)) s

/-- The raw form of a CPU request whose address lies in the register window (R170, R395). -/
def CpuReq.registerAccess (c : Config) (req : CpuReq) : Raw :=
  let off := BitVec.ofNat 13 (windowOffset c req.addr.toNat)
  if req.isWrite then .registerWrite (.cpu req.id) off req.data else .registerRead (.cpu req.id) off req.size

/-- A CPU request arrives (R170, R395, R399). -/
def cpuStep (req : CpuReq) (s : State) : Result :=
  if req.kind.unsupported then .next s
  else if inWindow s.cfg req.addr.toNat then execDecoded (decode (req.registerAccess s.cfg)) s
  else cpuMemAccess req s

/-! ## The next step -/

/-- One atomic step, named by its agent (R470). An agent that has no enabled step leaves the state as it is. -/
def runEvent (e : Event) (s : State) : Result :=
  match e with
  | .dispatch => dispatchStep s
  | .extern => externStep s
  | .xfer b => xferStep b s
  | .xferPending k => .next (servePending k s)
  | .ptu k => ptuStep k s
  | .memAnswer k => memAnswer k s
  | .cpu req => cpuStep req s
  | .deliver p => deliverStep p s
  | .respond k r data => nocRespondStep k r data s

/-- The steps that the DTU and its memory can make by themselves now (R470). -/
def State.enabled (s : State) : List Event :=
  (if s.execPending then [.dispatch] else []) ++
  (if s.extPending.isSome then [.extern] else []) ++
  ((List.range s.bufs.length).filter fun b => (s.event b).any XferEvent.ready).map .xfer ++
  ((List.range s.pendingTransfers.length).filter fun k => (s.pendingTransfers[k]?).any s.canServe).map .xferPending ++
  ((List.range s.translateEvents.length).filter fun k =>
    (s.translateEvents[k]?).any fun ev => ev.phase == .fresh).map .ptu ++
  ((List.range s.memOutstanding.length).filter fun k =>
    (s.memOutstanding[k]?).any fun r => s.cfg.backs r.addr.toNat r.op.size).map .memAnswer

/-- The next step: the first of the agenda; with an empty agenda one that is enabled, by free choice; with none enabled
the machine rests (R470; assumption 1). -/
def nextStep (s : State) : Result :=
  match s.agenda with
  | e :: rest => runEvent e { s with agenda := rest }
  | [] =>
    match choose (Config.freeChoice s.draws) s.enabled with
    | some e => runEvent e (s.drawn 1)
    | none => .next s

/-! ## Placing an instruction -/

/-- The state whose next step runs the instruction with these bits: a 16-bit row of the table is a register read of the
CPU at that window offset; every other row is a value of COMMAND whose `executeCommand` comes next (assumption 12). -/
def placeWord (s : State) (nbits w : Nat) : State :=
  if nbits = 16 then
    let addr := s.cfg.regFileBaseAddr + BitVec.ofNat 64 (w % 2 ^ 13)
    { s with agenda := .cpu ⟨0, .read, false, addr, 8, [], []⟩ :: s.agenda }
  else
    { s with
      command := bytesWord (leBytes 8 w)
      execPending := true
      staleOperands := []
      agenda := .dispatch :: s.agenda }

end Sys2Proof.Machine
end

