-- ==== Sys2Proof/Machine/Step.lean ====
section
/-! DEFINITION. One step of the machine, and the placing of an instruction where the next step fetches it. -/

namespace Sys2Proof.Machine

/-- One atomic step (R8, R470): the next state, a fatal error, or an input without a meaning. -/
def step (s : State) : Host.Outcome State Fault Refusal := nextStep s

/-- `s` with an instruction placed so that the very next step fetches and runs it (assumption 12). -/
def State.withFetchWord (s : State) (nbits w : Nat) : State := placeWord s nbits w

end Sys2Proof.Machine
end

