-- ==== Sys2Proof/Safety.lean ====
section
/-! DEFINITION. What claims about runs speak of: quiescence (R68), the invariant that every step keeps, the ring
discipline of a RECEIVE endpoint (R44), sequences of fetches (R267) and of sends and grants (R275). -/

namespace Sys2Proof.Machine

/-- A quiescent DTU: no operation is in flight (R68). -/
def State.quiescent (s : State) : Bool :=
  !s.cmdInProgress && !s.execPending && s.extPending.isNone && s.cmdState == .none && s.bufs.all (·.free) &&
  s.pendingTransfers.isEmpty && s.pfQueue.isEmpty && s.translateEvents.isEmpty && s.nocOutstanding.isEmpty

/-- A buffer that holds a message receive (R66). -/
def Buffer.holdsMsgRecv (b : Buffer) : Bool := !b.free && (b.event.any fun ev => ev.flags.msgRecv)

/-- A buffer of an instance: `bufSize` bytes (R58), an event exactly while it is in use (R59, R304, R313), and in it a
transfer that fits the buffer (R302) and has no more bytes left than it has in all. -/
def Buffer.ok (c : Config) (b : Buffer) : Prop :=
  b.bytes.length = c.bufSize ∧ b.free = b.event.isNone ∧
  ∀ ev, b.event = some ev → ev.base + ev.total ≤ c.bufSize ∧ ev.size ≤ ev.total

/-- The answer of this memory request goes to buffer `b`. -/
def MemTag.forBuffer (b : Nat) : MemTag → Bool
  | .xfer b' _ => b' == b
  | _ => false

/-- How many memory requests of buffer `b` have not been answered. -/
def State.unanswered (s : State) (b : Nat) : Nat := s.memOutstanding.countP fun r => r.tag.forBuffer b

/-- The invariant of the machine. -/
structure Inv (s : State) : Prop where
  /-- The parameters obey R7. -/
  cfg : s.cfg.valid = true
  /-- The memory has its canonical form. -/
  mem : s.mem.wf = true
  /-- There are N endpoints (R40). -/
  eps : s.eps.length = s.cfg.numEndpoints
  /-- There are `bufCount` buffers (R58). -/
  bufCount : s.bufs.length = s.cfg.bufCount
  /-- Every buffer is one of the instance's (R58, R59). -/
  bufs : ∀ b ∈ s.bufs, b.ok s.cfg
  /-- At most one buffer holds a message receive (R303, R314). -/
  msgRecv : s.bufs.countP Buffer.holdsMsgRecv ≤ 1
  /-- A pending transfer fits a buffer (R302). -/
  pending : ∀ r ∈ s.pendingTransfers, r.base + r.size ≤ s.cfg.bufSize
  /-- A transfer counts its unanswered memory requests, and a buffer that is not in use has none (R59, R310). -/
  outstanding : ∀ b, s.unanswered b = ((s.event b).map (·.outstanding)).getD 0
  /-- At most one TLB entry per page (R55). -/
  tlbKeys : (s.tlb.map (·.vpn)).Nodup
  /-- At most `tlbEntries` TLB entries (R55). -/
  tlbSize : s.tlb.length ≤ s.cfg.tlbEntries
  /-- Faults of the same page and access share one record (R350). -/
  faults : (s.pfQueue.map fun q => (q.vpn, q.access)).Nodup
  /-- Only a command in progress waits for something (R50, R63). -/
  command : s.cmdState ≠ .none → s.cmdInProgress = true

/-- The output is a page-fault upcall (R353). -/
def Output.isUpcall : Output → Bool
  | .nocRequest p => p.ptype == .pagefault
  | _ => false

/-- The number of set bits (R13). -/
def popcount (m : BitVec 32) : Nat := (List.range 32).countP m.getLsbD

/-- The ring discipline of a RECEIVE endpoint that the operations keep (R44, with the count of C2). -/
structure RingOk (e : EpWords) : Prop where
  size : e.size.toNat ≤ 32
  rdPos : 0 < e.size.toNat → e.rdPos.toNat < e.size.toNat
  wrPos : 0 < e.size.toNat → e.wrPos.toNat < e.size.toNat
  unread : e.unread &&& ~~~e.occupied = 0
  range : ∀ i, e.size.toNat ≤ i → e.occupied.getLsbD i = false
  count : e.msgCount.toNat = popcount e.unread

/-- The slots that fetches take, one after the other, until no message is unread or `n` have been taken (R267). -/
def EpWords.fetchOrder : Nat → EpWords → List Nat
  | 0, _ => []
  | n + 1, e =>
    match e.unreadSlot with
    | none => []
    | some idx => idx :: (e.fetched idx).fetchOrder n

/-- A SEND endpoint after debits of sends (`true`, R232, R234) and grants (`false`, R261), in this order; none if a send
lacks credits or a grant overflows. -/
def EpWords.creditRun : List Bool → EpWords → Option EpWords
  | [], e => some e
  | true :: ops, e => if e.lacksCredits then none else e.debited.creditRun ops
  | false :: ops, e =>
    if 0xFFFE < e.credits.toNat + e.maxMsgSize.toNat then none
    else (e.withCredits (e.credits + e.maxMsgSize)).creditRun ops

/-- The commands but IDLE (R122). -/
def isCommand : Instr → Bool
  | .send _ _ => true
  | .reply _ _ => true
  | .read _ _ => true
  | .write _ _ => true
  | .fetchMsg _ _ => true
  | .ackMsg _ _ => true
  | .debugMsg _ => true
  | _ => false

/-- The endpoint a command names and the type it expects there (R206). -/
def endpointUse : Instr → Option (BitVec 8 × BitVec 3)
  | .send arg _ => some (arg, typeSend)
  | .reply arg _ => some (arg, typeReceive)
  | .read arg _ => some (arg, typeMemory)
  | .write arg _ => some (arg, typeMemory)
  | .fetchMsg arg _ => some (arg, typeReceive)
  | .ackMsg arg _ => some (arg, typeReceive)
  | _ => none

/-- The answer to an access that came in by this port (R173, R180). -/
def portAnswer (port : Port) (data : List Byte) : Output :=
  match port with
  | .cpu id => .cpuAnswer id data
  | .noc p => .nocResponse p .noError data

end Sys2Proof.Machine
end

