-- ==== Sys2Proof/Certificates/Slice0/Obligations.lean ====
section
/-! DEFINITION. The statements for the provers. A statement about an operation of the DTU gives its whole next state as an
update of the state before: every field that the update does not name is unchanged. Its hypotheses speak of the state and
the operands alone. Where a clause follows a choice of the specification's own decision list (92_eei_decisions.md, D<n>)
or an entry of the assumption log, the docstring names it; two entries are named here once. A transfer that is started is
queued in `pendingTransfers` and takes its buffer in a step of its own (assumption 6); `draws` is the model's own counter of
free values (assumption 4). -/

open Sys2Proof Sys2Proof.Machine

/-! ## Encoding -/

/-- R121 to R129, R130, R135: no bit of an operand is dropped by the encodings. The numbers are those of D1, D2, D3, D7,
D11. -/
def Obligations.DecodeEncode : Prop :=
  ∀ i : Instr, i.shapeOk = true → decode (encode i) = .ok i

/-- R125, R129, R95: a raw value that decodes is the encoding of what it decodes to, which has the shape that the encodings
admit (a packet keeps its type tag), and every value of COMMAND decodes; so no two operations share a raw value and no bit is
ignored. -/
def Obligations.EncodeDecode : Prop :=
  (∀ w, ∃ i, decode (.command w) = .ok i ∧ isCommand i = decide (field w 0 3 ≠ 0#3)) ∧
  ∀ r i, decode r = .ok i → encode i = r ∧ i.shapeOk = true

/-- R130, R131, R132: taking the packed form of a tuple apart gives the tuple, with `valid` set (that a NoC address built
from a tuple is valid is D7). -/
def Obligations.NocAddrRoundTrip : Prop :=
  ∀ c v o : Nat, c < 2 ^ 10 → v < 2 ^ 11 → o < 2 ^ 37 →
    ∃ w, nocAddr c v o = some w ∧ (decodeNocAddr w).coreId.toNat = c ∧ (decodeNocAddr w).vpeId.toNat = v ∧
      (decodeNocAddr w).offset.toNat = o ∧ (decodeNocAddr w).valid = 1#1

/-- R140, R141: a header has 25 bytes, and the header of a message is read back from its front. The order of the fields
is the document's, their byte order is D12. -/
def Obligations.HeaderRoundTrip : Prop :=
  ∀ (h : Header) (payload : List Byte),
    (encodeHeader h).length = 25 ∧ decodeHeader (encodeHeader h ++ payload) = h

/-- Words written out by hand from the tables of R121, R122 (numbers D1, D2), R123 (the payload of DEBUG_MSG, D3), R128,
R129 (numbers D11) and R130 (D7). -/
def Obligations.WordsDecode : Prop :=
  decodeCommand 0x19#64 = .send 3#8 0#53 ∧ decodeCommand 0x1234#64 = .write 0x46#8 2#53 ∧
  decodeCommand 0x1237#64 = .debugMsg 0x246#61 ∧ decodeExternal 0x20001#64 = .ok (.invPage 0x4000#61) ∧
  decodeExternal 0x20C#64 = .ok (.injectIrq 0x41#61) ∧ decodeExternal 0x5#64 = .error .unknownOpcode ∧
  decodeNocAddr 0x0402000000002100#64 = ⟨0#5, 1#1, 2#10, 0#11, 0x2100#37⟩ ∧
  decodeNocAddr 0x0407002000000004#64 = ⟨0#5, 1#1, 7#10, 1#11, 4#37⟩

/-! ## The machine -/

/-- R201, R202, R381, R390, R170: a step of the Dispatcher, of ExtCmd, of the delivery of a packet, or of a register access
runs the operation that COMMAND, EXT_CMD, the packet or the access decodes to, on the state that is left when the event has
been taken away. A step of a buffer (R305), of the queue of transfers (R303), of the Ptu (R340), of local memory (R90), of the
delivery of a response (R392) or of any request of the CPU (R395, R399) is the function of which the other statements speak,
on that state. That a step runs the first event of an agenda and leaves the rest is the model's choice (assumption 1); that a
fetch of the CPU in the register window is a register read is the model's inference (assumption 24). -/
def Obligations.StepRunsTheDecodedOperation : Prop :=
  ∀ (s : State) (rest : List Event) (i : Instr),
    (s.agenda = .dispatch :: rest → s.execPending = true → decode (.command s.command) = .ok i →
      step s = exec i { s with agenda := rest, execPending := false }) ∧
    (∀ w, s.agenda = .extern :: rest → s.extPending = some w → decode (.external w) = .ok i →
      step s = exec i { s with agenda := rest, extPending := none }) ∧
    (∀ p, s.agenda = .deliver p :: rest → decode (.packet p) = .ok i →
      step s = exec i { s with agenda := rest }) ∧
    (∀ req, s.agenda = .cpu req :: rest → req.kind.unsupported = false → inWindow s.cfg req.addr.toNat = true →
      decode (req.registerAccess s.cfg) = .ok i → step s = exec i { s with agenda := rest }) ∧
    (∀ req, s.agenda = .cpu req :: rest → step s = cpuStep req { s with agenda := rest }) ∧
    (∀ b, s.agenda = .xfer b :: rest → step s = xferStep b { s with agenda := rest }) ∧
    (∀ k, s.agenda = .xferPending k :: rest → step s = .next (servePending k { s with agenda := rest })) ∧
    (∀ k, s.agenda = .ptu k :: rest → step s = ptuStep k { s with agenda := rest }) ∧
    (∀ k, s.agenda = .memAnswer k :: rest → step s = memAnswer k { s with agenda := rest }) ∧
    (∀ k r data, s.agenda = .respond k r data :: rest → step s = nocRespondStep k r data { s with agenda := rest }) ∧
    (∀ e, s.agenda = e :: rest → step s = runEvent e { s with agenda := rest })

/-- R470, R452 with assumption 1: with an empty agenda the next step is one that is enabled; a machine in which nothing is
enabled rests; a quiescent DTU (R68) without unanswered memory requests has no enabled step. What `runEvent` does is the
step with that event on the agenda (StepRunsTheDecodedOperation). -/
def Obligations.ScheduleIsFree : Prop :=
  ∀ s : State, s.agenda = [] →
    (s.enabled = [] → step s = .next s) ∧
    (s.enabled ≠ [] → ∃ e ∈ s.enabled, step s = runEvent e { s with draws := s.draws + 1 }) ∧
    (s.quiescent = true → s.memOutstanding = [] → s.enabled = [])

/-- R450, R451 (D38), R452: what reset leaves, for every instance and whatever the loader has put into local memory; the
buffers' contents are the model's choice (assumption 5). -/
def Obligations.ResetValues : Prop :=
  ∀ (c : Config) (m : Memory),
    let s := State.resetOf c m
    (∀ off, off % 8 = 0 → off ≠ 0x20 → s.readReg off = 0#64) ∧ s.readReg 0x20 = c.resetRwBarrier ∧ s.mem = m ∧
    s.quiescent = true ∧ s.tlb = [] ∧ s.lastPfVpn = none ∧ s.pfRepeat = 0 ∧ s.out = [] ∧
    s.eps.length = c.numEndpoints ∧ s.bufs.length = c.bufCount

/-- The invariant of the machine holds after reset, of every instance whose parameters obey R7 and with every contents of
local memory in canonical form. -/
def Obligations.ResetHasInv : Prop :=
  (∀ (c : Config) (m : Memory), c.valid = true → m.wf = true → Inv (State.resetOf c m)) ∧ Inv State.reset

/-- Every step keeps the invariant: the canonical form of memory, N endpoints (R40), the buffers of R58 and R59 with
transfers that fit (R302) and count their unanswered requests (R310), one message receive at a time (R314), one TLB entry
per page and at most `tlbEntries` (R55), one record per page and access (R350), nothing in flight for a command that is not
in progress (R50, R63). -/
def Obligations.StepKeepsInv : Prop :=
  ∀ s t : State, Inv s → step s = .next t → Inv t

/-- R26, R41, R236, R430, R453: no step changes the parameters; only the delivery of a WRITE_REQ, a write of origin NOC, can
change STATUS, ROOT_PT, PF_EP, RW_BARRIER, VPE_ID, EXT_CMD or the type of an endpoint. -/
def Obligations.OnlyNocWritesConfigure : Prop :=
  ∀ s t : State, step s = .next t →
    t.cfg = s.cfg ∧
    ((∀ p rest, s.agenda = .deliver p :: rest → p.ptype ≠ .writeReq) →
      t.dtu.status = s.dtu.status ∧ t.dtu.rootPt = s.dtu.rootPt ∧ t.dtu.pfEp = s.dtu.pfEp ∧
      t.dtu.rwBarrier = s.dtu.rwBarrier ∧ t.dtu.vpeId = s.dtu.vpeId ∧ t.dtu.extCmd = s.dtu.extCmd ∧
      t.eps.map EpWords.type = s.eps.map EpWords.type)

/-! ## Registers -/

/-- R21, R30, R40, R172: which register stands at which offset of the window (the order inside each region is D8). -/
def Obligations.RegisterMap : Prop :=
  ∀ s : State,
    s.readReg 0x00 = s.dtu.status ∧ s.readReg 0x08 = s.dtu.rootPt ∧ s.readReg 0x10 = s.dtu.pfEp ∧
    s.readReg 0x18 = s.dtu.lastPf ∧ s.readReg 0x20 = s.dtu.rwBarrier ∧ s.readReg 0x28 = s.dtu.vpeId ∧
    s.readReg 0x30 = s.dtu.msgCnt ∧ s.readReg 0x38 = s.dtu.extCmd ∧ s.readReg 0x40 = s.command ∧
    s.readReg 0x48 = s.opnd.dataAddr ∧ s.readReg 0x50 = s.opnd.dataSize ∧ s.readReg 0x58 = s.opnd.offset ∧
    s.readReg 0x60 = s.opnd.replyEpid ∧ s.readReg 0x68 = s.opnd.replyLabel ∧
    ∀ i, s.readReg (0x70 + 24 * i) = (s.ep i).w0 ∧ s.readReg (0x70 + 24 * i + 8) = (s.ep i).w1 ∧
      s.readReg (0x70 + 24 * i + 16) = (s.ep i).w2

/-- R20, R30, R172: a register that has been replaced reads as the new value, and no other register changes: none is
hardwired and none aliases another. -/
def Obligations.RegistersAreSeparate : Prop :=
  ∀ (s : State) (off : Nat) (v : Word), s.eps.length = s.cfg.numEndpoints → off % 8 = 0 → off < s.cfg.windowSize →
    (s.writeReg off v).readReg off = v ∧
    ∀ off', off' % 8 = 0 → off' ≠ off → (s.writeReg off v).readReg off' = s.readReg off'

/-- R173, and R181 and R83 with D9: a register read answers with the registers the access covers, little-endian, whoever
asks, and changes nothing else; an access of bad form is a fatal error. -/
def Obligations.RegReadAnswers : Prop :=
  ∀ (s : State) (port : Port) (off : BitVec 13) (size : Nat),
    (regAccessOk s.cfg off.toNat size = true →
      ∃ data, exec (.regRead port off size) s = .next { s with out := s.out ++ [portAnswer port data] } ∧
        data.length = size ∧
        ∀ k, 8 * k < size → slice data (8 * k) 8 = wordBytes (s.readReg (off.toNat + 8 * k))) ∧
    (regAccessOk s.cfg off.toNat size = false → exec (.regRead port off size) s = .fault .badRegAccess)

/-- R174: a write of DTU register `k` by the CPU is dropped silently; one from the NoC is performed, and for EXT_CMD
schedules the external command (its response then waits for that command, R388, D37). A write that changes MSG_CNT drives
the suspend pin (R27, R439, D44; assumption 29). -/
def Obligations.RegWriteOfADtuRegister : Prop :=
  ∀ (s : State) (k : Nat) (v : Word), k < 8 →
    (∀ id, exec (.regWrite (.cpu id) (BitVec.ofNat 13 (8 * k)) (wordBytes v)) s =
      .next { s with out := s.out ++ [.cpuAnswer id []] }) ∧
    (∀ p, exec (.regWrite (.noc p) (BitVec.ofNat 13 (8 * k)) (wordBytes v)) s =
      if k = 7 then
        .next { s with
          dtu := { s.dtu with extCmd := v }
          extPending := some v
          extWaiting := s.extWaiting ++ [p] }
      else .next { s with
        dtu := s.dtu.put v k
        out := s.out ++ (if k = 6 ∧ v ≠ s.dtu.msgCnt then [.setDenySuspend (v != 0#64)] else []) ++
          [.nocResponse p .noError []] })

/-- R175 (D9), R181: a write of an endpoint register by the CPU is dropped silently; one from the NoC replaces the word,
and one of 24 bytes the whole endpoint. -/
def Obligations.RegWriteOfAnEndpoint : Prop :=
  ∀ (s : State) (i k : Nat) (v v' v'' : Word), s.eps.length = s.cfg.numEndpoints → i < s.cfg.numEndpoints →
    s.cfg.numEndpoints ≤ 255 → k < 3 →
    (∀ id, exec (.regWrite (.cpu id) (BitVec.ofNat 13 (0x70 + 24 * i + 8 * k)) (wordBytes v)) s =
      .next { s with out := s.out ++ [.cpuAnswer id []] }) ∧
    (∀ p, exec (.regWrite (.noc p) (BitVec.ofNat 13 (0x70 + 24 * i + 8 * k)) (wordBytes v)) s =
      .next { s with eps := s.eps.set i ((s.ep i).put v k), out := s.out ++ [.nocResponse p .noError []] }) ∧
    (∀ p, exec (.regWrite (.noc p) (BitVec.ofNat 13 (0x70 + 24 * i)) (wordBytes v ++ wordBytes v' ++ wordBytes v'')) s =
      .next { s with eps := s.eps.set i ⟨v, v', v''⟩, out := s.out ++ [.nocResponse p .noError []] })

/-- R176, R177 (D10), R178, R200: a write of a command register is performed unless it comes from the CPU and the barrier
rejects it, which is silent; a write of COMMAND schedules `executeCommand`. The old contents of the operand registers that a
command under way may still use are the model's own field (R115, R472, assumption 7): a write that changes an operand while a
command is in progress or pending adds the contents before it, a command given while none is in progress has none, and any
other write adds none. Then the register writes of any form, size and origin (R83, R179, R181 with D9): one of bad form is a
fatal error; another performs its words, each under the rule of its own register (R174 to R177, R396), and leaves the other
registers alone (they are separate, so the order of the words shows in nothing); it schedules the events of COMMAND and
EXT_CMD if it writes them (R178), drives the suspend pin (assumption 29) and is answered, at once or by the external command
(D37). -/
def Obligations.RegWriteOfACommandRegister : Prop :=
  (∀ (s : State) (port : Port) (k : Nat) (v : Word), k < 6 →
    (portIsCpu port = false ∨ s.cfg.rwBarrierAppliesToRegs = false ∨
        s.barrierRejects (s.cfg.regFileBaseAddr + BitVec.ofNat 64 (0x40 + 8 * k)) = false →
      exec (.regWrite port (BitVec.ofNat 13 (0x40 + 8 * k)) (wordBytes v)) s =
        .next { s.putCmd v k with
          execPending := s.execPending || k == 0
          staleOperands :=
            if s.cmdInProgress = true ∨ (s.execPending = true ∧ field s.command 0 3 ≠ 0#3 ∧ k ≠ 0) then
              if (s.putCmd v k).opnd = s.opnd then s.staleOperands else s.staleOperands ++ [s.opnd]
            else if k = 0 then [] else s.staleOperands
          out := s.out ++ [portAnswer port []] }) ∧
    (portIsCpu port = true → s.cfg.rwBarrierAppliesToRegs = true →
        s.barrierRejects (s.cfg.regFileBaseAddr + BitVec.ofNat 64 (0x40 + 8 * k)) = true →
      exec (.regWrite port (BitVec.ofNat 13 (0x40 + 8 * k)) (wordBytes v)) s =
        .next { s with out := s.out ++ [portAnswer port []] })) ∧
  ∀ (s : State) (port : Port) (off : BitVec 13) (data : List Byte),
    (regAccessOk s.cfg off.toNat data.length = false → exec (.regWrite port off data) s = .fault .badRegAccess) ∧
    (regAccessOk s.cfg off.toNat data.length = true → s.eps.length = s.cfg.numEndpoints →
      let written : Nat → Prop := fun r => off.toNat ≤ r ∧ r < off.toNat + data.length ∧
        (portIsCpu port = false ∨ (0x40 ≤ r ∧ r < 0x70 ∧ (s.cfg.rwBarrierAppliesToRegs = false ∨
          s.barrierRejects (s.cfg.regFileBaseAddr + BitVec.ofNat 64 r) = false)))
      let under := s.cmdInProgress = true ∨ (s.execPending = true ∧ field s.command 0 3 ≠ 0#3 ∧ ¬ written 0x40)
      ∃ t, exec (.regWrite port off data) s = .next t ∧
        t = { s with
          dtu := t.dtu
          command := t.command
          opnd := t.opnd
          eps := t.eps
          execPending := t.execPending
          extPending := t.extPending
          extWaiting := t.extWaiting
          staleOperands := t.staleOperands
          out := t.out } ∧
        t.eps.length = s.eps.length ∧
        (∀ r, r % 8 = 0 →
          (written r → t.readReg r = bytesWord (slice data (r - off.toNat) 8)) ∧
          (¬ written r → t.readReg r = s.readReg r)) ∧
        (written 0x40 → t.execPending = true) ∧ (¬ written 0x40 → t.execPending = s.execPending) ∧
        (written 0x38 → t.extPending = some t.dtu.extCmd) ∧ (¬ written 0x38 → t.extPending = s.extPending) ∧
        (under → t.staleOperands = if t.opnd = s.opnd then s.staleOperands else s.staleOperands ++ [s.opnd]) ∧
        (¬ under → (written 0x40 → t.staleOperands = []) ∧ (¬ written 0x40 → t.staleOperands = s.staleOperands)) ∧
        let pinned := s.out ++ if t.dtu.msgCnt = s.dtu.msgCnt then [] else [.setDenySuspend (t.dtu.msgCnt != 0#64)]
        (∀ p, port = .noc p → written 0x38 → t.extWaiting = s.extWaiting ++ [p] ∧ t.out = pinned) ∧
        (¬ written 0x38 → t.extWaiting = s.extWaiting ∧ t.out = pinned ++ [portAnswer port []]))

/-- R430, R431: whatever a register write of the CPU covers, it changes command registers at most, and the flag that
schedules the command. -/
def Obligations.CpuRegisterWritesStayInTheCommandRegisters : Prop :=
  ∀ (s t : State) (id : Nat) (off : BitVec 13) (data : List Byte),
    exec (.regWrite (.cpu id) off data) s = .next t →
      t = { s with
        command := t.command
        opnd := t.opnd
        execPending := t.execPending
        staleOperands := t.staleOperands
        out := s.out ++ [.cpuAnswer id []] }

/-! ## Dispatch -/

/-- R204 (D40): IDLE changes nothing, whether or not a command is in progress. -/
def Obligations.IdleDoesNothing : Prop :=
  ∀ (s : State) (arg : BitVec 8) (err : BitVec 53), exec (.idle arg err) s = .next s

/-- R203, R206 (the order of the tests is D40, the fatal mismatch of types D22): a command given while one is in progress,
with an endpoint out of range, or with an endpoint of another type is a fatal error. -/
def Obligations.CommandChecks : Prop :=
  ∀ (s : State) (i : Instr),
    (isCommand i = true → s.cmdInProgress = true → exec i s = .fault .commandInProgress) ∧
    ∀ e type, endpointUse i = some (e, type) → s.cmdInProgress = false →
      (s.cfg.numEndpoints ≤ e.toNat → exec i s = .fault .endpointOutOfRange) ∧
      (e.toNat < s.cfg.numEndpoints → (s.ep e.toNat).type ≠ type → exec i s = .fault .badEndpoint)

/-- R208: DEBUG_MSG traces its payload and completes. The payload of 61 bits is D3, that COMMAND is then 0 with its `arg`
field D4, and the emptied `staleOperands` are the model's (assumption 7). -/
def Obligations.DebugMsgTraces : Prop :=
  ∀ (s : State) (payload : BitVec 61), s.cmdInProgress = false → s.cmdState = .none →
    exec (.debugMsg payload) s =
      .next { s with command := 0#64, staleOperands := [], out := s.out ++ [.trace (payload.setWidth 64)] }

/-- R115, R202, R472 (assumption 7): an operand is what its register holds, or, if software has rewritten the register
under the command, one of its earlier contents. -/
def Obligations.OperandIsAContent : Prop :=
  ∀ (s : State) (k : Nat) (f : Operands → Word),
    (s.operand k f = f s.opnd ∨ ∃ o ∈ s.staleOperands, s.operand k f = f o) ∧
    ((∀ o ∈ s.staleOperands, f o = f s.opnd) → s.operand k f = f s.opnd)

/-! ## The message engine -/

/-- R234, R235 (with R231, R232, R233, R237, R249): SEND debits the credits, builds the header from the sender's own
identity, and starts the transfer of the payload. -/
def Obligations.SendStarts : Prop :=
  ∀ (s : State) (arg : BitVec 8) (err : BitVec 53) (target : Word), s.cmdInProgress = false →
    arg.toNat < s.cfg.numEndpoints → (s.ep arg.toNat).type = 1#3 →
    let e := s.ep arg.toNat
    let unlimited := e.credits = 0xFFFF#16
    let size := s.operand 0 (·.dataSize)
    (unlimited ∨ e.maxMsgSize.toNat ≤ e.credits.toNat) → size.toNat + 25 ≤ e.maxMsgSize.toNat →
    e.maxMsgSize.toNat ≤ s.cfg.maxNocPacketSize → s.cfg.maxNocPacketSize ≤ s.cfg.bufSize →
    nocAddr e.tgtCore.toNat e.sendVpe.toNat e.tgtEp.toNat = some target →
    exec (.send arg err) s = .next { s with
      eps := s.eps.set arg.toNat (if unlimited then e else e.withCredits (e.credits - e.maxMsgSize))
      cmdInProgress := true
      cmdState := .sendXfer none
      draws := s.draws + 4
      pendingTransfers := s.pendingTransfers ++
        [{ type := .localRead
           remoteAddr := target
           localAddr := s.operand 3 (·.dataAddr)
           size := size.toNat
           header := some
             { flags := 0x04#8
               senderCore := s.cfg.coreId.setWidth 16
               senderEp := if unlimited then BitVec.ofNat 8 s.cfg.numEndpoints else arg
               replyEp := (s.operand 1 (·.replyEpid)).setWidth 8
               length := size.setWidth 16
               senderVpe := s.dtu.vpeId.setWidth 16
               label := e.label
               replyLabel := s.operand 2 (·.replyLabel) }
           payload := []
           pkt := none
           flags := ⟨false, false, true⟩
           pktType := .message
           recv := none }] }

/-- R232, R233 (D55), R237, R131: a SEND without credits completes with MISS_CREDITS and changes nothing else; a message
that is too large, or a target that does not fit a NoC address, is a fatal error. -/
def Obligations.SendRefused : Prop :=
  ∀ (s : State) (arg : BitVec 8) (err : BitVec 53), s.cmdInProgress = false → s.cmdState = .none →
    arg.toNat < s.cfg.numEndpoints → (s.ep arg.toNat).type = 1#3 →
    let e := s.ep arg.toNat
    let size := s.operand 0 (·.dataSize)
    let paid := e.credits = 0xFFFF#16 ∨ e.maxMsgSize.toNat ≤ e.credits.toNat
    (¬ paid → exec (.send arg err) s = .next { s with command := 0x800#64, staleOperands := [] }) ∧
    (paid → (e.maxMsgSize.toNat < size.toNat + 25 ∨ s.cfg.maxNocPacketSize < e.maxMsgSize.toNat) →
      exec (.send arg err) s = .fault .messageTooLarge) ∧
    (paid → size.toNat + 25 ≤ e.maxMsgSize.toNat → e.maxMsgSize.toNat ≤ s.cfg.maxNocPacketSize →
      2 ^ 11 ≤ e.sendVpe.toNat → exec (.send arg err) s = .fault .nocAddrField)

/-- R240 (D47), R241: REPLY asks for the first piece of the stored header, at once if the page of the message is known (no
TLB, D33, or a hit), after a walk or a page-fault upcall if it is not. A page known to be unmapped ends the command with
NO_MAPPING (U9; what `finishCommand` does for a REPLY is MessageResponseFinishes). Too large a reply is a fatal error; that
this includes a size beyond the 16 bits of `length` is the model's inference (R124, R165; assumption 28). That the first
piece is translated and requested in the `executeCommand` step is the model's inference (assumption 16). -/
def Obligations.ReplyStarts : Prop :=
  ∀ (s : State) (arg : BitVec 8) (err : BitVec 53), s.cmdInProgress = false → arg.toNat < s.cfg.numEndpoints →
    (s.ep arg.toNat).type = 2#3 →
    let size := s.operand 0 (·.dataSize)
    let m := s.operand 1 (·.offset)
    (s.cfg.maxNocPacketSize < size.toNat + 25 ∨ 2 ^ 16 ≤ size.toNat →
      exec (.reply arg err) s = .fault .messageTooLarge) ∧
    (size.toNat + 25 ≤ s.cfg.maxNocPacketSize → size.toNat < 2 ^ 16 →
      (∀ page, (s.cfg.tlbEntries = 0 ∧ page = pageBase m) ∨
          (s.cfg.tlbEntries ≠ 0 ∧ tlbLookup s.tlb m 0x09#5 = .hit page) →
        exec (.reply arg err) s = .next { s with
          cmdInProgress := true
          cmdState := .replyHeader ⟨arg.toNat, m, some (page + pageOffset m), 0#8⟩ []
          memOutstanding := s.memOutstanding ++ [⟨page + pageOffset m, .read (blockPiece s.cfg m 25), .replyHeader⟩]
          draws := s.draws + 2 }) ∧
      (∀ pf, s.cfg.tlbEntries ≠ 0 → tlbLookup s.tlb m 0x09#5 = (if pf then .pagefault else .miss) →
        exec (.reply arg err) s = .next { s with
          cmdInProgress := true
          cmdState := .replyHeader ⟨arg.toNat, m, none, 0#8⟩ []
          translateEvents := s.translateEvents ++ [⟨s.nextEvent, m, 0x09#5, .replyHeader, pf, .fresh⟩]
          nextEvent := s.nextEvent + 1
          draws := s.draws + 2 }) ∧
      (s.cfg.tlbEntries ≠ 0 → tlbLookup s.tlb m 0x09#5 = .nomap →
        exec (.reply arg err) s = finishCommand .noMapping { s with
          cmdInProgress := true
          cmdState := .replyHeader ⟨arg.toNat, m, none, 0#8⟩ []
          draws := s.draws + 2 }))

/-- R241, R131, R242 (D47), R243 (D23), R244, R245: while bytes of the stored header are missing, the next piece is translated and
requested (one piece after the other is the model's inference, assumption 16). With the header read, REPLY clears
REPLY_ENABLED in memory and starts the transfer of a message to the sender; a header without REPLY_ENABLED, too large a
size (the size rule of ReplyStarts, for the DATA_SIZE read now; assumption 28), or a sender that fits no NoC address is a
fatal error. -/
def Obligations.ReplyBuildsTheMessage : Prop :=
  (∀ (s : State) (ctx : ReplyCtx) (got bytes : List Byte), s.cmdState = .replyHeader ctx got →
    0 < (got ++ bytes).length → (got ++ bytes).length < 25 →
    let a := ctx.msg + BitVec.ofNat 64 (got ++ bytes).length
    let t : State := { s with cmdState := .replyHeader ctx (got ++ bytes) }
    (∀ page, (s.cfg.tlbEntries = 0 ∧ page = pageBase a) ∨
        (s.cfg.tlbEntries ≠ 0 ∧ tlbLookup s.tlb a 0x09#5 = .hit page) →
      headerAnswer bytes s = .next { t with
        memOutstanding := s.memOutstanding ++
          [⟨page + pageOffset a, .read (blockPiece s.cfg a (25 - (got ++ bytes).length)), .replyHeader⟩] }) ∧
    (∀ pf, s.cfg.tlbEntries ≠ 0 → tlbLookup s.tlb a 0x09#5 = (if pf then .pagefault else .miss) →
      headerAnswer bytes s = .next { t with
        translateEvents := s.translateEvents ++ [⟨s.nextEvent, a, 0x09#5, .replyHeader, pf, .fresh⟩]
        nextEvent := s.nextEvent + 1 }) ∧
    (s.cfg.tlbEntries ≠ 0 → tlbLookup s.tlb a 0x09#5 = .nomap → headerAnswer bytes s = finishCommand .noMapping t)) ∧
  ∀ (s : State) (ctx : ReplyCtx) (got bytes : List Byte) (phys target : Word), s.cmdState = .replyHeader ctx got →
    25 ≤ (got ++ bytes).length → ctx.phys = some phys →
    let h := decodeHeader (got ++ bytes)
    let size := s.operand 0 (·.dataSize)
    (h.flags &&& 0x04#8 = 0#8 → headerAnswer bytes s = .fault .replyDisabled) ∧
    (h.flags &&& 0x04#8 ≠ 0#8 → s.cfg.maxNocPacketSize < size.toNat + 25 ∨ 2 ^ 16 ≤ size.toNat →
      headerAnswer bytes s = .fault .messageTooLarge) ∧
    (h.flags &&& 0x04#8 ≠ 0#8 → size.toNat + 25 ≤ s.cfg.maxNocPacketSize → size.toNat < 2 ^ 16 →
      2 ^ 10 ≤ h.senderCore.toNat ∨ 2 ^ 11 ≤ h.senderVpe.toNat → headerAnswer bytes s = .fault .nocAddrField) ∧
    (h.flags &&& 0x04#8 ≠ 0#8 → nocAddr h.senderCore.toNat h.senderVpe.toNat h.replyEp.toNat = some target →
      size.toNat + 25 ≤ s.cfg.maxNocPacketSize → size.toNat < 2 ^ 16 → s.cfg.maxNocPacketSize ≤ s.cfg.bufSize →
      headerAnswer bytes s = .next { s with
        mem := s.mem.writeBytes phys [h.flags &&& ~~~0x04#8]
        cmdState := .sendXfer (some { ctx with flags := h.flags &&& ~~~0x04#8 })
        draws := s.draws + 2
        pendingTransfers := s.pendingTransfers ++
          [{ type := .localRead
             remoteAddr := target
             localAddr := s.operand 1 (·.dataAddr)
             size := size.toNat
             header := some
               { flags := 0x03#8 ||| (h.flags &&& 0x08#8)
                 senderCore := s.cfg.coreId.setWidth 16
                 senderEp := BitVec.ofNat 8 ctx.ep
                 replyEp := h.senderEp
                 length := size.setWidth 16
                 senderVpe := s.dtu.vpeId.setWidth 16
                 label := h.replyLabel
                 replyLabel := 0#64 }
             payload := []
             pkt := none
             flags := ⟨false, false, true⟩
             pktType := .message
             recv := none }] })

/-- R212, R213, R238, R246, R247 (D4, D24, D26, D54): the response to a message packet ends the SEND or REPLY that sent it,
and COMMAND then holds the result. However a REPLY ends, the slot of its message is freed, an unread one with its count, and
its stored header is marked REPLY_FAILED on VPE_GONE; an address that is in no occupied slot is a fatal error. That the byte
written is the flags as REPLY read and cleared them, and that nothing is written where the header's place is unknown (U9), is
the model's inference (assumption 9). -/
def Obligations.MessageResponseFinishes : Prop :=
  (∀ (s : State) (ctx : ReplyCtx) (r : ErrorCode), s.cmdInProgress = true → s.cmdState.replyCtx = some ctx →
    let e := s.ep ctx.ep
    let idx := (ctx.msg - e.bufAddr).toNat / e.msgSize.toNat
    let ended : State := { s with
      mem := if r = .vpeGone then ctx.phys.elim s.mem fun pa => s.mem.writeBytes pa [ctx.flags ||| 0x10#8] else s.mem
      command := (errorCode s.cfg r).setWidth 64 <<< 11
      cmdInProgress := false
      cmdState := .none
      staleOperands := [] }
    (e.msgSize = 0#16 → finishCommand r s = .fault .badEndpoint) ∧
    (e.msgSize ≠ 0#16 → e.size.toNat ≤ idx → finishCommand r s = .fault .slotOutOfRange) ∧
    (e.msgSize ≠ 0#16 → idx < e.size.toNat → e.occupied.getLsbD idx = false →
      finishCommand r s = .fault .slotNotOccupied) ∧
    (e.msgSize ≠ 0#16 → idx < e.size.toNat → e.occupied.getLsbD idx = true → e.unread.getLsbD idx = false →
      finishCommand r s = .next { ended with
        eps := s.eps.set ctx.ep (e.withOccupied (clearSlot e.occupied idx)) }) ∧
    (e.msgSize ≠ 0#16 → idx < e.size.toNat → e.occupied.getLsbD idx = true → e.unread.getLsbD idx = true →
      finishCommand r s = .next { ended with
        eps := s.eps.set ctx.ep
          (((e.withOccupied (clearSlot e.occupied idx)).withUnread (clearSlot e.unread idx)).withMsgCount
            (e.msgCount - 1))
        dtu := { s.dtu with msgCnt := s.dtu.msgCnt - 1 }
        out := s.out ++ [.setDenySuspend (s.dtu.msgCnt - 1 != 0#64)] })) ∧
  ∀ (s : State) (k : Nat) (p : WirePacket) (r : ErrorCode), s.cmdInProgress = true →
    s.nocOutstanding[k]? = some ⟨p, .message⟩ → p.kind = .write →
    nocRespondStep k r [] s = finishCommand r { s with nocOutstanding := s.nocOutstanding.eraseIdx k } ∧
    (s.cmdState = .sendNoc none →
      nocRespondStep k r [] s = .next { s with
        nocOutstanding := s.nocOutstanding.eraseIdx k
        command := (errorCode s.cfg r).setWidth 64 <<< 11
        cmdInProgress := false
        cmdState := .none
        staleOperands := [] })

/-- R265, R266: FETCH_MSG takes the first unread slot at or after `rdPos`, wrapping, and puts its address into OFFSET; an
empty ring gives 0. MSG_CNT and the suspend pin are D25 and D44 (R27), the cleared COMMAND is D4, the emptied `staleOperands`
are the model's (assumption 7). -/
def Obligations.FetchTakesTheFirstUnread : Prop :=
  ∀ (s : State) (arg : BitVec 8) (err : BitVec 53), s.cmdInProgress = false → s.cmdState = .none →
    arg.toNat < s.cfg.numEndpoints → (s.ep arg.toNat).type = 2#3 →
    let e := s.ep arg.toNat
    let slot := fun k => (e.rdPos.toNat + k) % e.size.toNat
    ((∀ k < e.size.toNat, e.unread.getLsbD (slot k) = false) →
      exec (.fetchMsg arg err) s = .next { s with
        opnd := { s.opnd with offset := 0#64 }
        command := 0#64
        staleOperands := [] }) ∧
    (∀ k < e.size.toNat, e.unread.getLsbD (slot k) = true → (∀ j < k, e.unread.getLsbD (slot j) = false) →
      exec (.fetchMsg arg err) s = .next { s with
        eps := s.eps.set arg.toNat
          (((e.withUnread (clearSlot e.unread (slot k))).withMsgCount (e.msgCount - 1)).withRdPos
            (BitVec.ofNat 6 ((slot k + 1) % e.size.toNat)))
        dtu := { s.dtu with msgCnt := s.dtu.msgCnt - 1 }
        opnd := { s.opnd with offset := e.bufAddr + BitVec.ofNat 64 (slot k) * e.msgSize.setWidth 64 }
        command := 0#64
        staleOperands := []
        out := s.out ++ [.setDenySuspend (s.dtu.msgCnt - 1 != 0#64)] })

/-- R267: fetches that no arriving message comes between visit the unread slots in ring order from `rdPos`, each once. -/
def Obligations.FetchesFollowTheRing : Prop :=
  ∀ e : EpWords, RingOk e →
    e.fetchOrder 32 =
      ((List.range e.size.toNat).map fun k => (e.rdPos.toNat + k) % e.size.toNat).filter fun i => e.unread.getLsbD i

/-- R270, R271 (the clearing of an unread bit is D24): ACK_MSG frees the slot that holds the address; an address outside the
ring, a slot that is free, or a ring with slots of no bytes is a fatal error. -/
def Obligations.AckFreesTheSlot : Prop :=
  ∀ (s : State) (arg : BitVec 8) (err : BitVec 53), s.cmdInProgress = false → s.cmdState = .none →
    arg.toNat < s.cfg.numEndpoints → (s.ep arg.toNat).type = 2#3 →
    let e := s.ep arg.toNat
    let idx := (s.operand 0 (·.offset) - e.bufAddr).toNat / e.msgSize.toNat
    (e.msgSize = 0#16 → exec (.ackMsg arg err) s = .fault .badEndpoint) ∧
    (e.msgSize ≠ 0#16 → e.size.toNat ≤ idx → exec (.ackMsg arg err) s = .fault .slotOutOfRange) ∧
    (e.msgSize ≠ 0#16 → idx < e.size.toNat → e.occupied.getLsbD idx = false →
      exec (.ackMsg arg err) s = .fault .slotNotOccupied) ∧
    (e.msgSize ≠ 0#16 → idx < e.size.toNat → e.occupied.getLsbD idx = true → e.unread.getLsbD idx = false →
      exec (.ackMsg arg err) s = .next { s with
        eps := s.eps.set arg.toNat (e.withOccupied (clearSlot e.occupied idx))
        command := 0#64
        staleOperands := []
        draws := s.draws + 1 }) ∧
    (e.msgSize ≠ 0#16 → idx < e.size.toNat → e.occupied.getLsbD idx = true → e.unread.getLsbD idx = true →
      exec (.ackMsg arg err) s = .next { s with
        eps := s.eps.set arg.toNat
          (((e.withOccupied (clearSlot e.occupied idx)).withUnread (clearSlot e.unread idx)).withMsgCount
            (e.msgCount - 1))
        dtu := { s.dtu with msgCnt := s.dtu.msgCnt - 1 }
        command := 0#64
        staleOperands := []
        out := s.out ++ [.setDenySuspend (s.dtu.msgCnt - 1 != 0#64)]
        draws := s.draws + 1 })

/-- R44 with the count of 90_conflicts.md C2, R276: allocation, the end of a receive, a fetch, and freeing a slot, read or
not, keep the discipline of the ring. -/
def Obligations.RingOperationsKeepTheDiscipline : Prop :=
  ∀ e : EpWords, RingOk e →
    (∀ idx, e.freeSlot = some idx → RingOk (e.allocated idx)) ∧
    (∀ idx, e.occupied.getLsbD idx = true → e.unread.getLsbD idx = false → RingOk (e.received idx)) ∧
    (∀ idx, e.unreadSlot = some idx → RingOk (e.fetched idx)) ∧
    (∀ idx, e.occupied.getLsbD idx = true → e.unread.getLsbD idx = false → RingOk (e.freed idx)) ∧
    (∀ idx, e.unread.getLsbD idx = true → RingOk ((e.freed idx).unreadDropped idx))

/-- R250 (order D21), R251, R253: a MESSAGE or PAGEFAULT for another VPE is answered VPE_GONE, one for a full ring
NO_RING_SPACE, and nothing changes. -/
def Obligations.MessageRefused : Prop :=
  ∀ (s : State) (i : Instr) (p : Packet), i = .message p ∨ i = .pagefault p → 25 ≤ p.size →
    (s.dtu.vpeId.toNat ≠ p.addr.vpeId.toNat →
      exec i s = .next { s with out := s.out ++ [.nocResponse p .vpeGone []] }) ∧
    (s.dtu.vpeId.toNat = p.addr.vpeId.toNat → (decodeHeader p.data).flags &&& 0x09#8 ≠ 0x09#8 →
      p.addr.offset.toNat < s.cfg.numEndpoints → (s.ep p.addr.offset.toNat).type = 2#3 →
      p.size ≤ (s.ep p.addr.offset.toNat).msgSize.toNat →
      (∀ k < (s.ep p.addr.offset.toNat).size.toNat, (s.ep p.addr.offset.toNat).occupied.getLsbD k = true) →
      exec i s = .next { s with out := s.out ++ [.nocResponse p .noRingSpace []] })

/-- R250, R252, R254, R255, R261, R302: a MESSAGE or PAGEFAULT that is no page-fault reply gets the first free slot at or
after `wrPos`, wrapping, and its transfer into that slot is started; if it is a reply that grants credits, the SEND endpoint
it names gets them first (the order is D21; the overflow is D41). A message larger than a buffer is a fatal error (D30). The
`pktType` of that transfer, which sends no packet, is the model's choice (R59, assumption 27). -/
def Obligations.MessageAccepted : Prop :=
  ∀ (s : State) (i : Instr) (p : Packet), i = .message p ∨ i = .pagefault p → 25 ≤ p.size →
    s.dtu.vpeId.toNat = p.addr.vpeId.toNat → (decodeHeader p.data).flags &&& 0x09#8 ≠ 0x09#8 →
    p.addr.offset.toNat < s.cfg.numEndpoints → (s.ep p.addr.offset.toNat).type = 2#3 →
    let h := decodeHeader p.data
    let t := p.addr.offset.toNat
    let e := s.ep t
    let slot := fun k => (e.wrPos.toNat + k) % e.size.toNat
    let r := h.replyEp.toNat
    let g := s.ep r
    let granted := h.flags &&& 0x03#8 = 0x03#8 ∧ r < s.cfg.numEndpoints ∧ g.type = 1#3 ∧ g.credits ≠ 0xFFFF#16
    let overflow := 0xFFFE < g.credits.toNat + g.maxMsgSize.toNat
    p.size ≤ e.msgSize.toNat →
    ∀ k < e.size.toNat, e.occupied.getLsbD (slot k) = false → (∀ j < k, e.occupied.getLsbD (slot j) = true) →
      (granted → overflow → exec i s = .fault .creditOverflow) ∧
      (¬ (granted ∧ overflow) → s.cfg.bufSize < p.size → exec i s = .fault .transferTooLarge) ∧
      (∀ eps, (¬ granted ∧ eps = s.eps) ∨
          (granted ∧ ¬ overflow ∧ eps = s.eps.set r (g.withCredits (g.credits + g.maxMsgSize))) →
        p.size ≤ s.cfg.bufSize →
        exec i s = .next { s with
          eps := eps.set t
            ((e.withOccupied (setSlot e.occupied (slot k))).withWrPos (BitVec.ofNat 6 ((slot k + 1) % e.size.toNat)))
          pendingTransfers := s.pendingTransfers ++
            [{ type := .remoteWrite
               remoteAddr := encodeNocAddr p.addr
               localAddr := e.bufAddr + BitVec.ofNat 64 (slot k) * e.msgSize.setWidth 64
               size := p.size
               header := none
               payload := p.data
               pkt := some p
               flags := ⟨true, false, false⟩
               pktType := .message
               recv := some (t, slot k) }] })

/-- R261 (when the grant is made is D21; the overflow is D41): a header with REPLY and GRANT_CREDITS adds `maxMsgSize` to a
SEND endpoint with bounded credits; an endpoint that is not there, not a SEND endpoint or unlimited gets nothing. -/
def Obligations.CreditGrant : Prop :=
  ∀ (s : State) (h : Header),
    let r := h.replyEp.toNat
    let e := s.ep r
    let granted := h.flags &&& 0x03#8 = 0x03#8 ∧ r < s.cfg.numEndpoints ∧ e.type = 1#3 ∧ e.credits ≠ 0xFFFF#16
    (¬ granted → grantCredits h s = .next s) ∧
    (granted → e.credits.toNat + e.maxMsgSize.toNat ≤ 0xFFFE →
      grantCredits h s = .next { s with eps := s.eps.set r (e.withCredits (e.credits + e.maxMsgSize)) }) ∧
    (granted → 0xFFFE < e.credits.toNat + e.maxMsgSize.toNat → grantCredits h s = .fault .creditOverflow)

/-- R275: over any sequence of debits and grants of an endpoint with bounded credits, the credits are the initial value less
`maxMsgSize` for each send and more for each grant, they stay bounded, they are at most the initial value when each grant
answers a send, and no other field changes. -/
def Obligations.CreditConservation : Prop :=
  ∀ (ops : List Bool) (e e' : EpWords), e.credits ≠ 0xFFFF#16 → e.creditRun ops = some e' →
    e'.credits.toNat + e.maxMsgSize.toNat * ops.count true = e.credits.toNat + e.maxMsgSize.toNat * ops.count false ∧
    (ops.count false ≤ ops.count true → e'.credits.toNat ≤ e.credits.toNat) ∧
    e'.credits ≠ 0xFFFF#16 ∧ e' = e.withCredits e'.credits

/-- R250 (D21, D22), R256 (D48): what is wrong with a message is found in this order: its header is missing, its endpoint is
out of range, of another type, or its slots are too small. -/
def Obligations.MessageFaults : Prop :=
  ∀ (s : State) (i : Instr) (p : Packet), i = .message p ∨ i = .pagefault p →
    (p.size < 25 → exec i s = .fault .missingHeader) ∧
    (25 ≤ p.size → s.dtu.vpeId.toNat = p.addr.vpeId.toNat → (decodeHeader p.data).flags &&& 0x09#8 ≠ 0x09#8 →
      (s.cfg.numEndpoints ≤ p.addr.offset.toNat → exec i s = .fault .endpointOutOfRange) ∧
      (p.addr.offset.toNat < s.cfg.numEndpoints → (s.ep p.addr.offset.toNat).type ≠ 2#3 →
        exec i s = .fault .badEndpoint) ∧
      (p.addr.offset.toNat < s.cfg.numEndpoints → (s.ep p.addr.offset.toNat).type = 2#3 →
        (s.ep p.addr.offset.toNat).msgSize.toNat < p.size → exec i s = .fault .messageTooLarge))

/-- R258, R259: when every byte of a message is in memory, the slot becomes unread, the counts rise, the core is woken, and
only then the response leaves, if the packet needs one; the buffer is released (R313). That MSG_CNT rises is D25 and that
the suspend pin follows it D44 (R27, R439; assumption 31). -/
def Obligations.ReceiveCompletes : Prop :=
  ∀ (s : State) (b t idx : Nat) (buf : Buffer) (ev : XferEvent) (p : Packet), s.bufs[b]? = some buf →
    buf.free = false → buf.event = some ev → ev.type = .remoteWrite → ev.flags.msgRecv = true →
    ev.recv = some (t, idx) → ev.pkt = some p → ev.waiting = false → ev.failed = false →
    ev.size = 0 → ev.outstanding = 0 →
    xferStep b s = .next { s with
      eps := s.eps.set t (((s.ep t).withMsgCount ((s.ep t).msgCount + 1)).withUnread (setSlot (s.ep t).unread idx))
      dtu := { s.dtu with msgCnt := s.dtu.msgCnt + 1 }
      bufs := s.bufs.set b { buf with free := true, event := none }
      out := s.out ++ [.setDenySuspend (s.dtu.msgCnt + 1 != 0#64), .wakeCore] ++
        (if p.needsResponse then [.nocResponse p .noError []] else []) }

/-! ## The memory engine -/

/-- R281 to R284, R289: READ through a MEMORY endpoint with the right sends the request of its first chunk. -/
def Obligations.ReadStarts : Prop :=
  ∀ (s : State) (arg : BitVec 8) (err : BitVec 53) (target : Word), s.cmdInProgress = false →
    arg.toNat < s.cfg.numEndpoints → (s.ep arg.toNat).type = 3#3 →
    let e := s.ep arg.toNat
    let size := s.operand 0 (·.dataSize)
    let offset := s.operand 1 (·.offset)
    e.memFlags.getLsbD 0 = true → offset.toNat + size.toNat ≤ e.reqSize.toNat → size ≠ 0 →
    nocAddr e.remoteCore.toNat e.memVpe.toNat (e.remoteAddr + offset).toNat = some target →
    let p : WirePacket :=
      { ptype := .readReq
        addr := target
        kind := .read
        size := min s.cfg.maxNocPacketSize size.toNat
        data := []
        needsResponse := true
        srcCore := s.cfg.coreId }
    exec (.read arg err) s = .next { s with
      cmdInProgress := true
      cmdState := .memRead ⟨arg.toNat, s.operand 2 (·.dataAddr), size, offset⟩ 0
      out := s.out ++ [.nocRequest p]
      nocOutstanding := s.nocOutstanding ++ [⟨p, .readChunk (decide (size.toNat ≤ s.cfg.maxNocPacketSize))⟩]
      draws := s.draws + 3 }

/-- R281 to R283, R287, R289: WRITE through a MEMORY endpoint with the right starts the transfer that reads its first
chunk. -/
def Obligations.WriteStarts : Prop :=
  ∀ (s : State) (arg : BitVec 8) (err : BitVec 53) (target : Word), s.cmdInProgress = false →
    arg.toNat < s.cfg.numEndpoints → (s.ep arg.toNat).type = 3#3 →
    let e := s.ep arg.toNat
    let size := s.operand 0 (·.dataSize)
    let offset := s.operand 1 (·.offset)
    e.memFlags.getLsbD 1 = true → offset.toNat + size.toNat ≤ e.reqSize.toNat → size ≠ 0 →
    s.cfg.maxNocPacketSize ≤ s.cfg.bufSize →
    nocAddr e.remoteCore.toNat e.memVpe.toNat (e.remoteAddr + offset).toNat = some target →
    exec (.write arg err) s = .next { s with
      cmdInProgress := true
      cmdState := .memWrite ⟨arg.toNat, s.operand 2 (·.dataAddr), size, offset⟩ 0
      draws := s.draws + 3
      pendingTransfers := s.pendingTransfers ++
        [{ type := .localRead
           remoteAddr := target
           localAddr := s.operand 2 (·.dataAddr)
           size := min s.cfg.maxNocPacketSize size.toNat
           header := none
           payload := []
           pkt := none
           flags := ⟨false, decide (size.toNat ≤ s.cfg.maxNocPacketSize), false⟩
           pktType := .writeReq
           recv := none }] }

/-- R282 (D27), R283 (D28), R291 (D29), R131: READ or WRITE without the right completes with ERR_ACCESS, beyond the region it is
a fatal error, of no bytes it completes at once, and for a remote address that fits no NoC address it is a fatal error. The three operand registers are then free values: the statement is for
whatever they hold. That this is so after ERR_ACCESS and after no bytes too is the model's inference (R290 read against
R282; assumption 19). -/
def Obligations.MemCommandChecks : Prop :=
  ∀ (s : State) (i : Instr) (arg : BitVec 8) (err : BitVec 53) (right : Nat), s.cmdInProgress = false →
    (i = .read arg err ∧ right = 0) ∨ (i = .write arg err ∧ right = 1) →
    arg.toNat < s.cfg.numEndpoints → (s.ep arg.toNat).type = 3#3 →
    let e := s.ep arg.toNat
    let size := (s.operand 0 (·.dataSize)).toNat
    let offset := (s.operand 1 (·.offset)).toNat
    (e.memFlags.getLsbD right = false → ∃ a n o d, exec i s = .next { s with
      command := s.cfg.errAccess.setWidth 64 <<< 11
      opnd := { s.opnd with dataAddr := a, dataSize := n, offset := o }
      cmdInProgress := false
      cmdState := .none
      staleOperands := []
      draws := d }) ∧
    (e.memFlags.getLsbD right = true → e.reqSize.toNat < offset + size → exec i s = .fault .memOutOfBounds) ∧
    (e.memFlags.getLsbD right = true → offset ≤ e.reqSize.toNat → size = 0 → ∃ a n o d, exec i s = .next { s with
      command := 0#64
      opnd := { s.opnd with dataAddr := a, dataSize := n, offset := o }
      cmdInProgress := false
      cmdState := .none
      staleOperands := []
      draws := d }) ∧
    (e.memFlags.getLsbD right = true → offset + size ≤ e.reqSize.toNat → size ≠ 0 →
      2 ^ 11 ≤ e.memVpe.toNat ∨ 2 ^ 37 ≤ (e.remoteAddr + s.operand 1 (·.offset)).toNat →
      exec i s = .fault .nocAddrField)

/-- R284 steps B and C, R287 step C, R289, R311, R392 (serial chunks are D29): the response to a chunk of READ starts the
transfer that stores its data, and the end of that transfer sends the request of the next chunk, or after the last ends the
command; an error ends the command at once; the response to a chunk of WRITE starts the transfer of the next chunk, or after
the last ends the command. The three operand registers are then free values (R290). A next chunk whose remote address fits
no NoC address is a fatal error (R131). That the last transfer of a READ ends the command in its own completion step is the
model's choice (R311, R480; assumption 25), and so is the `pktType` of a transfer that sends no packet (R59, assumption 27);
that the endpoint is read again for each chunk is its inference (assumption 20). -/
def Obligations.ChunkResponses : Prop :=
  ∀ (s : State) (m : MemCtx) (done : Nat), s.cmdInProgress = true →
    let target := fun at_ : Nat => nocAddr (s.ep m.ep).remoteCore.toNat (s.ep m.ep).memVpe.toNat
      ((s.ep m.ep).remoteAddr + m.offset + BitVec.ofNat 64 at_).toNat
    let chunk := fun at_ : Nat => min s.cfg.maxNocPacketSize (m.dataSize.toNat - at_)
    let isLast := fun at_ : Nat => decide (m.dataSize.toNat ≤ at_ + s.cfg.maxNocPacketSize)
    let misfit := fun at_ : Nat => 2 ^ 11 ≤ (s.ep m.ep).memVpe.toNat ∨
      2 ^ 37 ≤ ((s.ep m.ep).remoteAddr + m.offset + BitVec.ofNat 64 at_).toNat
    (∀ (k : Nat) (p : WirePacket) (last : Bool) (r : ErrorCode) (data : List Byte),
      let t : State := { s with nocOutstanding := s.nocOutstanding.eraseIdx k }
      (s.nocOutstanding[k]? = some ⟨p, .readChunk last⟩ → s.cmdState = .memRead m done → p.kind = .read →
        data.length = p.size → p.size ≤ s.cfg.bufSize →
        nocRespondStep k .noError data s = .next { t with
          pendingTransfers := s.pendingTransfers ++
            [{ type := .localWrite
               remoteAddr := p.addr
               localAddr := m.dataAddr + BitVec.ofNat 64 done
               size := p.size
               header := none
               payload := data
               pkt := none
               flags := ⟨false, last, false⟩
               pktType := .readReq
               recv := none }] }) ∧
      (∀ w, s.nocOutstanding[k]? = some ⟨p, .writeChunk false⟩ → s.cmdState = .memWrite m done → p.kind = .write →
        target (done + p.size) = some w → s.cfg.maxNocPacketSize ≤ s.cfg.bufSize →
        nocRespondStep k .noError [] s = .next { t with
          cmdState := .memWrite m (done + p.size)
          pendingTransfers := s.pendingTransfers ++
            [{ type := .localRead
               remoteAddr := w
               localAddr := m.dataAddr + BitVec.ofNat 64 (done + p.size)
               size := chunk (done + p.size)
               header := none
               payload := []
               pkt := none
               flags := ⟨false, isLast (done + p.size), false⟩
               pktType := .writeReq
               recv := none }] }) ∧
      (s.nocOutstanding[k]? = some ⟨p, .writeChunk false⟩ → s.cmdState = .memWrite m done → p.kind = .write →
        misfit (done + p.size) → nocRespondStep k .noError [] s = .fault .nocAddrField) ∧
      ((s.nocOutstanding[k]? = some ⟨p, .readChunk last⟩ ∧ s.cmdState = .memRead m done ∧ r ≠ .noError) ∨
          (s.nocOutstanding[k]? = some ⟨p, .writeChunk last⟩ ∧ s.cmdState = .memWrite m done ∧ r ≠ .noError) ∨
          (s.nocOutstanding[k]? = some ⟨p, .writeChunk true⟩ ∧ s.cmdState = .memWrite m done ∧ r = .noError ∧
            p.kind = .write ∧ data = []) →
        ∃ a n o d, nocRespondStep k r data s = .next { t with
          command := (errorCode s.cfg r).setWidth 64 <<< 11
          opnd := { s.opnd with dataAddr := a, dataSize := n, offset := o }
          cmdInProgress := false
          cmdState := .none
          staleOperands := []
          draws := d })) ∧
    (∀ (b : Nat) (buf : Buffer) (ev : XferEvent), s.bufs[b]? = some buf → buf.free = false → buf.event = some ev →
      ev.type = .localWrite → ev.waiting = false → ev.failed = false → ev.size = 0 → ev.outstanding = 0 →
      s.cmdState = .memRead m done →
      let t : State := { s with bufs := s.bufs.set b { buf with free := true, event := none } }
      (ev.flags.last = true → ∃ a n o d, xferStep b s = .next { t with
        command := 0#64
        opnd := { s.opnd with dataAddr := a, dataSize := n, offset := o }
        cmdInProgress := false
        cmdState := .none
        staleOperands := []
        draws := d }) ∧
      (ev.flags.last = false → misfit (done + ev.total) → xferStep b s = .fault .nocAddrField) ∧
      (∀ w, ev.flags.last = false → target (done + ev.total) = some w →
        let p : WirePacket :=
          { ptype := .readReq
            addr := w
            kind := .read
            size := chunk (done + ev.total)
            data := []
            needsResponse := true
            srcCore := s.cfg.coreId }
        xferStep b s = .next { t with
          cmdState := .memRead m (done + ev.total)
          out := s.out ++ [.nocRequest p]
          nocOutstanding := s.nocOutstanding ++ [⟨p, .readChunk (isLast (done + ev.total))⟩] }))

/-- R182 (D36), R293, R294, R296, R298: a READ_REQ in the register window is a register read of origin NOC; elsewhere it
starts the transfer that reads local memory, whose end is the response with the bytes read; one larger than a buffer is a
fatal error (D30). The `pktType` of that transfer, which sends no packet, is the model's choice (R59, assumption 27). -/
def Obligations.ReadRequestServed : Prop :=
  ∀ (s : State) (p : Packet),
    (inWindow s.cfg p.addr.offset.toNat = true → p.addr.offset.toNat < s.cfg.regFileBaseAddr.toNat + 2 ^ 13 →
      exec (.readReq p) s =
        exec (.regRead (.noc p) (BitVec.ofNat 13 (p.addr.offset.toNat - s.cfg.regFileBaseAddr.toNat)) p.size) s) ∧
    (inWindow s.cfg p.addr.offset.toNat = false → s.cfg.bufSize < p.size →
      exec (.readReq p) s = .fault .transferTooLarge) ∧
    (inWindow s.cfg p.addr.offset.toNat = false → p.size ≤ s.cfg.bufSize →
      exec (.readReq p) s = .next { s with
        pendingTransfers := s.pendingTransfers ++
          [{ type := .remoteRead
             remoteAddr := encodeNocAddr p.addr
             localAddr := p.addr.offset.setWidth 64
             size := p.size
             header := none
             payload := []
             pkt := some p
             flags := ⟨false, false, false⟩
             pktType := .readReq
             recv := none }] }) ∧
    (∀ b buf ev, s.bufs[b]? = some buf → buf.free = false → buf.event = some ev → ev.type = .remoteRead →
      ev.pkt = some p → ev.waiting = false → ev.failed = false → ev.size = 0 → ev.outstanding = 0 →
      xferStep b s = .next { s with
        bufs := s.bufs.set b { buf with free := true, event := none }
        out := s.out ++ [.nocResponse p .noError (slice buf.bytes 0 ev.total)] })

/-- R182 (D36), R293, R295, R296, R298: a WRITE_REQ in the register window is a register write of origin NOC; elsewhere it
starts the transfer that writes local memory, whose end is the response; one larger than a buffer is a fatal error (D30).
The `pktType` of that transfer, which sends no packet, is the model's choice (R59, assumption 27). -/
def Obligations.WriteRequestServed : Prop :=
  ∀ (s : State) (p : Packet),
    (inWindow s.cfg p.addr.offset.toNat = true → p.addr.offset.toNat < s.cfg.regFileBaseAddr.toNat + 2 ^ 13 →
      exec (.writeReq p) s =
        exec (.regWrite (.noc p) (BitVec.ofNat 13 (p.addr.offset.toNat - s.cfg.regFileBaseAddr.toNat)) p.data) s) ∧
    (inWindow s.cfg p.addr.offset.toNat = false → s.cfg.bufSize < p.size →
      exec (.writeReq p) s = .fault .transferTooLarge) ∧
    (inWindow s.cfg p.addr.offset.toNat = false → p.size ≤ s.cfg.bufSize →
      exec (.writeReq p) s = .next { s with
        pendingTransfers := s.pendingTransfers ++
          [{ type := .remoteWrite
             remoteAddr := encodeNocAddr p.addr
             localAddr := p.addr.offset.setWidth 64
             size := p.size
             header := none
             payload := p.data
             pkt := some p
             flags := ⟨false, false, false⟩
             pktType := .readReq
             recv := none }] }) ∧
    (∀ b buf ev, s.bufs[b]? = some buf → buf.free = false → buf.event = some ev → ev.type = .remoteWrite →
      ev.flags.msgRecv = false → ev.pkt = some p → p.needsResponse = true → ev.waiting = false → ev.failed = false →
      ev.size = 0 → ev.outstanding = 0 →
      xferStep b s = .next { s with
        bufs := s.bufs.set b { buf with free := true, event := none }
        out := s.out ++ [.nocResponse p .noError []] })

/-! ## Transfers -/

/-- R84, R305: with parameters of R7, a piece of a transfer is not empty, does not exceed the bytes left, and crosses
neither a block nor a page; and the request of a block is for such a piece. -/
def Obligations.PiecesStayInTheirBlock : Prop :=
  (∀ (c : Config) (a : Word) (n : Nat), c.valid = true → n ≠ 0 →
    let piece := min n (c.blockSize - a.toNat % c.blockSize)
    blockPiece c a n = piece ∧ 0 < piece ∧ a.toNat % c.blockSize + piece ≤ c.blockSize ∧
    (pageOffset a).toNat + piece ≤ 4096) ∧
  ∀ (s : State) (b : Nat) (page : Word) (buf : Buffer) (ev : XferEvent), s.bufs[b]? = some buf →
    s.event b = some ev →
    let piece := blockPiece s.cfg ev.localAddr ev.size
    let op : MemOp := if ev.type.writesLocal then .write (slice buf.bytes ev.pos piece) else .read piece
    (s.issueBlock b page).memOutstanding = s.memOutstanding ++ [⟨page + pageOffset ev.localAddr, op, .xfer b ev.pos⟩] ∧
    op.size ≤ piece

/-- R302 (D30), R303, R304: a transfer that does not fit a buffer is a fatal error, another is queued (assumption 6); a
pending request takes the free buffer with the lowest index, filled with its header or with the
packet's bytes; while none is free, or while a message receive holds the request back, it waits. -/
def Obligations.TransferTakesABuffer : Prop :=
  (∀ (s : State) (r : XferReq),
    let needed := r.size + if r.header.isSome then 25 else 0
    (s.cfg.bufSize < needed → startTransfer r s = .fault .transferTooLarge) ∧
    (needed ≤ s.cfg.bufSize →
      startTransfer r s = .next { s with pendingTransfers := s.pendingTransfers ++ [r] })) ∧
  ∀ (s : State) (k : Nat) (r : XferReq), s.pendingTransfers[k]? = some r →
    (∀ b buf, s.bufs[b]? = some buf → buf.free = true → (∀ j < b, ∀ x, s.bufs[j]? = some x → x.free = false) →
      (r.flags.msgRecv = true → ∀ x ∈ s.bufs, x.free = false → ∀ ev, x.event = some ev → ev.flags.msgRecv = false) →
      servePending k s = { s with
        pendingTransfers := s.pendingTransfers.eraseIdx k
        bufs := s.bufs.set b
          { bytes := splice buf.bytes 0
              (match r.header with
                | some h => encodeHeader h
                | none => if r.type = .localWrite ∨ r.type = .remoteWrite then r.payload else [])
            offset := if r.header.isSome then 25 else 0
            free := false
            event := some
              { type := r.type
                remoteAddr := r.remoteAddr
                localAddr := r.localAddr
                size := r.size
                flags := r.flags
                pkt := r.pkt
                pktType := r.pktType
                outstanding := 0
                start := r.localAddr
                total := r.size
                base := if r.header.isSome then 25 else 0
                recv := r.recv
                waiting := false
                failed := false } } }) ∧
    ((∀ x ∈ s.bufs, x.free = false) → servePending k s = s) ∧
    (r.flags.msgRecv = true → (∃ x ∈ s.bufs, x.free = false ∧ ∃ ev, x.event = some ev ∧ ev.flags.msgRecv = true) →
      servePending k s = s)

/-- R312 (D31): a transfer whose translation failed ends, when its requests have been answered, with NO_MAPPING: in COMMAND
for a command (for REPLY with all that ends it, see MessageResponseFinishes; for READ and WRITE the operand registers are
then free values, R290), in the response for an inbound request, and a message's slot is free again. -/
def Obligations.FailedTransfers : Prop :=
  ∀ (s : State) (b : Nat) (buf : Buffer) (ev : XferEvent) (p : Packet), s.bufs[b]? = some buf →
    buf.free = false → buf.event = some ev → ev.waiting = false → ev.failed = true → ev.outstanding = 0 →
    let released := s.bufs.set b { buf with free := true, event := none }
    (ev.type = .localRead → s.cmdInProgress = true → s.cmdState = .sendXfer none →
      xferStep b s = .next { s with
        bufs := released
        command := 0x2000#64
        cmdInProgress := false
        cmdState := .none
        staleOperands := [] }) ∧
    (∀ ctx, ev.type = .localRead → s.cmdState = .sendXfer (some ctx) →
      xferStep b s = finishCommand .noMapping { s with bufs := released }) ∧
    (∀ m done, (ev.type = .localRead ∧ s.cmdState = .memWrite m done) ∨
        (ev.type = .localWrite ∧ s.cmdState = .memRead m done) → s.cmdInProgress = true →
      ∃ a n o d, xferStep b s = .next { s with
        bufs := released
        command := 0x2000#64
        opnd := { s.opnd with dataAddr := a, dataSize := n, offset := o }
        cmdInProgress := false
        cmdState := .none
        staleOperands := []
        draws := d }) ∧
    (ev.type = .remoteRead ∨ (ev.type = .remoteWrite ∧ ev.flags.msgRecv = false) → ev.pkt = some p →
      xferStep b s = .next { s with bufs := released, out := s.out ++ [.nocResponse p .noMapping []] }) ∧
    (∀ t idx, ev.type = .remoteWrite → ev.flags.msgRecv = true → ev.recv = some (t, idx) → ev.pkt = some p →
      xferStep b s = .next { s with
        bufs := released
        eps := s.eps.set t ((s.ep t).withOccupied (clearSlot (s.ep t).occupied idx))
        out := s.out ++ [.nocResponse p .noMapping []] })

/-- R82, R305 to R311 for a transfer that reads local memory for a SEND, REPLY or WRITE, without a TLB (R71, D33): some schedule
takes it to its end, and the packet it sends carries the buffer's header followed by the bytes that memory holds. R65, R237,
R287 (steps B and C): the packet's response is awaited, by the message or by the chunk of a WRITE, and a SEND or REPLY goes on
from its transfer to the NoC. Then the same for the last step of such a transfer by itself, with or without a TLB (R310, R311,
R313). -/
def Obligations.LocalReadSendsWhatMemoryHolds : Prop :=
  (∀ (s : State) (b : Nat) (buf : Buffer) (ev : XferEvent), Inv s → s.cfg.tlbEntries = 0 →
    s.bufs[b]? = some buf → buf.event = some ev → ev.type = .localRead → ev.waiting = false → ev.failed = false →
    ev.outstanding = 0 → ev.localAddr = ev.start → ev.size = ev.total → ev.start.toNat + ev.total ≤ 2 ^ 64 →
    s.cfg.backs ev.start.toNat ev.total = true →
    let p : WirePacket :=
      { ptype := ev.pktType
        addr := ev.remoteAddr
        kind := .write
        size := ev.base + ev.total
        data := slice buf.bytes 0 ev.base ++ s.mem.readBytes ev.start ev.total
        needsResponse := true
        srcCore := s.cfg.coreId }
    ∃ events t, forEach runEvent events s = .next t ∧
      t.out = s.out ++ [.nocRequest p] ∧
      t.nocOutstanding =
        s.nocOutstanding ++ [⟨p, if ev.flags.message then .message else .writeChunk ev.flags.last⟩] ∧
      (∀ r, s.cmdState = .sendXfer r → t.cmdState = .sendNoc r) ∧
      ((∀ r, s.cmdState ≠ .sendXfer r) → t.cmdState = s.cmdState) ∧
      t.mem = s.mem ∧ t.eps = s.eps ∧ t.dtu = s.dtu ∧ t.command = s.command ∧ t.event b = none) ∧
  ∀ (s : State) (b : Nat) (buf : Buffer) (ev : XferEvent), s.bufs[b]? = some buf → buf.free = false →
    buf.event = some ev → ev.type = .localRead → ev.waiting = false → ev.failed = false → ev.size = 0 →
    ev.outstanding = 0 → ev.base + ev.total ≤ buf.bytes.length →
    let p : WirePacket :=
      { ptype := ev.pktType
        addr := ev.remoteAddr
        kind := .write
        size := ev.base + ev.total
        data := slice buf.bytes 0 (ev.base + ev.total)
        needsResponse := true
        srcCore := s.cfg.coreId }
    let t : State := { s with
      bufs := s.bufs.set b { buf with free := true, event := none }
      out := s.out ++ [.nocRequest p]
      nocOutstanding := s.nocOutstanding ++ [⟨p, if ev.flags.message then .message else .writeChunk ev.flags.last⟩] }
    (∀ r, s.cmdState = .sendXfer r → xferStep b s = .next { t with cmdState := .sendNoc r }) ∧
    ((∀ r, s.cmdState ≠ .sendXfer r) → xferStep b s = .next t)

/-- R82, R305 to R311 for a transfer that writes local memory for an inbound WRITE_REQ, without a TLB (R71, D33): some schedule
takes it to its end, memory then holds the packet's bytes at the transfer's addresses and is unchanged everywhere else, and
the response is the one thing that has left. The packet's bytes are those at the front of the buffer, where the transfer put
them when it took it (TransferTakesABuffer). -/
def Obligations.RemoteWriteStoresThePacket : Prop :=
  ∀ (s : State) (b : Nat) (buf : Buffer) (ev : XferEvent) (p : Packet), Inv s → s.cfg.tlbEntries = 0 →
    s.bufs[b]? = some buf → buf.event = some ev → ev.type = .remoteWrite → ev.flags.msgRecv = false →
    ev.pkt = some p → p.needsResponse = true → ev.waiting = false → ev.failed = false →
    ev.outstanding = 0 → ev.localAddr = ev.start → ev.size = ev.total → ev.base = 0 →
    ev.start.toNat + ev.total ≤ 2 ^ 64 → s.cfg.backs ev.start.toNat ev.total = true →
    ∃ events t, forEach runEvent events s = .next t ∧
      (∀ k, k < ev.total → buf.bytes[k]? = some (t.mem.read (ev.start.toNat + k))) ∧
      (p.data.length = ev.total → slice buf.bytes 0 ev.total = p.data →
        ∀ k, k < p.data.length → p.data[k]? = some (t.mem.read (ev.start.toNat + k))) ∧
      (∀ a, a < ev.start.toNat ∨ ev.start.toNat + ev.total ≤ a → t.mem.read a = s.mem.read a) ∧
      t.out = s.out ++ [.nocResponse p .noError []] ∧
      t.eps = s.eps ∧ t.dtu = s.dtu ∧ t.command = s.command ∧ t.event b = none

/-- R90, R82, R163: local memory as a store of bytes. A write of bytes from an address changes those bytes, addresses taken
modulo 2^64, and no other; a read gives the bytes that are there. An answer to a request is one of the two, and goes to what
waits for it: the CPU; a buffer, which gets the bytes at the place the request was made for (R309, D57), moves its cursor and
has one answer less to wait for; a walk (R341, see WalkGoesOn); the header read of a REPLY (R241, see ReplyBuildsTheMessage);
an inbound cache-memory request (see CacheMemoryRequests). A request that local memory does not back stays (U19). The other
statements say what is stored by the same `writeBytes`. -/
def Obligations.LocalMemoryIsAByteStore : Prop :=
  (∀ (m : Memory) (a : Word) (d : List Byte), m.wf = true → d.length ≤ 2 ^ 64 →
    (m.writeBytes a d).wf = true ∧
    ∀ x, (m.writeBytes a d).read x =
      if inSpan a d.length x then d.getD (BitVec.ofNat 64 x - a).toNat 0#8 else m.read x) ∧
  (∀ (m : Memory) (a : Word) (n k : Nat), k < n →
    (m.readBytes a n)[k]? = some (m.read (a + BitVec.ofNat 64 k).toNat)) ∧
  ∀ (s : State) (k : Nat) (r : MemReq), s.memOutstanding[k]? = some r →
    (s.cfg.backs r.addr.toNat r.op.size = false → memAnswer k s = .next s) ∧
    (∀ n req, s.cfg.backs r.addr.toNat n = true → r.op = .read n → r.tag = .cpu req →
      memAnswer k s = .next { s with
        memOutstanding := s.memOutstanding.eraseIdx k
        out := s.out ++ [.cpuAnswer req.id (s.mem.readBytes r.addr n)] }) ∧
    (∀ d req, s.cfg.backs r.addr.toNat d.length = true → r.op = .write d → r.tag = .cpu req →
      memAnswer k s = .next { s with
        memOutstanding := s.memOutstanding.eraseIdx k
        mem := s.mem.writeBytes r.addr d
        out := s.out ++ [.cpuAnswer req.id []] }) ∧
    (∀ b pos buf ev, r.tag = .xfer b pos → s.bufs[b]? = some buf → buf.free = false → buf.event = some ev →
      (∀ n, s.cfg.backs r.addr.toNat n = true → r.op = .read n →
        memAnswer k s = .next { s with
          memOutstanding := s.memOutstanding.eraseIdx k
          bufs := s.bufs.set b { buf with
            bytes := splice buf.bytes pos (s.mem.readBytes r.addr n)
            offset := buf.offset + n
            event := some { ev with outstanding := ev.outstanding - 1 } } }) ∧
      (∀ d, s.cfg.backs r.addr.toNat d.length = true → r.op = .write d →
        memAnswer k s = .next { s with
          memOutstanding := s.memOutstanding.eraseIdx k
          mem := s.mem.writeBytes r.addr d
          bufs := s.bufs.set b { buf with
            offset := buf.offset + d.length
            event := some { ev with outstanding := ev.outstanding - 1 } } })) ∧
    (∀ n, s.cfg.backs r.addr.toNat n = true → r.op = .read n →
      let t : State := { s with memOutstanding := s.memOutstanding.eraseIdx k }
      (∀ id, r.tag = .walk id → memAnswer k s = walkAnswer id (s.mem.readBytes r.addr n) t) ∧
      (r.tag = .replyHeader → memAnswer k s = headerAnswer (s.mem.readBytes r.addr n) t))

/-! ## The TLB and the page-table unit -/

/-- R331: the four results of a lookup, in the order of the tests. -/
def Obligations.TlbLookupResults : Prop :=
  ∀ (tlb : List TlbEntry) (virt : Word) (access : BitVec 5),
    ((∀ e ∈ tlb, e.vpn ≠ vpnOf virt) → tlbLookup tlb virt access = .miss) ∧
    ∀ e ∈ tlb, e.vpn = vpnOf virt → (tlb.map (·.vpn)).Nodup →
      (e.blocked = true → tlbLookup tlb virt access = .pagefault) ∧
      (e.blocked = false → e.flags = 0#5 → tlbLookup tlb virt access = .nomap) ∧
      (e.blocked = false → e.flags ≠ 0#5 → e.flags &&& access ≠ access → tlbLookup tlb virt access = .pagefault) ∧
      (e.blocked = false → e.flags ≠ 0#5 → e.flags &&& access = access → tlbLookup tlb virt access = .hit e.phys)

/-- R332, R333 (D17), R336 (D18), R344: unblocking a page without an entry changes nothing; of its entry it deletes a placeholder,
so that the page misses, and takes the block from any other, which then gives what its rights give. After an insertion that
has a place, lookups of the page hit for every access within the rights; after a block of a page that has a place they fault.
The places are: the page's own entry, which is overwritten where it stands; or a free one, beside which all others stay (R116);
or that of one entry that is not blocked, by free choice. Where there is none, the TLB stays as it is. No blocked entry of
another page is evicted, place or no place. -/
def Obligations.TlbInsertAndBlock : Prop :=
  (∀ (s : State) (virt : Word) (access : BitVec 5), (s.tlb.map (·.vpn)).Nodup →
    ((∀ e ∈ s.tlb, e.vpn ≠ vpnOf virt) → s.tlbUnblock (vpnOf virt) = s) ∧
    ∀ e ∈ s.tlb, e.vpn = vpnOf virt →
      (e.flags = 0#5 →
        s.tlbUnblock (vpnOf virt) = { s with tlb := s.tlb.filter fun x => x.vpn != vpnOf virt } ∧
        tlbLookup (s.tlbUnblock (vpnOf virt)).tlb virt access = .miss) ∧
      (e.flags ≠ 0#5 →
        s.tlbUnblock (vpnOf virt) =
          { s with tlb := s.tlb.map fun x => if x.vpn = vpnOf virt then { x with blocked := false } else x } ∧
        tlbLookup (s.tlbUnblock (vpnOf virt)).tlb virt access =
          if e.flags &&& access = access then .hit e.phys else .pagefault)) ∧
  ∀ (s : State) (virt phys : Word) (flags access : BitVec 5),
    ((∃ e ∈ s.tlb, e.vpn = vpnOf virt) ∨ s.tlb.length < s.cfg.tlbEntries ∨ (∃ e ∈ s.tlb, e.blocked = false) →
      (flags ≠ 0#5 → flags &&& access = access →
        tlbLookup (s.tlbInsert (vpnOf virt) phys flags).tlb virt access = .hit phys) ∧
      (flags = 0#5 → tlbLookup (s.tlbInsert (vpnOf virt) phys flags).tlb virt access = .nomap) ∧
      tlbLookup (s.tlbBlock (vpnOf virt)).tlb virt access = .pagefault) ∧
    (∃ tlb, s.tlbInsert (vpnOf virt) phys flags = { s with tlb := tlb, draws := s.draws + 1 }) ∧
    ((∃ e ∈ s.tlb, e.vpn = vpnOf virt) →
      (s.tlbInsert (vpnOf virt) phys flags).tlb =
        s.tlb.map (fun x => if x.vpn = vpnOf virt then ⟨vpnOf virt, phys, flags, false⟩ else x) ∧
      s.tlbBlock (vpnOf virt) =
        { s with tlb := s.tlb.map fun x => if x.vpn = vpnOf virt then { x with blocked := true } else x }) ∧
    ((∀ e ∈ s.tlb, e.vpn ≠ vpnOf virt) →
      (∃ tlb, s.tlbBlock (vpnOf virt) = { s with tlb := tlb, draws := s.draws + 1 }) ∧
      (s.tlb.length < s.cfg.tlbEntries →
        (s.tlbInsert (vpnOf virt) phys flags).tlb = s.tlb ++ [⟨vpnOf virt, phys, flags, false⟩] ∧
        (s.tlbBlock (vpnOf virt)).tlb = s.tlb ++ [⟨vpnOf virt, 0#64, 0#5, true⟩]) ∧
      (s.cfg.tlbEntries ≤ s.tlb.length → (∃ e ∈ s.tlb, e.blocked = false) →
        (∃ i e, s.tlb[i]? = some e ∧ e.blocked = false ∧
          (s.tlbInsert (vpnOf virt) phys flags).tlb = s.tlb.set i ⟨vpnOf virt, phys, flags, false⟩) ∧
        ∃ i e, s.tlb[i]? = some e ∧ e.blocked = false ∧
          (s.tlbBlock (vpnOf virt)).tlb = s.tlb.set i ⟨vpnOf virt, 0#64, 0#5, true⟩)) ∧
    ((∀ e ∈ s.tlb, e.vpn ≠ vpnOf virt ∧ e.blocked = true) → s.cfg.tlbEntries ≤ s.tlb.length →
      (s.tlbInsert (vpnOf virt) phys flags).tlb = s.tlb ∧ (s.tlbBlock (vpnOf virt)).tlb = s.tlb) ∧
    ∀ e ∈ s.tlb, e.blocked = true → e.vpn ≠ vpnOf virt →
      e ∈ (s.tlbInsert (vpnOf virt) phys flags).tlb ∧ e ∈ (s.tlbBlock (vpnOf virt)).tlb

/-- R305, R306, R308, R312, R335, R340 to R343 (D16, D46), R355: a transfer with bytes left asks for the page of its next block:
one that is known (no TLB is D33) gives the block's request, one that must be walked for or faults a translate event for which
the buffer waits, one known to be unmapped fails the transfer. A translate event with GONE is a fault; one whose page the TLB knows tells its
waiter, or is a fault; one whose page is not in the TLB loads the root entry. An answered load with the rights loads the next
entry down, or at the leaf fills the TLB and tells the waiter; without them it becomes a page fault. The walk that follows a
pager's reply resolves the record in flight (OneUpcallAtATime says how), or sends its upcall again; if its record is no longer
at the head of the queue, it only fills the TLB, or does nothing (assumptions 11 and 21). Last, what the waiters do when they
are told. -/
def Obligations.WalkGoesOn : Prop :=
  (∀ (s : State) (b : Nat) (buf : Buffer) (ev : XferEvent), s.bufs[b]? = some buf → buf.free = false →
    buf.event = some ev → ev.waiting = false → ev.failed = false → ev.size ≠ 0 →
    let access : BitVec 5 := if ev.type.writesLocal then 0x0A#5 else 0x09#5
    let piece := blockPiece s.cfg ev.localAddr ev.size
    let pos := ev.base + (ev.localAddr - ev.start).toNat
    let rewritten := fun e : XferEvent => s.bufs.set b { buf with event := some e }
    (∀ page, (s.cfg.tlbEntries = 0 ∧ page = pageBase ev.localAddr) ∨
        (s.cfg.tlbEntries ≠ 0 ∧ tlbLookup s.tlb ev.localAddr access = .hit page) →
      xferStep b s = .next { s with
        bufs := rewritten { ev with
          localAddr := ev.localAddr + BitVec.ofNat 64 piece
          size := ev.size - piece
          outstanding := ev.outstanding + 1 }
        memOutstanding := s.memOutstanding ++ [⟨page + pageOffset ev.localAddr,
          if ev.type.writesLocal then .write (slice buf.bytes pos piece) else .read piece, .xfer b pos⟩] }) ∧
    (∀ pf, s.cfg.tlbEntries ≠ 0 → tlbLookup s.tlb ev.localAddr access = (if pf then .pagefault else .miss) →
      xferStep b s = .next { s with
        bufs := rewritten { ev with waiting := true }
        translateEvents := s.translateEvents ++ [⟨s.nextEvent, ev.localAddr, access, .xfer b, pf, .fresh⟩]
        nextEvent := s.nextEvent + 1 }) ∧
    (s.cfg.tlbEntries ≠ 0 → tlbLookup s.tlb ev.localAddr access = .nomap →
      xferStep b s = .next { s with bufs := rewritten { ev with failed := true } })) ∧
  (∀ (s : State) (ev : TranslateEvent) (bytes : List Byte) (level : Nat) (table : Word),
    let left : State := { s with translateEvents := s.translateEvents.filter fun e => e.id != ev.id }
    let load : Nat → Word → Result := fun level table => .next { s with
      translateEvents := s.translateEvents.map fun e =>
        if e.id = ev.id then { e with phase := .walking level table } else e
      memOutstanding := s.memOutstanding ++ [⟨pteAddr table ev.virt level, .read 8, .walk ev.id⟩] }
    (∀ k, s.translateEvents[k]? = some ev → ev.phase = .fresh →
      (ev.access.getLsbD 4 = true → ptuStep k s = startPagefault ev.virt ev.access ev.waiter left) ∧
      (ev.access.getLsbD 4 = false →
        (∀ page, tlbLookup s.tlb ev.virt ev.access = .hit page → ptuStep k s = notify ev.waiter (some page) left) ∧
        (tlbLookup s.tlb ev.virt ev.access = .nomap → ptuStep k s = notify ev.waiter none left) ∧
        (tlbLookup s.tlb ev.virt ev.access = .pagefault →
          ptuStep k s = startPagefault ev.virt ev.access ev.waiter left) ∧
        (tlbLookup s.tlb ev.virt ev.access = .miss → ptuStep k s = load (s.cfg.levelCnt - 1) s.dtu.rootPt))) ∧
    (s.translateEvents.find? (fun e => e.id == ev.id) = some ev → ev.phase = .walking level table →
      let pte := bytesWord bytes
      let need := if level = 0 then ev.access &&& 0x0F#5 else ev.access &&& 0x07#5
      let rights := (field pte 0 4).setWidth 5
      let base := (field pte 12 52).setWidth 64 <<< 12
      let filled := left.tlbInsert (vpnOf ev.virt) base rights
      (rights &&& need = need → level ≠ 0 → walkAnswer ev.id bytes s = load (level - 1) base) ∧
      ((∀ token, ev.waiter ≠ .retry token) →
        (rights &&& need = need → level = 0 → walkAnswer ev.id bytes s = notify ev.waiter (some base) filled) ∧
        (rights &&& need ≠ need →
          walkAnswer ev.id bytes s = startPagefault ev.virt ev.access ev.waiter left)) ∧
      (∀ q rest, ev.waiter = .retry q.token → s.pfQueue = q :: rest →
        (rights &&& need = need → level = 0 → walkAnswer ev.id bytes s = resolvePagefault (some base) filled) ∧
        (rights &&& need ≠ need → walkAnswer ev.id bytes s = sendPagefault left)) ∧
      (∀ token, ev.waiter = .retry token → (∀ q rest, s.pfQueue = q :: rest → q.token ≠ token) →
        (rights &&& need = need → level = 0 → walkAnswer ev.id bytes s = .next filled) ∧
        (rights &&& need ≠ need → walkAnswer ev.id bytes s = .next left)))) ∧
  ∀ (s : State) (page : Word) (b : Nat) (req : CpuReq),
    notify (.xfer b) (some page) s = .next (s.issueBlock b page) ∧
    notify (.xfer b) none s = .next (s.failBlock b) ∧
    notify .replyHeader (some page) s = .next (s.issueHeaderPiece page) ∧
    notify .replyHeader none s = finishCommand .noMapping s ∧
    notify (.cpu req) (some page) s = forwardRequest req page s ∧
    notify (.cpu req) none s = .next { s with
      out := s.out ++ [.cpuAnswer req.id (if req.kind = .write then [] else List.replicate req.size 0#8)] }

/-- R350 to R353 (D19, D20), R147, R358, R360: taking a page-fault upcall for the record at the head of the queue. The
endpoint is the one PF_EP names, or SYSCALL_EP if that is no SEND endpoint or the record goes to the kernel; one that is no
SEND endpoint, or too small, or whose VPE fits no NoC address (R131), is a fatal error; otherwise the page is blocked and a
PAGEFAULT packet goes out, without a debit.
A fault with no other queued becomes the record at the head, with upcall at once; until then its token is the model's
(assumption 26). An upcall that the NoC could not deliver sends its record to the tail, for the kernel; a response that comes
when another record is in flight changes nothing (assumption 11). The token is a free value: the statement is for whatever it
is. The count of R360 and the block are those of `countPagefault` and `tlbBlock`, of which RepeatedPagefault and
TlbInsertAndBlock speak. -/
def Obligations.PagefaultTaken : Prop :=
  (∀ (s : State) (q : PfRecord) (rest : List PfRecord) (n : Nat), s.pfQueue = q :: rest →
    let valid := s.dtu.pfEp.toNat < s.cfg.numEndpoints ∧ (s.ep s.dtu.pfEp.toNat).type = 1#3
    (q.toKernel = false ∧ valid ∧ n = s.dtu.pfEp.toNat) ∨ ((q.toKernel = true ∨ ¬ valid) ∧ n = s.cfg.syscallEp) →
    let e := s.ep n
    (s.cfg.numEndpoints ≤ n ∨ e.type ≠ 1#3 → sendPagefault s = .fault .badEndpoint) ∧
    (n < s.cfg.numEndpoints → e.type = 1#3 →
      (e.maxMsgSize.toNat < 49 → sendPagefault s = .fault .messageTooLarge) ∧
      (49 ≤ e.maxMsgSize.toNat → 2 ^ 11 ≤ e.sendVpe.toNat → sendPagefault s = .fault .nocAddrField) ∧
      (∀ target, 49 ≤ e.maxMsgSize.toNat →
        nocAddr e.tgtCore.toNat e.sendVpe.toNat e.tgtEp.toNat = some target →
        ∃ token,
          let t : State := (s.countPagefault q.vpn).tlbBlock q.vpn
          let p : WirePacket :=
            { ptype := .pagefault
              addr := target
              kind := .write
              size := 49
              data :=
                encodeHeader
                  { flags := 0x0C#8
                    senderCore := s.cfg.coreId.setWidth 16
                    senderEp := BitVec.ofNat 8 n
                    replyEp := BitVec.ofNat 8 s.cfg.numEndpoints
                    length := 24#16
                    senderVpe := s.dtu.vpeId.setWidth 16
                    label := e.label
                    replyLabel := token } ++
                wordBytes 0#64 ++ wordBytes q.virt ++ wordBytes (q.access.setWidth 64)
              needsResponse := true
              srcCore := s.cfg.coreId }
          sendPagefault s = .next { t with
            pfQueue := { q with token := token } :: rest
            out := t.out ++ [.nocRequest p]
            nocOutstanding := s.nocOutstanding ++ [⟨p, .upcall token⟩]
            draws := t.draws + 1 } ∧
          t.eps = s.eps ∧ t.mem = s.mem ∧ t.pfQueue = s.pfQueue))) ∧
  (∀ (s : State) (virt : Word) (access : BitVec 5) (w : Waiter), s.pfQueue = [] →
    startPagefault virt access w s =
      sendPagefault { s with pfQueue := [⟨vpnOf virt, virt, access, [w], false, 0#64⟩] }) ∧
  ∀ (s : State) (k : Nat) (p : WirePacket) (token : Word), s.nocOutstanding[k]? = some ⟨p, .upcall token⟩ →
    p.kind = .write →
    let t : State := { s with nocOutstanding := s.nocOutstanding.eraseIdx k }
    nocRespondStep k .noError [] s = .next t ∧
    ∀ r, r ≠ .noError →
      (∀ q rest, s.pfQueue = q :: rest → q.token = token →
        nocRespondStep k r [] s = sendPagefault { t with pfQueue := rest ++ [{ q with toKernel := true }] }) ∧
      ((∀ q rest, s.pfQueue = q :: rest → q.token ≠ token) → nocRespondStep k r [] s = .next t)

/-- R354 to R357 (D19, D51), R251: returning from a page-fault upcall by an inbound MESSAGE or PAGEFAULT with REPLY and PAGEFAULT. With no fault
in flight or another token it is a fatal error, as is a reply without an error word or with one that is none of 0, 3, 4; error 4 caches the page as
unmapped and resolves the record with failure (OneUpcallAtATime says how; spelt out for one waiting transfer and no other
fault queued); error 0 unblocks the page and walks
again; error 3 puts the record at the tail for the kernel's endpoint and sends the next upcall (PagefaultTaken says to
which endpoint). -/
def Obligations.PagefaultReply : Prop :=
  ∀ (s : State) (i : Instr) (p : Packet) (q : PfRecord) (rest : List PfRecord), i = .message p ∨ i = .pagefault p →
    25 ≤ p.size →
    s.dtu.vpeId.toNat = p.addr.vpeId.toNat → (decodeHeader p.data).flags &&& 0x09#8 = 0x09#8 →
    let h := decodeHeader p.data
    let error := bytesWord (slice p.data 25 8)
    let answered : State := { s with out := s.out ++ [.nocResponse p .noError []] }
    (s.pfQueue = [] ∨ (s.pfQueue = q :: rest ∧ h.label ≠ q.token) →
      exec i s = .fault .unknownPagefaultReply) ∧
    (s.pfQueue = q :: rest → h.label = q.token → h.length.toNat < 8 → exec i s = .fault .missingHeader) ∧
    (s.pfQueue = q :: rest → h.label = q.token → 8 ≤ h.length.toNat → 33 ≤ p.data.length →
      (error ≠ 0#64 → error ≠ 3#64 → error ≠ 4#64 → exec i s = .fault .badPagefaultReply) ∧
      (error = 4#64 → exec i s = resolvePagefault none (answered.tlbInsert q.vpn 0#64 0#5)) ∧
      (∀ b, error = 4#64 → rest = [] → q.waiters = [.xfer b] →
        exec i s = .next ({ answered.tlbInsert q.vpn 0#64 0#5 with pfQueue := [] }.failBlock b)) ∧
      (error = 3#64 → exec i s =
        sendPagefault { answered with pfQueue := rest ++ [{ q with toKernel := true }] }) ∧
      (error = 0#64 → (∀ e ∈ s.translateEvents, e.id ≠ s.nextEvent) →
        exec i s = .next { answered.tlbUnblock q.vpn with
          translateEvents := s.translateEvents ++
            [⟨s.nextEvent, q.virt, q.access, .retry q.token, false,
              .walking (s.cfg.levelCnt - 1) s.dtu.rootPt⟩]
          nextEvent := s.nextEvent + 1
          memOutstanding := s.memOutstanding ++
            [⟨pteAddr s.dtu.rootPt q.virt (s.cfg.levelCnt - 1), .read 8, .walk s.nextEvent⟩] }))

/-- R110, R350, R355, R356, R359, R361, R362: a fault of a page and access for which a record is queued joins that record and
sends nothing; a fault of another page or access waits behind it and sends nothing (the token of its record is the model's
choice until its upcall is sent: R64, R350, assumption 26). When a record is resolved it leaves the queue, every one of its
waiters is told the page or the failure, one after the other (what each does is said in WalkGoesOn; that they are told in the
order in which they joined is the model's choice, assumption 32), and then the upcall of
the record that was next goes out in the same step; that record is still at the head, with the waiters it had and those that
have joined it. In all, the step sends one upcall if a record is left, and none if none is. -/
def Obligations.OneUpcallAtATime : Prop :=
  (∀ (s : State) (virt : Word) (access : BitVec 5) (w : Waiter), s.pfQueue ≠ [] →
    ∃ queue, startPagefault virt access w s = .next { s with pfQueue := queue } ∧
      ((∃ q ∈ s.pfQueue, q.vpn = vpnOf virt ∧ q.access = access) →
        queue.length = s.pfQueue.length ∧
        ∀ (k : Nat) q, s.pfQueue[k]? = some q →
          queue[k]? = some (if q.vpn = vpnOf virt ∧ q.access = access then { q with waiters := q.waiters ++ [w] }
            else q)) ∧
      ((∀ q ∈ s.pfQueue, ¬ (q.vpn = vpnOf virt ∧ q.access = access)) →
        queue = s.pfQueue ++ [⟨vpnOf virt, virt, access, [w], false, 0#64⟩])) ∧
  (∀ (s : State) (page : Option Word) (q : PfRecord) (rest : List PfRecord), s.pfQueue = q :: rest →
    let tell := fun (ws : List Waiter) (u : State) => forEach (fun w => notify w page) ws u
    let left : State := { s with pfQueue := rest }
    (∀ u, tell [] u = .next u) ∧
    (∀ w ws u v, notify w page u = .next v → tell (w :: ws) u = tell ws v) ∧
    (∀ t, tell q.waiters left = .next t →
      (rest = [] → resolvePagefault page s = .next t) ∧
      (∀ r rs, rest = r :: rs → resolvePagefault page s = sendPagefault t ∧
        ∃ joined more, t.pfQueue = { r with waiters := r.waiters ++ joined } :: more)) ∧
    ∀ bs : List Nat, q.waiters = bs.map .xfer →
      let told := bs.foldl (fun u b => match page with | some p => u.issueBlock b p | none => u.failBlock b) left
      resolvePagefault page s = if rest = [] then .next told else sendPagefault told) ∧
  ∀ (s t : State) (page : Option Word), s.pfQueue ≠ [] → resolvePagefault page s = .next t →
    ∃ new, t.out = s.out ++ new ∧ new.countP Output.isUpcall = if t.pfQueue = [] then 0 else 1

/-- R360 (D35, D49), R25: of `n` upcalls in a row for one page the first 99 only count; the 100th writes the page's address
to LAST_PF, injects interrupt 0x41 and starts the count again. -/
def Obligations.RepeatedPagefault : Prop :=
  ∀ (s : State) (vpn : BitVec 52), s.lastPfVpn ≠ some vpn →
    let count := fun n => (fun x : State => x.countPagefault vpn)^[n] s
    (∀ n, 1 ≤ n → n < 100 → count n = { s with lastPfVpn := some vpn, pfRepeat := n }) ∧
    count 100 = { s with
      lastPfVpn := some vpn
      pfRepeat := 0
      dtu := { s.dtu with lastPf := vpn.setWidth 64 <<< 12 }
      out := s.out ++ [.injectIrq 0x41#64] }

/-! ## External commands, cache-memory requests, CPU accesses -/

/-- R383, R384, R385, R386, R387: the five external commands; each ends with the response to every packet that wrote EXT_CMD
(R388, D37; their order is assumption 30), and the numbers are D11. -/
def Obligations.ExternalCommands : Prop :=
  ∀ (s : State) (arg : BitVec 61),
    let answers := s.extWaiting.map fun p => Output.nocResponse p .noError []
    exec (.wakeupCore arg) s = .next { s with extWaiting := [], out := s.out ++ [.wakeCore] ++ answers } ∧
    exec (.invPage arg) s = .next { s with
      tlb := s.tlb.filter fun e => e.vpn != field (arg.setWidth 64) 12 52
      extWaiting := []
      out := s.out ++ answers } ∧
    exec (.invTlb arg) s = .next { s with tlb := [], extWaiting := [], out := s.out ++ answers } ∧
    exec (.invCache arg) s = .next { s with extWaiting := [], out := s.out ++ [.invalidateCaches] ++ answers } ∧
    exec (.injectIrq arg) s = .next { s with
      extWaiting := []
      out := s.out ++ [.injectIrq (arg.setWidth 64)] ++ answers }

/-- R129, R381: an external command with opcode 5, 6 or 7 is a fatal error (that these are the unknown ones is D11). -/
def Obligations.UnknownExternalCommand : Prop :=
  ∀ (s : State) (w : Word), s.extPending = some w → 5 ≤ w.toNat % 8 → externStep s = .fault .unknownOpcode

/-- R392, R397, R398 (D45): a cache-memory request for another VPE is answered VPE_GONE; CACHE_MEM_REQ for this one is a
request to local memory at the address named, untranslated, whose answer is the response; CACHE_MEM_REQ_FUNC is performed and
answered within the step. At the requester, a successful response answers the CPU, VPE_GONE translates again with GONE, and
any other result, or a page known to be unmapped, gives the dummy answer. -/
def Obligations.CacheMemoryRequests : Prop :=
  (∀ (s : State) (p : Packet),
    let a : Word := p.addr.offset.setWidth 64
    (p.addr.vpeId.toNat ≠ s.dtu.vpeId.toNat →
      exec (.cacheMemReq p) s = .next { s with out := s.out ++ [.nocResponse p .vpeGone []] } ∧
      exec (.cacheMemReqFunc p) s = .next { s with out := s.out ++ [.nocResponse p .vpeGone []] }) ∧
    (p.addr.vpeId.toNat = s.dtu.vpeId.toNat → p.kind = .read →
      exec (.cacheMemReq p) s = .next { s with
        memOutstanding := s.memOutstanding ++ [⟨a, .read p.size, .cacheReq p⟩] } ∧
      (s.cfg.backs a.toNat p.size = true → exec (.cacheMemReqFunc p) s = .next { s with
        out := s.out ++ [.nocResponse p .noError (s.mem.readBytes a p.size)] })) ∧
    (p.addr.vpeId.toNat = s.dtu.vpeId.toNat → p.kind = .write →
      exec (.cacheMemReq p) s = .next { s with
        memOutstanding := s.memOutstanding ++ [⟨a, .write p.data, .cacheReq p⟩] } ∧
      (s.cfg.backs a.toNat p.data.length = true → exec (.cacheMemReqFunc p) s = .next { s with
        mem := s.mem.writeBytes a p.data
        out := s.out ++ [.nocResponse p .noError []] })) ∧
    ∀ k,
      (s.memOutstanding[k]? = some ⟨a, .read p.size, .cacheReq p⟩ → s.cfg.backs a.toNat p.size = true →
        memAnswer k s = .next { s with
          memOutstanding := s.memOutstanding.eraseIdx k
          out := s.out ++ [.nocResponse p .noError (s.mem.readBytes a p.size)] }) ∧
      (s.memOutstanding[k]? = some ⟨a, .write p.data, .cacheReq p⟩ → s.cfg.backs a.toNat p.data.length = true →
        memAnswer k s = .next { s with
          memOutstanding := s.memOutstanding.eraseIdx k
          mem := s.mem.writeBytes a p.data
          out := s.out ++ [.nocResponse p .noError []] })) ∧
  ∀ (s : State) (k : Nat) (p : WirePacket) (req : CpuReq) (data : List Byte),
    s.nocOutstanding[k]? = some ⟨p, .cpu req⟩ →
    let t : State := { s with nocOutstanding := s.nocOutstanding.eraseIdx k }
    let access : BitVec 5 := if req.kind = .write then 0x12#5 else if req.kind = .fetch then 0x14#5 else 0x11#5
    let dummy : State := { t with
      out := s.out ++ [.cpuAnswer req.id (if req.kind = .write then [] else List.replicate req.size 0#8)] }
    (data.length = (if p.kind = .write then 0 else p.size) →
      nocRespondStep k .noError data s = .next { t with out := s.out ++ [.cpuAnswer req.id data] }) ∧
    (∀ r, r ≠ .noError → r ≠ .vpeGone → nocRespondStep k r data s = .next dummy) ∧
    (s.cfg.tlbEntries = 0 → nocRespondStep k .vpeGone data s = forwardRequest req (pageBase req.addr) t) ∧
    (s.cfg.tlbEntries ≠ 0 →
      (tlbLookup s.tlb req.addr access = .nomap → nocRespondStep k .vpeGone data s = .next dummy) ∧
      ∀ pf, tlbLookup s.tlb req.addr access = (if pf then .pagefault else .miss) →
        nocRespondStep k .vpeGone data s = .next { t with
          translateEvents := s.translateEvents ++ [⟨s.nextEvent, req.addr, access, .cpu req, pf, .fresh⟩]
          nextEvent := s.nextEvent + 1 })

/-- R395, R396, R397, R398, R399, R400 (D10, D45): a CPU access outside the register
window; a request of a dropped kind changes nothing wherever its address lies. A write above the barrier is answered and
dropped. With a known page a read, write or fetch goes to local memory, or to the NoC if the address found there has `valid`
set; a functional one is performed within the step, and so is the NoC's reply to it (that the reply comes with the request,
and that one which needs the pager waits for it, is assumption 8). After VPE_GONE the page is asked for with GONE, which no
rights of an entry have (R342), so that the page that was found faults. An access whose page must be walked for, or faults,
waits; one whose page is known to be unmapped gets the dummy answer. -/
def Obligations.CpuMemoryAccesses : Prop :=
  (∀ (s : State) (req : CpuReq), req.kind = .invalidateReq ∨ req.kind = .badAddressError ∨ req.kind = .cleanEvict →
    cpuStep req s = .next s) ∧
  ∀ (s : State) (req : CpuReq), inWindow s.cfg req.addr.toNat = false →
    let op : MemOp := if req.kind = .write then .write req.data else .read req.size
    let bytes := if req.kind = .write then req.data.length else req.size
    let access : BitVec 5 := if req.kind = .write then 0x02#5 else if req.kind = .fetch then 0x04#5 else 0x01#5
    let dummy : Output := .cpuAnswer req.id (if req.kind = .write then [] else List.replicate req.size 0#8)
    let packet := fun (t : PacketType) (a : Word) => WirePacket.mk t a (if req.kind = .write then .write else .read)
      bytes (if req.kind = .write then req.data else []) true s.cfg.coreId
    (req.kind = .write → req.addr.toNat % 4096 + req.data.length ≤ 4096 → s.barrierRejects req.addr = true →
      cpuStep req s = .next { s with out := s.out ++ [.cpuAnswer req.id []] }) ∧
    (req.kind = .read ∨ req.kind = .write ∨ req.kind = .fetch → req.addr.toNat % 4096 + bytes ≤ 4096 →
      (req.kind = .write → s.barrierRejects req.addr = false) →
      (∀ page, (s.cfg.tlbEntries = 0 ∧ page = pageBase req.addr) ∨
          (s.cfg.tlbEntries ≠ 0 ∧ tlbLookup s.tlb req.addr access = .hit page) →
        let a := page + pageOffset req.addr
        (req.func = false → a.getLsbD 58 = false →
          cpuStep req s = .next { s with memOutstanding := s.memOutstanding ++ [⟨a, op, .cpu req⟩] }) ∧
        (req.func = false → a.getLsbD 58 = true → cpuStep req s = .next { s with
          out := s.out ++ [.nocRequest (packet .cacheMemReq a)]
          nocOutstanding := s.nocOutstanding ++ [⟨packet .cacheMemReq a, .cpu req⟩] }) ∧
        (req.func = true → a.getLsbD 58 = false → s.cfg.backs a.toNat bytes = true → cpuStep req s = .next { s with
          mem := if req.kind = .write then s.mem.writeBytes a req.data else s.mem
          out := s.out ++ [.cpuAnswer req.id (if req.kind = .write then [] else s.mem.readBytes a req.size)] }) ∧
        (∀ r data rest, req.func = true → a.getLsbD 58 = true → req.replies = (r, data) :: rest →
          let sent := s.out ++ [.nocRequest (packet .cacheMemReqFunc a)]
          (r = .noError → data.length = (if req.kind = .write then 0 else req.size) →
            cpuStep req s = .next { s with out := sent ++ [.cpuAnswer req.id data] }) ∧
          (r ≠ .noError → r ≠ .vpeGone → cpuStep req s = .next { s with out := sent ++ [dummy] }) ∧
          (r = .vpeGone → s.cfg.tlbEntries = 0 →
            cpuStep req s = forwardRequest { req with replies := rest } page { s with out := sent }) ∧
          (r = .vpeGone → s.cfg.tlbEntries ≠ 0 → tlbLookup s.tlb req.addr (access ||| 0x10#5) = .pagefault →
            cpuStep req s = startPagefault req.addr (access ||| 0x10#5) (.cpu { req with replies := rest })
              { s with out := sent })) ∧
        (req.func = true → a.getLsbD 58 = true → req.replies = [] → cpuStep req s = .next { s with
          out := s.out ++ [.nocRequest (packet .cacheMemReqFunc a)]
          nocOutstanding := s.nocOutstanding ++ [⟨packet .cacheMemReqFunc a, .cpu req⟩] })) ∧
      (s.cfg.tlbEntries ≠ 0 →
        (tlbLookup s.tlb req.addr access = .nomap → cpuStep req s = .next { s with out := s.out ++ [dummy] }) ∧
        (∀ pf, req.func = false → tlbLookup s.tlb req.addr access = (if pf then .pagefault else .miss) →
          cpuStep req s = .next { s with
            translateEvents := s.translateEvents ++ [⟨s.nextEvent, req.addr, access, .cpu req, pf, .fresh⟩]
            nextEvent := s.nextEvent + 1 }) ∧
        (req.func = true → tlbLookup s.tlb req.addr access = .pagefault →
          cpuStep req s = startPagefault req.addr access (.cpu req) s) ∧
        (req.func = true → tlbLookup s.tlb req.addr access = .miss →
          (∀ pte, s.funcWalk req.addr access (s.cfg.levelCnt - 1) s.dtu.rootPt = some (some pte) →
            cpuStep req s = forwardRequest req (pteBase pte)
              (s.tlbInsert (vpnOf req.addr) (pteBase pte) (pteRights pte))) ∧
          (s.funcWalk req.addr access (s.cfg.levelCnt - 1) s.dtu.rootPt = some none →
            cpuStep req s = startPagefault req.addr access (.cpu req) s))))
end

