-- ==== Sys2Proof/Laws/Bits.lean ====
section
/-! SUPPORT. The laws of bit fields and of little-endian byte strings. -/

namespace Sys2Proof.Machine

/-! ## Fields -/

theorem getLsbD_field (w : Word) (lo len i : Nat) :
    (field w lo len).getLsbD i = (decide (i < len) && w.getLsbD (lo + i)) := by
  simp [field, BitVec.getLsbD_extractLsb']

theorem getLsbD_setField {len : Nat} (w : Word) (lo : Nat) (v : BitVec len) (i : Nat) (hl : lo + len ≤ 64) :
    (setField w lo v).getLsbD i = if lo ≤ i ∧ i < lo + len then v.getLsbD (i - lo) else w.getLsbD i := by
  simp only [setField, BitVec.getLsbD_or, BitVec.getLsbD_and, BitVec.getLsbD_not, BitVec.getLsbD_shiftLeft,
    BitVec.getLsbD_setWidth, BitVec.getLsbD_allOnes]
  by_cases h64 : i < 64
  · by_cases hlo : i < lo
    · have : ¬ (lo ≤ i ∧ i < lo + len) := by omega
      simp [h64, hlo, this]
    · by_cases hhi : i < lo + len
      · have h1 : lo ≤ i ∧ i < lo + len := by omega
        have h2 : i - lo < len := by omega
        have h3 : i - lo < 64 := by omega
        simp [h64, hlo, h1, h2, h3]
      · have h1 : ¬ (lo ≤ i ∧ i < lo + len) := by omega
        have h2 : ¬ i - lo < len := by omega
        simp [h64, hlo, h1, h2, BitVec.getLsbD_of_ge v (i - lo) (by omega)]
  · have h1 : ¬ (lo ≤ i ∧ i < lo + len) := by omega
    simp [h64, h1, BitVec.getLsbD_of_ge w i (by omega)]

/-- The field that was written. -/
theorem field_setField {len : Nat} (w : Word) (lo : Nat) (v : BitVec len) (hl : lo + len ≤ 64) :
    field (setField w lo v) lo len = v := by
  apply BitVec.eq_of_getLsbD_eq
  intro i hi
  rw [getLsbD_field, getLsbD_setField w lo v _ hl, if_pos (by omega)]
  simp [hi]

/-- A field that does not meet the one that was written. -/
theorem field_setField_ne {len : Nat} (w : Word) (lo : Nat) (v : BitVec len) (hl : lo + len ≤ 64) (lo' len' : Nat)
    (h : lo' + len' ≤ lo ∨ lo + len ≤ lo') : field (setField w lo v) lo' len' = field w lo' len' := by
  apply BitVec.eq_of_getLsbD_eq
  intro i hi
  rw [getLsbD_field, getLsbD_field, getLsbD_setField w lo v _ hl, if_neg (by omega)]

/-! ## Byte strings -/

@[simp] theorem length_leBytes (n v : Nat) : (leBytes n v).length = n := by
  induction n generalizing v with
  | zero => rfl
  | succ n ih => simp [leBytes, ih]

@[simp] theorem length_wordBytes (w : Word) : (wordBytes w).length = 8 := length_leBytes 8 _

/-- The number that little-endian bytes stand for. -/
theorem ofLeBytes_leBytes (n v : Nat) : ofLeBytes (leBytes n v) = v % 256 ^ n := by
  induction n generalizing v with
  | zero => simp [leBytes, ofLeBytes, Nat.mod_one]
  | succ n ih =>
    simp only [leBytes, ofLeBytes, ih, BitVec.toNat_ofNat]
    have h := Nat.mod_mul (x := v) (a := 256) (b := 256 ^ n)
    have h' : 256 ^ (n + 1) = 256 * 256 ^ n := by ring
    rw [h', h]

/-- The bytes of the number that bytes stand for. -/
theorem leBytes_ofLeBytes (bs : List Byte) : leBytes bs.length (ofLeBytes bs) = bs := by
  induction bs with
  | nil => rfl
  | cons b bs ih =>
    have hb := b.isLt
    have h1 : (b.toNat + 256 * ofLeBytes bs) / 256 = ofLeBytes bs := by omega
    have h2 : BitVec.ofNat 8 (b.toNat + 256 * ofLeBytes bs) = b := by
      apply BitVec.eq_of_toNat_eq
      simp only [BitVec.toNat_ofNat]; omega
    simp only [List.length_cons, leBytes, ofLeBytes, h1, h2, ih]

theorem ofLeBytes_lt (bs : List Byte) : ofLeBytes bs < 256 ^ bs.length := by
  induction bs with
  | nil => simp [ofLeBytes]
  | cons b bs ih =>
    have hb := b.isLt
    simp only [ofLeBytes, List.length_cons, Nat.pow_succ]
    omega

/-- A register's bytes give the register back. -/
@[simp] theorem bytesWord_wordBytes (w : Word) : bytesWord (wordBytes w) = w := by
  apply BitVec.eq_of_toNat_eq
  have hw := w.isLt
  simp only [bytesWord, wordBytes, ofLeBytes_leBytes, BitVec.toNat_ofNat]
  omega

/-- Eight bytes are the bytes of the register they stand for. -/
theorem wordBytes_bytesWord {bs : List Byte} (h : bs.length = 8) : wordBytes (bytesWord bs) = bs := by
  have hlt := ofLeBytes_lt bs
  rw [h] at hlt
  have : (BitVec.ofNat 64 (ofLeBytes bs)).toNat = ofLeBytes bs := by
    simp only [BitVec.toNat_ofNat]; omega
  rw [wordBytes, bytesWord, this, ← h, leBytes_ofLeBytes]

@[simp] theorem length_splice (bs d : List Byte) (pos : Nat) : (splice bs pos d).length = bs.length := by
  simp only [splice, List.length_take, List.length_append, List.length_drop]
  omega

theorem splice_nil (bs : List Byte) (p : Nat) : splice bs p [] = bs := by simp [splice]

theorem splice_eq {bs d : List Byte} {p : Nat} (h : p + d.length ≤ bs.length) :
    splice bs p d = bs.take p ++ d ++ bs.drop (p + d.length) := by
  simp only [splice]; apply List.take_of_length_le; simp; omega

theorem splice_splice {bs d e : List Byte} {p q : Nat} (hq : q = p + d.length)
    (h : p + d.length + e.length ≤ bs.length) :
    splice (splice bs p d) q e = splice bs p (d ++ e) := by
  subst hq
  rw [splice_eq (bs := splice bs p d) (by simp; omega), splice_eq (d := d) (by omega), splice_eq (by simp; omega)]
  have h1 : (bs.take p).length = p := by simp; omega
  rw [List.take_append_of_le_length (by simp; omega), List.take_of_length_le (by simp), List.drop_append]
  simp only [List.length_append, h1]
  rw [List.drop_eq_nil_of_le (by simp; omega), List.nil_append, List.drop_drop]
  simp only [List.append_assoc]
  congr 4; omega

theorem slice_add (bs : List Byte) (p n k : Nat) : slice bs p (n + k) = slice bs p n ++ slice bs (p + n) k := by
  simp only [slice, ← List.drop_drop]; rw
    [← List.take_append_drop n (List.take (n+k) _), List.take_take, List.drop_take]
  simp

theorem length_slice {bs : List Byte} {p n : Nat} (h : p + n ≤ bs.length) : (slice bs p n).length = n := by
  simp [slice]; omega

/-- A choice is one of the alternatives. -/
theorem mem_of_choose {α : Type} {n : Nat} {l : List α} {x : α} (h : choose n l = some x) : x ∈ l := by
  match l, h with
  | [y], h => simp only [choose, Option.some.injEq] at h; simp [h]
  | y :: z :: zs, h => exact List.mem_of_getElem? h

/-- There is a choice whenever there is an alternative. -/
theorem choose_isSome {α : Type} (n : Nat) {l : List α} (h : l ≠ []) : (choose n l).isSome = true := by
  match l, h with
  | [y], _ => rfl
  | y :: z :: zs, _ =>
    have : n % (zs.length + 2) < (y :: z :: zs).length := Nat.mod_lt n (by omega : 0 < zs.length + 2)
    simp only [choose, List.getElem?_eq_getElem this, Option.isSome_some]

end Sys2Proof.Machine
end

