-- ==== Sys2Proof/Laws/Memory.lean ====
section
/-! SUPPORT. The laws of the byte store: a read after a write, and the canonical form that every operation keeps. -/

namespace Sys2Proof.Machine

/-! ## One byte -/

@[simp] theorem Memory.read_nil (a : Nat) : Memory.read [] a = unlistedByte := rfl

theorem Memory.read_cons (b : Nat) (v : Byte) (m : Memory) (a : Nat) :
    Memory.read ((b, v) :: m) a = if a = b then v else Memory.read m a := rfl

/-- The canonical form, entry by entry. -/
theorem Memory.wf_cons (b : Nat) (v : Byte) (m : Memory) :
    Memory.wf ((b, v) :: m) = true ↔
      (∀ c ∈ m, b < c.1) ∧ v ≠ unlistedByte ∧ b < 2 ^ 64 ∧ Memory.wf m = true := by
  simp only [Memory.wf, List.pairwise_cons, List.all_cons, Bool.and_eq_true, decide_eq_true_eq, bne_iff_ne]
  tauto

/-- An address below every entry reads as an unlisted one. -/
theorem Memory.read_below {m : Memory} {a : Nat} (h : ∀ c ∈ m, a < c.1) : Memory.read m a = unlistedByte := by
  induction m with
  | nil => rfl
  | cons c m ih =>
    obtain ⟨b, v⟩ := c
    have hb : a < b := h (b, v) (by simp)
    rw [Memory.read_cons, if_neg (by omega), ih fun c hc => h c (by simp [hc])]

/-- A read after a write gives the byte written at its place, and the old byte everywhere else. -/
theorem Memory.read_write {m : Memory} (h : Memory.wf m = true) (a : Nat) (v : Byte) (x : Nat) :
    Memory.read (m.write a v) x = if x = a then v else Memory.read m x := by
  induction m with
  | nil =>
    by_cases hv : v = unlistedByte <;> simp [Memory.write, hv, Memory.read_cons]
  | cons c m ih =>
    obtain ⟨b, w⟩ := c
    obtain ⟨hlt, -, -, hm⟩ := (Memory.wf_cons b w m).1 h
    simp only [Memory.write]
    split
    next hab =>
      subst hab
      split
      next hv =>
        rw [Memory.read_cons]
        by_cases hx : x = a
        · subst hx; rw [if_pos rfl, hv, Memory.read_below hlt]
        · rw [if_neg hx, if_neg hx]
      next => simp only [Memory.read_cons]; split <;> simp_all
    next hab =>
      split
      next hlt' =>
        split
        next hv =>
          by_cases hx : x = a
          · subst hx
            rw [if_pos rfl, hv]
            exact Memory.read_below (by
              intro c hc
              rcases List.mem_cons.1 hc with rfl | hc
              · exact hlt'
              · have := hlt c hc; omega)
          · rw [if_neg hx]
        next => rw [Memory.read_cons]
      next =>
        rw [Memory.read_cons, Memory.read_cons, ih hm]
        split
        next hx => subst hx; rw [if_neg (fun h => hab h.symm)]
        next => rfl

/-- A write adds no address but its own. -/
theorem Memory.mem_write {m : Memory} {a : Nat} {v : Byte} {c : Nat × Byte} (h : c ∈ m.write a v) :
    c.1 = a ∨ c ∈ m := by
  induction m with
  | nil =>
    simp only [Memory.write] at h
    split at h
    · simp at h
    · simp only [List.mem_singleton] at h; subst h; exact .inl rfl
  | cons d m ih =>
    obtain ⟨b, w⟩ := d
    simp only [Memory.write] at h
    split at h
    · split at h
      · exact .inr (by simp [h])
      · rcases List.mem_cons.1 h with rfl | h
        · exact .inl rfl
        · exact .inr (by simp [h])
    · split at h
      · split at h
        · exact .inr h
        · rcases List.mem_cons.1 h with rfl | h
          · exact .inl rfl
          · exact .inr h
      · rcases List.mem_cons.1 h with rfl | h
        · exact .inr (by simp)
        · rcases ih h with h | h
          · exact .inl h
          · exact .inr (by simp [h])

/-- A write keeps the canonical form. -/
theorem Memory.wf_write {m : Memory} (h : Memory.wf m = true) {a : Nat} (ha : a < 2 ^ 64) (v : Byte) :
    Memory.wf (m.write a v) = true := by
  induction m with
  | nil =>
    simp only [Memory.write]
    split
    · exact h
    · next hv => exact (Memory.wf_cons a v []).2 ⟨by simp, hv, ha, rfl⟩
  | cons c m ih =>
    obtain ⟨b, w⟩ := c
    obtain ⟨hlt, hw, hb, hm⟩ := (Memory.wf_cons b w m).1 h
    simp only [Memory.write]
    split
    next hab =>
      subst hab
      split
      next => exact hm
      next hv => exact (Memory.wf_cons a v m).2 ⟨hlt, hv, ha, hm⟩
    next hab =>
      split
      next hlt' =>
        split
        next => exact h
        next hv =>
          refine (Memory.wf_cons a v _).2 ⟨?_, hv, ha, h⟩
          intro c hc
          rcases List.mem_cons.1 hc with rfl | hc
          · exact hlt'
          · have := hlt c hc; omega
      next hge =>
        refine (Memory.wf_cons b w _).2 ⟨?_, hw, hb, ih hm⟩
        intro c hc
        rcases Memory.mem_write hc with hc | hc
        · omega
        · exact hlt c hc

/-! ## Byte strings -/

@[simp] theorem Memory.length_readBytes (m : Memory) (a : Word) (n : Nat) : (m.readBytes a n).length = n := by
  induction n generalizing a with
  | zero => rfl
  | succ n ih => simp [Memory.readBytes, ih]

/-- Byte `k` of a read is the byte at the `k`-th address. -/
theorem Memory.getElem_readBytes (m : Memory) (a : Word) (n k : Nat) (h : k < (m.readBytes a n).length) :
    (m.readBytes a n)[k] = m.read (a + BitVec.ofNat 64 k).toNat := by
  induction n generalizing a k with
  | zero => simp at h
  | succ n ih =>
    cases k with
    | zero => simp [Memory.readBytes]
    | succ k =>
      simp only [Memory.readBytes, List.getElem_cons_succ]
      rw [ih]
      congr 2
      rw [BitVec.add_assoc]
      congr 1
      apply BitVec.eq_of_toNat_eq
      simp [Nat.add_comm]

/-- A byte string written keeps the canonical form. -/
theorem Memory.wf_writeBytes {m : Memory} (h : Memory.wf m = true) (a : Word) (d : List Byte) :
    Memory.wf (m.writeBytes a d) = true := by
  induction d generalizing m a with
  | nil => exact h
  | cons v vs ih => exact ih (Memory.wf_write h a.isLt v) _

/-- The empty store has the canonical form. -/
theorem Memory.wf_nil : Memory.wf [] = true := rfl

theorem one_add_ofNat (n : Nat) : (1 : Word) + BitVec.ofNat 64 n = BitVec.ofNat 64 (n + 1) := by
  rw [show (1 : Word) = BitVec.ofNat 64 1 from rfl, ← BitVec.ofNat_add, Nat.add_comm]

theorem readBytes_add (m : Memory) (a : Word) (n k : Nat) : m.readBytes a (n + k) = m.readBytes a n ++ m.readBytes
    (a + BitVec.ofNat 64 n) k := by
  induction n generalizing a with
  | zero => simp [Memory.readBytes]
  | succ n ih =>
    rw [show n + 1 + k = (n + k) + 1 by omega]
    simp only [Memory.readBytes, ih, List.cons_append, BitVec.add_assoc]
    rw [one_add_ofNat]

theorem writeBytes_append (m : Memory) (a : Word) (d e : List Byte) : m.writeBytes a (d ++ e) =
    (m.writeBytes a d).writeBytes (a + BitVec.ofNat 64 d.length) e := by
  induction d generalizing m a with
  | nil => simp [Memory.writeBytes]
  | cons v vs ih =>
    simp only [List.cons_append, Memory.writeBytes, ih, BitVec.add_assoc, List.length_cons]
    rw [one_add_ofNat]

end Sys2Proof.Machine
end

