-- ==== Sys2Proof/Laws/Operands.lean ====
section
/-! SUPPORT. The endpoint fields after each write of a field (R43, R44), and after each ring operation. -/

namespace Sys2Proof.Machine

variable (e : EpWords)

/-! ## `withMsgCount` -/

section
variable (v : BitVec 16)
@[simp] theorem EpWords.withMsgCount_type : (e.withMsgCount v).type = e.type :=
  field_setField_ne _ _ _ (by omega) _ _ (by omega)
@[simp] theorem EpWords.withMsgCount_msgCount : (e.withMsgCount v).msgCount = v := field_setField _ _ _ (by omega)
@[simp] theorem EpWords.withMsgCount_size : (e.withMsgCount v).size = e.size :=
  field_setField_ne _ _ _ (by omega) _ _ (by omega)
@[simp] theorem EpWords.withMsgCount_msgSize : (e.withMsgCount v).msgSize = e.msgSize :=
  field_setField_ne _ _ _ (by omega) _ _ (by omega)
@[simp] theorem EpWords.withMsgCount_wrPos : (e.withMsgCount v).wrPos = e.wrPos :=
  field_setField_ne _ _ _ (by omega) _ _ (by omega)
@[simp] theorem EpWords.withMsgCount_rdPos : (e.withMsgCount v).rdPos = e.rdPos :=
  field_setField_ne _ _ _ (by omega) _ _ (by omega)
@[simp] theorem EpWords.withMsgCount_bufAddr : (e.withMsgCount v).bufAddr = e.bufAddr := rfl
@[simp] theorem EpWords.withMsgCount_occupied : (e.withMsgCount v).occupied = e.occupied := rfl
@[simp] theorem EpWords.withMsgCount_unread : (e.withMsgCount v).unread = e.unread := rfl
end

/-! ## `withWrPos` -/

section
variable (v : BitVec 6)
@[simp] theorem EpWords.withWrPos_type : (e.withWrPos v).type = e.type :=
  field_setField_ne _ _ _ (by omega) _ _ (by omega)
@[simp] theorem EpWords.withWrPos_msgCount : (e.withWrPos v).msgCount = e.msgCount :=
  field_setField_ne _ _ _ (by omega) _ _ (by omega)
@[simp] theorem EpWords.withWrPos_size : (e.withWrPos v).size = e.size :=
  field_setField_ne _ _ _ (by omega) _ _ (by omega)
@[simp] theorem EpWords.withWrPos_msgSize : (e.withWrPos v).msgSize = e.msgSize :=
  field_setField_ne _ _ _ (by omega) _ _ (by omega)
@[simp] theorem EpWords.withWrPos_wrPos : (e.withWrPos v).wrPos = v := field_setField _ _ _ (by omega)
@[simp] theorem EpWords.withWrPos_rdPos : (e.withWrPos v).rdPos = e.rdPos :=
  field_setField_ne _ _ _ (by omega) _ _ (by omega)
@[simp] theorem EpWords.withWrPos_bufAddr : (e.withWrPos v).bufAddr = e.bufAddr := rfl
@[simp] theorem EpWords.withWrPos_occupied : (e.withWrPos v).occupied = e.occupied := rfl
@[simp] theorem EpWords.withWrPos_unread : (e.withWrPos v).unread = e.unread := rfl
end

/-! ## `withRdPos` -/

section
variable (v : BitVec 6)
@[simp] theorem EpWords.withRdPos_type : (e.withRdPos v).type = e.type :=
  field_setField_ne _ _ _ (by omega) _ _ (by omega)
@[simp] theorem EpWords.withRdPos_msgCount : (e.withRdPos v).msgCount = e.msgCount :=
  field_setField_ne _ _ _ (by omega) _ _ (by omega)
@[simp] theorem EpWords.withRdPos_size : (e.withRdPos v).size = e.size :=
  field_setField_ne _ _ _ (by omega) _ _ (by omega)
@[simp] theorem EpWords.withRdPos_msgSize : (e.withRdPos v).msgSize = e.msgSize :=
  field_setField_ne _ _ _ (by omega) _ _ (by omega)
@[simp] theorem EpWords.withRdPos_wrPos : (e.withRdPos v).wrPos = e.wrPos :=
  field_setField_ne _ _ _ (by omega) _ _ (by omega)
@[simp] theorem EpWords.withRdPos_rdPos : (e.withRdPos v).rdPos = v := field_setField _ _ _ (by omega)
@[simp] theorem EpWords.withRdPos_bufAddr : (e.withRdPos v).bufAddr = e.bufAddr := rfl
@[simp] theorem EpWords.withRdPos_occupied : (e.withRdPos v).occupied = e.occupied := rfl
@[simp] theorem EpWords.withRdPos_unread : (e.withRdPos v).unread = e.unread := rfl
end

/-! ## `withOccupied` -/

section
variable (v : BitVec 32)
@[simp] theorem EpWords.withOccupied_type : (e.withOccupied v).type = e.type := rfl
@[simp] theorem EpWords.withOccupied_msgCount : (e.withOccupied v).msgCount = e.msgCount := rfl
@[simp] theorem EpWords.withOccupied_size : (e.withOccupied v).size = e.size := rfl
@[simp] theorem EpWords.withOccupied_msgSize : (e.withOccupied v).msgSize = e.msgSize := rfl
@[simp] theorem EpWords.withOccupied_wrPos : (e.withOccupied v).wrPos = e.wrPos := rfl
@[simp] theorem EpWords.withOccupied_rdPos : (e.withOccupied v).rdPos = e.rdPos := rfl
@[simp] theorem EpWords.withOccupied_bufAddr : (e.withOccupied v).bufAddr = e.bufAddr := rfl
@[simp] theorem EpWords.withOccupied_occupied : (e.withOccupied v).occupied = v := field_setField _ _ _ (by omega)
@[simp] theorem EpWords.withOccupied_unread : (e.withOccupied v).unread = e.unread :=
  field_setField_ne _ _ _ (by omega) _ _ (by omega)
end

/-! ## `withUnread` -/

section
variable (v : BitVec 32)
@[simp] theorem EpWords.withUnread_type : (e.withUnread v).type = e.type := rfl
@[simp] theorem EpWords.withUnread_msgCount : (e.withUnread v).msgCount = e.msgCount := rfl
@[simp] theorem EpWords.withUnread_size : (e.withUnread v).size = e.size := rfl
@[simp] theorem EpWords.withUnread_msgSize : (e.withUnread v).msgSize = e.msgSize := rfl
@[simp] theorem EpWords.withUnread_wrPos : (e.withUnread v).wrPos = e.wrPos := rfl
@[simp] theorem EpWords.withUnread_rdPos : (e.withUnread v).rdPos = e.rdPos := rfl
@[simp] theorem EpWords.withUnread_bufAddr : (e.withUnread v).bufAddr = e.bufAddr := rfl
@[simp] theorem EpWords.withUnread_occupied : (e.withUnread v).occupied = e.occupied :=
  field_setField_ne _ _ _ (by omega) _ _ (by omega)
@[simp] theorem EpWords.withUnread_unread : (e.withUnread v).unread = v := field_setField _ _ _ (by omega)
end

/-! ## `withCredits` -/

section
variable (v : BitVec 16)
@[simp] theorem EpWords.withCredits_type : (e.withCredits v).type = e.type := rfl
@[simp] theorem EpWords.withCredits_maxMsgSize : (e.withCredits v).maxMsgSize = e.maxMsgSize := rfl
@[simp] theorem EpWords.withCredits_sendVpe : (e.withCredits v).sendVpe = e.sendVpe := rfl
@[simp] theorem EpWords.withCredits_credits : (e.withCredits v).credits = v := field_setField _ _ _ (by omega)
@[simp] theorem EpWords.withCredits_tgtEp : (e.withCredits v).tgtEp = e.tgtEp :=
  field_setField_ne _ _ _ (by omega) _ _ (by omega)
@[simp] theorem EpWords.withCredits_tgtCore : (e.withCredits v).tgtCore = e.tgtCore :=
  field_setField_ne _ _ _ (by omega) _ _ (by omega)
@[simp] theorem EpWords.withCredits_label : (e.withCredits v).label = e.label := rfl
end

/-! ## The bitmaps -/

theorem getLsbD_setSlot (m : BitVec 32) (k i : Nat) :
    (setSlot m k).getLsbD i = (m.getLsbD i || (decide (i < 32) && decide (i = k))) := by
  simp only [setSlot, BitVec.getLsbD_or, BitVec.getLsbD_shiftLeft]
  by_cases h : i < 32 <;> by_cases hk : i < k <;> by_cases hik : i = k <;>
    simp [h, hk, hik, BitVec.getLsbD_one] <;> omega

theorem getLsbD_clearSlot (m : BitVec 32) (k i : Nat) :
    (clearSlot m k).getLsbD i = (m.getLsbD i && decide (i ≠ k)) := by
  simp only [clearSlot, BitVec.getLsbD_and, BitVec.getLsbD_not, BitVec.getLsbD_shiftLeft]
  by_cases h : i < 32
  · by_cases hk : i < k <;> by_cases hik : i = k <;> simp [h, hk, hik, BitVec.getLsbD_one] <;> omega
  · simp [h, BitVec.getLsbD_of_ge m i (by omega)]

/-! ## The type field -/

@[simp] theorem EpWords.allocated_type (k : Nat) : (e.allocated k).type = e.type := by simp [EpWords.allocated]
@[simp] theorem EpWords.received_type (k : Nat) : (e.received k).type = e.type := by simp [EpWords.received]
@[simp] theorem EpWords.fetched_type (k : Nat) : (e.fetched k).type = e.type := by simp [EpWords.fetched]
@[simp] theorem EpWords.freed_type (k : Nat) : (e.freed k).type = e.type := by simp [EpWords.freed]
@[simp] theorem EpWords.unreadDropped_type (k : Nat) : (e.unreadDropped k).type = e.type := by
  simp [EpWords.unreadDropped]

/-! ## Endpoints of the state -/

/-- Reading an endpoint after a write of one. -/
theorem State.ep_setEp (s : State) (a b : Nat) (w : EpWords) (h : a < s.eps.length) :
    (s.setEp a w).ep b = if b = a then w else s.ep b := by
  simp only [State.ep, State.setEp, List.getD_eq_getElem?_getD, List.getElem?_set]
  by_cases hb : a = b
  · subst hb; simp [h]
  · simp [hb, Ne.symm hb]

@[simp] theorem State.length_setEp (s : State) (a : Nat) (w : EpWords) : (s.setEp a w).eps.length = s.eps.length := by
  simp [State.setEp]

/-! ## Operands -/

/-- Without a rewrite of the registers under a command, an operand is the register's content. -/
@[simp] theorem State.operand_fresh (s : State) (h : s.staleOperands = []) (k : Nat) (f : Operands → Word) :
    s.operand k f = f s.opnd := by
  simp [State.operand, h]

end Sys2Proof.Machine
end

