-- ==== Sys2Proof/Laws/Ops.lean ====
section
/-! SUPPORT. For each shared operation: when it answers a next state, and which; and what it can have done if it did. -/

namespace Sys2Proof.Machine

/-! ## Outcomes -/

@[simp] theorem andThen_next (s : State) (k : State → Result) : andThen (.next s) k = k s := rfl
@[simp] theorem andThen_fault (f : Fault) (k : State → Result) : andThen (.fault f) k = .fault f := rfl
@[simp] theorem andThen_refused (q : Refusal) (k : State → Result) : andThen (.refused q) k = .refused q := rfl

/-- A sequence answers a next state only through one. -/
theorem andThen_eq_next {r : Result} {k : State → Result} {t : State} :
    andThen r k = .next t ↔ ∃ s, r = .next s ∧ k s = .next t := by
  cases r <;> simp [andThen]

@[simp] theorem forEach_nil {α : Type} (f : α → State → Result) (s : State) : forEach f [] s = .next s := rfl
theorem forEach_cons {α : Type} (f : α → State → Result) (x : α) (xs : List α) (s : State) :
    forEach f (x :: xs) s = andThen (f x s) (forEach f xs) := rfl

theorem forEach_append {α : Type} (f : α → State → Result) (xs ys : List α) (s : State) :
    forEach f (xs ++ ys) s = andThen (forEach f xs s) (forEach f ys) := by
  induction xs generalizing s with
  | nil => rfl
  | cons x xs ih =>
    rw [List.cons_append, forEach_cons, forEach_cons]
    cases f x s with
    | next t => exact ih t
    | fault _ => rfl
    | refused _ => rfl

/-- What every step of a loop keeps, the loop keeps. -/
theorem forEach_keeps {α : Type} {f : α → State → Result} {P : State → Prop}
    (h : ∀ x s t, P s → f x s = .next t → P t) {xs : List α} {s t : State} (hs : P s)
    (ht : forEach f xs s = .next t) : P t := by
  induction xs generalizing s with
  | nil => simp only [forEach_nil, Host.Outcome.next.injEq] at ht; exact ht ▸ hs
  | cons x xs ih =>
    rw [forEach_cons, andThen_eq_next] at ht
    obtain ⟨u, hu, ht⟩ := ht
    exact ih (h x s u hs hu) ht

/-! ## Commands -/

theorem beginCommand_idle {s : State} (h : s.cmdInProgress = false) :
    beginCommand s = .next { s with cmdInProgress := true } := by simp [beginCommand, h]

theorem beginCommand_busy {s : State} (h : s.cmdInProgress = true) : beginCommand s = .fault .commandInProgress := by
  simp [beginCommand, h]

theorem beginCommand_eq_next {s t : State} (h : beginCommand s = .next t) :
    s.cmdInProgress = false ∧ t = { s with cmdInProgress := true } := by
  cases hc : s.cmdInProgress
  · rw [beginCommand_idle hc] at h; exact ⟨rfl, (Host.Outcome.next.inj h).symm⟩
  · rw [beginCommand_busy hc] at h; cases h

theorem withEndpoint_ok {s : State} {e : Nat} {type : BitVec 3} (h : e < s.cfg.numEndpoints)
    (ht : (s.ep e).type = type) (k : EpWords → Result) : withEndpoint s e type k = k (s.ep e) := by
  rw [withEndpoint, if_neg (Nat.not_le.2 h), if_neg (not_not_intro ht)]

theorem withEndpoint_eq_next {s t : State} {e : Nat} {type : BitVec 3} {k : EpWords → Result}
    (h : withEndpoint s e type k = .next t) :
    e < s.cfg.numEndpoints ∧ (s.ep e).type = type ∧ k (s.ep e) = .next t := by
  simp only [withEndpoint] at h
  split at h
  · cases h
  · split at h
    · cases h
    · next h1 h2 => exact ⟨Nat.not_le.1 h1, not_not.1 h2, h⟩

/-- The end of a command that is neither a REPLY nor a READ or WRITE. -/
theorem finishCommand_plain {s : State} (h : s.cmdInProgress = true) (hr : s.cmdState.replyCtx = none)
    (hm : s.cmdState.isMem = false) (err : ErrorCode) : finishCommand err s = .next (s.closeCommand err) := by
  simp [finishCommand, h, hr, hm]

/-- The end of a READ or WRITE. -/
theorem finishCommand_mem {s : State} (h : s.cmdInProgress = true) (hm : s.cmdState.isMem = true) (err : ErrorCode) :
    finishCommand err s = .next (s.scrambleOperands.closeCommand err) := by
  have hr : s.cmdState.replyCtx = none := by
    cases hc : s.cmdState <;> simp [hc, CmdState.isMem] at hm <;> rfl
  simp [finishCommand, h, hr, hm]

/-- The end of a REPLY. -/
theorem finishCommand_reply {s : State} {r : ReplyCtx} (h : s.cmdInProgress = true) (hr : s.cmdState.replyCtx = some r)
    (err : ErrorCode) :
    finishCommand err s = andThen (finishMsgReply r err s) fun t => .next (t.closeCommand err) := by
  simp [finishCommand, h, hr]

/-- A command that has ended: the state before the writes of R212 is the state itself, with the operands of a READ or
WRITE left open or the end of a REPLY done. -/
theorem finishCommand_eq_next {err : ErrorCode} {s t : State} (h : finishCommand err s = .next t) :
    s.cmdInProgress = true ∧
    ∃ u, t = u.closeCommand err ∧
      (u = s ∨ u = s.scrambleOperands ∨ ∃ r, s.cmdState.replyCtx = some r ∧ finishMsgReply r err s = .next u) := by
  simp only [finishCommand] at h
  split at h
  · cases h
  · next hc =>
    refine ⟨by simpa using hc, ?_⟩
    split at h
    · next r hr =>
      obtain ⟨u, hu, ht⟩ := andThen_eq_next.1 h
      exact ⟨u, (Host.Outcome.next.inj ht).symm, .inr (.inr ⟨r, hr, hu⟩)⟩
    · split at h
      · exact ⟨_, (Host.Outcome.next.inj h).symm, .inr (.inl rfl)⟩
      · exact ⟨_, (Host.Outcome.next.inj h).symm, .inl rfl⟩

/-! ## Rings -/

/-- An acknowledgement frees an occupied slot of the ring, and drops its message if it was unread. -/
theorem ackMessage_eq_next {e : Nat} {m : Word} {s t : State} (h : ackMessage e m s = .next t) :
    (s.ep e).msgSize ≠ 0 ∧ (s.ep e).slotOf m < (s.ep e).size.toNat ∧
    (s.ep e).occupied.getLsbD ((s.ep e).slotOf m) = true ∧
    t = if (s.ep e).unread.getLsbD ((s.ep e).slotOf m) then
          (s.setEp e (((s.ep e).freed ((s.ep e).slotOf m)).unreadDropped ((s.ep e).slotOf m))).setMsgCnt
            (s.dtu.msgCnt - 1)
        else s.setEp e ((s.ep e).freed ((s.ep e).slotOf m)) := by
  simp only [ackMessage] at h
  split at h
  · cases h
  · split at h
    · cases h
    · split at h
      · cases h
      · next h1 h2 h3 =>
        refine ⟨h1, Nat.not_le.1 h2, by simpa using h3, ?_⟩
        split at h
        · next h4 => rw [if_pos h4]; exact (Host.Outcome.next.inj h).symm
        · next h4 => rw [if_neg h4]; exact (Host.Outcome.next.inj h).symm

/-- An acknowledgement of an occupied slot. -/
theorem ackMessage_occupied {e idx : Nat} {m : Word} {s : State} (hi : (s.ep e).slotOf m = idx)
    (h0 : (s.ep e).msgSize ≠ 0) (h1 : idx < (s.ep e).size.toNat) (h2 : (s.ep e).occupied.getLsbD idx = true) :
    ackMessage e m s =
      .next (if (s.ep e).unread.getLsbD idx then
          (s.setEp e (((s.ep e).freed idx).unreadDropped idx)).setMsgCnt (s.dtu.msgCnt - 1)
        else s.setEp e ((s.ep e).freed idx)) := by
  simp only [ackMessage, hi, h0, if_false, Nat.not_le.2 h1, h2, Bool.true_eq_false]
  split <;> rfl

/-- A grant changes the credits of one endpoint, or nothing. -/
theorem grantCredits_eq_next {h : Header} {s t : State} (hg : grantCredits h s = .next t) :
    t = s ∨ t = s.setEp h.replyEp.toNat
      ((s.ep h.replyEp.toNat).withCredits
        ((s.ep h.replyEp.toNat).credits + (s.ep h.replyEp.toNat).maxMsgSize)) := by
  simp only [grantCredits] at hg
  split at hg
  · split at hg
    · cases hg
    · exact .inr (Host.Outcome.next.inj hg).symm
  · exact .inl (Host.Outcome.next.inj hg).symm

theorem scanRing_eq_some {size start i : Nat} {p : Nat → Bool} (h : scanRing size start p = some i) :
    p i = true ∧ i < size ∧ ∃ k, k < size ∧ i = (start + k) % size := by
  have h1 := List.find?_some h
  have h2 := List.mem_of_find?_eq_some h
  simp only [List.mem_map, List.mem_range] at h2
  obtain ⟨k, hk, rfl⟩ := h2
  exact ⟨h1, Nat.mod_lt _ (by omega), k, hk, rfl⟩

/-- The first place of a scan that passes. -/
theorem scanRing_first {size start k : Nat} {p : Nat → Bool} (hk : k < size) (hp : p ((start + k) % size) = true)
    (hj : ∀ j < k, p ((start + j) % size) = false) : scanRing size start p = some ((start + k) % size) := by
  rw [scanRing, List.find?_map]
  have : (List.range size).find? (p ∘ fun k => (start + k) % size) = some k := by
    rw [List.find?_range_eq_some]
    exact ⟨hp, List.mem_range.2 hk, fun j hjk => by simpa using hj j hjk⟩
  rw [this]; rfl

theorem scanRing_none {size start : Nat} {p : Nat → Bool} (h : ∀ k < size, p ((start + k) % size) = false) :
    scanRing size start p = none := by
  rw [scanRing, List.find?_eq_none]
  intro x hx
  simp only [List.mem_map, List.mem_range] at hx
  obtain ⟨k, hk, rfl⟩ := hx
  simp [h k hk]

/-! ## Transfers -/

theorem startTransfer_ok {r : XferReq} {s : State}
    (h : r.size + (if r.header.isSome then headerSize else 0) ≤ s.cfg.bufSize) :
    startTransfer r s = .next { s with pendingTransfers := s.pendingTransfers ++ [r] } := by
  rw [startTransfer, if_neg (Nat.not_lt.2 h)]

theorem startTransfer_eq_next {r : XferReq} {s t : State} (h : startTransfer r s = .next t) :
    r.size + (if r.header.isSome then headerSize else 0) ≤ s.cfg.bufSize ∧
    t = { s with pendingTransfers := s.pendingTransfers ++ [r] } := by
  by_cases hb : s.cfg.bufSize < r.size + (if r.header.isSome then headerSize else 0)
  · rw [startTransfer, if_pos hb] at h; cases h
  · rw [startTransfer, if_neg hb] at h
    exact ⟨Nat.not_lt.1 hb, (Host.Outcome.next.inj h).symm⟩

/-! ## Translation -/

/-- The translation is known: there is no TLB, or the page is in it with the rights. -/
theorem translateFor_known {s : State} {virt page : Word} {access : BitVec 5} (w : Waiter)
    (h : (s.cfg.tlbEntries = 0 ∧ page = pageBase virt) ∨
      (s.cfg.tlbEntries ≠ 0 ∧ tlbLookup s.tlb virt access = .hit page)) :
    translateFor virt access w s = notify w (some page) s := by
  rcases h with ⟨h, rfl⟩ | ⟨h, hl⟩
  · simp [translateFor, h]
  · simp [translateFor, h, hl]

/-- The translation is awaited. -/
theorem translateFor_waits {s : State} {virt : Word} {access : BitVec 5} (w : Waiter) (pf : Bool)
    (h : s.cfg.tlbEntries ≠ 0) (hl : tlbLookup s.tlb virt access = if pf then .pagefault else .miss) :
    translateFor virt access w s = .next (s.startTranslate virt access w pf) := by
  cases pf <;> simp_all [translateFor]

/-- A translation is known, has failed, or is awaited. -/
theorem translateFor_cases (virt : Word) (access : BitVec 5) (w : Waiter) (s : State) :
    (∃ page, translateFor virt access w s = notify w page s) ∨
    ∃ pf, translateFor virt access w s = .next (s.startTranslate virt access w pf) := by
  simp only [translateFor]
  split
  · exact .inl ⟨_, rfl⟩
  · split
    · exact .inl ⟨_, rfl⟩
    · exact .inl ⟨_, rfl⟩
    · exact .inr ⟨_, rfl⟩
    · exact .inr ⟨_, rfl⟩

/-- Without a TLB the address found is the address asked for. -/
theorem pageBase_add_pageOffset (virt : Word) : pageBase virt + pageOffset virt = virt := by
  apply BitVec.eq_of_toNat_eq
  have h := virt.isLt
  simp only [pageBase, pageOffset, vpnOf, field, pageBits, BitVec.toNat_add, BitVec.toNat_shiftLeft, BitVec.toNat_setWidth,
    BitVec.extractLsb'_toNat, Nat.shiftLeft_eq, Nat.shiftRight_eq_div_pow]
  omega

theorem toNat_pageOffset (virt : Word) : (pageOffset virt).toNat = virt.toNat % 4096 := by
  simp only [pageOffset, field, BitVec.toNat_setWidth, BitVec.extractLsb'_toNat, Nat.shiftRight_zero]
  omega

/-! ## The end of a page-fault resolution -/

/-- A resolution that ends told the waiters of the record at the head, and then sent the upcall of the record that was next,
if there was one (R355, R356, R359). -/
theorem resolvePagefault_eq_next {page : Option Word} {s t : State} (h : resolvePagefault page s = .next t) :
    (s.pfQueue = [] ∧ t = s) ∨
    ∃ q rest u, s.pfQueue = q :: rest ∧ forEach (fun w => notify w page) q.waiters { s with pfQueue := rest } = .next u ∧
      ((rest = [] ∧ t = u) ∨ (rest ≠ [] ∧ sendPagefault u = .next t)) := by
  simp only [resolvePagefault] at h
  split at h
  · cases h; exact .inl ⟨‹_›, rfl⟩
  · next q rest hq =>
    obtain ⟨u, hu, h⟩ := andThen_eq_next.1 h
    refine .inr ⟨q, rest, u, hq, hu, ?_⟩
    split at h
    · cases h; exact .inl ⟨by simpa using ‹rest.isEmpty = true›, rfl⟩
    · exact .inr ⟨by simpa using ‹¬rest.isEmpty = true›, h⟩

/-! ## Sizes of replies -/

/-- When a reply is too large (R240, R124). -/
theorem replyTooLarge_iff {c : Config} {size : Word} : replyTooLarge c size = true ↔
    c.maxNocPacketSize < size.toNat + 25 ∨ 2 ^ 16 ≤ size.toNat := by
  rw [replyTooLarge, Bool.or_eq_true, decide_eq_true_iff, decide_eq_true_iff, headerSize]

/-- When it is not. -/
theorem replyTooLarge_eq_false {c : Config} {size : Word} (h1 : size.toNat + 25 ≤ c.maxNocPacketSize)
    (h2 : size.toNat < 2 ^ 16) : replyTooLarge c size = false := by
  rw [Bool.eq_false_iff, ne_eq, replyTooLarge_iff]
  omega

/-! ## Forwarded accesses -/

theorem isNocAddress_eq (a : Word) : isNocAddress a = a.getLsbD 58 := by
  simp only [isNocAddress, decodeNocAddr, field]
  rw [beq_eq_decide, Bool.eq_iff_iff, decide_eq_true_eq, BitVec.eq_of_getLsbD_eq_iff]
  simp

/-- An access that is not functional is forwarded, and answered later. -/
theorem forwardRequest_timing {req : CpuReq} {page : Word} {s : State} (h : req.func = false) :
    forwardRequest req page s = .next (s.forwardCpu req page) := by
  simp [forwardRequest, h]

/-- What a functional access does is what `forwardFunc` does with the replies that come with it. -/
theorem forwardRequest_func {req : CpuReq} {page : Word} {s : State} (h : req.func = true) :
    forwardRequest req page s = forwardFunc req req.replies page s := by
  simp [forwardRequest, h]

/-- A functional access to local memory takes no reply. -/
theorem forwardFunc_local {req : CpuReq} {replies : List (ErrorCode × List Byte)} {page : Word} {s : State}
    (h : isNocAddress (page + pageOffset req.addr) = false) (hr : replies = [] → req.replies = []) :
    forwardFunc req replies page s = .next (s.forwardCpu req page) := by
  cases replies with
  | nil => simp only [forwardFunc, ← hr rfl]
  | cons r rest => simp only [forwardFunc, h, if_true]

end Sys2Proof.Machine
end

