-- ==== Sys2Proof/Laws/Registers.lean ====
section
/-! SUPPORT. The register file: a replaced register, the bytes of a register read, the words of a register write. -/

namespace Sys2Proof.Machine

theorem dtu_get_put (d : DtuRegs) (v : Word) (k j : Nat) (hk : k < 8) (hj : j < 8) :
    (d.put v k).get j = if j = k then v else d.get j := by
  interval_cases k <;> interval_cases j <;> rfl

theorem ep_get_put (d : EpWords) (v : Word) (k j : Nat) (hk : k < 3) (hj : j < 3) :
    (d.put v k).get j = if j = k then v else d.get j := by
  interval_cases k <;> interval_cases j <;> rfl

theorem cmd_get_put (s : State) (v : Word) (k j : Nat) (hk : k < 6) (hj : j < 6) :
    (s.putCmd v k).getCmd j = if j = k then v else s.getCmd j := by
  interval_cases k <;> interval_cases j <;> rfl

theorem putCmd_dtu (s : State) (v : Word) (k : Nat) : (s.putCmd v k).dtu = s.dtu := by
  unfold State.putCmd; split <;> rfl

theorem putCmd_eps (s : State) (v : Word) (k : Nat) : (s.putCmd v k).eps = s.eps := by
  unfold State.putCmd; split <;> rfl

/-- A command register replaced: nothing else changes. -/
theorem putCmd_only (s : State) (v : Word) (k : Nat) : s.putCmd v k =
    { s with command := (s.putCmd v k).command, opnd := (s.putCmd v k).opnd } := by
  unfold State.putCmd; split <;> rfl

theorem getCmd_congr (s t : State) (h1 : s.command = t.command) (h2 : s.opnd = t.opnd) (k : Nat) :
    s.getCmd k = t.getCmd k := by
  unfold State.getCmd; split <;> simp [h1, h2]

theorem length_readRegs (s : State) (off n : Nat) : (s.readRegs off n).length = 8 * n := by
  induction n with
  | zero => rfl
  | succ n ih =>
    simp only [State.readRegs, List.range_succ, List.flatMap_append, List.length_append] at ih ⊢
    rw [ih]; simp; omega

/-- The bytes of one register of a read (R181). -/
theorem slice_readRegs (s : State) (off n k : Nat) (hk : k < n) : slice (s.readRegs off n) (8 * k) 8 = wordBytes
    (s.readReg (off + 8 * k)) := by
  induction n with
  | zero => omega
  | succ n ih =>
    have hl := length_readRegs s off n
    have hs : s.readRegs off (n+1) = s.readRegs off n ++ wordBytes (s.readReg (off + 8 * n)) := by
      simp [State.readRegs, List.range_succ]
    rw [hs]
    by_cases h : k = n
    · subst h
      simp only [slice]
      rw [List.drop_append, List.drop_eq_nil_of_le (by omega), List.nil_append, hl]
      simp
    · rw [← ih (by omega)]
      simp only [slice]
      rw [List.drop_append_of_le_length (by omega), List.take_append_of_le_length (by rw [List.length_drop]; omega)]

/-- The form of a register access (R83). -/
theorem regOk {c : Config} {off size : Nat} (h1 : off % 8 = 0) (h2 : size % 8 = 0) (h3 : size ≠ 0)
    (h4 : off + size ≤ c.windowSize) : regAccessOk c off size = true := by
  simp [regAccessOk, h1, h2, h3, h4]

theorem dataWords_one (v : Word) : dataWords (wordBytes v) = [v] := by
  have : slice (wordBytes v) 0 8 = wordBytes v := by simp [slice, List.take_of_length_le]
  simp [dataWords, this]

theorem dataWords_three (a b c : Word) : dataWords (wordBytes a ++ wordBytes b ++ wordBytes c) = [a, b, c] := by
  have h : (wordBytes a ++ wordBytes b ++ wordBytes c).length / 8 = 3 := by simp
  have h0 : slice (wordBytes a ++ wordBytes b ++ wordBytes c) 0 8 = wordBytes a := by
    simp [slice, List.append_assoc, List.take_append_of_le_length]
  have h1 : slice (wordBytes a ++ wordBytes b ++ wordBytes c) 8 8 = wordBytes b := by
    simp only [slice, List.append_assoc]; rw [List.drop_append, List.drop_eq_nil_of_le (by simp), List.nil_append]
    simp [List.take_append_of_le_length]
  have h2 : slice (wordBytes a ++ wordBytes b ++ wordBytes c) 16 8 = wordBytes c := by
    simp only [slice]; rw [List.drop_append, List.drop_eq_nil_of_le (by simp), List.nil_append]
    simp
  simp [dataWords, h, List.range_succ]
  simp at h0 h1 h2
  simp [h0, h1, h2]

/-- A CPU write is performed on command registers only (R430). -/
theorem mayWrite_cpu {s : State} {off : Nat} (h : s.mayWrite true off = true) : 0x40 ≤ off ∧ off < 0x70 := by
  simp [State.mayWrite] at h; omega

/-! ## The suspend pin -/

/-- A register write that leaves `MSG_CNT` as it was drives no pin. -/
@[simp] theorem suspendPin_same {s t : State} (h : t.dtu.msgCnt = s.dtu.msgCnt) : suspendPin s t = [] := if_pos h

/-- One that changes it drives the pin by the new value. -/
theorem suspendPin_changed {s t : State} (h : t.dtu.msgCnt ≠ s.dtu.msgCnt) :
    suspendPin s t = [.setDenySuspend (t.dtu.msgCnt != 0)] := if_neg h

end Sys2Proof.Machine
end

