-- ==== Sys2Proof/Laws/State.lean ====
section
/-! SUPPORT. One lemma per field per update of State, each true by definition, so that no proof unfolds an update. -/

namespace Sys2Proof.Machine

variable (s : State)

section
variable (o : Output)
@[simp] theorem State.emit_cfg : (s.emit o).cfg = s.cfg := rfl
@[simp] theorem State.emit_dtu : (s.emit o).dtu = s.dtu := rfl
@[simp] theorem State.emit_command : (s.emit o).command = s.command := rfl
@[simp] theorem State.emit_opnd : (s.emit o).opnd = s.opnd := rfl
@[simp] theorem State.emit_eps : (s.emit o).eps = s.eps := rfl
@[simp] theorem State.emit_cmdInProgress : (s.emit o).cmdInProgress = s.cmdInProgress := rfl
@[simp] theorem State.emit_execPending : (s.emit o).execPending = s.execPending := rfl
@[simp] theorem State.emit_extPending : (s.emit o).extPending = s.extPending := rfl
@[simp] theorem State.emit_extWaiting : (s.emit o).extWaiting = s.extWaiting := rfl
@[simp] theorem State.emit_cmdState : (s.emit o).cmdState = s.cmdState := rfl
@[simp] theorem State.emit_staleOperands : (s.emit o).staleOperands = s.staleOperands := rfl
@[simp] theorem State.emit_tlb : (s.emit o).tlb = s.tlb := rfl
@[simp] theorem State.emit_bufs : (s.emit o).bufs = s.bufs := rfl
@[simp] theorem State.emit_pendingTransfers : (s.emit o).pendingTransfers = s.pendingTransfers := rfl
@[simp] theorem State.emit_pfQueue : (s.emit o).pfQueue = s.pfQueue := rfl
@[simp] theorem State.emit_translateEvents : (s.emit o).translateEvents = s.translateEvents := rfl
@[simp] theorem State.emit_nextEvent : (s.emit o).nextEvent = s.nextEvent := rfl
@[simp] theorem State.emit_lastPfVpn : (s.emit o).lastPfVpn = s.lastPfVpn := rfl
@[simp] theorem State.emit_pfRepeat : (s.emit o).pfRepeat = s.pfRepeat := rfl
@[simp] theorem State.emit_nocOutstanding : (s.emit o).nocOutstanding = s.nocOutstanding := rfl
@[simp] theorem State.emit_memOutstanding : (s.emit o).memOutstanding = s.memOutstanding := rfl
@[simp] theorem State.emit_mem : (s.emit o).mem = s.mem := rfl
@[simp] theorem State.emit_agenda : (s.emit o).agenda = s.agenda := rfl
@[simp] theorem State.emit_out : (s.emit o).out = s.out ++ [o] := rfl
@[simp] theorem State.emit_draws : (s.emit o).draws = s.draws := rfl
end

section
variable (p : Packet) (r : ErrorCode) (d : List Byte)
@[simp] theorem State.nocRespond_cfg : (s.nocRespond p r d).cfg = s.cfg := rfl
@[simp] theorem State.nocRespond_dtu : (s.nocRespond p r d).dtu = s.dtu := rfl
@[simp] theorem State.nocRespond_command : (s.nocRespond p r d).command = s.command := rfl
@[simp] theorem State.nocRespond_opnd : (s.nocRespond p r d).opnd = s.opnd := rfl
@[simp] theorem State.nocRespond_eps : (s.nocRespond p r d).eps = s.eps := rfl
@[simp] theorem State.nocRespond_cmdInProgress : (s.nocRespond p r d).cmdInProgress = s.cmdInProgress := rfl
@[simp] theorem State.nocRespond_execPending : (s.nocRespond p r d).execPending = s.execPending := rfl
@[simp] theorem State.nocRespond_extPending : (s.nocRespond p r d).extPending = s.extPending := rfl
@[simp] theorem State.nocRespond_extWaiting : (s.nocRespond p r d).extWaiting = s.extWaiting := rfl
@[simp] theorem State.nocRespond_cmdState : (s.nocRespond p r d).cmdState = s.cmdState := rfl
@[simp] theorem State.nocRespond_staleOperands : (s.nocRespond p r d).staleOperands = s.staleOperands := rfl
@[simp] theorem State.nocRespond_tlb : (s.nocRespond p r d).tlb = s.tlb := rfl
@[simp] theorem State.nocRespond_bufs : (s.nocRespond p r d).bufs = s.bufs := rfl
@[simp] theorem State.nocRespond_pendingTransfers : (s.nocRespond p r d).pendingTransfers = s.pendingTransfers := rfl
@[simp] theorem State.nocRespond_pfQueue : (s.nocRespond p r d).pfQueue = s.pfQueue := rfl
@[simp] theorem State.nocRespond_translateEvents : (s.nocRespond p r d).translateEvents = s.translateEvents := rfl
@[simp] theorem State.nocRespond_nextEvent : (s.nocRespond p r d).nextEvent = s.nextEvent := rfl
@[simp] theorem State.nocRespond_lastPfVpn : (s.nocRespond p r d).lastPfVpn = s.lastPfVpn := rfl
@[simp] theorem State.nocRespond_pfRepeat : (s.nocRespond p r d).pfRepeat = s.pfRepeat := rfl
@[simp] theorem State.nocRespond_nocOutstanding : (s.nocRespond p r d).nocOutstanding = s.nocOutstanding := rfl
@[simp] theorem State.nocRespond_memOutstanding : (s.nocRespond p r d).memOutstanding = s.memOutstanding := rfl
@[simp] theorem State.nocRespond_mem : (s.nocRespond p r d).mem = s.mem := rfl
@[simp] theorem State.nocRespond_agenda : (s.nocRespond p r d).agenda = s.agenda := rfl
@[simp] theorem State.nocRespond_out : (s.nocRespond p r d).out = s.out ++ [.nocResponse p r d] := rfl
@[simp] theorem State.nocRespond_draws : (s.nocRespond p r d).draws = s.draws := rfl
end

section
variable (t : PacketType) (a : Word) (k : AccessKind) (n : Nat) (d : List Byte) (w : NocWaiter)
@[simp] theorem State.nocSend_cfg : (s.nocSend t a k n d w).cfg = s.cfg := rfl
@[simp] theorem State.nocSend_dtu : (s.nocSend t a k n d w).dtu = s.dtu := rfl
@[simp] theorem State.nocSend_command : (s.nocSend t a k n d w).command = s.command := rfl
@[simp] theorem State.nocSend_opnd : (s.nocSend t a k n d w).opnd = s.opnd := rfl
@[simp] theorem State.nocSend_eps : (s.nocSend t a k n d w).eps = s.eps := rfl
@[simp] theorem State.nocSend_cmdInProgress : (s.nocSend t a k n d w).cmdInProgress = s.cmdInProgress := rfl
@[simp] theorem State.nocSend_execPending : (s.nocSend t a k n d w).execPending = s.execPending := rfl
@[simp] theorem State.nocSend_extPending : (s.nocSend t a k n d w).extPending = s.extPending := rfl
@[simp] theorem State.nocSend_extWaiting : (s.nocSend t a k n d w).extWaiting = s.extWaiting := rfl
@[simp] theorem State.nocSend_cmdState : (s.nocSend t a k n d w).cmdState = s.cmdState := rfl
@[simp] theorem State.nocSend_staleOperands : (s.nocSend t a k n d w).staleOperands = s.staleOperands := rfl
@[simp] theorem State.nocSend_tlb : (s.nocSend t a k n d w).tlb = s.tlb := rfl
@[simp] theorem State.nocSend_bufs : (s.nocSend t a k n d w).bufs = s.bufs := rfl
@[simp] theorem State.nocSend_pendingTransfers : (s.nocSend t a k n d w).pendingTransfers = s.pendingTransfers := rfl
@[simp] theorem State.nocSend_pfQueue : (s.nocSend t a k n d w).pfQueue = s.pfQueue := rfl
@[simp] theorem State.nocSend_translateEvents : (s.nocSend t a k n d w).translateEvents = s.translateEvents := rfl
@[simp] theorem State.nocSend_nextEvent : (s.nocSend t a k n d w).nextEvent = s.nextEvent := rfl
@[simp] theorem State.nocSend_lastPfVpn : (s.nocSend t a k n d w).lastPfVpn = s.lastPfVpn := rfl
@[simp] theorem State.nocSend_pfRepeat : (s.nocSend t a k n d w).pfRepeat = s.pfRepeat := rfl
@[simp] theorem State.nocSend_nocOutstanding :
    (s.nocSend t a k n d w).nocOutstanding =
      s.nocOutstanding ++ [⟨⟨t, a, k, n, d, true, s.cfg.coreId⟩, w⟩] := rfl
@[simp] theorem State.nocSend_memOutstanding : (s.nocSend t a k n d w).memOutstanding = s.memOutstanding := rfl
@[simp] theorem State.nocSend_mem : (s.nocSend t a k n d w).mem = s.mem := rfl
@[simp] theorem State.nocSend_agenda : (s.nocSend t a k n d w).agenda = s.agenda := rfl
@[simp] theorem State.nocSend_out :
    (s.nocSend t a k n d w).out = s.out ++ [.nocRequest ⟨t, a, k, n, d, true, s.cfg.coreId⟩] := rfl
@[simp] theorem State.nocSend_draws : (s.nocSend t a k n d w).draws = s.draws := rfl
end

section
variable (a : Word) (op : MemOp) (g : MemTag)
@[simp] theorem State.memIssue_cfg : (s.memIssue a op g).cfg = s.cfg := rfl
@[simp] theorem State.memIssue_dtu : (s.memIssue a op g).dtu = s.dtu := rfl
@[simp] theorem State.memIssue_command : (s.memIssue a op g).command = s.command := rfl
@[simp] theorem State.memIssue_opnd : (s.memIssue a op g).opnd = s.opnd := rfl
@[simp] theorem State.memIssue_eps : (s.memIssue a op g).eps = s.eps := rfl
@[simp] theorem State.memIssue_cmdInProgress : (s.memIssue a op g).cmdInProgress = s.cmdInProgress := rfl
@[simp] theorem State.memIssue_execPending : (s.memIssue a op g).execPending = s.execPending := rfl
@[simp] theorem State.memIssue_extPending : (s.memIssue a op g).extPending = s.extPending := rfl
@[simp] theorem State.memIssue_extWaiting : (s.memIssue a op g).extWaiting = s.extWaiting := rfl
@[simp] theorem State.memIssue_cmdState : (s.memIssue a op g).cmdState = s.cmdState := rfl
@[simp] theorem State.memIssue_staleOperands : (s.memIssue a op g).staleOperands = s.staleOperands := rfl
@[simp] theorem State.memIssue_tlb : (s.memIssue a op g).tlb = s.tlb := rfl
@[simp] theorem State.memIssue_bufs : (s.memIssue a op g).bufs = s.bufs := rfl
@[simp] theorem State.memIssue_pendingTransfers : (s.memIssue a op g).pendingTransfers = s.pendingTransfers := rfl
@[simp] theorem State.memIssue_pfQueue : (s.memIssue a op g).pfQueue = s.pfQueue := rfl
@[simp] theorem State.memIssue_translateEvents : (s.memIssue a op g).translateEvents = s.translateEvents := rfl
@[simp] theorem State.memIssue_nextEvent : (s.memIssue a op g).nextEvent = s.nextEvent := rfl
@[simp] theorem State.memIssue_lastPfVpn : (s.memIssue a op g).lastPfVpn = s.lastPfVpn := rfl
@[simp] theorem State.memIssue_pfRepeat : (s.memIssue a op g).pfRepeat = s.pfRepeat := rfl
@[simp] theorem State.memIssue_nocOutstanding : (s.memIssue a op g).nocOutstanding = s.nocOutstanding := rfl
@[simp] theorem State.memIssue_memOutstanding :
    (s.memIssue a op g).memOutstanding = s.memOutstanding ++ [⟨a, op, g⟩] := rfl
@[simp] theorem State.memIssue_mem : (s.memIssue a op g).mem = s.mem := rfl
@[simp] theorem State.memIssue_agenda : (s.memIssue a op g).agenda = s.agenda := rfl
@[simp] theorem State.memIssue_out : (s.memIssue a op g).out = s.out := rfl
@[simp] theorem State.memIssue_draws : (s.memIssue a op g).draws = s.draws := rfl
end

section
variable (a : Word) (d : List Byte)
@[simp] theorem State.funcWrite_cfg : (s.funcWrite a d).cfg = s.cfg := rfl
@[simp] theorem State.funcWrite_dtu : (s.funcWrite a d).dtu = s.dtu := rfl
@[simp] theorem State.funcWrite_command : (s.funcWrite a d).command = s.command := rfl
@[simp] theorem State.funcWrite_opnd : (s.funcWrite a d).opnd = s.opnd := rfl
@[simp] theorem State.funcWrite_eps : (s.funcWrite a d).eps = s.eps := rfl
@[simp] theorem State.funcWrite_cmdInProgress : (s.funcWrite a d).cmdInProgress = s.cmdInProgress := rfl
@[simp] theorem State.funcWrite_execPending : (s.funcWrite a d).execPending = s.execPending := rfl
@[simp] theorem State.funcWrite_extPending : (s.funcWrite a d).extPending = s.extPending := rfl
@[simp] theorem State.funcWrite_extWaiting : (s.funcWrite a d).extWaiting = s.extWaiting := rfl
@[simp] theorem State.funcWrite_cmdState : (s.funcWrite a d).cmdState = s.cmdState := rfl
@[simp] theorem State.funcWrite_staleOperands : (s.funcWrite a d).staleOperands = s.staleOperands := rfl
@[simp] theorem State.funcWrite_tlb : (s.funcWrite a d).tlb = s.tlb := rfl
@[simp] theorem State.funcWrite_bufs : (s.funcWrite a d).bufs = s.bufs := rfl
@[simp] theorem State.funcWrite_pendingTransfers : (s.funcWrite a d).pendingTransfers = s.pendingTransfers := rfl
@[simp] theorem State.funcWrite_pfQueue : (s.funcWrite a d).pfQueue = s.pfQueue := rfl
@[simp] theorem State.funcWrite_translateEvents : (s.funcWrite a d).translateEvents = s.translateEvents := rfl
@[simp] theorem State.funcWrite_nextEvent : (s.funcWrite a d).nextEvent = s.nextEvent := rfl
@[simp] theorem State.funcWrite_lastPfVpn : (s.funcWrite a d).lastPfVpn = s.lastPfVpn := rfl
@[simp] theorem State.funcWrite_pfRepeat : (s.funcWrite a d).pfRepeat = s.pfRepeat := rfl
@[simp] theorem State.funcWrite_nocOutstanding : (s.funcWrite a d).nocOutstanding = s.nocOutstanding := rfl
@[simp] theorem State.funcWrite_memOutstanding : (s.funcWrite a d).memOutstanding = s.memOutstanding := rfl
@[simp] theorem State.funcWrite_mem : (s.funcWrite a d).mem = s.mem.writeBytes a d := rfl
@[simp] theorem State.funcWrite_agenda : (s.funcWrite a d).agenda = s.agenda := rfl
@[simp] theorem State.funcWrite_out : (s.funcWrite a d).out = s.out := rfl
@[simp] theorem State.funcWrite_draws : (s.funcWrite a d).draws = s.draws := rfl
end

section
variable (a : Option Word) (f : Byte)
@[simp] theorem State.setStoredFlags_cfg : (s.setStoredFlags a f).cfg = s.cfg := rfl
@[simp] theorem State.setStoredFlags_dtu : (s.setStoredFlags a f).dtu = s.dtu := rfl
@[simp] theorem State.setStoredFlags_command : (s.setStoredFlags a f).command = s.command := rfl
@[simp] theorem State.setStoredFlags_opnd : (s.setStoredFlags a f).opnd = s.opnd := rfl
@[simp] theorem State.setStoredFlags_eps : (s.setStoredFlags a f).eps = s.eps := rfl
@[simp] theorem State.setStoredFlags_cmdInProgress : (s.setStoredFlags a f).cmdInProgress = s.cmdInProgress := rfl
@[simp] theorem State.setStoredFlags_execPending : (s.setStoredFlags a f).execPending = s.execPending := rfl
@[simp] theorem State.setStoredFlags_extPending : (s.setStoredFlags a f).extPending = s.extPending := rfl
@[simp] theorem State.setStoredFlags_extWaiting : (s.setStoredFlags a f).extWaiting = s.extWaiting := rfl
@[simp] theorem State.setStoredFlags_cmdState : (s.setStoredFlags a f).cmdState = s.cmdState := rfl
@[simp] theorem State.setStoredFlags_staleOperands : (s.setStoredFlags a f).staleOperands = s.staleOperands := rfl
@[simp] theorem State.setStoredFlags_tlb : (s.setStoredFlags a f).tlb = s.tlb := rfl
@[simp] theorem State.setStoredFlags_bufs : (s.setStoredFlags a f).bufs = s.bufs := rfl
@[simp] theorem State.setStoredFlags_pendingTransfers :
    (s.setStoredFlags a f).pendingTransfers = s.pendingTransfers := rfl
@[simp] theorem State.setStoredFlags_pfQueue : (s.setStoredFlags a f).pfQueue = s.pfQueue := rfl
@[simp] theorem State.setStoredFlags_translateEvents :
    (s.setStoredFlags a f).translateEvents = s.translateEvents := rfl
@[simp] theorem State.setStoredFlags_nextEvent : (s.setStoredFlags a f).nextEvent = s.nextEvent := rfl
@[simp] theorem State.setStoredFlags_lastPfVpn : (s.setStoredFlags a f).lastPfVpn = s.lastPfVpn := rfl
@[simp] theorem State.setStoredFlags_pfRepeat : (s.setStoredFlags a f).pfRepeat = s.pfRepeat := rfl
@[simp] theorem State.setStoredFlags_nocOutstanding : (s.setStoredFlags a f).nocOutstanding = s.nocOutstanding := rfl
@[simp] theorem State.setStoredFlags_memOutstanding : (s.setStoredFlags a f).memOutstanding = s.memOutstanding := rfl
@[simp] theorem State.setStoredFlags_mem :
    (s.setStoredFlags a f).mem = match a with
      | some pa => s.mem.writeBytes pa [f]
      | none => s.mem := rfl
@[simp] theorem State.setStoredFlags_agenda : (s.setStoredFlags a f).agenda = s.agenda := rfl
@[simp] theorem State.setStoredFlags_out : (s.setStoredFlags a f).out = s.out := rfl
@[simp] theorem State.setStoredFlags_draws : (s.setStoredFlags a f).draws = s.draws := rfl
end

section
variable (n : Nat)
@[simp] theorem State.drawn_cfg : (s.drawn n).cfg = s.cfg := rfl
@[simp] theorem State.drawn_dtu : (s.drawn n).dtu = s.dtu := rfl
@[simp] theorem State.drawn_command : (s.drawn n).command = s.command := rfl
@[simp] theorem State.drawn_opnd : (s.drawn n).opnd = s.opnd := rfl
@[simp] theorem State.drawn_eps : (s.drawn n).eps = s.eps := rfl
@[simp] theorem State.drawn_cmdInProgress : (s.drawn n).cmdInProgress = s.cmdInProgress := rfl
@[simp] theorem State.drawn_execPending : (s.drawn n).execPending = s.execPending := rfl
@[simp] theorem State.drawn_extPending : (s.drawn n).extPending = s.extPending := rfl
@[simp] theorem State.drawn_extWaiting : (s.drawn n).extWaiting = s.extWaiting := rfl
@[simp] theorem State.drawn_cmdState : (s.drawn n).cmdState = s.cmdState := rfl
@[simp] theorem State.drawn_staleOperands : (s.drawn n).staleOperands = s.staleOperands := rfl
@[simp] theorem State.drawn_tlb : (s.drawn n).tlb = s.tlb := rfl
@[simp] theorem State.drawn_bufs : (s.drawn n).bufs = s.bufs := rfl
@[simp] theorem State.drawn_pendingTransfers : (s.drawn n).pendingTransfers = s.pendingTransfers := rfl
@[simp] theorem State.drawn_pfQueue : (s.drawn n).pfQueue = s.pfQueue := rfl
@[simp] theorem State.drawn_translateEvents : (s.drawn n).translateEvents = s.translateEvents := rfl
@[simp] theorem State.drawn_nextEvent : (s.drawn n).nextEvent = s.nextEvent := rfl
@[simp] theorem State.drawn_lastPfVpn : (s.drawn n).lastPfVpn = s.lastPfVpn := rfl
@[simp] theorem State.drawn_pfRepeat : (s.drawn n).pfRepeat = s.pfRepeat := rfl
@[simp] theorem State.drawn_nocOutstanding : (s.drawn n).nocOutstanding = s.nocOutstanding := rfl
@[simp] theorem State.drawn_memOutstanding : (s.drawn n).memOutstanding = s.memOutstanding := rfl
@[simp] theorem State.drawn_mem : (s.drawn n).mem = s.mem := rfl
@[simp] theorem State.drawn_agenda : (s.drawn n).agenda = s.agenda := rfl
@[simp] theorem State.drawn_out : (s.drawn n).out = s.out := rfl
@[simp] theorem State.drawn_draws : (s.drawn n).draws = s.draws + n := rfl
end

section
variable (b : Nat) (buf : Buffer)
@[simp] theorem State.setBuf_cfg : (s.setBuf b buf).cfg = s.cfg := rfl
@[simp] theorem State.setBuf_dtu : (s.setBuf b buf).dtu = s.dtu := rfl
@[simp] theorem State.setBuf_command : (s.setBuf b buf).command = s.command := rfl
@[simp] theorem State.setBuf_opnd : (s.setBuf b buf).opnd = s.opnd := rfl
@[simp] theorem State.setBuf_eps : (s.setBuf b buf).eps = s.eps := rfl
@[simp] theorem State.setBuf_cmdInProgress : (s.setBuf b buf).cmdInProgress = s.cmdInProgress := rfl
@[simp] theorem State.setBuf_execPending : (s.setBuf b buf).execPending = s.execPending := rfl
@[simp] theorem State.setBuf_extPending : (s.setBuf b buf).extPending = s.extPending := rfl
@[simp] theorem State.setBuf_extWaiting : (s.setBuf b buf).extWaiting = s.extWaiting := rfl
@[simp] theorem State.setBuf_cmdState : (s.setBuf b buf).cmdState = s.cmdState := rfl
@[simp] theorem State.setBuf_staleOperands : (s.setBuf b buf).staleOperands = s.staleOperands := rfl
@[simp] theorem State.setBuf_tlb : (s.setBuf b buf).tlb = s.tlb := rfl
@[simp] theorem State.setBuf_bufs : (s.setBuf b buf).bufs = s.bufs.set b buf := rfl
@[simp] theorem State.setBuf_pendingTransfers : (s.setBuf b buf).pendingTransfers = s.pendingTransfers := rfl
@[simp] theorem State.setBuf_pfQueue : (s.setBuf b buf).pfQueue = s.pfQueue := rfl
@[simp] theorem State.setBuf_translateEvents : (s.setBuf b buf).translateEvents = s.translateEvents := rfl
@[simp] theorem State.setBuf_nextEvent : (s.setBuf b buf).nextEvent = s.nextEvent := rfl
@[simp] theorem State.setBuf_lastPfVpn : (s.setBuf b buf).lastPfVpn = s.lastPfVpn := rfl
@[simp] theorem State.setBuf_pfRepeat : (s.setBuf b buf).pfRepeat = s.pfRepeat := rfl
@[simp] theorem State.setBuf_nocOutstanding : (s.setBuf b buf).nocOutstanding = s.nocOutstanding := rfl
@[simp] theorem State.setBuf_memOutstanding : (s.setBuf b buf).memOutstanding = s.memOutstanding := rfl
@[simp] theorem State.setBuf_mem : (s.setBuf b buf).mem = s.mem := rfl
@[simp] theorem State.setBuf_agenda : (s.setBuf b buf).agenda = s.agenda := rfl
@[simp] theorem State.setBuf_out : (s.setBuf b buf).out = s.out := rfl
@[simp] theorem State.setBuf_draws : (s.setBuf b buf).draws = s.draws := rfl
end

section
variable (v : Word)
@[simp] theorem State.setMsgCnt_cfg : (s.setMsgCnt v).cfg = s.cfg := rfl
@[simp] theorem State.setMsgCnt_dtu : (s.setMsgCnt v).dtu = { s.dtu with msgCnt := v } := rfl
@[simp] theorem State.setMsgCnt_command : (s.setMsgCnt v).command = s.command := rfl
@[simp] theorem State.setMsgCnt_opnd : (s.setMsgCnt v).opnd = s.opnd := rfl
@[simp] theorem State.setMsgCnt_eps : (s.setMsgCnt v).eps = s.eps := rfl
@[simp] theorem State.setMsgCnt_cmdInProgress : (s.setMsgCnt v).cmdInProgress = s.cmdInProgress := rfl
@[simp] theorem State.setMsgCnt_execPending : (s.setMsgCnt v).execPending = s.execPending := rfl
@[simp] theorem State.setMsgCnt_extPending : (s.setMsgCnt v).extPending = s.extPending := rfl
@[simp] theorem State.setMsgCnt_extWaiting : (s.setMsgCnt v).extWaiting = s.extWaiting := rfl
@[simp] theorem State.setMsgCnt_cmdState : (s.setMsgCnt v).cmdState = s.cmdState := rfl
@[simp] theorem State.setMsgCnt_staleOperands : (s.setMsgCnt v).staleOperands = s.staleOperands := rfl
@[simp] theorem State.setMsgCnt_tlb : (s.setMsgCnt v).tlb = s.tlb := rfl
@[simp] theorem State.setMsgCnt_bufs : (s.setMsgCnt v).bufs = s.bufs := rfl
@[simp] theorem State.setMsgCnt_pendingTransfers : (s.setMsgCnt v).pendingTransfers = s.pendingTransfers := rfl
@[simp] theorem State.setMsgCnt_pfQueue : (s.setMsgCnt v).pfQueue = s.pfQueue := rfl
@[simp] theorem State.setMsgCnt_translateEvents : (s.setMsgCnt v).translateEvents = s.translateEvents := rfl
@[simp] theorem State.setMsgCnt_nextEvent : (s.setMsgCnt v).nextEvent = s.nextEvent := rfl
@[simp] theorem State.setMsgCnt_lastPfVpn : (s.setMsgCnt v).lastPfVpn = s.lastPfVpn := rfl
@[simp] theorem State.setMsgCnt_pfRepeat : (s.setMsgCnt v).pfRepeat = s.pfRepeat := rfl
@[simp] theorem State.setMsgCnt_nocOutstanding : (s.setMsgCnt v).nocOutstanding = s.nocOutstanding := rfl
@[simp] theorem State.setMsgCnt_memOutstanding : (s.setMsgCnt v).memOutstanding = s.memOutstanding := rfl
@[simp] theorem State.setMsgCnt_mem : (s.setMsgCnt v).mem = s.mem := rfl
@[simp] theorem State.setMsgCnt_agenda : (s.setMsgCnt v).agenda = s.agenda := rfl
@[simp] theorem State.setMsgCnt_out : (s.setMsgCnt v).out = s.out ++ [.setDenySuspend (v != 0)] := rfl
@[simp] theorem State.setMsgCnt_draws : (s.setMsgCnt v).draws = s.draws := rfl
end

section
variable (e : Nat) (w : EpWords)
@[simp] theorem State.setEp_cfg : (s.setEp e w).cfg = s.cfg := rfl
@[simp] theorem State.setEp_dtu : (s.setEp e w).dtu = s.dtu := rfl
@[simp] theorem State.setEp_command : (s.setEp e w).command = s.command := rfl
@[simp] theorem State.setEp_opnd : (s.setEp e w).opnd = s.opnd := rfl
@[simp] theorem State.setEp_eps : (s.setEp e w).eps = s.eps.set e w := rfl
@[simp] theorem State.setEp_cmdInProgress : (s.setEp e w).cmdInProgress = s.cmdInProgress := rfl
@[simp] theorem State.setEp_execPending : (s.setEp e w).execPending = s.execPending := rfl
@[simp] theorem State.setEp_extPending : (s.setEp e w).extPending = s.extPending := rfl
@[simp] theorem State.setEp_extWaiting : (s.setEp e w).extWaiting = s.extWaiting := rfl
@[simp] theorem State.setEp_cmdState : (s.setEp e w).cmdState = s.cmdState := rfl
@[simp] theorem State.setEp_staleOperands : (s.setEp e w).staleOperands = s.staleOperands := rfl
@[simp] theorem State.setEp_tlb : (s.setEp e w).tlb = s.tlb := rfl
@[simp] theorem State.setEp_bufs : (s.setEp e w).bufs = s.bufs := rfl
@[simp] theorem State.setEp_pendingTransfers : (s.setEp e w).pendingTransfers = s.pendingTransfers := rfl
@[simp] theorem State.setEp_pfQueue : (s.setEp e w).pfQueue = s.pfQueue := rfl
@[simp] theorem State.setEp_translateEvents : (s.setEp e w).translateEvents = s.translateEvents := rfl
@[simp] theorem State.setEp_nextEvent : (s.setEp e w).nextEvent = s.nextEvent := rfl
@[simp] theorem State.setEp_lastPfVpn : (s.setEp e w).lastPfVpn = s.lastPfVpn := rfl
@[simp] theorem State.setEp_pfRepeat : (s.setEp e w).pfRepeat = s.pfRepeat := rfl
@[simp] theorem State.setEp_nocOutstanding : (s.setEp e w).nocOutstanding = s.nocOutstanding := rfl
@[simp] theorem State.setEp_memOutstanding : (s.setEp e w).memOutstanding = s.memOutstanding := rfl
@[simp] theorem State.setEp_mem : (s.setEp e w).mem = s.mem := rfl
@[simp] theorem State.setEp_agenda : (s.setEp e w).agenda = s.agenda := rfl
@[simp] theorem State.setEp_out : (s.setEp e w).out = s.out := rfl
@[simp] theorem State.setEp_draws : (s.setEp e w).draws = s.draws := rfl
end

section
variable (t i : Nat)
@[simp] theorem State.finishMsgReceive_cfg : (s.finishMsgReceive t i).cfg = s.cfg := rfl
@[simp] theorem State.finishMsgReceive_dtu :
    (s.finishMsgReceive t i).dtu = { s.dtu with msgCnt := s.dtu.msgCnt + 1 } := rfl
@[simp] theorem State.finishMsgReceive_command : (s.finishMsgReceive t i).command = s.command := rfl
@[simp] theorem State.finishMsgReceive_opnd : (s.finishMsgReceive t i).opnd = s.opnd := rfl
@[simp] theorem State.finishMsgReceive_eps : (s.finishMsgReceive t i).eps = s.eps.set t ((s.ep t).received i) := rfl
@[simp] theorem State.finishMsgReceive_cmdInProgress : (s.finishMsgReceive t i).cmdInProgress = s.cmdInProgress := rfl
@[simp] theorem State.finishMsgReceive_execPending : (s.finishMsgReceive t i).execPending = s.execPending := rfl
@[simp] theorem State.finishMsgReceive_extPending : (s.finishMsgReceive t i).extPending = s.extPending := rfl
@[simp] theorem State.finishMsgReceive_extWaiting : (s.finishMsgReceive t i).extWaiting = s.extWaiting := rfl
@[simp] theorem State.finishMsgReceive_cmdState : (s.finishMsgReceive t i).cmdState = s.cmdState := rfl
@[simp] theorem State.finishMsgReceive_staleOperands : (s.finishMsgReceive t i).staleOperands = s.staleOperands := rfl
@[simp] theorem State.finishMsgReceive_tlb : (s.finishMsgReceive t i).tlb = s.tlb := rfl
@[simp] theorem State.finishMsgReceive_bufs : (s.finishMsgReceive t i).bufs = s.bufs := rfl
@[simp] theorem State.finishMsgReceive_pendingTransfers :
    (s.finishMsgReceive t i).pendingTransfers = s.pendingTransfers := rfl
@[simp] theorem State.finishMsgReceive_pfQueue : (s.finishMsgReceive t i).pfQueue = s.pfQueue := rfl
@[simp] theorem State.finishMsgReceive_translateEvents :
    (s.finishMsgReceive t i).translateEvents = s.translateEvents := rfl
@[simp] theorem State.finishMsgReceive_nextEvent : (s.finishMsgReceive t i).nextEvent = s.nextEvent := rfl
@[simp] theorem State.finishMsgReceive_lastPfVpn : (s.finishMsgReceive t i).lastPfVpn = s.lastPfVpn := rfl
@[simp] theorem State.finishMsgReceive_pfRepeat : (s.finishMsgReceive t i).pfRepeat = s.pfRepeat := rfl
@[simp] theorem State.finishMsgReceive_nocOutstanding :
    (s.finishMsgReceive t i).nocOutstanding = s.nocOutstanding := rfl
@[simp] theorem State.finishMsgReceive_memOutstanding :
    (s.finishMsgReceive t i).memOutstanding = s.memOutstanding := rfl
@[simp] theorem State.finishMsgReceive_mem : (s.finishMsgReceive t i).mem = s.mem := rfl
@[simp] theorem State.finishMsgReceive_agenda : (s.finishMsgReceive t i).agenda = s.agenda := rfl
@[simp] theorem State.finishMsgReceive_out :
    (s.finishMsgReceive t i).out = s.out ++ [.setDenySuspend (s.dtu.msgCnt + 1 != 0), .wakeCore] :=
  List.append_assoc ..
@[simp] theorem State.finishMsgReceive_draws : (s.finishMsgReceive t i).draws = s.draws := rfl
end

section
@[simp] theorem State.scrambleOperands_cfg : (s.scrambleOperands).cfg = s.cfg := rfl
@[simp] theorem State.scrambleOperands_dtu : (s.scrambleOperands).dtu = s.dtu := rfl
@[simp] theorem State.scrambleOperands_command : (s.scrambleOperands).command = s.command := rfl
@[simp] theorem State.scrambleOperands_opnd :
    (s.scrambleOperands).opnd = { s.opnd with
      dataAddr := Config.freeWord s.draws
      dataSize := Config.freeWord (s.draws + 1)
      offset := Config.freeWord (s.draws + 2) } := rfl
@[simp] theorem State.scrambleOperands_eps : (s.scrambleOperands).eps = s.eps := rfl
@[simp] theorem State.scrambleOperands_cmdInProgress : (s.scrambleOperands).cmdInProgress = s.cmdInProgress := rfl
@[simp] theorem State.scrambleOperands_execPending : (s.scrambleOperands).execPending = s.execPending := rfl
@[simp] theorem State.scrambleOperands_extPending : (s.scrambleOperands).extPending = s.extPending := rfl
@[simp] theorem State.scrambleOperands_extWaiting : (s.scrambleOperands).extWaiting = s.extWaiting := rfl
@[simp] theorem State.scrambleOperands_cmdState : (s.scrambleOperands).cmdState = s.cmdState := rfl
@[simp] theorem State.scrambleOperands_staleOperands : (s.scrambleOperands).staleOperands = s.staleOperands := rfl
@[simp] theorem State.scrambleOperands_tlb : (s.scrambleOperands).tlb = s.tlb := rfl
@[simp] theorem State.scrambleOperands_bufs : (s.scrambleOperands).bufs = s.bufs := rfl
@[simp] theorem State.scrambleOperands_pendingTransfers :
    (s.scrambleOperands).pendingTransfers = s.pendingTransfers := rfl
@[simp] theorem State.scrambleOperands_pfQueue : (s.scrambleOperands).pfQueue = s.pfQueue := rfl
@[simp] theorem State.scrambleOperands_translateEvents :
    (s.scrambleOperands).translateEvents = s.translateEvents := rfl
@[simp] theorem State.scrambleOperands_nextEvent : (s.scrambleOperands).nextEvent = s.nextEvent := rfl
@[simp] theorem State.scrambleOperands_lastPfVpn : (s.scrambleOperands).lastPfVpn = s.lastPfVpn := rfl
@[simp] theorem State.scrambleOperands_pfRepeat : (s.scrambleOperands).pfRepeat = s.pfRepeat := rfl
@[simp] theorem State.scrambleOperands_nocOutstanding : (s.scrambleOperands).nocOutstanding = s.nocOutstanding := rfl
@[simp] theorem State.scrambleOperands_memOutstanding : (s.scrambleOperands).memOutstanding = s.memOutstanding := rfl
@[simp] theorem State.scrambleOperands_mem : (s.scrambleOperands).mem = s.mem := rfl
@[simp] theorem State.scrambleOperands_agenda : (s.scrambleOperands).agenda = s.agenda := rfl
@[simp] theorem State.scrambleOperands_out : (s.scrambleOperands).out = s.out := rfl
@[simp] theorem State.scrambleOperands_draws : (s.scrambleOperands).draws = s.draws + 3 := rfl
end

section
variable (e : ErrorCode)
@[simp] theorem State.closeCommand_cfg : (s.closeCommand e).cfg = s.cfg := rfl
@[simp] theorem State.closeCommand_dtu : (s.closeCommand e).dtu = s.dtu := rfl
@[simp] theorem State.closeCommand_command : (s.closeCommand e).command = finishedCommand s.cfg e := rfl
@[simp] theorem State.closeCommand_opnd : (s.closeCommand e).opnd = s.opnd := rfl
@[simp] theorem State.closeCommand_eps : (s.closeCommand e).eps = s.eps := rfl
@[simp] theorem State.closeCommand_cmdInProgress : (s.closeCommand e).cmdInProgress = false := rfl
@[simp] theorem State.closeCommand_execPending : (s.closeCommand e).execPending = s.execPending := rfl
@[simp] theorem State.closeCommand_extPending : (s.closeCommand e).extPending = s.extPending := rfl
@[simp] theorem State.closeCommand_extWaiting : (s.closeCommand e).extWaiting = s.extWaiting := rfl
@[simp] theorem State.closeCommand_cmdState : (s.closeCommand e).cmdState = .none := rfl
@[simp] theorem State.closeCommand_staleOperands : (s.closeCommand e).staleOperands = [] := rfl
@[simp] theorem State.closeCommand_tlb : (s.closeCommand e).tlb = s.tlb := rfl
@[simp] theorem State.closeCommand_bufs : (s.closeCommand e).bufs = s.bufs := rfl
@[simp] theorem State.closeCommand_pendingTransfers : (s.closeCommand e).pendingTransfers = s.pendingTransfers := rfl
@[simp] theorem State.closeCommand_pfQueue : (s.closeCommand e).pfQueue = s.pfQueue := rfl
@[simp] theorem State.closeCommand_translateEvents : (s.closeCommand e).translateEvents = s.translateEvents := rfl
@[simp] theorem State.closeCommand_nextEvent : (s.closeCommand e).nextEvent = s.nextEvent := rfl
@[simp] theorem State.closeCommand_lastPfVpn : (s.closeCommand e).lastPfVpn = s.lastPfVpn := rfl
@[simp] theorem State.closeCommand_pfRepeat : (s.closeCommand e).pfRepeat = s.pfRepeat := rfl
@[simp] theorem State.closeCommand_nocOutstanding : (s.closeCommand e).nocOutstanding = s.nocOutstanding := rfl
@[simp] theorem State.closeCommand_memOutstanding : (s.closeCommand e).memOutstanding = s.memOutstanding := rfl
@[simp] theorem State.closeCommand_mem : (s.closeCommand e).mem = s.mem := rfl
@[simp] theorem State.closeCommand_agenda : (s.closeCommand e).agenda = s.agenda := rfl
@[simp] theorem State.closeCommand_out : (s.closeCommand e).out = s.out := rfl
@[simp] theorem State.closeCommand_draws : (s.closeCommand e).draws = s.draws := rfl
end

section
variable (v : Word) (a : BitVec 5) (w : Waiter) (pf : Bool)
@[simp] theorem State.startTranslate_cfg : (s.startTranslate v a w pf).cfg = s.cfg := rfl
@[simp] theorem State.startTranslate_dtu : (s.startTranslate v a w pf).dtu = s.dtu := rfl
@[simp] theorem State.startTranslate_command : (s.startTranslate v a w pf).command = s.command := rfl
@[simp] theorem State.startTranslate_opnd : (s.startTranslate v a w pf).opnd = s.opnd := rfl
@[simp] theorem State.startTranslate_eps : (s.startTranslate v a w pf).eps = s.eps := rfl
@[simp] theorem State.startTranslate_cmdInProgress :
    (s.startTranslate v a w pf).cmdInProgress = s.cmdInProgress := rfl
@[simp] theorem State.startTranslate_execPending : (s.startTranslate v a w pf).execPending = s.execPending := rfl
@[simp] theorem State.startTranslate_extPending : (s.startTranslate v a w pf).extPending = s.extPending := rfl
@[simp] theorem State.startTranslate_extWaiting : (s.startTranslate v a w pf).extWaiting = s.extWaiting := rfl
@[simp] theorem State.startTranslate_cmdState : (s.startTranslate v a w pf).cmdState = s.cmdState := rfl
@[simp] theorem State.startTranslate_staleOperands :
    (s.startTranslate v a w pf).staleOperands = s.staleOperands := rfl
@[simp] theorem State.startTranslate_tlb : (s.startTranslate v a w pf).tlb = s.tlb := rfl
@[simp] theorem State.startTranslate_bufs : (s.startTranslate v a w pf).bufs = s.bufs := rfl
@[simp] theorem State.startTranslate_pendingTransfers :
    (s.startTranslate v a w pf).pendingTransfers = s.pendingTransfers := rfl
@[simp] theorem State.startTranslate_pfQueue : (s.startTranslate v a w pf).pfQueue = s.pfQueue := rfl
@[simp] theorem State.startTranslate_translateEvents :
    (s.startTranslate v a w pf).translateEvents = s.translateEvents ++ [⟨s.nextEvent, v, a, w, pf, .fresh⟩] := rfl
@[simp] theorem State.startTranslate_nextEvent : (s.startTranslate v a w pf).nextEvent = s.nextEvent + 1 := rfl
@[simp] theorem State.startTranslate_lastPfVpn : (s.startTranslate v a w pf).lastPfVpn = s.lastPfVpn := rfl
@[simp] theorem State.startTranslate_pfRepeat : (s.startTranslate v a w pf).pfRepeat = s.pfRepeat := rfl
@[simp] theorem State.startTranslate_nocOutstanding :
    (s.startTranslate v a w pf).nocOutstanding = s.nocOutstanding := rfl
@[simp] theorem State.startTranslate_memOutstanding :
    (s.startTranslate v a w pf).memOutstanding = s.memOutstanding := rfl
@[simp] theorem State.startTranslate_mem : (s.startTranslate v a w pf).mem = s.mem := rfl
@[simp] theorem State.startTranslate_agenda : (s.startTranslate v a w pf).agenda = s.agenda := rfl
@[simp] theorem State.startTranslate_out : (s.startTranslate v a w pf).out = s.out := rfl
@[simp] theorem State.startTranslate_draws : (s.startTranslate v a w pf).draws = s.draws := rfl
end

section
variable (i : Nat)
@[simp] theorem State.dropEvent_cfg : (s.dropEvent i).cfg = s.cfg := rfl
@[simp] theorem State.dropEvent_dtu : (s.dropEvent i).dtu = s.dtu := rfl
@[simp] theorem State.dropEvent_command : (s.dropEvent i).command = s.command := rfl
@[simp] theorem State.dropEvent_opnd : (s.dropEvent i).opnd = s.opnd := rfl
@[simp] theorem State.dropEvent_eps : (s.dropEvent i).eps = s.eps := rfl
@[simp] theorem State.dropEvent_cmdInProgress : (s.dropEvent i).cmdInProgress = s.cmdInProgress := rfl
@[simp] theorem State.dropEvent_execPending : (s.dropEvent i).execPending = s.execPending := rfl
@[simp] theorem State.dropEvent_extPending : (s.dropEvent i).extPending = s.extPending := rfl
@[simp] theorem State.dropEvent_extWaiting : (s.dropEvent i).extWaiting = s.extWaiting := rfl
@[simp] theorem State.dropEvent_cmdState : (s.dropEvent i).cmdState = s.cmdState := rfl
@[simp] theorem State.dropEvent_staleOperands : (s.dropEvent i).staleOperands = s.staleOperands := rfl
@[simp] theorem State.dropEvent_tlb : (s.dropEvent i).tlb = s.tlb := rfl
@[simp] theorem State.dropEvent_bufs : (s.dropEvent i).bufs = s.bufs := rfl
@[simp] theorem State.dropEvent_pendingTransfers : (s.dropEvent i).pendingTransfers = s.pendingTransfers := rfl
@[simp] theorem State.dropEvent_pfQueue : (s.dropEvent i).pfQueue = s.pfQueue := rfl
@[simp] theorem State.dropEvent_translateEvents :
    (s.dropEvent i).translateEvents = s.translateEvents.filter fun e => e.id != i := rfl
@[simp] theorem State.dropEvent_nextEvent : (s.dropEvent i).nextEvent = s.nextEvent := rfl
@[simp] theorem State.dropEvent_lastPfVpn : (s.dropEvent i).lastPfVpn = s.lastPfVpn := rfl
@[simp] theorem State.dropEvent_pfRepeat : (s.dropEvent i).pfRepeat = s.pfRepeat := rfl
@[simp] theorem State.dropEvent_nocOutstanding : (s.dropEvent i).nocOutstanding = s.nocOutstanding := rfl
@[simp] theorem State.dropEvent_memOutstanding : (s.dropEvent i).memOutstanding = s.memOutstanding := rfl
@[simp] theorem State.dropEvent_mem : (s.dropEvent i).mem = s.mem := rfl
@[simp] theorem State.dropEvent_agenda : (s.dropEvent i).agenda = s.agenda := rfl
@[simp] theorem State.dropEvent_out : (s.dropEvent i).out = s.out := rfl
@[simp] theorem State.dropEvent_draws : (s.dropEvent i).draws = s.draws := rfl
end

section
@[simp] theorem State.answerExternal_cfg : (s.answerExternal).cfg = s.cfg := rfl
@[simp] theorem State.answerExternal_dtu : (s.answerExternal).dtu = s.dtu := rfl
@[simp] theorem State.answerExternal_command : (s.answerExternal).command = s.command := rfl
@[simp] theorem State.answerExternal_opnd : (s.answerExternal).opnd = s.opnd := rfl
@[simp] theorem State.answerExternal_eps : (s.answerExternal).eps = s.eps := rfl
@[simp] theorem State.answerExternal_cmdInProgress : (s.answerExternal).cmdInProgress = s.cmdInProgress := rfl
@[simp] theorem State.answerExternal_execPending : (s.answerExternal).execPending = s.execPending := rfl
@[simp] theorem State.answerExternal_extPending : (s.answerExternal).extPending = s.extPending := rfl
@[simp] theorem State.answerExternal_extWaiting : (s.answerExternal).extWaiting = [] := rfl
@[simp] theorem State.answerExternal_cmdState : (s.answerExternal).cmdState = s.cmdState := rfl
@[simp] theorem State.answerExternal_staleOperands : (s.answerExternal).staleOperands = s.staleOperands := rfl
@[simp] theorem State.answerExternal_tlb : (s.answerExternal).tlb = s.tlb := rfl
@[simp] theorem State.answerExternal_bufs : (s.answerExternal).bufs = s.bufs := rfl
@[simp] theorem State.answerExternal_pendingTransfers :
    (s.answerExternal).pendingTransfers = s.pendingTransfers := rfl
@[simp] theorem State.answerExternal_pfQueue : (s.answerExternal).pfQueue = s.pfQueue := rfl
@[simp] theorem State.answerExternal_translateEvents : (s.answerExternal).translateEvents = s.translateEvents := rfl
@[simp] theorem State.answerExternal_nextEvent : (s.answerExternal).nextEvent = s.nextEvent := rfl
@[simp] theorem State.answerExternal_lastPfVpn : (s.answerExternal).lastPfVpn = s.lastPfVpn := rfl
@[simp] theorem State.answerExternal_pfRepeat : (s.answerExternal).pfRepeat = s.pfRepeat := rfl
@[simp] theorem State.answerExternal_nocOutstanding : (s.answerExternal).nocOutstanding = s.nocOutstanding := rfl
@[simp] theorem State.answerExternal_memOutstanding : (s.answerExternal).memOutstanding = s.memOutstanding := rfl
@[simp] theorem State.answerExternal_mem : (s.answerExternal).mem = s.mem := rfl
@[simp] theorem State.answerExternal_agenda : (s.answerExternal).agenda = s.agenda := rfl
@[simp] theorem State.answerExternal_out :
    (s.answerExternal).out = s.out ++ s.extWaiting.map fun p => .nocResponse p .noError [] := rfl
@[simp] theorem State.answerExternal_draws : (s.answerExternal).draws = s.draws := rfl
end

section
variable (v : BitVec 52) (p : Word) (f : BitVec 5)
@[simp] theorem State.tlbInsert_cfg : (s.tlbInsert v p f).cfg = s.cfg := rfl
@[simp] theorem State.tlbInsert_dtu : (s.tlbInsert v p f).dtu = s.dtu := rfl
@[simp] theorem State.tlbInsert_command : (s.tlbInsert v p f).command = s.command := rfl
@[simp] theorem State.tlbInsert_opnd : (s.tlbInsert v p f).opnd = s.opnd := rfl
@[simp] theorem State.tlbInsert_eps : (s.tlbInsert v p f).eps = s.eps := rfl
@[simp] theorem State.tlbInsert_cmdInProgress : (s.tlbInsert v p f).cmdInProgress = s.cmdInProgress := rfl
@[simp] theorem State.tlbInsert_execPending : (s.tlbInsert v p f).execPending = s.execPending := rfl
@[simp] theorem State.tlbInsert_extPending : (s.tlbInsert v p f).extPending = s.extPending := rfl
@[simp] theorem State.tlbInsert_extWaiting : (s.tlbInsert v p f).extWaiting = s.extWaiting := rfl
@[simp] theorem State.tlbInsert_cmdState : (s.tlbInsert v p f).cmdState = s.cmdState := rfl
@[simp] theorem State.tlbInsert_staleOperands : (s.tlbInsert v p f).staleOperands = s.staleOperands := rfl
@[simp] theorem State.tlbInsert_tlb :
    (s.tlbInsert v p f).tlb = tlbPlace s.cfg.tlbEntries (Config.freeChoice s.draws) s.tlb ⟨v, p, f, false⟩ := rfl
@[simp] theorem State.tlbInsert_bufs : (s.tlbInsert v p f).bufs = s.bufs := rfl
@[simp] theorem State.tlbInsert_pendingTransfers : (s.tlbInsert v p f).pendingTransfers = s.pendingTransfers := rfl
@[simp] theorem State.tlbInsert_pfQueue : (s.tlbInsert v p f).pfQueue = s.pfQueue := rfl
@[simp] theorem State.tlbInsert_translateEvents : (s.tlbInsert v p f).translateEvents = s.translateEvents := rfl
@[simp] theorem State.tlbInsert_nextEvent : (s.tlbInsert v p f).nextEvent = s.nextEvent := rfl
@[simp] theorem State.tlbInsert_lastPfVpn : (s.tlbInsert v p f).lastPfVpn = s.lastPfVpn := rfl
@[simp] theorem State.tlbInsert_pfRepeat : (s.tlbInsert v p f).pfRepeat = s.pfRepeat := rfl
@[simp] theorem State.tlbInsert_nocOutstanding : (s.tlbInsert v p f).nocOutstanding = s.nocOutstanding := rfl
@[simp] theorem State.tlbInsert_memOutstanding : (s.tlbInsert v p f).memOutstanding = s.memOutstanding := rfl
@[simp] theorem State.tlbInsert_mem : (s.tlbInsert v p f).mem = s.mem := rfl
@[simp] theorem State.tlbInsert_agenda : (s.tlbInsert v p f).agenda = s.agenda := rfl
@[simp] theorem State.tlbInsert_out : (s.tlbInsert v p f).out = s.out := rfl
@[simp] theorem State.tlbInsert_draws : (s.tlbInsert v p f).draws = s.draws + 1 := rfl
end

section
variable (ev : TranslateEvent) (l : Nat) (t : Word)
@[simp] theorem State.loadPte_cfg : (s.loadPte ev l t).cfg = s.cfg := rfl
@[simp] theorem State.loadPte_dtu : (s.loadPte ev l t).dtu = s.dtu := rfl
@[simp] theorem State.loadPte_command : (s.loadPte ev l t).command = s.command := rfl
@[simp] theorem State.loadPte_opnd : (s.loadPte ev l t).opnd = s.opnd := rfl
@[simp] theorem State.loadPte_eps : (s.loadPte ev l t).eps = s.eps := rfl
@[simp] theorem State.loadPte_cmdInProgress : (s.loadPte ev l t).cmdInProgress = s.cmdInProgress := rfl
@[simp] theorem State.loadPte_execPending : (s.loadPte ev l t).execPending = s.execPending := rfl
@[simp] theorem State.loadPte_extPending : (s.loadPte ev l t).extPending = s.extPending := rfl
@[simp] theorem State.loadPte_extWaiting : (s.loadPte ev l t).extWaiting = s.extWaiting := rfl
@[simp] theorem State.loadPte_cmdState : (s.loadPte ev l t).cmdState = s.cmdState := rfl
@[simp] theorem State.loadPte_staleOperands : (s.loadPte ev l t).staleOperands = s.staleOperands := rfl
@[simp] theorem State.loadPte_tlb : (s.loadPte ev l t).tlb = s.tlb := rfl
@[simp] theorem State.loadPte_bufs : (s.loadPte ev l t).bufs = s.bufs := rfl
@[simp] theorem State.loadPte_pendingTransfers : (s.loadPte ev l t).pendingTransfers = s.pendingTransfers := rfl
@[simp] theorem State.loadPte_pfQueue : (s.loadPte ev l t).pfQueue = s.pfQueue := rfl
@[simp] theorem State.loadPte_translateEvents :
    (s.loadPte ev l t).translateEvents =
      s.translateEvents.map fun e => if e.id = ev.id then { e with phase := .walking l t } else e := rfl
@[simp] theorem State.loadPte_nextEvent : (s.loadPte ev l t).nextEvent = s.nextEvent := rfl
@[simp] theorem State.loadPte_lastPfVpn : (s.loadPte ev l t).lastPfVpn = s.lastPfVpn := rfl
@[simp] theorem State.loadPte_pfRepeat : (s.loadPte ev l t).pfRepeat = s.pfRepeat := rfl
@[simp] theorem State.loadPte_nocOutstanding : (s.loadPte ev l t).nocOutstanding = s.nocOutstanding := rfl
@[simp] theorem State.loadPte_memOutstanding :
    (s.loadPte ev l t).memOutstanding =
      s.memOutstanding ++ [⟨pteAddr t ev.virt l, .read pteSize, .walk ev.id⟩] := rfl
@[simp] theorem State.loadPte_mem : (s.loadPte ev l t).mem = s.mem := rfl
@[simp] theorem State.loadPte_agenda : (s.loadPte ev l t).agenda = s.agenda := rfl
@[simp] theorem State.loadPte_out : (s.loadPte ev l t).out = s.out := rfl
@[simp] theorem State.loadPte_draws : (s.loadPte ev l t).draws = s.draws := rfl
end

section
variable (b : Nat)
@[simp] theorem State.releaseBuf_cfg : (s.releaseBuf b).cfg = s.cfg := rfl
@[simp] theorem State.releaseBuf_dtu : (s.releaseBuf b).dtu = s.dtu := rfl
@[simp] theorem State.releaseBuf_command : (s.releaseBuf b).command = s.command := rfl
@[simp] theorem State.releaseBuf_opnd : (s.releaseBuf b).opnd = s.opnd := rfl
@[simp] theorem State.releaseBuf_eps : (s.releaseBuf b).eps = s.eps := rfl
@[simp] theorem State.releaseBuf_cmdInProgress : (s.releaseBuf b).cmdInProgress = s.cmdInProgress := rfl
@[simp] theorem State.releaseBuf_execPending : (s.releaseBuf b).execPending = s.execPending := rfl
@[simp] theorem State.releaseBuf_extPending : (s.releaseBuf b).extPending = s.extPending := rfl
@[simp] theorem State.releaseBuf_extWaiting : (s.releaseBuf b).extWaiting = s.extWaiting := rfl
@[simp] theorem State.releaseBuf_cmdState : (s.releaseBuf b).cmdState = s.cmdState := rfl
@[simp] theorem State.releaseBuf_staleOperands : (s.releaseBuf b).staleOperands = s.staleOperands := rfl
@[simp] theorem State.releaseBuf_tlb : (s.releaseBuf b).tlb = s.tlb := rfl
@[simp] theorem State.releaseBuf_bufs : (s.releaseBuf b).bufs = s.bufs.modify b Buffer.release := rfl
@[simp] theorem State.releaseBuf_pendingTransfers : (s.releaseBuf b).pendingTransfers = s.pendingTransfers := rfl
@[simp] theorem State.releaseBuf_pfQueue : (s.releaseBuf b).pfQueue = s.pfQueue := rfl
@[simp] theorem State.releaseBuf_translateEvents : (s.releaseBuf b).translateEvents = s.translateEvents := rfl
@[simp] theorem State.releaseBuf_nextEvent : (s.releaseBuf b).nextEvent = s.nextEvent := rfl
@[simp] theorem State.releaseBuf_lastPfVpn : (s.releaseBuf b).lastPfVpn = s.lastPfVpn := rfl
@[simp] theorem State.releaseBuf_pfRepeat : (s.releaseBuf b).pfRepeat = s.pfRepeat := rfl
@[simp] theorem State.releaseBuf_nocOutstanding : (s.releaseBuf b).nocOutstanding = s.nocOutstanding := rfl
@[simp] theorem State.releaseBuf_memOutstanding : (s.releaseBuf b).memOutstanding = s.memOutstanding := rfl
@[simp] theorem State.releaseBuf_mem : (s.releaseBuf b).mem = s.mem := rfl
@[simp] theorem State.releaseBuf_agenda : (s.releaseBuf b).agenda = s.agenda := rfl
@[simp] theorem State.releaseBuf_out : (s.releaseBuf b).out = s.out := rfl
@[simp] theorem State.releaseBuf_draws : (s.releaseBuf b).draws = s.draws := rfl
end

end Sys2Proof.Machine
end

