-- ==== Sys2Proof/Laws/Keeps.lean ====
section
/-! SUPPORT. What every shared operation and every agent keeps: the registers that only configuration changes (R26, R236,
R453), and the invariant of Safety.lean. One lemma per operation, for its next state. -/

namespace Sys2Proof.Machine

/-- The parameters, the registers and the endpoint types that only configuration changes are the same. -/
structure SameConfig (s t : State) : Prop where
  cfg : t.cfg = s.cfg
  status : t.dtu.status = s.dtu.status
  rootPt : t.dtu.rootPt = s.dtu.rootPt
  pfEp : t.dtu.pfEp = s.dtu.pfEp
  rwBarrier : t.dtu.rwBarrier = s.dtu.rwBarrier
  vpeId : t.dtu.vpeId = s.dtu.vpeId
  extCmd : t.dtu.extCmd = s.dtu.extCmd
  types : t.eps.map EpWords.type = s.eps.map EpWords.type

theorem SameConfig.refl (s : State) : SameConfig s s := ⟨rfl, rfl, rfl, rfl, rfl, rfl, rfl, rfl⟩

theorem SameConfig.of_eq {s t : State} (h1 : t.cfg = s.cfg) (h2 : t.dtu = s.dtu) (h3 : t.eps = s.eps) :
    SameConfig s t := by
  constructor <;> simp only [h1, h2, h3]

theorem SameConfig.trans {s t u : State} (h : SameConfig s t) (k : SameConfig t u) : SameConfig s u :=
  ⟨k.cfg.trans h.cfg, k.status.trans h.status, k.rootPt.trans h.rootPt, k.pfEp.trans h.pfEp,
    k.rwBarrier.trans h.rwBarrier, k.vpeId.trans h.vpeId, k.extCmd.trans h.extCmd, k.types.trans h.types⟩

/-- An update of the machine that keeps what configuration fixes, and the invariant. -/
structure Keeps (s t : State) : Prop where
  config : SameConfig s t
  inv : Inv s → Inv t

theorem Keeps.refl (s : State) : Keeps s s := ⟨.refl s, id⟩

theorem Keeps.trans {s t u : State} (h : Keeps s t) (k : Keeps t u) : Keeps s u :=
  ⟨h.config.trans k.config, k.inv ∘ h.inv⟩

/-- The invariant carries over to a state with the same buffers. -/
theorem Inv.congr {s t : State} (h : Inv s) (hcfg : t.cfg = s.cfg) (hmem : t.mem.wf = true)
    (heps : t.eps.length = s.eps.length) (hb : t.bufs = s.bufs) (hp : t.pendingTransfers = s.pendingTransfers)
    (hu : ∀ b, t.unanswered b = s.unanswered b) (hk : (t.tlb.map (·.vpn)).Nodup)
      (hs : t.tlb.length ≤ s.cfg.tlbEntries)
    (hf : (t.pfQueue.map fun q => (q.vpn, q.access)).Nodup) (hc : t.cmdState ≠ .none → t.cmdInProgress = true) :
    Inv t where
  cfg := hcfg ▸ h.cfg
  mem := hmem
  eps := by rw [heps, hcfg]; exact h.eps
  bufCount := by rw [hb, hcfg]; exact h.bufCount
  bufs := by rw [hb, hcfg]; exact h.bufs
  msgRecv := by rw [hb]; exact h.msgRecv
  pending := by rw [hp, hcfg]; exact h.pending
  outstanding b := by rw [hu]; simp only [State.event, hb]; exact h.outstanding b
  tlbKeys := hk
  tlbSize := hcfg ▸ hs
  faults := hf
  command := hc

/-- An update of registers that are not configuration, of outputs, of the model's own fields, of requests to the NoC. -/
theorem Keeps.plain {s t : State} (hc : SameConfig s t) (hmem : t.mem = s.mem) (hb : t.bufs = s.bufs)
    (hp : t.pendingTransfers = s.pendingTransfers) (ho : t.memOutstanding = s.memOutstanding) (ht : t.tlb = s.tlb)
    (hq : t.pfQueue = s.pfQueue)
      (h : (s.cmdState ≠ .none → s.cmdInProgress = true) → t.cmdState ≠ .none → t.cmdInProgress = true) :
    Keeps s t where
  config := hc
  inv hi := hi.congr hc.cfg (hmem ▸ hi.mem) (by simpa using congrArg List.length hc.types) hb hp
    (fun b => by simp only [State.unanswered, ho]) (ht ▸ hi.tlbKeys) (ht ▸ hi.tlbSize) (hq ▸ hi.faults) (h hi.command)

theorem types_set (eps : List EpWords) (e : Nat) (w : EpWords) (h : w.type = (eps.getD e ⟨0, 0, 0⟩).type) :
    (eps.set e w).map EpWords.type = eps.map EpWords.type := by
  rw [List.map_set]
  apply List.ext_getElem? ; intro i
  rw [List.getElem?_set]
  split
  · next hei =>
    subst hei
    split
    · next hl => simp only [List.length_map] at hl; rw [h]; simp [hl]
    · next hl => rw [List.getElem?_eq_none (by omega)]
  · rfl

theorem SameConfig.setEp (s : State) (e : Nat) (w : EpWords) (h : w.type = (s.ep e).type) : SameConfig s
    (s.setEp e w) :=
  ⟨rfl, rfl, rfl, rfl, rfl, rfl, rfl, types_set _ _ _ h⟩

theorem Keeps.setEp (s : State) (e : Nat) (w : EpWords) (h : w.type = (s.ep e).type) : Keeps s (s.setEp e w) :=
  .plain (.setEp s e w h) rfl rfl rfl rfl rfl rfl id

theorem Keeps.emit (s : State) (o : Output) : Keeps s (s.emit o) := .plain
    (.of_eq rfl rfl rfl) rfl rfl rfl rfl rfl rfl id

theorem Keeps.nocRespond (s : State) (p : Packet) (r : ErrorCode) (d : List Byte) : Keeps s (s.nocRespond p r d) :=
  .plain (.of_eq rfl rfl rfl) rfl rfl rfl rfl rfl rfl id

theorem Keeps.nocSend (s : State) (t : PacketType) (a : Word) (k : AccessKind) (n : Nat) (d : List Byte)
    (w : NocWaiter) :
    Keeps s (s.nocSend t a k n d w) := .plain (.of_eq rfl rfl rfl) rfl rfl rfl rfl rfl rfl id

theorem Keeps.drawn (s : State) (n : Nat) : Keeps s (s.drawn n) := .plain
    (.of_eq rfl rfl rfl) rfl rfl rfl rfl rfl rfl id

theorem Keeps.setMsgCnt (s : State) (v : Word) : Keeps s (s.setMsgCnt v) :=
  .plain ⟨rfl, rfl, rfl, rfl, rfl, rfl, rfl, rfl⟩ rfl rfl rfl rfl rfl rfl id

theorem Keeps.cpuDummy (s : State) (r : CpuReq) : Keeps s (s.cpuDummy r) := .emit s _

theorem Keeps.memIssue (s : State) (a : Word) (op : MemOp) (tag : MemTag) (h : ∀ b, tag.forBuffer b = false) :
    Keeps s (s.memIssue a op tag) where
  config := .of_eq rfl rfl rfl
  inv hi := hi.congr rfl hi.mem rfl rfl rfl
    (fun b => by simp [State.unanswered, State.memIssue, h b]) hi.tlbKeys hi.tlbSize hi.faults hi.command

theorem Keeps.funcWrite (s : State) (a : Word) (d : List Byte) : Keeps s (s.funcWrite a d) where
  config := .of_eq rfl rfl rfl
  inv hi := hi.congr rfl (Memory.wf_writeBytes hi.mem _ _) rfl rfl rfl
    (fun _ => rfl) hi.tlbKeys hi.tlbSize hi.faults hi.command

theorem Keeps.setStoredFlags (s : State) (a : Option Word) (f : Byte) : Keeps s (s.setStoredFlags a f) := by
  cases a with
  | none => exact .plain (.of_eq rfl rfl rfl) rfl rfl rfl rfl rfl rfl id
  | some a => exact .funcWrite s a [f]

theorem Keeps.memPerform (s : State) (a : Word) (op : MemOp) : Keeps s (s.memPerform a op).1 := by
  cases op with
  | read n => exact .refl s
  | write d => exact .funcWrite s a d

/-! ## The TLB -/

theorem tlbPlace_keys (cap n : Nat) (tlb : List TlbEntry) (e : TlbEntry) (h : (tlb.map (·.vpn)).Nodup) :
    ((tlbPlace cap n tlb e).map (·.vpn)).Nodup := by
  simp only [tlbPlace]
  split
  · have : (tlb.map fun x => if x.vpn = e.vpn then e else x).map (·.vpn) = tlb.map (·.vpn) := by
      rw [List.map_map]; apply List.map_congr_left; intro x _; simp only [Function.comp]; split
      · next hx => exact hx.symm
      · rfl
    rw [this]; exact h
  · next ha =>
    have hne : e.vpn ∉ tlb.map (·.vpn) := by
      intro hm; obtain ⟨x, hx, hv⟩ := List.mem_map.1 hm
      exact ha (List.any_eq_true.2 ⟨x, hx, by simpa using hv⟩)
    split
    · rw [List.map_append, List.nodup_append]
      refine ⟨h, by simp, ?_⟩
      rintro a ha b hb rfl; simp at hb; exact hne (hb ▸ ha)
    · split
      · exact h
      · rw [List.map_set]
        exact h.set hne

theorem tlbPlace_length (cap n : Nat) (tlb : List TlbEntry) (e : TlbEntry) (h : tlb.length ≤ cap) :
    (tlbPlace cap n tlb e).length ≤ cap := by
  simp only [tlbPlace]
  split
  · simpa using h
  · split
    · simp; omega
    · split
      · exact h
      · simpa using h

theorem Keeps.tlb {s : State} (t : List TlbEntry) (d : Nat) (hk : (s.tlb.map (·.vpn)).Nodup → (t.map (·.vpn)).Nodup)
    (hl : s.tlb.length ≤ s.cfg.tlbEntries → t.length ≤ s.cfg.tlbEntries) : Keeps s
      { s with tlb := t, draws := d } where
  config := .of_eq rfl rfl rfl
  inv hi := hi.congr rfl hi.mem rfl rfl rfl (fun _ => rfl) (hk hi.tlbKeys) (hl hi.tlbSize) hi.faults hi.command

theorem Keeps.tlbInsert (s : State) (v : BitVec 52) (p : Word) (f : BitVec 5) : Keeps s (s.tlbInsert v p f) :=
  .tlb _ _ (tlbPlace_keys _ _ _ _) (tlbPlace_length _ _ _ _)

theorem map_blocked_keys (tlb : List TlbEntry) (v : BitVec 52) (b : Bool) :
    (tlb.map fun x => if x.vpn = v then { x with blocked := b } else x).map (·.vpn) = tlb.map (·.vpn) := by
  rw [List.map_map]; apply List.map_congr_left; intro x _; simp only [Function.comp]; split <;> rfl

theorem Keeps.tlbBlock (s : State) (v : BitVec 52) : Keeps s (s.tlbBlock v) := by
  simp only [State.tlbBlock]; split
  · exact .tlb _ s.draws (by rw [map_blocked_keys]; exact id) (by simp)
  · exact .tlb _ _ (tlbPlace_keys _ _ _ _) (tlbPlace_length _ _ _ _)

theorem tlbRemove_keys (tlb : List TlbEntry) (v : BitVec 52) (h : (tlb.map (·.vpn)).Nodup) :
    ((tlbRemove tlb v).map (·.vpn)).Nodup :=
  h.sublist ((List.filter_sublist).map _)

theorem Keeps.tlbRemove (s : State) (v : BitVec 52) : Keeps s { s with tlb := tlbRemove s.tlb v } :=
  .tlb _ s.draws (tlbRemove_keys _ _) (le_trans (List.length_filter_le _ _))

theorem Keeps.tlbUnblock (s : State) (v : BitVec 52) : Keeps s (s.tlbUnblock v) := by
  simp only [State.tlbUnblock]; split
  · exact .refl s
  · split
    · exact .tlbRemove s v
    · exact .tlb _ s.draws (by rw [map_blocked_keys]; exact id) (by simp)

/-! ## Commands -/

theorem Keeps.ackMessage {e : Nat} {m : Word} {s t : State} (h : ackMessage e m s = .next t) : Keeps s t := by
  obtain ⟨-, -, -, rfl⟩ := ackMessage_eq_next h
  split
  · exact (Keeps.setEp s e _ (by simp)).trans (.setMsgCnt _ _)
  · exact .setEp s e _ (by simp)

theorem Keeps.finishMsgReceive (s : State) (t i : Nat) : Keeps s (s.finishMsgReceive t i) :=
  (Keeps.setEp s t ((s.ep t).received i) (by simp)).trans
    (.plain ⟨rfl, rfl, rfl, rfl, rfl, rfl, rfl, rfl⟩ rfl rfl rfl rfl rfl rfl id)

theorem Keeps.grantCredits {h : Header} {s t : State} (hg : grantCredits h s = .next t) : Keeps s t := by
  rcases grantCredits_eq_next hg with rfl | rfl
  · exact .refl _
  · exact .setEp s _ _ (by simp)

theorem Keeps.finishMsgReply {r : ReplyCtx} {e : ErrorCode} {s t : State} (h : finishMsgReply r e s = .next t) :
    Keeps s t := by
  simp only [Machine.finishMsgReply] at h
  split at h
  · exact (Keeps.setStoredFlags s _ _).trans (.ackMessage h)
  · exact .ackMessage h

theorem Keeps.scrambleOperands (s : State) : Keeps s s.scrambleOperands := .plain
    (.of_eq rfl rfl rfl) rfl rfl rfl rfl rfl rfl id

theorem Keeps.closeCommand (s : State) (e : ErrorCode) : Keeps s (s.closeCommand e) :=
  .plain (.of_eq rfl rfl rfl) rfl rfl rfl rfl rfl rfl (by intro _ h; exact absurd rfl h)

theorem Keeps.finishCommand {e : ErrorCode} {s t : State} (h : finishCommand e s = .next t) : Keeps s t := by
  obtain ⟨-, u, rfl, hu⟩ := finishCommand_eq_next h
  refine Keeps.trans ?_ (.closeCommand u e)
  rcases hu with rfl | rfl | ⟨r, -, hr⟩
  · exact .refl _
  · exact .scrambleOperands _
  · exact .finishMsgReply hr

theorem Keeps.setCmdState (s : State) (c : CmdState) (h : Inv s → s.cmdInProgress = true) : Keeps s
    { s with cmdState := c } where
  config := .of_eq rfl rfl rfl
  inv hi := { hi with command := fun _ => h hi, outstanding := hi.outstanding }

theorem Keeps.beginCommand {s t : State} (h : beginCommand s = .next t) : Keeps s t := by
  obtain ⟨-, rfl⟩ := beginCommand_eq_next h
  exact .plain (.of_eq rfl rfl rfl) rfl rfl rfl rfl rfl rfl (fun _ _ => rfl)

theorem Keeps.startTransfer {r : XferReq} {s t : State} (h : startTransfer r s = .next t) : Keeps s t := by
  obtain ⟨hr, rfl⟩ := startTransfer_eq_next h
  refine ⟨.of_eq rfl rfl rfl, fun hi => { hi with pending := ?_ }⟩
  intro x hx
  rcases List.mem_append.1 hx with hx | hx
  · exact hi.pending x hx
  · rw [List.mem_singleton] at hx; subst hx; simp only [XferReq.base]; omega

/-! ## Buffers -/

theorem event_eq {s : State} (hi : Inv s) {b : Nat} {buf : Buffer} (hb : s.bufs[b]? = some buf) :
    s.event b = buf.event := by
  have h := (hi.bufs buf (List.mem_of_getElem? hb)).2.1
  simp only [State.event, hb]
  cases hf : buf.free
  · simp
  · rw [hf] at h; symm; simpa using h.symm

theorem event_some {s : State} {b : Nat} {ev : XferEvent} (h : s.event b = some ev) : ∃ buf, s.bufs[b]? = some buf ∧
    buf.free = false ∧ buf.event = some ev := by
  simp only [State.event] at h
  split at h
  · next buf hb =>
    split at h
    · cases h
    · next hf => exact ⟨buf, hb, by simpa using hf, h⟩
  · cases h

/-- A buffer is rewritten, and requests for it may be sent with it. -/
theorem Inv.setBuf {s : State} (hi : Inv s) {b : Nat} {buf buf' : Buffer} (hb : s.bufs[b]? = some buf)
    (hok : buf'.ok s.cfg)
    (hm : buf'.holdsMsgRecv = true → buf.holdsMsgRecv = true ∨ s.bufs.countP Buffer.holdsMsgRecv = 0)
      (m : List MemReq)
    (hn : ∀ b', b' ≠ b → m.countP (fun r => r.tag.forBuffer b') = s.unanswered b')
    (ho : m.countP (fun r => r.tag.forBuffer b) = (buf'.event.map (·.outstanding)).getD 0) :
    Inv { s with bufs := s.bufs.set b buf', memOutstanding := m } := by
  have hlt := (List.getElem?_eq_some_iff.1 hb).1
  refine { hi with bufCount := by simpa using hi.bufCount, bufs := ?_, msgRecv := ?_, outstanding := ?_ }
  · intro x hx
    rcases List.mem_or_eq_of_mem_set hx with hx | rfl
    · exact hi.bufs x hx
    · exact hok
  · have h1 := hi.msgRecv
    show (s.bufs.set b buf').countP _ ≤ 1
    rw [List.countP_set hlt]
    have hbb : s.bufs[b] = buf := (List.getElem?_eq_some_iff.1 hb).2
    rw [hbb]
    have hpos : buf.holdsMsgRecv = true → 0 < s.bufs.countP Buffer.holdsMsgRecv := fun h => List.countP_pos_iff.2
      ⟨buf, List.mem_of_getElem? hb, h⟩
    cases h2 : buf'.holdsMsgRecv
    · simp; omega
    · rcases hm h2 with h3 | h3
      · have := hpos h3; simp [h3]; omega
      · simp [h3]
  · intro b'
    by_cases hbb : b' = b
    · subst hbb
      have : State.event { s with bufs := s.bufs.set b' buf', memOutstanding := m } b' = buf'.event := by
        simp only [State.event, List.getElem?_set_self hlt]
        have h := hok.2.1
        cases hf : buf'.free
        · simp
        · rw [hf] at h; symm; simpa using h.symm
      rw [this]; exact ho
    · have : State.event { s with bufs := s.bufs.set b buf', memOutstanding := m } b' = s.event b' := by
        simp only [State.event, List.getElem?_set_ne (Ne.symm hbb)]
      rw [this, ← hi.outstanding b']; exact hn b' hbb

theorem unanswered_append (s : State) (r : MemReq) (b : Nat) : (s.memOutstanding ++ [r]).countP
    (fun r => r.tag.forBuffer b) = s.unanswered b + if r.tag.forBuffer b then 1 else 0 := by
  simp [State.unanswered, List.countP_append, List.countP_singleton]

theorem Keeps.issueBlock (s : State) (b : Nat) (p : Word) : Keeps s (s.issueBlock b p) := by
  simp only [State.issueBlock]
  split
  · next buf ev hb he =>
    obtain ⟨buf', hb', hf, hev⟩ := event_some he
    rw [hb] at hb'; cases hb'
    simp only [State.setEvent, State.memIssue, hb, State.setBuf]
    refine ⟨.of_eq rfl rfl rfl, fun hi => ?_⟩
    obtain ⟨h1, h2, h3⟩ := hi.bufs buf (List.mem_of_getElem? hb)
    obtain ⟨h4, h5⟩ := h3 ev hev
    refine hi.setBuf (buf' := { buf with event := some (ev.advanced (blockPiece s.cfg ev.localAddr ev.size)) }) hb
      ⟨h1, by simp [hf, hev], ?_⟩ ?_ _ ?_ ?_
    · intro x hx; cases hx; exact ⟨h4, by simp only [XferEvent.advanced]; omega⟩
    · intro h; left; simpa [Buffer.holdsMsgRecv, hev, XferEvent.advanced] using h
    · intro b' hne; rw [unanswered_append]; simp [MemTag.forBuffer]; exact Ne.symm hne
    · rw [unanswered_append, hi.outstanding b, he]; simp [MemTag.forBuffer, XferEvent.advanced]
  · exact .refl s

/-- An event is rewritten, its counts left as they are. -/
theorem Keeps.setEvent (s : State) (b : Nat) (ev ev' : XferEvent) (he : s.event b = some ev) (h1 : ev'.base = ev.base)
    (h2 : ev'.total = ev.total) (h3 : ev'.size ≤ ev.size) (h4 : ev'.flags = ev.flags)
      (h5 : ev'.outstanding = ev.outstanding) :
    Keeps s (s.setEvent b ev') := by
  obtain ⟨buf, hb, hf, hev⟩ := event_some he
  simp only [State.setEvent, hb, State.setBuf]
  refine ⟨.of_eq rfl rfl rfl, fun hi => ?_⟩
  obtain ⟨g1, g2, g3⟩ := hi.bufs buf (List.mem_of_getElem? hb)
  obtain ⟨g4, g5⟩ := g3 ev hev
  refine hi.setBuf (buf' := { buf with event := some ev' }) hb ⟨g1, by simp [hf, hev], ?_⟩ ?_ _ (fun _ _ => rfl) ?_
  · intro x hx; cases hx; exact ⟨by omega, by omega⟩
  · intro h; left; simpa [Buffer.holdsMsgRecv, hev, h4] using h
  · have := hi.outstanding b; rw [he] at this; simpa [State.unanswered, h5] using this

theorem Keeps.failBlock (s : State) (b : Nat) : Keeps s (s.failBlock b) := by
  simp only [State.failBlock]
  split
  · next ev he => exact .setEvent s b ev _ he rfl rfl le_rfl rfl rfl
  · exact .refl s

/-! ## Page faults: taking the upcall -/

theorem Keeps.pfQueue {s : State} (q : List PfRecord)
    (h : (s.pfQueue.map fun q => (q.vpn, q.access)).Nodup → (q.map fun q => (q.vpn, q.access)).Nodup) :
    Keeps s { s with pfQueue := q } where
  config := .of_eq rfl rfl rfl
  inv hi := hi.congr rfl hi.mem rfl rfl rfl (fun _ => rfl) hi.tlbKeys hi.tlbSize (h hi.faults) hi.command

theorem Keeps.countPagefault (s : State) (v : BitVec 52) : Keeps s (s.countPagefault v) := by
  simp only [State.countPagefault]
  split
  all_goals split <;> exact .plain ⟨rfl, rfl, rfl, rfl, rfl, rfl, rfl, rfl⟩ rfl rfl rfl rfl rfl rfl id

theorem countPagefault_pfQueue (s : State) (v : BitVec 52) : (s.countPagefault v).pfQueue = s.pfQueue := by
  simp only [State.countPagefault]; split <;> (split <;> rfl)

theorem tlbBlock_pfQueue (s : State) (v : BitVec 52) : (s.tlbBlock v).pfQueue = s.pfQueue := by
  simp only [State.tlbBlock]; split <;> rfl

theorem Keeps.sendPagefault {s t : State} (h : sendPagefault s = .next t) : Keeps s t := by
  simp only [Machine.sendPagefault] at h
  split at h
  · cases h; exact .refl s
  · next q rest hq =>
    split at h
    · cases h
    · split at h
      · cases h
      · split at h
        · cases h
        · cases h
          refine ((Keeps.countPagefault s q.vpn).trans (.tlbBlock _ q.vpn)).trans ?_
          refine (Keeps.drawn _ 1).trans ?_
          refine Keeps.trans (.pfQueue _ ?_) (.nocSend ..)
          simp only [State.drawn, tlbBlock_pfQueue, countPagefault_pfQueue, hq]
          exact id

theorem Keeps.startPagefault {v : Word} {a : BitVec 5} {w : Waiter} {s t : State}
    (h : startPagefault v a w s = .next t) : Keeps s t := by
  simp only [Machine.startPagefault] at h
  split at h
  · cases h
    refine .pfQueue _ ?_
    rw [List.map_map]
    intro h; convert h using 1
    apply List.map_congr_left; intro x _; simp only [Function.comp]; split <;> rfl
  · next ha =>
    have hk : Keeps s { s with pfQueue := s.pfQueue ++ [⟨vpnOf v, v, a, [w], false, 0⟩] } := by
      refine .pfQueue _ ?_
      intro h
      rw [List.map_append, List.nodup_append]
      refine ⟨h, by simp, ?_⟩
      rintro x hx y hy rfl
      simp only [List.map_cons, List.map_nil, List.mem_singleton] at hy
      subst hy
      obtain ⟨q, hq, he⟩ := List.mem_map.1 hx
      apply ha; rw [List.any_eq_true]; refine ⟨q, hq, ?_⟩
      simpa using he
    split at h
    · exact hk.trans (.sendPagefault h)
    · cases h; exact hk

/-! ## Notifying a waiter -/

theorem Keeps.forwardCpu (s : State) (r : CpuReq) (p : Word) : Keeps s (s.forwardCpu r p) := by
  simp only [State.forwardCpu]
  split
  · exact .nocSend ..
  · split
    · exact (Keeps.memPerform s _ _).trans (.emit _ _)
    · exact .memIssue _ _ _ _ (fun _ => rfl)

theorem Keeps.forwardFunc {r : CpuReq} {l : List (ErrorCode × List Byte)} {p : Word} {s t : State}
    (h : forwardFunc r l p s = .next t) : Keeps s t := by
  induction l generalizing p s with
  | nil => cases h; exact .forwardCpu ..
  | cons x rest ih =>
    obtain ⟨e, d⟩ := x
    simp only [Machine.forwardFunc] at h
    split at h
    · cases h; exact .forwardCpu ..
    · split at h
      · cases h
      · refine Keeps.trans (.emit s (.nocRequest (s.funcPacket r (p + pageOffset r.addr)))) ?_
        split at h
        · cases h; exact .emit ..
        · split at h
          · exact ih h
          · split at h
            · exact ih h
            · cases h; exact .cpuDummy ..
            · exact .startPagefault h
            · exact .startPagefault h
        · cases h; exact .cpuDummy ..

theorem Keeps.forwardRequest {r : CpuReq} {p : Word} {s t : State} (h : forwardRequest r p s = .next t) :
    Keeps s t := by
  simp only [Machine.forwardRequest] at h
  split at h
  · exact .forwardFunc h
  · cases h; exact .forwardCpu ..

theorem Keeps.issueHeaderPiece (s : State) (p : Word) : Keeps s (s.issueHeaderPiece p) := by
  simp only [State.issueHeaderPiece]
  split
  · next ctx got hc =>
    refine ⟨.of_eq rfl rfl rfl, fun hi => ?_⟩
    exact hi.congr rfl hi.mem rfl rfl rfl
      (fun b => by simp [State.unanswered, MemTag.forBuffer]) hi.tlbKeys hi.tlbSize hi.faults
      (fun _ => hi.command (by rw [hc]; simp))
  · exact .refl s

theorem Keeps.notify {w : Waiter} {p : Option Word} {s t : State} (h : notify w p s = .next t) : Keeps s t := by
  cases w <;> cases p <;> simp only [Machine.notify] at h
  case replyHeader.none => exact .finishCommand h
  case cpu.some => exact .forwardRequest h
  all_goals cases h
  · exact .failBlock ..
  · exact .issueBlock ..
  · exact .issueHeaderPiece ..
  · exact .cpuDummy ..
  · exact .refl _
  · exact .refl _

theorem Keeps.startTranslate (s : State) (v : Word) (a : BitVec 5) (w : Waiter) (pf : Bool) : Keeps s
    (s.startTranslate v a w pf) :=
  .plain (.of_eq rfl rfl rfl) rfl rfl rfl rfl rfl rfl id

theorem Keeps.translateFor {v : Word} {a : BitVec 5} {w : Waiter} {s t : State}
    (h : translateFor v a w s = .next t) : Keeps s t := by
  rcases translateFor_cases v a w s with ⟨p, hp⟩ | ⟨pf, hp⟩ <;> rw [hp] at h
  · exact .notify h
  · cases h; exact .startTranslate ..

/-! ## Page faults: returning from the upcall -/

theorem Keeps.resolvePagefault {p : Option Word} {s t : State} (h : resolvePagefault p s = .next t) : Keeps s t := by
  rcases resolvePagefault_eq_next h with ⟨-, rfl⟩ | ⟨q, rest, u, hq, hu, h⟩
  · exact .refl _
  · refine Keeps.trans (t := { s with pfQueue := rest }) (.pfQueue _ (by rw [hq]; simp +contextual))
      (Keeps.trans (t := u) ?_ ?_)
    · exact forEach_keeps (P := fun x => Keeps { s with pfQueue := rest } x) (fun x a b ha hb => ha.trans (.notify hb))
        (.refl _) hu
    · rcases h with ⟨-, rfl⟩ | ⟨-, h⟩
      · exact .refl _
      · exact .sendPagefault h

theorem Keeps.requeuePagefault {s t : State} (h : requeuePagefault s = .next t) : Keeps s t := by
  simp only [Machine.requeuePagefault] at h
  split at h
  · cases h; exact .refl s
  · next q rest hq =>
    refine Keeps.trans (.pfQueue _ ?_) (.sendPagefault h)
    rw [hq]; intro hn
    have : (((q :: rest).map fun q => (q.vpn, q.access))).Perm
      ((rest ++ [{ q with toKernel := true }]).map fun q : PfRecord => (q.vpn, q.access)) := by
      simp only [List.map_cons, List.map_append, List.map_nil]
      exact (List.perm_append_singleton _ _).symm
    exact this.nodup_iff.1 hn

theorem Keeps.dropEvent (s : State) (i : Nat) : Keeps s (s.dropEvent i) := .plain
    (.of_eq rfl rfl rfl) rfl rfl rfl rfl rfl rfl id

theorem Keeps.loadPte (s : State) (ev : TranslateEvent) (l : Nat) (t : Word) : Keeps s (s.loadPte ev l t) where
  config := .of_eq rfl rfl rfl
  inv hi := hi.congr rfl hi.mem rfl rfl rfl
    (fun b => by simp [State.unanswered, State.loadPte, MemTag.forBuffer]) hi.tlbKeys hi.tlbSize hi.faults hi.command

theorem Keeps.retryWalk (s : State) (q : PfRecord) : Keeps s (s.retryWalk q) := by
  refine Keeps.trans ?_ (.loadPte _ _ _ _)
  exact .plain (.of_eq rfl rfl rfl) rfl rfl rfl rfl rfl rfl id

theorem Keeps.finishPagefault {p : Packet} {s t : State} (h : finishPagefault p s = .next t) : Keeps s t := by
  simp only [Machine.finishPagefault] at h
  split at h
  · cases h
  · split at h
    · cases h
    · split at h
      · cases h
      · split at h
        · cases h; exact ((Keeps.nocRespond ..).trans (.tlbUnblock _ _)).trans (.retryWalk _ _)
        · exact (Keeps.nocRespond ..).trans (.requeuePagefault h)
        · exact ((Keeps.nocRespond ..).trans (.tlbInsert ..)).trans (.resolvePagefault h)
        · cases h

theorem withEndpoint_keeps {s t : State} {e : Nat} {ty : BitVec 3} {k : EpWords → Result}
    (h : withEndpoint s e ty k = .next t)
    (hk : k (s.ep e) = .next t → (s.ep e).type = ty → Keeps s t) : Keeps s t := by
  obtain ⟨-, h1, h2⟩ := withEndpoint_eq_next h; exact hk h2 h1

theorem EpWords.debited_type (e : EpWords) : e.debited.type = e.type := by
  simp only [EpWords.debited]; split <;> simp

theorem Keeps.execSend {a : BitVec 8} {s t : State} (h : execSend a s = .next t) : Keeps s t := by
  simp only [Machine.execSend] at h
  obtain ⟨u, hu, h⟩ := andThen_eq_next.1 h
  obtain ⟨-, rfl⟩ := beginCommand_eq_next hu
  refine (Keeps.beginCommand hu).trans (withEndpoint_keeps h fun h _ => ?_)
  split at h
  · exact .finishCommand h
  · split at h
    · cases h
    · split at h
      · cases h
      · split at h
        · cases h
        · refine Keeps.trans ?_ (.startTransfer h)
          refine (Keeps.setEp _ a.toNat _ (EpWords.debited_type _)).trans ?_
          exact (Keeps.setCmdState _ _ fun _ => rfl).trans (.drawn _ _)

theorem Keeps.execReply {a : BitVec 8} {s t : State} (h : execReply a s = .next t) : Keeps s t := by
  simp only [Machine.execReply] at h
  obtain ⟨u, hu, h⟩ := andThen_eq_next.1 h
  obtain ⟨-, rfl⟩ := beginCommand_eq_next hu
  refine (Keeps.beginCommand hu).trans (withEndpoint_keeps h fun h _ => ?_)
  split at h
  · cases h
  · exact ((Keeps.setCmdState _ _ fun _ => rfl).trans (.drawn _ _)).trans (.translateFor h)

theorem Keeps.replyWithHeader {c : ReplyCtx} {hs : Header} {s t : State} (hp : Inv s → s.cmdInProgress = true)
    (h : replyWithHeader c hs s = .next t) : Keeps s t := by
  simp only [Machine.replyWithHeader] at h
  split at h
  · cases h
  · split at h
    · cases h
    · split at h
      · cases h
      · refine Keeps.trans ?_ (.startTransfer h)
        refine (Keeps.setCmdState s (.sendXfer (some { c with flags := hs.flags &&& ~~~flagReplyEnabled })) hp).trans ?_
        exact (Keeps.setStoredFlags _ c.phys (hs.flags &&& ~~~flagReplyEnabled)).trans (.drawn _ _)

theorem Keeps.headerAnswer {b : List Byte} {s t : State} (h : headerAnswer b s = .next t) : Keeps s t := by
  simp only [Machine.headerAnswer] at h
  split at h
  · next ctx got hc =>
    have hp : Inv s → s.cmdInProgress = true := fun hi => hi.command (by rw [hc]; simp)
    split at h
    · exact (Keeps.setCmdState _ _ hp).trans (.translateFor h)
    · exact .replyWithHeader hp h
  · cases h; exact .refl s

theorem Keeps.setOpnd (s : State) (o : Operands) : Keeps s { s with opnd := o } := .plain
    (.of_eq rfl rfl rfl) rfl rfl rfl rfl rfl rfl id

theorem Keeps.execFetchMsg {a : BitVec 8} {s t : State} (h : execFetchMsg a s = .next t) : Keeps s t := by
  simp only [Machine.execFetchMsg] at h
  obtain ⟨u, hu, h⟩ := andThen_eq_next.1 h
  refine (Keeps.beginCommand hu).trans (withEndpoint_keeps h fun h _ => ?_)
  refine Keeps.trans ?_ (.finishCommand h)
  split
  · exact .setOpnd _ _
  · exact ((Keeps.setEp u _ _ (by simp)).trans (.setMsgCnt _ _)).trans (.setOpnd _ _)

theorem Keeps.execAckMsg {a : BitVec 8} {s t : State} (h : execAckMsg a s = .next t) : Keeps s t := by
  simp only [Machine.execAckMsg] at h
  obtain ⟨u, hu, h⟩ := andThen_eq_next.1 h
  refine (Keeps.beginCommand hu).trans (withEndpoint_keeps h fun h _ => ?_)
  obtain ⟨v, hv, h⟩ := andThen_eq_next.1 h
  exact ((Keeps.drawn _ _).trans (.ackMessage hv)).trans (.finishCommand h)

theorem Keeps.receiveMessage {p : Packet} {s t : State} (h : receiveMessage p s = .next t) : Keeps s t := by
  simp only [Machine.receiveMessage] at h
  split at h
  · cases h
  · split at h
    · cases h; exact .nocRespond ..
    · split at h
      · exact .finishPagefault h
      · refine withEndpoint_keeps h fun h _ => ?_
        split at h
        · cases h
        · split at h
          · cases h; exact .nocRespond ..
          · obtain ⟨v, hv, h⟩ := andThen_eq_next.1 h
            exact ((Keeps.grantCredits hv).trans (.setEp _ _ _ (by simp))).trans (.startTransfer h)

theorem Keeps.readChunk {m : MemCtx} {d : Nat} {s t : State} (hp : Inv s → s.cmdInProgress = true)
    (h : readChunk m d s = .next t) : Keeps s t := by
  simp only [Machine.readChunk] at h
  split at h
  · cases h
  · cases h; exact (Keeps.setCmdState _ _ hp).trans (.nocSend ..)

theorem Keeps.writeChunk {m : MemCtx} {d : Nat} {s t : State} (hp : Inv s → s.cmdInProgress = true)
    (h : writeChunk m d s = .next t) : Keeps s t := by
  simp only [Machine.writeChunk] at h
  split at h
  · cases h
  · exact (Keeps.setCmdState _ _ hp).trans (.startTransfer h)

theorem Keeps.memCommand {a : BitVec 8} {r : Nat} {c : MemCtx → CmdState} {k : MemCtx → State → Result} {s t : State}
    (hk : ∀ m u t, (Inv u → u.cmdInProgress = true) → k m u = .next t → Keeps u t)
      (h : memCommand a r c k s = .next t) : Keeps s t := by
  simp only [Machine.memCommand] at h
  obtain ⟨u, hu, h⟩ := andThen_eq_next.1 h
  obtain ⟨-, rfl⟩ := beginCommand_eq_next hu
  refine (Keeps.beginCommand hu).trans (withEndpoint_keeps h fun h _ => ?_)
  refine ((Keeps.setCmdState _ (c (State.memOperands { s with cmdInProgress := true } a.toNat)) fun _ => rfl).trans
    (.drawn _ 3)).trans ?_
  split at h
  · exact .finishCommand h
  · split at h
    · cases h
    · split at h
      · exact .finishCommand h
      · exact hk _ _ _ (fun _ => rfl) h

theorem Keeps.answerExternal (s : State) : Keeps s s.answerExternal := .plain
    (.of_eq rfl rfl rfl) rfl rfl rfl rfl rfl rfl id

theorem Keeps.answerPort (s : State) (p : Port) (d : List Byte) : Keeps s (s.answerPort p d) := by
  cases p
  · exact .emit ..
  · exact .nocRespond ..

theorem Keeps.registerRead {p : Port} {o n : Nat} {s t : State} (h : registerRead p o n s = .next t) : Keeps s t := by
  simp only [Machine.registerRead] at h
  split at h
  · cases h; exact .answerPort ..
  · cases h

theorem length_writeReg (s : State) (o : Nat) (v : Word) : (s.writeReg o v).eps.length = s.eps.length := by
  simp only [State.writeReg]; split
  · rfl
  · split
    · unfold State.putCmd; split <;> rfl
    · simp

/-- A register write: configuration may change, the rest of the invariant's fields does not. -/
theorem writeReg_same (s : State) (o : Nat) (v : Word) :
    let t := s.writeReg o v
    t.cfg = s.cfg ∧ t.mem = s.mem ∧ t.eps.length = s.eps.length ∧ t.bufs = s.bufs ∧
      t.pendingTransfers = s.pendingTransfers ∧ t.memOutstanding = s.memOutstanding ∧ t.tlb = s.tlb ∧
      t.pfQueue = s.pfQueue ∧ t.cmdState = s.cmdState ∧ t.cmdInProgress = s.cmdInProgress := by
  have := length_writeReg s o v
  refine ⟨?_, ?_, this, ?_⟩
  all_goals
    simp only [State.writeReg]
    split <;> [skip; split] <;> first
      | rfl
      | exact ⟨rfl, rfl, rfl, rfl, rfl, rfl, rfl⟩
      | (unfold State.putCmd; split <;> first | rfl | exact ⟨rfl, rfl, rfl, rfl, rfl, rfl, rfl⟩)

theorem writeRegs_same (cpu : Bool) (ws : List Word) (o : Nat) (s : State) :
    let t := State.writeRegs cpu o ws s
    t.cfg = s.cfg ∧ t.mem = s.mem ∧ t.eps.length = s.eps.length ∧ t.bufs = s.bufs ∧
      t.pendingTransfers = s.pendingTransfers ∧ t.memOutstanding = s.memOutstanding ∧ t.tlb = s.tlb ∧
      t.pfQueue = s.pfQueue ∧ t.cmdState = s.cmdState ∧ t.cmdInProgress = s.cmdInProgress := by
  induction ws generalizing o s with
  | nil => simp [State.writeRegs]
  | cons v vs ih =>
    simp only [State.writeRegs]
    split
    · obtain ⟨a1, a2, a3, a4, a5, a6, a7, a8, a9, a0⟩ := ih (o + 8) (s.writeReg o v)
      obtain ⟨b1, b2, b3, b4, b5, b6, b7, b8, b9, b0⟩ := writeReg_same s o v
      exact ⟨a1.trans b1, a2.trans b2, a3.trans b3, a4.trans b4, a5.trans b5, a6.trans b6,
        a7.trans b7, a8.trans b8, a9.trans b9, a0.trans b0⟩
    · exact ih _ _

theorem Inv.registerWrite {p : Port} {o : Nat} {d : List Byte} {s t : State} (hi : Inv s)
    (h : registerWrite p o d s = .next t) : Inv t := by
  simp only [Machine.registerWrite] at h
  split at h
  · obtain ⟨a1, a2, a3, a4, a5, a6, a7, a8, a9, a0⟩ := writeRegs_same (portIsCpu p) (dataWords d) o s
    have key : Inv (s.afterRegWrite (portIsCpu p) o d) := by
      refine hi.congr a1 (by simp only [State.afterRegWrite, a2]; exact hi.mem) a3 a4 a5 ?_ ?_ ?_ ?_ ?_
      · intro b; simp only [State.unanswered, State.afterRegWrite, a6]
      · simp only [State.afterRegWrite, a7]; exact hi.tlbKeys
      · simp only [State.afterRegWrite, a7]; exact hi.tlbSize
      · simp only [State.afterRegWrite, a8]; exact hi.faults
      · simp only [State.afterRegWrite, a9, a0]; exact hi.command
    cases p with
    | cpu id => cases h; exact (Keeps.emit _ _).inv key
    | noc q =>
      simp only at h
      split at h
      · cases h
        exact (Keeps.plain (s := s.afterRegWrite false o d)
          (t := { s.afterRegWrite false o d with extWaiting := (s.afterRegWrite false o d).extWaiting ++ [q] })
          (.of_eq rfl rfl rfl) rfl rfl rfl rfl rfl rfl id).inv key
      · cases h; exact (Keeps.nocRespond ..).inv key
  · cases h

theorem SameConfig.writeRegs (ws : List Word) (o : Nat) (s : State) : SameConfig s (State.writeRegs true o ws s) := by
  induction ws generalizing o s with
  | nil => exact .refl s
  | cons v vs ih =>
    simp only [State.writeRegs]
    refine SameConfig.trans ?_ (ih _ _)
    split
    · next h =>
      have := mayWrite_cpu h
      simp only [State.writeReg]
      rw [if_neg (by omega), if_pos (by omega)]
      unfold State.putCmd; split <;> exact .of_eq rfl rfl rfl
    · exact .refl s

theorem Keeps.registerWrite_cpu {id o : Nat} {d : List Byte} {s t : State}
    (h : registerWrite (.cpu id) o d s = .next t) : Keeps s t := by
  refine ⟨?_, fun hi => hi.registerWrite h⟩
  simp only [Machine.registerWrite] at h
  split at h
  · cases h
    exact (SameConfig.writeRegs (dataWords d) o s).trans (.of_eq rfl rfl rfl)
  · cases h

theorem Keeps.execCacheMemReqFunc {p : Packet} {s t : State} (h : execCacheMemReqFunc p s = .next t) : Keeps s t := by
  simp only [Machine.execCacheMemReqFunc] at h
  split at h
  · cases h; exact .nocRespond ..
  · split at h
    · cases h; exact (Keeps.memPerform ..).trans (.nocRespond ..)
    · cases h; exact .memIssue _ _ _ _ (fun _ => rfl)

/-! ## The other agents -/

theorem Keeps.servePending (k : Nat) (s : State) : Keeps s (servePending k s) := by
  simp only [Machine.servePending]
  split
  · next r b hr hb =>
    split
    · next hc =>
      refine ⟨.of_eq rfl rfl rfl, fun hi => ?_⟩
      obtain ⟨hlt, hfree, -⟩ := List.findIdx?_eq_some_iff_getElem.1 hb
      have hbuf : s.bufs[b]? = some s.bufs[b] := List.getElem?_eq_getElem hlt
      have hok := hi.bufs s.bufs[b] (List.getElem_mem hlt)
      have hrm : r ∈ s.pendingTransfers := List.mem_of_getElem? hr
      have hev : s.event b = none := by simp only [State.event, hbuf, hfree, if_true]
      have h0 : s.unanswered b = 0 := by rw [hi.outstanding b, hev]; rfl
      have hset : s.bufs.modify b (fun buf => buf.allocate r) = s.bufs.set b (s.bufs[b].allocate r) := by
        rw [List.modify_eq_set_getElem?, hbuf]; rfl
      have key : Inv { s with bufs := s.bufs.set b (s.bufs[b].allocate r), memOutstanding := s.memOutstanding } := by
        refine hi.setBuf hbuf ⟨by simp [Buffer.allocate, hok.1], by simp [Buffer.allocate], ?_⟩ ?_ _
          (fun _ _ => rfl) ?_
        · intro ev he; simp only [Buffer.allocate, Option.some.injEq] at he; subst he
          exact ⟨hi.pending r hrm, le_rfl⟩
        · intro h; right
          have hm : r.flags.msgRecv = true := by simpa [Buffer.holdsMsgRecv, Buffer.allocate, XferReq.event] using h
          simp only [State.canServe, hm, Bool.not_true, Bool.false_or, Bool.and_eq_true,
            Bool.not_eq_true', State.msgRecvBusy] at hc
          rw [List.countP_eq_zero]
          intro x hx hh
          have := List.any_eq_false.1 hc.2 x hx
          exact this hh
        · show s.unanswered b = _
          rw [h0]; rfl
      rw [hset]
      exact { key with pending := fun x hx => hi.pending x (List.mem_of_mem_eraseIdx hx) }
    · exact .refl s
  · exact .refl s

theorem releaseBuf_eq {s : State} {b : Nat} {buf : Buffer} (hb : s.bufs[b]? = some buf) : s.releaseBuf b =
    { s with bufs := s.bufs.set b buf.release } := by
  simp only [State.releaseBuf]; rw [List.modify_eq_set_getElem?, hb]; rfl

theorem Keeps.releaseBuf {s : State} {b : Nat} {ev : XferEvent} (he : s.event b = some ev)
    (h0 : ev.outstanding = 0) : Keeps s (s.releaseBuf b) := by
  obtain ⟨buf, hb, hf, hev⟩ := event_some he
  rw [releaseBuf_eq hb]
  refine ⟨.of_eq rfl rfl rfl, fun hi => ?_⟩
  have hok := hi.bufs buf (List.mem_of_getElem? hb)
  refine hi.setBuf (buf' := buf.release) hb ⟨hok.1, by simp [Buffer.release], by simp [Buffer.release]⟩ ?_ _
    (fun _ _ => rfl) ?_
  · intro h; simp [Buffer.holdsMsgRecv, Buffer.release] at h
  · show s.unanswered b = _
    rw [hi.outstanding b, he]; simp [h0, Buffer.release]

theorem Keeps.respondIfNeeded (s : State) (p : Option Packet) (r : ErrorCode) : Keeps s (s.respondIfNeeded p r) := by
  cases p with
  | none => exact .refl s
  | some p => simp only [State.respondIfNeeded]; split; exact .nocRespond ..; exact .refl s

theorem Keeps.completeTransfer {bs : List Byte} {ev : XferEvent} {s t : State}
    (h : completeTransfer bs ev s = .next t) : Keeps s t := by
  simp only [Machine.completeTransfer] at h
  split at h
  · cases h
    refine Keeps.trans (t := { s with cmdState := s.cmdState.packetSent })
      (.plain (.of_eq rfl rfl rfl) rfl rfl rfl rfl rfl rfl ?_) (.nocSend ..)
    intro hc hs; apply hc; intro h0; apply hs; simp [h0, CmdState.packetSent]
  · split at h
    · exact .finishCommand h
    · split at h
      · next e d hc => exact .readChunk (fun hi => hi.command (by rw [hc]; simp)) h
      · cases h; exact .refl s
  · split at h
    · cases h; exact .nocRespond ..
    · cases h; exact .refl s
  · cases h
    refine Keeps.trans ?_ (.respondIfNeeded ..)
    split
    · exact .finishMsgReceive ..
    · exact .refl s

theorem Keeps.failTransfer {ev : XferEvent} {s t : State} (h : failTransfer ev s = .next t) : Keeps s t := by
  simp only [Machine.failTransfer] at h
  split at h
  · exact .finishCommand h
  · exact .finishCommand h
  · split at h
    · cases h; exact .nocRespond ..
    · cases h; exact .refl s
  · have hk : Keeps s (match ev.flags.msgRecv, ev.recv with
      | true, some (t, idx) => s.setEp t ((s.ep t).freed idx)
      | _, _ => s) := by
      split
      · exact .setEp _ _ _ (by simp)
      · exact .refl s
    split at h
    · cases h; exact hk.trans (.nocRespond ..)
    · cases h; exact hk

theorem Keeps.xferStep {b : Nat} {s t : State} (h : xferStep b s = .next t) : Keeps s t := by
  simp only [Machine.xferStep] at h
  split at h
  · next buf ev hb he =>
    split at h
    · cases h; exact .refl s
    · next hr =>
      split at h
      · next hf =>
        have h0 : ev.outstanding = 0 := by simp [XferEvent.ready, hf] at hr; exact hr.2
        exact (Keeps.releaseBuf he h0).trans (.failTransfer h)
      · next hf =>
        split at h
        · next hs =>
          have h0 : ev.outstanding = 0 := by simp [XferEvent.ready, hs] at hr; exact hr.2
          exact (Keeps.releaseBuf he h0).trans (.completeTransfer h)
        · exact (Keeps.setEvent s b ev { ev with waiting := true } he rfl rfl le_rfl rfl rfl).trans (.translateFor h)
  · cases h; exact .refl s

theorem Keeps.ptuStep {k : Nat} {s t : State} (h : ptuStep k s = .next t) : Keeps s t := by
  simp only [Machine.ptuStep] at h
  split at h
  · split at h
    · simp only [ptuFirst] at h
      split at h
      · exact (Keeps.dropEvent ..).trans (.startPagefault h)
      · split at h
        · exact (Keeps.dropEvent ..).trans (.notify h)
        · exact (Keeps.dropEvent ..).trans (.notify h)
        · exact (Keeps.dropEvent ..).trans (.startPagefault h)
        · cases h; exact .loadPte ..
    · cases h; exact .refl s
  · cases h; exact .refl s

theorem Keeps.walkFailed {ev : TranslateEvent} {s t : State} (h : walkFailed ev s = .next t) : Keeps s t := by
  simp only [Machine.walkFailed] at h
  split at h
  · split at h
    · exact .sendPagefault h
    · cases h; exact .refl _
  · exact .startPagefault h

theorem Keeps.walkDone {ev : TranslateEvent} {p : Word} {s t : State} (h : walkDone ev p s = .next t) :
    Keeps s t := by
  simp only [Machine.walkDone] at h
  refine (Keeps.tlbInsert s (vpnOf ev.virt) (pteBase p) (pteRights p)).trans ?_
  split at h
  · split at h
    · exact .resolvePagefault h
    · cases h; exact .refl _
  · exact .notify h

theorem Keeps.walkAnswer {id : Nat} {bs : List Byte} {s t : State} (h : walkAnswer id bs s = .next t) :
    Keeps s t := by
  simp only [Machine.walkAnswer] at h
  split at h
  · cases h; exact .refl s
  · split at h
    · cases h; exact .refl s
    · split at h
      · exact (Keeps.dropEvent ..).trans (.walkFailed h)
      · split at h
        · exact (Keeps.dropEvent ..).trans (.walkDone h)
        · cases h; exact .loadPte ..

theorem Keeps.translateFunc {r : CpuReq} {s t : State} (h : translateFunc r s = .next t) : Keeps s t := by
  simp only [Machine.translateFunc] at h
  split at h
  · exact .notify h
  · split at h
    · exact .notify h
    · exact .notify h
    · exact .startPagefault h
    · split at h
      · exact (Keeps.tlbInsert ..).trans (.notify h)
      · exact .startPagefault h
      · cases h; exact .startTranslate ..

theorem Keeps.cpuMemAccess {r : CpuReq} {s t : State} (h : cpuMemAccess r s = .next t) : Keeps s t := by
  simp only [Machine.cpuMemAccess] at h
  split at h
  · cases h
  · split at h
    · cases h; exact .emit ..
    · split at h
      · exact .translateFunc h
      · exact .translateFor h

theorem Keeps.cpuResponse {q : CpuReq} {r : ErrorCode} {d : List Byte} {s t : State}
    (h : cpuResponse q r d s = .next t) : Keeps s t := by
  cases r <;> simp only [Machine.cpuResponse] at h
  case vpeGone => exact .translateFor h
  all_goals cases h
  all_goals exact .emit ..

theorem Keeps.nocRespondStep {k : Nat} {r : ErrorCode} {d : List Byte} {s t : State}
    (h : nocRespondStep k r d s = .next t) : Keeps s t := by
  simp only [Machine.nocRespondStep] at h
  split at h
  · cases h; exact .refl s
  · next q hq =>
    split at h
    · cases h
    · refine Keeps.trans (t := { s with nocOutstanding := s.nocOutstanding.eraseIdx k })
        (.plain (.of_eq rfl rfl rfl) rfl rfl rfl rfl rfl rfl id) ?_
      simp only [nocDeliver] at h
      split at h
      · exact .finishCommand h
      · split at h
        · exact .finishCommand h
        · split at h
          · exact .startTransfer h
          · cases h; exact .refl _
      · split at h
        · exact .finishCommand h
        · split at h
          · exact .finishCommand h
          · split at h
            · next e d hc => exact .writeChunk (fun hi => hi.command (by rw [hc]; simp)) h
            · cases h; exact .refl _
      · split at h
        · exact .requeuePagefault h
        · cases h; exact .refl _
      · exact .cpuResponse h

theorem countP_eraseIdx {α : Type} (l : List α) (p : α → Bool) (k : Nat) (h : k < l.length) :
    l.countP p = (l.eraseIdx k).countP p + if p l[k] then 1 else 0 := by
  have := (List.getElem_cons_eraseIdx_perm h).countP_eq p
  rw [← this, List.countP_cons]

/-- An answer of local memory that no buffer waits for. -/
theorem Keeps.answered {s : State} {k : Nat} {r : MemReq} (hr : s.memOutstanding[k]? = some r)
    (h : ∀ b, r.tag.forBuffer b = false) :
    Keeps s { s with memOutstanding := s.memOutstanding.eraseIdx k } where
  config := .of_eq rfl rfl rfl
  inv hi := hi.congr rfl hi.mem rfl rfl rfl (fun b => by
    simp only [State.unanswered]
    obtain ⟨hlt, hge⟩ := List.getElem?_eq_some_iff.1 hr
    have := countP_eraseIdx s.memOutstanding (fun r => r.tag.forBuffer b) k hlt
    rw [this, hge, h b]; simp) hi.tlbKeys hi.tlbSize hi.faults hi.command

end Sys2Proof.Machine
end

