-- ==== Sys2Proof/Laws/Pagefault.lean ====
section
/-! SUPPORT. What a step that tells waiters their translation does to the queue of page faults and to the upcalls (R350, R359,
R361). -/

namespace Sys2Proof.Machine

/-- From `s` to `t` outputs were added; one of them is an upcall if the queue had been empty and no longer is, none is
otherwise; and a record at the head of the queue is still there, with the waiters that have joined it. -/
def Faulted (s t : State) : Prop :=
  ∃ new, t.out = s.out ++ new ∧
    new.countP Output.isUpcall = (if s.pfQueue = [] ∧ t.pfQueue ≠ [] then 1 else 0) ∧
    ∀ r rs, s.pfQueue = r :: rs → ∃ joined more, t.pfQueue = { r with waiters := r.waiters ++ joined } :: more

/-- Nothing happens to the queue, and no upcall is sent. -/
theorem Faulted.quiet {s t : State} (new : List Output) (ho : t.out = s.out ++ new) (hq : t.pfQueue = s.pfQueue)
    (hn : ∀ o ∈ new, o.isUpcall = false) : Faulted s t := by
  refine ⟨new, ho, ?_, fun r rs h => ⟨[], rs, by rw [hq, h, List.append_nil]⟩⟩
  rw [List.countP_eq_zero.2 (by simpa using hn), if_neg (by rw [hq]; exact fun h => h.2 h.1)]

theorem Faulted.same {s t : State} (ho : t.out = s.out) (hq : t.pfQueue = s.pfQueue) : Faulted s t :=
  .quiet [] (by rw [ho, List.append_nil]) hq (by simp)

theorem Faulted.emit (s : State) {o : Output} (h : o.isUpcall = false) : Faulted s (s.emit o) :=
  .quiet [o] rfl rfl (by simpa using h)

theorem Faulted.trans {s t u : State} (h : Faulted s t) (k : Faulted t u) : Faulted s u := by
  obtain ⟨n, ho, hc, hr⟩ := h
  obtain ⟨m, ko, kc, kr⟩ := k
  refine ⟨n ++ m, by rw [ko, ho, List.append_assoc], ?_, ?_⟩
  · rw [List.countP_append, hc, kc]
    cases hs : s.pfQueue with
    | cons r rs => obtain ⟨j, more, ht⟩ := hr r rs hs; simp [ht]
    | nil =>
      cases ht : t.pfQueue with
      | nil => simp
      | cons r rs => obtain ⟨j, more, hu⟩ := kr r rs ht; simp [hu]
  · intro r rs hs
    obtain ⟨j, more, ht⟩ := hr r rs hs
    obtain ⟨j', more', hu⟩ := kr _ _ ht
    exact ⟨j ++ j', more', by rw [hu, List.append_assoc]⟩

/-! ## The upcall -/

/-- An upcall that is sent is one output of its kind, and its record stays at the head. -/
theorem sendPagefault_eq_next {s t : State} (h : sendPagefault s = .next t) : (s.pfQueue = [] ∧ t = s) ∨
    ∃ q rest token new, s.pfQueue = q :: rest ∧ t.pfQueue = { q with token := token } :: rest ∧ t.out = s.out ++ new ∧
      new.countP Output.isUpcall = 1 := by
  simp only [sendPagefault] at h
  split at h
  · cases h; exact .inl ⟨‹_›, rfl⟩
  · next q rest hq =>
    have hc : ∃ new, (s.countPagefault q.vpn).out = s.out ++ new ∧ new.countP Output.isUpcall = 0 := by
      simp only [State.countPagefault]
      split
      all_goals split
      all_goals first
        | exact ⟨[], (List.append_nil _).symm, rfl⟩
        | exact ⟨[.injectIrq pfIrqVector], rfl, rfl⟩
    have hb : ((s.countPagefault q.vpn).tlbBlock q.vpn).out = (s.countPagefault q.vpn).out := by
      simp only [State.tlbBlock]; split <;> rfl
    obtain ⟨new, hn, hz⟩ := hc
    split at h
    · cases h
    · split at h
      · cases h
      · split at h
        · cases h
        · cases h
          have hs : ∀ x : State, x.out = s.out ++ new → ∀ y a n d w,
              (({ x with pfQueue := y } : State).nocSend .pagefault a .write n d w).out = s.out ++
                (new ++ [.nocRequest ⟨.pagefault, a, .write, n, d, true, x.cfg.coreId⟩]) := by
            intro x hx y a n d w
            rw [← List.append_assoc, ← hx]; rfl
          exact .inr ⟨q, rest, _, _, hq, rfl, hs _ (by rw [← hn, ← hb]; rfl) .., by rw [List.countP_append, hz]; rfl⟩

/-- A fault that arrives is one upcall if no other is queued, and joins or follows the queue otherwise. -/
theorem Faulted.startPagefault {v : Word} {a : BitVec 5} {w : Waiter} {s t : State}
    (h : startPagefault v a w s = .next t) : Faulted s t := by
  simp only [Machine.startPagefault] at h
  split at h
  · next hany =>
    cases h
    refine ⟨[], by simp, ?_, ?_⟩
    · rw [if_neg]; · rfl
      rintro ⟨hq, -⟩; rw [hq] at hany; cases hany
    · intro r rs hq
      simp only [hq, List.map_cons]
      split
      · exact ⟨[w], _, rfl⟩
      · exact ⟨[], _, by rw [List.append_nil]⟩
  · split at h
    · next he =>
      have hq : s.pfQueue = [] := by simpa using he
      rcases sendPagefault_eq_next h with ⟨h1, -⟩ | ⟨q, rest, token, new, -, h2, h3, h4⟩
      · simp at h1
      · exact ⟨new, h3, by rw [h4, if_pos ⟨hq, by rw [h2]; simp⟩], by intro r rs hr; rw [hq] at hr; cases hr⟩
    · next he =>
      cases h
      refine ⟨[], by simp, ?_, ?_⟩
      · rw [if_neg]; · rfl
        rintro ⟨hq, -⟩; exact he (by rw [hq]; rfl)
      · intro r rs hq
        exact ⟨[], rs ++ _, by simp only [hq, List.append_nil, List.cons_append]; rfl⟩

/-! ## The waiters -/

theorem Faulted.finishCommand {e : ErrorCode} {s t : State} (h : finishCommand e s = .next t) : Faulted s t := by
  obtain ⟨-, u, rfl, hu⟩ := finishCommand_eq_next h
  refine Faulted.trans (t := u) ?_ (.same rfl rfl)
  rcases hu with rfl | rfl | ⟨r, -, hr⟩
  · exact .same rfl rfl
  · exact .same rfl rfl
  · simp only [finishMsgReply] at hr
    generalize hy : (if e = ErrorCode.vpeGone then s.setStoredFlags r.phys (r.flags ||| flagReplyFailed) else s) = y at hr
    obtain ⟨-, -, -, rfl⟩ := ackMessage_eq_next hr
    have hs : ∀ x : State, x.out = s.out → x.pfQueue = s.pfQueue → ∀ v e w,
        Faulted s ((x.setEp e w).setMsgCnt v) ∧ Faulted s (x.setEp e w) := by
      intro x ho hq v e w
      exact ⟨.quiet [.setDenySuspend (v != 0)] (by simp [State.setMsgCnt, State.setEp, ho])
        (by simp [State.setMsgCnt, State.setEp, hq]) (by simp [Output.isUpcall]),
        .same (by simp [State.setEp, ho]) (by simp [State.setEp, hq])⟩
    have hx : y.out = s.out ∧ y.pfQueue = s.pfQueue := by rw [← hy]; split <;> exact ⟨rfl, rfl⟩
    split
    · exact (hs _ hx.1 hx.2 _ _ _).1
    · exact (hs _ hx.1 hx.2 0 _ _).2

theorem Faulted.cpuDummy (s : State) (r : CpuReq) : Faulted s (s.cpuDummy r) := .emit s rfl

theorem Faulted.forwardCpu (s : State) (r : CpuReq) (p : Word) : Faulted s (s.forwardCpu r p) := by
  simp only [State.forwardCpu]
  split
  · refine .quiet [_] rfl rfl ?_
    simp only [List.mem_singleton, forall_eq]
    cases r.func <;> rfl
  · split
    · refine Faulted.trans (t := (s.memPerform (p + pageOffset r.addr) r.memOp).1) ?_ (.emit _ rfl)
      cases r.memOp <;> exact .same rfl rfl
    · exact .same rfl rfl

theorem Faulted.forwardFunc {r : CpuReq} {l : List (ErrorCode × List Byte)} {p : Word} {s t : State}
    (h : forwardFunc r l p s = .next t) : Faulted s t := by
  induction l generalizing p s with
  | nil => cases h; exact .forwardCpu ..
  | cons x rest ih =>
    obtain ⟨e, d⟩ := x
    simp only [Machine.forwardFunc] at h
    split at h
    · cases h; exact .forwardCpu ..
    · split at h
      · cases h
      · refine Faulted.trans (.emit s (o := .nocRequest (s.funcPacket r (p + pageOffset r.addr))) rfl) ?_
        split at h
        · cases h; exact .emit _ rfl
        · split at h
          · exact ih h
          · split at h
            · exact ih h
            · cases h; exact .cpuDummy ..
            · exact .startPagefault h
            · exact .startPagefault h
        · cases h; exact .cpuDummy ..

/-- A waiter that is told its translation. -/
theorem Faulted.notify {w : Waiter} {p : Option Word} {s t : State} (h : notify w p s = .next t) : Faulted s t := by
  cases w <;> cases p <;> simp only [Machine.notify] at h
  case replyHeader.none => exact .finishCommand h
  case cpu.some =>
    simp only [Machine.forwardRequest] at h
    split at h
    · exact .forwardFunc h
    · cases h; exact .forwardCpu ..
  all_goals cases h
  · simp only [State.failBlock, State.setEvent]
    split
    · split <;> exact .same rfl rfl
    · exact .same rfl rfl
  · simp only [State.issueBlock, State.setEvent]
    split
    · split <;> exact .same rfl rfl
    · exact .same rfl rfl
  · simp only [State.issueHeaderPiece]; split <;> exact .same rfl rfl
  · exact .cpuDummy ..
  · exact .same rfl rfl
  · exact .same rfl rfl

/-- The waiters of a record that are told their translation, one after the other. -/
theorem Faulted.waiters {ws : List Waiter} {p : Option Word} {s t : State}
    (h : forEach (fun w => Machine.notify w p) ws s = .next t) : Faulted s t :=
  forEach_keeps (P := Faulted s) (fun _ _ _ ha hb => ha.trans (.notify hb)) (.same rfl rfl) h

end Sys2Proof.Machine
end

