-- ==== Sys2Proof/Laws/Ring.lean ====
section
/-! SUPPORT. The bitmaps and positions of a ring (R44). -/

namespace Sys2Proof.Machine

theorem countP_set (l : List Nat) (hl : l.Nodup) (p q : Nat → Bool) (k : Nat) (hk : k ∈ l)
    (h : ∀ i ∈ l, i ≠ k → p i = q i)
  (hp : p k = true) (hq : q k = false) : l.countP p = l.countP q + 1 := by
  induction l with
  | nil => cases hk
  | cons x xs ih =>
    simp only [List.nodup_cons] at hl
    by_cases hx : x = k
    · subst hx
      have : xs.countP p = xs.countP q := List.countP_congr fun i hi => by
        rw [h i (List.mem_cons_of_mem _ hi) (by rintro rfl; exact hl.1 hi)]
      simp [hp, hq, this]
    · have := ih hl.2 ((List.mem_cons.1 hk).resolve_left (Ne.symm hx)) fun i hi => h i (List.mem_cons_of_mem _ hi)
      simp [List.countP_cons, this, h x List.mem_cons_self hx]; omega

theorem popcount_set (m : BitVec 32) (k : Nat) (hk : k < 32) (h : m.getLsbD k = false) : popcount
    (setSlot m k) = popcount m + 1 := by
  apply countP_set (k := k) _ List.nodup_range
  · simpa using hk
  · intro i _ hi; simp [getLsbD_setSlot, hi]
  · simp [getLsbD_setSlot, hk]
  · exact h

theorem popcount_clear (m : BitVec 32) (k : Nat) (hk : k < 32) (h : m.getLsbD k = true) : popcount m = popcount
    (clearSlot m k) + 1 := by
  apply countP_set (k := k) _ List.nodup_range
  · simpa using hk
  · intro i _ hi; simp [getLsbD_clearSlot, hi]
  · exact h
  · simp [getLsbD_clearSlot]

theorem subset_iff (u o : BitVec 32) : u &&& ~~~o = 0 ↔ ∀ i, u.getLsbD i = true → o.getLsbD i = true := by
  constructor
  · intro h i hu
    have := congrArg (BitVec.getLsbD · i) h
    simp only [BitVec.getLsbD_and, BitVec.getLsbD_not, hu] at this
    by_cases hi : i < 32
    · simp [hi] at this; exact this
    · rw [BitVec.getLsbD_of_ge _ _ (by omega)] at hu; cases hu
  · intro h; apply BitVec.eq_of_getLsbD_eq; intro i hi
    simp only [BitVec.getLsbD_and, BitVec.getLsbD_not]
    cases hu : u.getLsbD i
    · simp
    · simp [h i hu]

theorem popcount_le (m : BitVec 32) : popcount m ≤ 32 := by
  have := List.countP_le_length (l := List.range 32) (p := m.getLsbD)
  simpa [popcount] using this

theorem mod6 (k n : Nat) (h : n ≤ 32) (h0 : 0 < n) : (BitVec.ofNat 6 ((k + 1) % n)).toNat = (k+1) % n := by
  have := Nat.mod_lt (k+1) h0
  rw [BitVec.toNat_ofNat]; omega

end Sys2Proof.Machine
end

