-- ==== Sys2Proof/Laws/Tlb.lean ====
section
/-! SUPPORT. The placement and the lookup of TLB entries (R331 to R333). -/

namespace Sys2Proof.Machine

theorem any_vpn {tlb : List TlbEntry} {vpn : BitVec 52} :
    tlb.any (fun x => x.vpn == vpn) = true ↔ ∃ e ∈ tlb, e.vpn = vpn := by simp

theorem mem_victims {tlb : List TlbEntry} {i : Nat} : i ∈ tlbVictims tlb ↔ ∃ e, tlb[i]? = some e ∧
    e.blocked = false := by
  simp only [tlbVictims, List.mem_filter, List.mem_range, beq_iff_eq, Option.map_eq_some_iff]
  constructor
  · rintro ⟨-, e, h⟩; exact ⟨e, h⟩
  · rintro ⟨e, h, hb⟩
    refine ⟨?_, e, h, hb⟩
    exact (List.getElem?_eq_some_iff.1 h).1

theorem find_map {tlb : List TlbEntry} {vpn : BitVec 52} (f : TlbEntry → TlbEntry) (h : ∃ e ∈ tlb, e.vpn = vpn)
    (hf : ∀ x, x.vpn = vpn → (f x).vpn = vpn) :
    ∃ x ∈ tlb, x.vpn = vpn ∧ tlbFind tlb vpn = some x ∧ tlbFind
      (tlb.map fun x => if x.vpn = vpn then f x else x) vpn = some (f x) := by
  induction tlb with
  | nil => simp at h
  | cons x xs ih =>
    by_cases hx : x.vpn = vpn
    · exact ⟨x, List.mem_cons_self, hx, by simp [tlbFind, hx], by simp [tlbFind, hx, hf]⟩
    · obtain ⟨e, he, hv⟩ := h
      have hxs : ∃ e ∈ xs, e.vpn = vpn := ⟨e, (List.mem_cons.1 he).resolve_left (by rintro rfl; exact hx hv), hv⟩
      obtain ⟨y, hy, hyv, h1, h2⟩ := ih hxs
      refine ⟨y, List.mem_cons_of_mem _ hy, hyv, ?_, ?_⟩
      · simp only [tlbFind, List.find?_cons]; rw [show (x.vpn == vpn) = false by simpa using hx]; exact h1
      · simp only [tlbFind, List.map_cons, List.find?_cons, if_neg hx]
        rw [show (x.vpn == vpn) = false by simpa using hx]; exact h2

theorem find_set {tlb : List TlbEntry} {e : TlbEntry} {i : Nat} (h : ∀ x ∈ tlb, x.vpn ≠ e.vpn)
    (hi : i < tlb.length) : tlbFind (tlb.set i e) e.vpn = some e := by
  induction tlb generalizing i with
  | nil => simp at hi
  | cons x xs ih =>
    cases i with
    | zero => simp [tlbFind]
    | succ i =>
      simp only [tlbFind, List.set_cons_succ, List.find?_cons]
      rw [show (x.vpn == e.vpn) = false by simpa using h x List.mem_cons_self]
      exact ih (fun y hy => h y (List.mem_cons_of_mem _ hy)) (by simpa using hi)

theorem find_place (cap n : Nat) (tlb : List TlbEntry) (e : TlbEntry)
    (h : (∃ x ∈ tlb, x.vpn = e.vpn) ∨ tlb.length < cap ∨ (∃ x ∈ tlb, x.blocked = false)) : tlbFind
      (tlbPlace cap n tlb e) e.vpn = some e := by
  simp only [tlbPlace]
  by_cases ha : tlb.any (fun x => x.vpn == e.vpn) = true
  · rw [if_pos ha]
    obtain ⟨x, -, -, -, h2⟩ := find_map (fun _ => e) (any_vpn.1 ha) (fun _ _ => rfl)
    exact h2
  · rw [if_neg ha]
    have hne : ∀ x ∈ tlb, x.vpn ≠ e.vpn := by intro x hx hv; exact ha (any_vpn.2 ⟨x, hx, hv⟩)
    by_cases hl : tlb.length < cap
    · rw [if_pos hl, tlbFind, List.find?_append, List.find?_eq_none.2 (by simpa using hne)]; simp
    · rw [if_neg hl]
      have hv : ∃ x ∈ tlb, x.blocked = false :=
        (h.resolve_left (by rintro ⟨x, hx, hv⟩; exact hne x hx hv)).resolve_left hl
      obtain ⟨x, hx, hb⟩ := hv
      obtain ⟨i, hi⟩ := List.getElem?_of_mem hx
      have hm : i ∈ tlbVictims tlb := mem_victims.2 ⟨x, hi, hb⟩
      have hs := choose_isSome n (List.ne_nil_of_mem hm)
      obtain ⟨j, hj⟩ := Option.isSome_iff_exists.1 hs
      rw [hj]
      obtain ⟨y, hy, -⟩ := mem_victims.1 (mem_of_choose hj)
      exact find_set hne (List.getElem?_eq_some_iff.1 hy).1

theorem mem_place (cap n : Nat) (tlb : List TlbEntry) (e x : TlbEntry) (hx : x ∈ tlb) (hb : x.blocked = true)
    (hv : x.vpn ≠ e.vpn) : x ∈ tlbPlace cap n tlb e := by
  simp only [tlbPlace]
  split
  · exact List.mem_map.2 ⟨x, hx, by simp [hv]⟩
  · split
    · exact List.mem_append_left _ hx
    · split
      · exact hx
      · next i hi =>
        obtain ⟨y, hy, hyb⟩ := mem_victims.1 (mem_of_choose hi)
        obtain ⟨j, hj⟩ := List.getElem?_of_mem hx
        have : i ≠ j := by rintro rfl; rw [hy] at hj; cases hj; rw [hb] at hyb; cases hyb
        apply List.mem_of_getElem? (i := j)
        rw [List.getElem?_set, if_neg this, hj]

theorem find_vpn {tlb : List TlbEntry} {e : TlbEntry} (he : e ∈ tlb) (hn : (tlb.map (·.vpn)).Nodup) :
    tlbFind tlb e.vpn = some e := by
  induction tlb with
  | nil => cases he
  | cons x xs ih =>
    simp only [List.map_cons, List.nodup_cons, List.mem_map, not_exists, not_and] at hn
    rcases List.mem_cons.1 he with rfl | h
    · simp [tlbFind]
    · have : x.vpn ≠ e.vpn := fun hc => hn.1 e h hc.symm
      simp only [tlbFind, List.find?_cons]
      rw [show (x.vpn == e.vpn) = false by simpa using this]
      exact ih h hn.2

end Sys2Proof.Machine
end

