-- ==== Sys2Proof/Laws/Transfer.lean ====
section
/-! SUPPORT. The steps of a transfer: a block issued, a block answered, the end. -/

namespace Sys2Proof.Machine

/-- The event of a buffer in use. -/
theorem event_of {s : State} {b : Nat} {buf : Buffer} {ev : XferEvent} (hb : s.bufs[b]? = some buf)
    (hf : buf.free = false) (he : buf.event = some ev) :
    s.event b = some ev := by simp [State.event, hb, hf, he]

/-- The memory operation of the next block. -/
def blockOp (buf : Buffer) (ev : XferEvent) (n : Nat) : MemOp :=
  if ev.type.writesLocal then .write (slice buf.bytes ev.pos n) else .read n

/-- A block is issued (R308). -/
theorem issueBlock_eq {s : State} {b : Nat} {buf : Buffer} {ev : XferEvent} (page : Word)
    (hb : s.bufs[b]? = some buf) (hf : buf.free = false) (he : buf.event = some ev) :
    s.issueBlock b page =
      let n := blockPiece s.cfg ev.localAddr ev.size
      { s with
        bufs := s.bufs.set b { buf with event := some (ev.advanced n) }
        memOutstanding := s.memOutstanding ++
          [⟨page + pageOffset ev.localAddr, blockOp buf ev n, .xfer b ev.pos⟩] } := by
  simp only [State.issueBlock, hb, event_of hb hf he, State.setEvent, State.memIssue, State.setBuf, blockOp]

/-- A step of a buffer with bytes left, without a TLB (R305, R71). -/
theorem xferStep_block {s : State} {b : Nat} {buf : Buffer} {ev : XferEvent} {n : Nat} (h0 : s.cfg.tlbEntries = 0)
    (hb : s.bufs[b]? = some buf) (hf : buf.free = false) (he : buf.event = some ev) (hw : ev.waiting = false)
      (hfa : ev.failed = false)
    (hs : ev.size ≠ 0) (hn : n = blockPiece s.cfg ev.localAddr ev.size) :
    xferStep b s = .next { s with
        bufs := s.bufs.set b { buf with event := some (ev.advanced n) }
        memOutstanding := s.memOutstanding ++ [⟨ev.localAddr, blockOp buf ev n, .xfer b ev.pos⟩] } := by
  have hlt := (List.getElem?_eq_some_iff.1 hb).1
  have hr : ev.ready = true := by simp [XferEvent.ready, hw, hfa, hs]
  have hset : s.setEvent b { ev with waiting := true } =
    { s with bufs := s.bufs.set b { buf with event := some { ev with waiting := true } } } := by
    simp only [State.setEvent, hb, State.setBuf]
  simp only [xferStep, hb, event_of hb hf he, hr]
  rw [if_neg (by simp), if_neg (by simp [hfa]), if_neg hs, hset, translateFor, if_pos (by exact h0), notify]
  rw [issueBlock_eq (buf := { buf with event := some { ev with waiting := true } })
    (ev := { ev with waiting := true }) _ (by exact List.getElem?_set_self hlt) hf rfl]
  simp [pageBase_add_pageOffset, ← hn, XferEvent.advanced, blockOp, XferEvent.pos]

/-- The answer to the newest memory request, a block of a transfer (R309). -/
theorem memAnswer_block {s : State} {l : List MemReq} {b pos n : Nat} {a : Word} {op : MemOp} {buf : Buffer}
    {ev : XferEvent}
    (hm : s.memOutstanding = l ++ [⟨a, op, .xfer b pos⟩]) (hb : s.bufs[b]? = some buf) (hf : buf.free = false)
      (he : buf.event = some ev)
    (hop : op.size = n) (hbk : s.cfg.backs a.toNat n = true) :
    memAnswer l.length s = .next { (s.memPerform a op).1 with
      memOutstanding := l
      bufs := s.bufs.set b { buf with
        bytes := splice buf.bytes pos (s.memPerform a op).2
        offset := buf.offset + n
        event := some { ev with outstanding := ev.outstanding - 1 } } } := by
  have hk : s.memOutstanding[l.length]? = some ⟨a, op, .xfer b pos⟩ := by rw [hm]; simp
  have her : s.memOutstanding.eraseIdx l.length = l := by rw [hm, List.eraseIdx_append_of_length_le le_rfl]; simp
  simp only [memAnswer, hk, hop, hbk, memDeliver, her]
  rw [if_neg (by simp)]
  cases op <;> simp only
    [State.memPerform, State.funcWrite, State.blockAnswer, State.event, hb, hf, he, State.setBuf] <;> simp [hf]

/-- The last step of a buffer (R310, R311, R313). -/
theorem release_step {s : State} {b : Nat} {buf : Buffer} {ev : XferEvent} (hb : s.bufs[b]? = some buf)
    (hf : buf.free = false)
    (he : buf.event = some ev) (hw : ev.waiting = false) (hfa : ev.failed = false) (ho : ev.outstanding = 0)
      (hs : ev.size = 0) :
    xferStep b s = completeTransfer buf.bytes ev { s with bufs := s.bufs.set b buf.release } := by
  have hr : ev.ready = true := by simp [XferEvent.ready, hw, hfa, hs, ho]
  have hrel : s.releaseBuf b = { s with bufs := s.bufs.set b buf.release } := by
    simp only [State.releaseBuf]; rw [List.modify_eq_set_getElem?, hb]; rfl
  simp only [xferStep, hb, event_of hb hf he, hr]
  rw [if_neg (by simp), if_neg (by simp [hfa]), if_pos hs, hrel]

/-- A piece has bytes, and not more than are left (R84). -/
theorem blockPiece_pos {c : Config} (hv : c.valid = true) (a : Word) {n : Nat} (hn : n ≠ 0) : 0 < blockPiece c a n ∧
    blockPiece c a n ≤ n := by
  have hp : 0 < c.blockSize := by
    simp only [Config.valid, Bool.and_eq_true, List.contains_eq_mem, decide_eq_true_eq, List.mem_cons,
      List.not_mem_nil, or_false] at hv
    obtain ⟨⟨⟨⟨⟨⟨⟨⟨-, h⟩, -⟩, -⟩, -⟩, -⟩, -⟩, -⟩, -⟩ := hv
    omega
  have := Nat.mod_lt a.toNat hp
  simp only [blockPiece]; omega

/-- Part of a backed stretch is backed (R90). -/
theorem backs_sub {c : Config} {a n a' n' : Nat} (h : c.backs a n = true) (h1 : a ≤ a') (h2 : a' + n' ≤ a + n)
    (hn : n' ≠ 0) : c.backs a' n' = true := by
  simp only [Config.backs, Bool.or_eq_true, beq_iff_eq, List.any_eq_true, Bool.and_eq_true, decide_eq_true_eq] at h ⊢
  rcases h with h | ⟨r, hr, h3, h4⟩
  · omega
  · exact .inr ⟨r, hr, by omega, by omega⟩

/-- What the repeated-failure count leaves alone (R360). -/
theorem countPagefault_keeps (x : State) (v : BitVec 52) : (x.countPagefault v).eps = x.eps ∧
    (x.countPagefault v).mem = x.mem ∧ (x.countPagefault v).pfQueue = x.pfQueue ∧ (x.countPagefault v).cfg = x.cfg ∧
    (x.countPagefault v).dtu.pfEp = x.dtu.pfEp ∧ (x.countPagefault v).dtu.vpeId = x.dtu.vpeId ∧
    (x.countPagefault v).nocOutstanding = x.nocOutstanding ∧ (x.countPagefault v).tlb = x.tlb ∧
    (x.countPagefault v).draws = x.draws := by
    simp only [State.countPagefault]; split <;> (split <;> simp)

/-- What a block of a page leaves alone (R336). -/
theorem tlbBlock_keeps (x : State) (v : BitVec 52) : (x.tlbBlock v).eps = x.eps ∧ (x.tlbBlock v).mem = x.mem ∧
    (x.tlbBlock v).pfQueue = x.pfQueue ∧ (x.tlbBlock v).cfg = x.cfg ∧ (x.tlbBlock v).dtu = x.dtu ∧
    (x.tlbBlock v).nocOutstanding = x.nocOutstanding ∧ (x.tlbBlock v).out = x.out := by
    simp only [State.tlbBlock]; split <;> simp

/-- The upcall for the record at the head, when nothing is wrong with its endpoint (R351 to R353). -/
theorem sendPagefault_ok {s : State} {q : PfRecord} {rest : List PfRecord} {e : Nat} {target : Word}
    (hq : s.pfQueue = q :: rest)
    (he : s.upcallEp q.toKernel = e) (h1 : e < s.cfg.numEndpoints) (h2 : (s.ep e).type = typeSend)
      (h3 : headerSize + upcallBodySize ≤ (s.ep e).maxMsgSize.toNat)
    (h4 : nocAddr (s.ep e).tgtCore.toNat (s.ep e).sendVpe.toNat (s.ep e).tgtEp.toNat = some target) :
    sendPagefault s =
      let t := (s.countPagefault q.vpn).tlbBlock q.vpn
      let token := Config.freeWord t.draws
      .next ({ t.drawn 1 with pfQueue := { q with token := token } :: rest }.nocSend .pagefault target .write
            (headerSize + upcallBodySize) (encodeHeader (s.upcallHeader e token) ++ upcallBody q.virt q.access)
              (.upcall token)) := by
  obtain ⟨c1, c2, c3, c4, c5, c6, c7, c8, c9⟩ := countPagefault_keeps s q.vpn
  obtain ⟨b1, b2, b3, b4, b5, b6, b7⟩ := tlbBlock_keeps (s.countPagefault q.vpn) q.vpn
  have hc : (s.countPagefault q.vpn).upcallEp q.toKernel = e := by
    have hv : (s.countPagefault q.vpn).pfEpValid = s.pfEpValid := by simp only [State.pfEpValid, State.ep, c1, c4, c5]
    rw [← he, State.upcallEp, State.upcallEp, hv, c4, c5]
  simp only [sendPagefault, hq, hc, c4, State.ep, c1]
  rw [if_neg (by rintro (h | h); omega; exact h h2), if_neg (by exact Nat.not_lt.2 h3)]
  simp only [State.ep] at h4
  rw [h4]
  simp only [State.drawn, State.upcallHeader, State.ep, b4, c4, b5, c6, b1, c1]

end Sys2Proof.Machine
end

