-- ==== Sys2Proof/Tests/Slice0.lean ====
section
/-! SUPPORT. Tests: ill-formed terms that the checks refuse, words written out from the encoding tables, single steps with
the values of 95_test_vectors.md, and for every statement of Obligations.lean a state and operands that meet its
hypotheses. -/

namespace Sys2Proof.Tests

open Sys2Proof Sys2Proof.Machine

/-! ## Helpers -/

/-- One thing read off the next state. -/
def after {α : Type} (r : Result) (f : State → α) : Option α :=
  match r with
  | .next t => some (f t)
  | _ => none

/-- The fatal error of an outcome. -/
def faultOf : Result → Option Fault
  | .fault f => some f
  | _ => none

def none3 : EpWords := ⟨0, 0, 0⟩

/-- Core 0 of scenario S1 with endpoint 6 of PROG2. -/
def core0 : State :=
  { State.reset with
    dtu := { State.reset.dtu with vpeId := 2#64 }
    opnd := ⟨0x500#64, 0x10#64, 0#64, 5#64, 0xBB#64⟩
    eps :=
      [none3, none3, none3, ⟨0x80201#64, 0x7040080#64, 0xAA#64⟩, none3, ⟨0x20000100002#64, 0x2000#64, 0#64⟩,
        ⟨0x80003#64, 0x2000#64, 0x23#64⟩, none3] }

/-- Core 7 of scenario S1, with its endpoint 4 as given. -/
def core7 (w0 w2 : Word) : State :=
  { State.reset with
    cfg := { Config.vectors with coreId := 7#10 }
    dtu := { State.reset.dtu with vpeId := 1#64, msgCnt := 1#64 }
    opnd := { State.reset.opnd with offset := 0x1000#64, dataAddr := 0x600#64, dataSize := 8#64 }
    eps := [none3, none3, none3, none3, ⟨w0, 0x1000#64, w2⟩, none3, none3, none3] }

/-- A write request with these bytes. -/
def writeTo (addr : Word) (data : List Byte) (type : PacketType := .message) : Packet :=
  ⟨type, decodeNocAddr addr, .write, data.length, data, true, 0#10⟩

/-- A read request of `n` bytes. -/
def readFrom (addr : Word) (n : Nat) (type : PacketType := .readReq) : Packet :=
  ⟨type, decodeNocAddr addr, .read, n, [], true, 0#10⟩

/-- The header of S1 with other flags, without a payload. -/
def header (flags : Byte) : List Byte :=
  [flags, 0, 0, 3, 5, 0x10, 0, 2, 0, 0xAA, 0, 0, 0, 0, 0, 0, 0, 0xBB, 0, 0, 0, 0, 0, 0, 0]

/-- The message of S1: its header and 16 bytes. -/
def s1Message : List Byte := header 4 ++ [0, 1, 2, 3, 4, 5, 6, 7, 8, 9, 10, 11, 12, 13, 14, 15]

/-- The page-fault reply with this label and error word. -/
def pagerReply (label error : Byte) : Packet :=
  writeTo 0x0400004000000008#64
    ([0x0B, 3, 0, 1, 5, 8, 0, 0, 0, label, 0, 0, 0, 0, 0, 0, 0, 0, 0, 0, 0, 0, 0, 0, 0, error] ++ List.replicate 7 0)

/-! ## Ill-formed terms -/

theorem test_wf_message_of_wrong_kind : Instr.shapeOk (.message (readFrom 0 25 .message)) = false := by decide
theorem test_wf_pagefault_of_wrong_kind : Instr.shapeOk (.pagefault (readFrom 0 25 .pagefault)) = false := by decide
theorem test_wf_readReq_of_wrong_kind : Instr.shapeOk (.readReq (writeTo 0 [1] .readReq)) = false := by decide
theorem test_wf_writeReq_of_wrong_kind : Instr.shapeOk (.writeReq (readFrom 0 1 .writeReq)) = false := by decide
theorem test_wf_packet_of_wrong_type :
    Instr.shapeOk (.message (writeTo 0 [1] .pagefault)) = false ∧
    Instr.shapeOk (.pagefault (writeTo 0 [1] .message)) = false ∧
    Instr.shapeOk (.readReq (readFrom 0 1 .cacheMemReq)) = false ∧
    Instr.shapeOk (.writeReq (writeTo 0 [1] .cacheMemReq)) = false ∧
    Instr.shapeOk (.cacheMemReq (writeTo 0 [1] .writeReq)) = false ∧
    Instr.shapeOk (.cacheMemReqFunc (readFrom 0 1 .readReq)) = false := by decide
theorem test_wf_write_with_short_payload :
    Instr.shapeOk (.writeReq { writeTo 0 [1] .writeReq with size := 2 }) = false ∧
    Instr.shapeOk (.cacheMemReq { writeTo 0 [1] .cacheMemReq with size := 2 }) = false := by decide
theorem test_wf_read_with_payload :
    Instr.shapeOk (.readReq { readFrom 0 1 with data := [1] }) = false ∧
    Instr.shapeOk (.cacheMemReqFunc { readFrom 0 1 .cacheMemReqFunc with data := [1] }) = false := by decide
theorem test_wf_register_access :
    Instr.wellFormed Config.vectors (.regRead (.cpu 0) 1#13 8) = false ∧
    Instr.wellFormed Config.vectors (.regRead (.cpu 0) 8#13 4) = false ∧
    Instr.wellFormed Config.vectors (.regRead (.cpu 0) 8#13 0) = false ∧
    Instr.wellFormed Config.vectors (.regWrite (.cpu 0) 0x128#13 (List.replicate 16 0)) = false := by decide
theorem test_wf_endpoint_out_of_range :
    Instr.wellFormed Config.vectors (.send 8#8 0) = false ∧ Instr.wellFormed Config.vectors (.ackMsg 8#8 0) = false ∧
    Instr.wellFormed Config.vectors (.send 7#8 0) = true := by decide
theorem test_wf_message :
    Instr.wellFormed Config.vectors (.message (writeTo 4 (List.replicate 24 0))) = false ∧
    Instr.wellFormed Config.vectors (.message (writeTo 8 (List.replicate 25 0))) = false ∧
    Instr.wellFormed Config.vectors (.message (writeTo 4 (List.replicate 25 0))) = true := by decide
theorem test_wf_request_beyond_a_buffer :
    Instr.wellFormed Config.vectors (.readReq (readFrom 0 257)) = false ∧
    Instr.wellFormed Config.vectors (.readReq (readFrom 0 256)) = true := by decide

/-! ## Decoding: words written out from R121, R122, R128, R129 -/

theorem test_decode_idle : decodeCommand 0x800#64 = .idle 0 1 := by decide
theorem test_decode_send : decodeCommand 0x19#64 = .send 3 0 := by decide
theorem test_decode_reply : decodeCommand 0x22#64 = .reply 4 0 := by decide
theorem test_decode_read : decodeCommand 0x33#64 = .read 6 0 := by decide
theorem test_decode_write : decodeCommand 0x34#64 = .write 6 0 := by decide
theorem test_decode_fetchMsg : decodeCommand 0x25#64 = .fetchMsg 4 0 := by decide
theorem test_decode_ackMsg : decodeCommand 0x2E#64 = .ackMsg 5 0 := by decide
theorem test_decode_debugMsg : decodeCommand 0x1237#64 = .debugMsg 0x246 := by decide
theorem test_decode_arg_and_error : decodeCommand 0xFFFFFFFFFFFFFFF9#64 = .send 0xFF 0x1FFFFFFFFFFFFF := by decide
theorem test_decode_wakeupCore : decodeExternal 0x0#64 = .ok (.wakeupCore 0) := by decide
theorem test_decode_invPage : decodeExternal 0x20001#64 = .ok (.invPage 0x4000) := by decide
theorem test_decode_invTlb : decodeExternal 0x2#64 = .ok (.invTlb 0) := by decide
theorem test_decode_invCache : decodeExternal 0x3#64 = .ok (.invCache 0) := by decide
theorem test_decode_injectIrq : decodeExternal 0x20C#64 = .ok (.injectIrq 0x41) := by decide
theorem test_decode_unknown_external :
    decodeExternal 0x5#64 = .error .unknownOpcode ∧ decodeExternal 0x6#64 = .error .unknownOpcode ∧
    decodeExternal 0xFFFFFFFFFFFFFFFF#64 = .error .unknownOpcode := by decide

/-- V1, V2, V3, V5, V7. -/
theorem test_decode_nocAddr :
    nocAddr 7 1 4 = some 0x0407002000000004#64 ∧ nocAddr 0 2 5 = some 0x0400004000000005#64 ∧
    nocAddr 1023 2047 (2 ^ 37 - 1) = some 0x07FFFFFFFFFFFFFF#64 ∧ nocAddr 2 0 0x2100 = some 0x0402000000002100#64 ∧
    decodeNocAddr 0xFC07002000000004#64 = ⟨0x1F, 1, 7, 1, 4⟩ := by decide

/-- V6. -/
theorem test_nocAddr_overflow :
    nocAddr 1024 0 0 = none ∧ nocAddr 0 2048 0 = none ∧ nocAddr 0 0 (2 ^ 37) = none := by decide

/-- A packet on the wire with this type. -/
def wire (t : PacketType) (addr : Word) (k : AccessKind) (n : Nat) (data : List Byte) : WirePacket :=
  ⟨t, addr, k, n, data, true, 0#10⟩

theorem test_decode_packets :
    decodePacket (wire .message 4 .write 1 [9]) = .ok (.message (writeTo 4 [9])) ∧
    decodePacket (wire .pagefault 4 .write 1 [9]) = .ok (.pagefault (writeTo 4 [9] .pagefault)) ∧
    decodePacket (wire .readReq 4 .read 8 []) = .ok (.readReq (readFrom 4 8)) ∧
    decodePacket (wire .writeReq 4 .write 1 [9]) = .ok (.writeReq (writeTo 4 [9] .writeReq)) ∧
    decodePacket (wire .cacheMemReq 4 .read 8 []) = .ok (.cacheMemReq (readFrom 4 8 .cacheMemReq)) ∧
    decodePacket (wire .cacheMemReqFunc 4 .write 1 [9]) = .ok (.cacheMemReqFunc (writeTo 4 [9] .cacheMemReqFunc)) := by decide

theorem test_decode_malformed_packets :
    decodePacket (wire .message 4 .read 1 []) = .error .wrongPacketKind ∧
    decodePacket (wire .writeReq 4 .write 2 [9]) = .error .wrongPacketData := by decide

theorem test_decode_register_access :
    decode (.registerRead (.cpu 0) 0x58 8) = .ok (.regRead (.cpu 0) 0x58 8) ∧
    decode (.registerWrite (.cpu 0) 0x40 [0x19]) = .ok (.regWrite (.cpu 0) 0x40 [0x19]) := by decide

/-- The header of S1. -/
theorem test_decode_header :
    decodeHeader s1Message = ⟨4, 0, 3, 5, 0x10, 2, 0xAA, 0xBB⟩ ∧
    encodeHeader ⟨4, 0, 3, 5, 0x10, 2, 0xAA, 0xBB⟩ = header 4 := by decide

theorem test_table_words :
    decodeTableWord 64 0x19 = some (.send 3 0) ∧ decodeTableWord 16 0x40 = some (.regRead (.cpu 0) 0x40 8) ∧
    decodeTableWord 64 (2 ^ 64) = none := by decide

/-! ## Single steps, with the values of 95_test_vectors.md -/

/-- V10. -/
theorem test_regRead :
    after (exec (.regRead (.cpu 9) 0xC0 8) core0) (·.out) =
      some [.cpuAnswer 9 [0x80, 0, 4, 7, 0, 0, 0, 0]] := by decide

/-- V17. -/
theorem test_regRead_leaving_the_window :
    faultOf (exec (.regRead (.cpu 9) 0x128 16) core0) = some .badRegAccess := by decide

/-- V12, V13. -/
theorem test_regWrite_vpeId :
    after (exec (.regWrite (.cpu 0) 0x28 [7, 0, 0, 0, 0, 0, 0, 0]) core0) (·.dtu.vpeId) = some 2#64 ∧
    after (exec (.regWrite (.noc (writeTo 0 [] .writeReq)) 0x28 [7, 0, 0, 0, 0, 0, 0, 0]) core0) (·.dtu.vpeId) = some 7#64 := by
  decide

/-- V19b; the suspend pin follows the change (R27, R439), and an unchanged value drives nothing. -/
theorem test_regWrite_msgCnt :
    let p := writeTo 0 [] .writeReq
    after (exec (.regWrite (.noc p) 0x30 [9, 0, 0, 0, 0, 0, 0, 0]) core0) (fun t => (t.dtu.msgCnt, t.out)) =
      some (9#64, [.setDenySuspend true, .nocResponse p .noError []]) ∧
    after (exec (.regWrite (.noc p) 0x30 [0, 0, 0, 0, 0, 0, 0, 0]) core0) (·.out) =
      some [.nocResponse p .noError []] := by decide

/-- V15, V16: the barrier on command registers. -/
theorem test_regWrite_barrier :
    let s := { core0 with dtu := { core0.dtu with rwBarrier := 0xF0000047#64 } }
    after (exec (.regWrite (.cpu 0) 0x40 (List.replicate 8 0)) s) (·.execPending) = some true ∧
    after (exec (.regWrite (.cpu 0) 0x48 (List.replicate 8 1)) s) (·.opnd.dataAddr) = some 0x500#64 := by decide

/-- R204. -/
theorem test_idle : after (exec (.idle 0 5) { core0 with command := 0x2800#64 }) (·.command) = some 0x2800#64 := by decide

/-- S1, step 1. -/
theorem test_send_debits :
    after (exec (.send 3 0) core0) (fun t => ((t.ep 3).w1, t.cmdInProgress)) = some (0x7040040#64, true) := by decide

/-- S2. -/
theorem test_send_without_credits :
    after (exec (.send 3 0) { core0 with eps := core0.eps.set 3 ⟨0x80201#64, 0x7040020#64, 0xAA#64⟩ })
      (fun t => (t.command, (t.ep 3).w1)) = some (0x800#64, 0x7040020#64) := by decide

/-- S3, step 1. -/
theorem test_reply_reads_the_header :
    after (exec (.reply 4 0) (core7 0x0208020000200002#64 1#64)) (·.memOutstanding) =
      some [⟨0x1000#64, .read 25, .replyHeader⟩] := by decide

/-- S3, step 2. -/
theorem test_reply_disabled :
    faultOf (headerAnswer (header 0)
      { core7 0x0208020000200002#64 1#64 with cmdState := .replyHeader ⟨4, 0x1000#64, some 0x1000#64, 0⟩ [] }) =
      some .replyDisabled := by decide

/-- R240, R165: a size that is too large for a packet. -/
theorem test_reply_too_large :
    let s := core7 0x0208020000200002#64 1#64
    faultOf (exec (.reply 4 0) { s with opnd := { s.opnd with dataSize := 232#64 } }) = some .messageTooLarge := by decide

/-- PROG2, line 9: the READ_REQ of the first chunk. -/
theorem test_read_first_chunk :
    after (exec (.read 6 0) { core0 with opnd := { core0.opnd with dataSize := 0x180#64, offset := 0x100#64 } })
      (fun t => t.nocOutstanding.map fun q => (q.pkt.addr, q.pkt.size)) = some [(0x0402000000002100#64, 256)] := by
  decide

/-- R283: one byte beyond the region. -/
theorem test_read_out_of_bounds :
    faultOf (exec (.read 6 0) { core0 with opnd := { core0.opnd with dataSize := 1#64, offset := 0x10000#64 } }) =
      some .memOutOfBounds := by decide

/-- PROG2, line 4: the transfer of the first chunk. -/
theorem test_write_first_chunk :
    after (exec (.write 6 0)
        { core0 with opnd := { core0.opnd with dataAddr := 0x800#64, dataSize := 0x180#64, offset := 0x100#64 } })
      (fun t => t.pendingTransfers.map fun r => (r.remoteAddr, r.localAddr, r.size)) =
      some [(0x0402000000002100#64, 0x800#64, 256)] := by decide

/-- PROG2, the read-only endpoint. -/
theorem test_write_without_the_right :
    after (exec (.write 6 0) { core0 with eps := core0.eps.set 6 ⟨0x80003#64, 0x2000#64, 0x21#64⟩ }) (·.command) =
      some 0x2800#64 := by decide

/-- EX1 and S1, step 6. -/
theorem test_fetchMsg :
    after (exec (.fetchMsg 4 0) (core7 0x000802000020000A#64 0x0000000100000001#64))
      (fun t => ((t.ep 4).w0, (t.ep 4).w2, t.opnd.offset)) =
      some (0x0208020000200002#64, 1#64, 0x1000#64) := by decide

/-- EX1: the second fetch. -/
theorem test_fetchMsg_empty :
    after (exec (.fetchMsg 4 0) (core7 0x0208020000200002#64 1#64)) (fun t => ((t.ep 4).w0, t.opnd.offset)) =
      some (0x0208020000200002#64, 0#64) := by decide

/-- PROG1's variant: a slot freed that was never fetched. -/
theorem test_ackMsg :
    after (exec (.ackMsg 4 0) (core7 0x000802000020000A#64 0x0000000100000001#64))
      (fun t => ((t.ep 4).w0, (t.ep 4).w2, t.dtu.msgCnt)) = some (0x0008020000200002#64, 0#64, 0#64) := by decide

/-- R271. -/
theorem test_ackMsg_free_slot :
    faultOf (exec (.ackMsg 4 0) (core7 0x0208020000200002#64 0#64)) = some .slotNotOccupied := by decide

/-- R208. -/
theorem test_debugMsg :
    after (exec (.debugMsg 0x246) { core0 with command := 0x1237#64 }) (fun t => (t.command, t.out)) =
      some (0#64, [.trace 0x246#64]) := by decide

/-- V90, with V97's response. -/
theorem test_wakeupCore :
    after (exec (.wakeupCore 0) { core0 with extWaiting := [writeTo 0 [] .writeReq] }) (fun t => (t.out, t.extWaiting)) =
      some ([.wakeCore, .nocResponse (writeTo 0 [] .writeReq) .noError []], []) := by decide

/-- V91: blocked or not, and only that page. -/
theorem test_invPage :
    after (exec (.invPage 0x4FFF)
        { core0 with tlb := [⟨5, 0x5000#64, 1, false⟩, ⟨4, 0#64, 0, true⟩] }) (·.tlb) =
      some [⟨5, 0x5000#64, 1, false⟩] := by decide

/-- V92. -/
theorem test_invTlb :
    after (exec (.invTlb 0) { core0 with tlb := [⟨5, 0x5000#64, 1, false⟩, ⟨4, 0#64, 0, true⟩] }) (·.tlb) =
      some [] := by decide

/-- V93, V94. -/
theorem test_invCache_injectIrq :
    after (exec (.invCache 0) core0) (·.out) = some [.invalidateCaches] ∧
    after (exec (.injectIrq 0x41) core0) (·.out) = some [.injectIrq 0x41#64] := by decide

/-- S1, step 3. -/
theorem test_message :
    after (exec (.message (writeTo 0x0407002000000004#64 s1Message)) (core7 0x20000200002#64 0#64))
      (fun t => ((t.ep 4).w0, (t.ep 4).w2, t.pendingTransfers.map (·.localAddr))) =
      some (0x0008020000200002#64, 1#64, [0x1000#64]) := by decide

/-- S6. -/
theorem test_message_for_another_vpe :
    after (exec (.message (writeTo 0x040700C000000004#64 s1Message)) (core7 0x20000200002#64 0#64)) (·.out) =
      some [.nocResponse (writeTo 0x040700C000000004#64 s1Message) .vpeGone []] := by decide

/-- S4. -/
theorem test_message_for_a_full_ring :
    after (exec (.message (writeTo 0x0407002000000004#64 s1Message)) (core7 0x0000020000100012#64 0x0000000300000003#64))
      (fun t => (t.out, (t.ep 4).w2)) =
      some ([.nocResponse (writeTo 0x0407002000000004#64 s1Message) .noRingSpace []], 0x0000000300000003#64) := by
  decide

/-- R251: the same path as a message. -/
theorem test_pagefault :
    after (exec (.pagefault (writeTo 0x0407002000000004#64 (header 0x0C) .pagefault)) (core7 0x20000200002#64 0#64))
      (fun t => (t.ep 4).w2) = some 1#64 := by decide

/-- R182: a read of the window comes as a register read. -/
theorem test_readReq :
    after (exec (.readReq (readFrom 0xF0000028#64 8)) core0) (·.out) =
      some [.nocResponse (readFrom 0xF0000028#64 8) .noError [2, 0, 0, 0, 0, 0, 0, 0]] := by decide

/-- PROG2: a read of local memory becomes a transfer. -/
theorem test_readReq_of_memory :
    after (exec (.readReq (readFrom 0x0402000000002100#64 256)) core0)
      (fun t => t.pendingTransfers.map fun r => (r.type, r.localAddr, r.size)) =
      some [(.remoteRead, 0x2100#64, 256)] := by decide

/-- V18: three registers in one step. -/
theorem test_writeReq :
    after (exec (.writeReq (writeTo 0xF00000A0#64
        ([1, 4, 0x28, 0, 0, 0, 0, 0] ++ [0, 1, 1, 0, 0, 0, 0, 0] ++ [0x77, 0, 0, 0, 0, 0, 0, 0]) .writeReq)) core0) (·.ep 2) =
      some ⟨0x280401#64, 0x10100#64, 0x77#64⟩ := by decide

/-- PROG3, line 14: the external command is scheduled, the response waits. -/
theorem test_writeReq_of_extCmd :
    after (exec (.writeReq (writeTo 0xF0000038#64 [2, 0, 0, 0, 0, 0, 0, 0] .writeReq)) core0)
      (fun t => (t.extPending, t.dtu.extCmd, t.out)) = some (some 2#64, 2#64, []) := by decide

/-- V98c, with core 0's VPE. -/
theorem test_cacheMemReq :
    after (exec (.cacheMemReq (readFrom 0x0402002000003008#64 8 .cacheMemReq)) core0) (·.out) =
      some [.nocResponse (readFrom 0x0402002000003008#64 8 .cacheMemReq) .vpeGone []] ∧
    after (exec (.cacheMemReq (readFrom 0x0402004000003008#64 8 .cacheMemReq)) core0)
      (fun t => t.memOutstanding.map (·.addr)) = some [0x3008#64] := by decide

/-- R398: performed within the step. -/
theorem test_cacheMemReqFunc :
    after (exec (.cacheMemReqFunc (writeTo 0x0402004000003008#64 [7] .cacheMemReqFunc)) core0) (·.mem) = some [(0x3008, 7#8)] := by decide

/-- R281: the second chunk uses the operands that the first step read, whatever software has written since. -/
theorem test_second_chunk_keeps_the_operands :
    let p := wire .writeReq 0x0402000000002100 .write 256 []
    after (nocRespondStep 0 .noError [] { core0 with
        opnd := { core0.opnd with dataAddr := 0x9999#64, dataSize := 1#64, offset := 0xFFFF#64 }
        cmdInProgress := true
        cmdState := .memWrite ⟨6, 0x800#64, 0x180#64, 0x100#64⟩ 0
        nocOutstanding := [⟨p, .writeChunk false⟩] })
      (fun t => t.pendingTransfers.map fun r => (r.remoteAddr, r.localAddr, r.size)) =
      some [(0x0402000000002200#64, 0x900#64, 128)] := by decide

/-- R397: a functional access to another tile is answered within its step. -/
theorem test_functional_access :
    let req : CpuReq := ⟨1, .read, true, 0x5008#64, 2, [], [(.noError, [7, 8])]⟩
    after (cpuStep req { core0 with
        cfg := { core0.cfg with tlbEntries := 4 }
        tlb := [⟨5, 0x0402000000003000#64, 0x01, false⟩] })
      (fun t => (t.out, t.nocOutstanding)) =
      some ([.nocRequest (wire .cacheMemReqFunc 0x0402000000003008 .read 2 []), .cpuAnswer 1 [7, 8]], []) := by decide

/-- The placed instruction is the one that runs. -/
theorem test_withFetchWord :
    after (step (core0.withFetchWord 64 0x19)) (fun t => (t.ep 3).w1) = some 0x7040040#64 ∧
    after (step (State.reset.withFetchWord 16 0x20)) (·.out) = some [.cpuAnswer 0 (List.replicate 8 0xFF)] := by decide

/-! ## Witnesses: for every statement with hypotheses, a state and operands that meet them all, clause by clause -/

/-- A core with a TLB of four places. -/
def tlbCore (tlb : List TlbEntry) : State :=
  { core7 0x0208020000200002#64 1#64 with cfg := { Config.vectors with tlbEntries := 4, coreId := 7#10 }, tlb := tlb }

/-- A translate event of a transfer. -/
def walkEvent (phase : WalkPhase) : TranslateEvent := ⟨0, 0x4000#64, 0x09#5, .xfer 0, false, phase⟩

/-- A WRITE_REQ of 16 bytes for 0x1000. -/
def inboundWrite : Packet := writeTo 0x1000 (List.replicate 16 0) .writeReq

/-- A transfer that has just been given its buffer. -/
def xfer (type : XferType) (msgRecv : Bool) (size : Nat) : XferEvent where
  type := type
  remoteAddr := 0x0407002000000004#64
  localAddr := 0x1000#64
  size := size
  flags := ⟨msgRecv, false, false⟩
  pkt := some inboundWrite
  pktType := .message
  outstanding := 0
  start := 0x1000#64
  total := 16
  base := 0
  recv := if msgRecv then some (4, 0) else none
  waiting := false
  failed := false

/-- A buffer that is free, and one in use. -/
def idleBuf : Buffer := { Buffer.unused Config.vectors with bytes := [] }
def busy (ev : XferEvent) : Buffer := { idleBuf with free := false, event := some ev }

/-- Core 7 with a transfer in buffer 0. -/
def xferCore (ev : XferEvent) : State :=
  { core7 0x0008020000200002#64 1#64 with bufs := [busy ev, idleBuf] }

/-- A page-fault record for page 4. -/
def fault4 : PfRecord := ⟨4, 0x4000#64, 0x09#5, [.xfer 0], false, 7#64⟩

/-- A record whose one waiter is a functional access, to which the tile its page is in answers VPE_GONE. -/
def functionalFault : PfRecord :=
  { fault4 with waiters := [.cpu ⟨1, .read, true, 0x4008#64, 2, [], [(.vpeGone, [])]⟩] }

/-- Core 0 with a TLB and the pager's endpoint, and with these records queued. -/
def pagingCore (queue : List PfRecord) : State :=
  { core0 with
    cfg := { core0.cfg with tlbEntries := 4 }
    dtu := { core0.dtu with pfEp := 5 }
    eps := core0.eps.set 5 ⟨0x201#64, 0x3010040#64, 0xCC#64⟩
    pfQueue := queue }

/-- R110, R361: the access faults again while it is told its page, and one upcall goes out and is counted, whether another
record was next or not. -/
theorem test_one_upcall :
    (∀ rest ∈ [[], [{ fault4 with vpn := 5, virt := 0x5000#64 }]],
      after (resolvePagefault (some 0x0402000000003000#64) (pagingCore (functionalFault :: rest)))
        (fun t => (t.out.countP Output.isUpcall, t.pfRepeat, t.pfQueue.map (·.vpn))) =
        some (1, 1, rest.map (·.vpn) ++ [4])) := by decide

/-- R356, R359: failure of the last record sends nothing. -/
theorem test_no_upcall :
    after (resolvePagefault none (pagingCore [fault4])) (fun t => (t.out, t.pfQueue)) = some ([], []) := by decide

theorem witness_DecodeEncode :
    Instr.shapeOk (.message (writeTo 4 (header 4))) = true ∧ Instr.shapeOk (.readReq (readFrom 4 8)) = true ∧
    Instr.shapeOk (.cacheMemReq (readFrom 4 8 .cacheMemReq)) = true ∧ Instr.shapeOk (.send 0xFF 0) = true := by decide

theorem witness_EncodeDecode :
    decode (.external 0x20001) = .ok (.invPage 0x4000) ∧
    decode (.packet (wire .message 4 .write 1 [9])) = .ok (.message (writeTo 4 [9])) := by decide

theorem witness_NocAddrRoundTrip : (1023 < 2 ^ 10 ∧ 2047 < 2 ^ 11 ∧ 2 ^ 37 - 1 < 2 ^ 37) ∧ (0 < 2 ^ 10 ∧ 0 < 2 ^ 11) := by
  decide

/-- Core 0 about to run SEND, and about to run INV_TLB. -/
def atSend : State := { core0 with agenda := [.dispatch], command := 0x19#64, execPending := true }
def atInvTlb : State := { core0 with agenda := [.extern], extPending := some 2#64 }

theorem witness_StepRunsTheDecodedOperation :
    atSend.agenda = [.dispatch] ∧ atSend.execPending = true ∧ decode (.command atSend.command) = .ok (.send 3 0) ∧
    atInvTlb.agenda = [.extern] ∧ atInvTlb.extPending = some 2#64 ∧ decode (.external 2) = .ok (.invTlb 0) ∧
    decode (.packet (wire .message 4 .write 1 [9])) = .ok (.message (writeTo 4 [9])) ∧
    (let req : CpuReq := ⟨0, .read, false, 0xF0000128#64, 8, [], []⟩;
      req.kind.unsupported = false ∧ inWindow core0.cfg req.addr.toNat = true ∧
      decode (req.registerAccess core0.cfg) = .ok (.regRead (.cpu 0) 0x128 8)) := by decide

/-- An agenda with an event of each of the other agents: a request of the CPU outside the window, and one of a kind that is
dropped, a buffer's step, the service of the queue of transfers, a step of the Ptu, an answer of memory, a response. -/
theorem witness_StepRunsTheDecodedOperation_agents :
    let req : CpuReq := ⟨0, .read, false, 0x1000#64, 8, [], []⟩;
    inWindow core0.cfg req.addr.toNat = false ∧ { req with kind := .cleanEvict }.kind.unsupported = true ∧
    ∀ e ∈ [Event.cpu req, .cpu { req with kind := .cleanEvict }, .xfer 0, .xferPending 0, .ptu 0, .memAnswer 0,
        .respond 0 .noError []],
      ({ core0 with agenda := [e, .dispatch] } : State).agenda = e :: [.dispatch] := by decide

theorem witness_ScheduleIsFree :
    (core0.agenda = [] ∧ core0.enabled = [] ∧ core0.quiescent = true ∧ core0.memOutstanding = []) ∧
    ({ core0 with execPending := true } : State).enabled ≠ [] := by decide

theorem witness_ResetValues : 0 % 8 = 0 ∧ 0 ≠ 0x20 ∧ 0x128 % 8 = 0 ∧ 0x128 ≠ 0x20 := by decide

theorem witness_ResetHasInv : Config.vectors.valid = true ∧ Memory.wf [(0x1000, 7#8)] = true := by decide

/-- A core with two buffers, after reset, with a transfer of 16 bytes in buffer 0. -/
def smallCore (type : XferType) : State :=
  { State.resetOf { Config.vectors with blockSize := 16, bufCount := 2 } [] with
    bufs := [{ Buffer.unused Config.vectors with free := false, event := some (xfer type false 16) },
      Buffer.unused Config.vectors]
    agenda := [.xfer 0] }

/-- The invariant holds with a transfer in buffer 0. -/
theorem witness_Inv (type : XferType) : Inv (smallCore type) where
  cfg := by cases type <;> decide
  mem := rfl
  eps := rfl
  bufCount := rfl
  bufs := by
    intro b hb
    simp only [smallCore, List.mem_cons, List.not_mem_nil, or_false] at hb
    rcases hb with rfl | rfl
    · refine ⟨by simp [Buffer.unused]; rfl, rfl, ?_⟩
      intro ev he
      cases he
      exact ⟨by show 0 + 16 ≤ 256; omega, Nat.le_refl 16⟩
    · exact ⟨by simp [Buffer.unused]; rfl, rfl, fun ev he => by cases he⟩
  msgRecv := by simp [smallCore, Buffer.holdsMsgRecv, Buffer.unused, xfer]
  pending := fun r hr => by cases hr
  outstanding b := by
    match b with
    | 0 => rfl
    | 1 => rfl
    | b + 2 => rfl
  tlbKeys := List.nodup_nil
  tlbSize := Nat.le_refl 0
  faults := List.nodup_nil
  command h := absurd rfl h

theorem witness_StepKeepsInv :
    ∃ s t, Inv s ∧ step s = .next t ∧ t.memOutstanding = [⟨0x1000#64, .read 16, .xfer 0 0⟩] :=
  ⟨smallCore .localRead, _, witness_Inv _, rfl, rfl⟩

theorem witness_OnlyNocWritesConfigure :
    ∃ s t, step s = .next t ∧ (∀ p rest, s.agenda = .deliver p :: rest → p.ptype ≠ .writeReq) ∧ t.cmdInProgress = true :=
  ⟨atSend, _, rfl, fun p rest h => by simp [atSend] at h, rfl⟩

theorem witness_RegistersAreSeparate :
    core0.eps.length = core0.cfg.numEndpoints ∧ (0 % 8 = 0 ∧ 0 < core0.cfg.windowSize ∧ 8 ≠ 0) ∧
    (0x128 % 8 = 0 ∧ 0x128 < core0.cfg.windowSize ∧ ¬ 0x130 < core0.cfg.windowSize) := by decide

theorem witness_RegReadAnswers :
    regAccessOk core0.cfg 0 0x130 = true ∧ regAccessOk core0.cfg 0x128 8 = true ∧
    regAccessOk core0.cfg 0x128 16 = false ∧ regAccessOk core0.cfg 0x44 4 = false := by decide

theorem witness_RegWriteOfADtuRegister : 7 < 8 ∧ (6 < 8 ∧ 9#64 ≠ core0.dtu.msgCnt) ∧ 0#64 = core0.dtu.msgCnt := by decide

theorem witness_RegWriteOfAnEndpoint :
    core0.eps.length = core0.cfg.numEndpoints ∧ 0 < core0.cfg.numEndpoints ∧ 7 < core0.cfg.numEndpoints ∧
    core0.cfg.numEndpoints ≤ 255 := by decide

/-- V15, V16: the barrier on a command register, at its boundary. -/
theorem witness_RegWriteOfACommandRegister :
    portIsCpu (.noc (writeTo 0 [] .writeReq)) = false ∧
    (let s := { core0 with dtu := { core0.dtu with rwBarrier := 0xF0000048#64 } };
      s.barrierRejects (s.cfg.regFileBaseAddr + BitVec.ofNat 64 (0x40 + 8 * 1)) = false ∧
      portIsCpu (.cpu 0) = true ∧ s.cfg.rwBarrierAppliesToRegs = true ∧
      s.barrierRejects (s.cfg.regFileBaseAddr + BitVec.ofNat 64 (0x40 + 8 * 2)) = true) ∧
    core0.execPending = false ∧ core0.cmdInProgress = false ∧ field core0.command 0 3 = 0#3 ∧ 5 < 6 := by decide

/-- An operand rewritten under a command in progress, under a pending one, under a pending IDLE, with its own content, and a
COMMAND that takes the place of a pending one. -/
theorem witness_RegWriteOfACommandRegister_under :
    (({ core0 with cmdInProgress := true } : State).cmdInProgress = true ∧ (core0.putCmd 9#64 2).opnd ≠ core0.opnd ∧
      (core0.putCmd 0x10#64 2).opnd = core0.opnd) ∧
    (let s := { core0 with command := 0x19#64, execPending := true };
      s.execPending = true ∧ field s.command 0 3 ≠ 0#3 ∧ s.cmdInProgress = false) ∧
    field ({ core0 with execPending := true } : State).command 0 3 = 0#3 := by decide

/-- Writes of any form: the whole window from the NoC, COMMAND with the operands from the CPU, over both edges of the command
registers; at both sides of the window's end, misaligned, of a bad size. -/
theorem witness_RegWriteOfACommandRegister_forms :
    regAccessOk core0.cfg 0 0x130 = true ∧ regAccessOk core0.cfg 0x40 0x30 = true ∧
    regAccessOk core0.cfg 0x38 0x40 = true ∧ regAccessOk core0.cfg 0x128 8 = true ∧
    regAccessOk core0.cfg 0x128 16 = false ∧ regAccessOk core0.cfg 0x130 8 = false ∧
    regAccessOk core0.cfg 0x44 8 = false ∧ regAccessOk core0.cfg 0x40 12 = false ∧ regAccessOk core0.cfg 0x40 0 = false ∧
    core0.eps.length = core0.cfg.numEndpoints := by decide

/-- EXT_CMD, COMMAND and DATA_ADDR written in one access. -/
def threeRegisters (port : Port) : Result :=
  exec (.regWrite port 0x38 (wordBytes 2#64 ++ wordBytes 0x19#64 ++ wordBytes 0x700#64)) core0

/-- R181: from the CPU the first word is dropped, and the other two are written. -/
theorem test_regWrite_three_registers_cpu :
    after (threeRegisters (.cpu 0)) (fun t => (t.dtu.extCmd, t.extPending, t.command, t.execPending, t.opnd.dataAddr)) =
      some (0#64, none, 0x19#64, true, 0x700#64) := by decide

/-- R178, R181: from the NoC all are written, and both events are scheduled. -/
theorem test_regWrite_three_registers_noc :
    after (threeRegisters (.noc inboundWrite))
        (fun t => (t.dtu.extCmd, t.extPending, t.command, t.execPending, t.opnd.dataAddr)) =
      some (2#64, some 2#64, 0x19#64, true, 0x700#64) := by decide

/-- R83, R179: a write that leaves the window, a misaligned one, one of bad size. -/
theorem test_regWrite_bad_form :
    ∀ os ∈ [(0x128#13, 16), (0x44#13, 8), (0x40#13, 12), (0x40#13, 0)],
      faultOf (exec (.regWrite (.cpu 9) os.1 (List.replicate os.2 0)) core0) = some .badRegAccess := by decide

theorem witness_CpuRegisterWritesStayInTheCommandRegisters :
    ∃ t, exec (.regWrite (.cpu 0) 0x38 (List.replicate 16 1)) core0 = .next t ∧ t.execPending = true :=
  ⟨_, rfl, by decide⟩

theorem witness_CommandChecks :
    (isCommand (.send 3 0) = true ∧ ({ core0 with cmdInProgress := true } : State).cmdInProgress = true) ∧
    endpointUse (.send 8 0) = some (8, typeSend) ∧ core0.cmdInProgress = false ∧
    core0.cfg.numEndpoints ≤ (8#8 : BitVec 8).toNat ∧ endpointUse (.ackMsg 7 0) = some (7, typeReceive) ∧
    (7#8 : BitVec 8).toNat < core0.cfg.numEndpoints ∧ (core0.ep 7).type ≠ typeReceive := by decide

theorem witness_DebugMsgTraces : core0.cmdInProgress = false ∧ core0.cmdState = .none := by decide

theorem witness_OperandIsAContent :
    ∀ o ∈ ({ core0 with staleOperands := [{ core0.opnd with offset := 1 }] } : State).staleOperands,
      o.dataSize = core0.opnd.dataSize := by decide

/-- S1; a payload that fills `maxMsgSize` with credits for one message; unlimited credits. -/
theorem witness_SendStarts :
    core0.cmdInProgress = false ∧ (3#8 : BitVec 8).toNat < core0.cfg.numEndpoints ∧ (core0.ep 3).type = 1#3 ∧
    (core0.ep 3).maxMsgSize.toNat ≤ (core0.ep 3).credits.toNat ∧
    (core0.operand 0 (·.dataSize)).toNat + 25 ≤ (core0.ep 3).maxMsgSize.toNat ∧
    ({ core0 with opnd := { core0.opnd with dataSize := 39 } } : State).operand 0 (·.dataSize) = 39#64 ∧
    39 + 25 = (core0.ep 3).maxMsgSize.toNat ∧ (⟨0x80201#64, 0x704FFFF#64, 0#64⟩ : EpWords).credits = 0xFFFF#16 ∧
    (core0.ep 3).maxMsgSize.toNat ≤ core0.cfg.maxNocPacketSize ∧ core0.cfg.maxNocPacketSize ≤ core0.cfg.bufSize ∧
    nocAddr (core0.ep 3).tgtCore.toNat (core0.ep 3).sendVpe.toNat (core0.ep 3).tgtEp.toNat =
      some 0x0407002000000004#64 := by decide

/-- The sending endpoint's words: too few credits by one; a payload one byte too long; a message of 257 bytes; a VPE of
2048. -/
theorem witness_SendRefused :
    core0.cmdInProgress = false ∧ core0.cmdState = .none ∧ (core0.ep 3).type = 1#3 ∧
    (let e : EpWords := ⟨0x80201#64, 0x704003F#64, 0#64⟩;
      e.type = 1#3 ∧ ¬ (e.credits = 0xFFFF#16 ∨ e.maxMsgSize.toNat ≤ e.credits.toNat)) ∧
    ((core0.ep 3).maxMsgSize.toNat ≤ (core0.ep 3).credits.toNat ∧ (core0.ep 3).maxMsgSize.toNat < 40 + 25) ∧
    (let e : EpWords := ⟨0x80809#64, 0x7040101#64, 0#64⟩;
      e.type = 1#3 ∧ e.maxMsgSize.toNat ≤ e.credits.toNat ∧ core0.cfg.maxNocPacketSize < e.maxMsgSize.toNat) ∧
    (let e : EpWords := ⟨0x40000201#64, 0x7040080#64, 0#64⟩;
      e.type = 1#3 ∧ e.maxMsgSize.toNat ≤ e.credits.toNat ∧ 16 + 25 ≤ e.maxMsgSize.toNat ∧
      e.maxMsgSize.toNat ≤ core0.cfg.maxNocPacketSize ∧ 2 ^ 11 ≤ e.sendVpe.toNat) := by decide

/-- The largest reply that a packet of 256 bytes holds, and one byte more; the four places of a page. -/
theorem witness_ReplyStarts :
    231 + 25 = core0.cfg.maxNocPacketSize ∧ core0.cfg.maxNocPacketSize < 232 + 25 ∧
    tlbLookup (tlbCore [⟨1, 0x3000#64, 0, false⟩]).tlb 0x1000 0x09#5 = .nomap ∧
    (let s := core7 0x0208020000200002#64 1#64;
      s.cmdInProgress = false ∧ (4#8 : BitVec 8).toNat < s.cfg.numEndpoints ∧ (s.ep 4).type = 2#3 ∧
      (s.operand 0 (·.dataSize)).toNat + 25 ≤ s.cfg.maxNocPacketSize ∧ s.cfg.tlbEntries = 0 ∧
      0x1000#64 = pageBase (s.operand 1 (·.offset))) ∧
    (let s := tlbCore [⟨1, 0x3000#64, 0x09, false⟩];
      s.cmdInProgress = false ∧ (s.ep 4).type = 2#3 ∧ s.cfg.tlbEntries ≠ 0 ∧
      tlbLookup s.tlb (s.operand 1 (·.offset)) 0x09#5 = .hit 0x3000#64) ∧
    tlbLookup (tlbCore []).tlb 0x1000 0x09#5 = .miss ∧
    tlbLookup (tlbCore [⟨1, 0x3000#64, 0x01, false⟩]).tlb 0x1000 0x09#5 = .pagefault := by decide

/-- S3, steps 1 and 2. -/
theorem witness_ReplyBuildsTheMessage :
    (let s := { core7 0x0208020000200002#64 1#64 with
        cmdState := .replyHeader ⟨4, 0x1000#64, some 0x1000#64, 0⟩ [] };
      s.cmdState = .replyHeader ⟨4, 0x1000#64, some 0x1000#64, 0⟩ [] ∧
      (s.operand 0 (·.dataSize)).toNat + 25 ≤ s.cfg.maxNocPacketSize ∧ (s.operand 0 (·.dataSize)).toNat < 2 ^ 16 ∧
      s.cfg.maxNocPacketSize ≤ s.cfg.bufSize ∧ s.cfg.maxNocPacketSize < 232 + 25) ∧
    25 ≤ ([] ++ header 4).length ∧ (decodeHeader (header 0)).flags &&& 0x04#8 = 0#8 ∧
    (let h := decodeHeader (header 4);
      h.flags &&& 0x04#8 ≠ 0#8 ∧
      nocAddr h.senderCore.toNat h.senderVpe.toNat h.replyEp.toNat = some 0x0400004000000005#64) := by decide

/-- R241: 16 of the 25 bytes are read, and the four places of the page of the rest; senders that fit no NoC address. -/
theorem witness_ReplyBuildsTheMessage_pieces :
    0 < ([] ++ (header 4).take 16).length ∧ ([] ++ (header 4).take 16).length < 25 ∧
    (0x1000#64 + BitVec.ofNat 64 16 : Word) = 0x1010#64 ∧ 0x1000#64 = pageBase 0x1010#64 ∧
    (tlbCore []).cfg.tlbEntries ≠ 0 ∧
    tlbLookup (tlbCore [⟨1, 0x3000#64, 0x09, false⟩]).tlb 0x1010 0x09#5 = .hit 0x3000#64 ∧
    tlbLookup (tlbCore []).tlb 0x1010 0x09#5 = .miss ∧
    tlbLookup (tlbCore [⟨1, 0x3000#64, 0x01, false⟩]).tlb 0x1010 0x09#5 = .pagefault ∧
    tlbLookup (tlbCore [⟨1, 0x3000#64, 0, false⟩]).tlb 0x1010 0x09#5 = .nomap ∧
    2 ^ 10 = (decodeHeader ([4, 0, 4] ++ List.replicate 22 0)).senderCore.toNat ∧
    2 ^ 11 = (decodeHeader ([4, 0, 0, 0, 0, 0, 0, 0, 8] ++ List.replicate 16 0)).senderVpe.toNat := by decide

/-- A message packet in flight. -/
def sentMessage : WirePacket := wire .message 0x0400004000000005 .write 1 [9]

/-- A REPLY of the message at 0x1000, waiting for its response, with endpoint 4 as given. -/
def replying (w0 w2 : Word) : State :=
  { core7 w0 w2 with
    cmdInProgress := true
    cmdState := .sendNoc (some ⟨4, 0x1000#64, some 0x1000#64, 0⟩)
    nocOutstanding := [⟨sentMessage, .message⟩] }

/-- The five kinds of slot a REPLY may end with: of a ring without slot size, beyond the ring, free, fetched, unread. -/
theorem witness_MessageResponseFinishes :
    (let s := { core0 with
        cmdInProgress := true, cmdState := .sendNoc none, nocOutstanding := [⟨sentMessage, .message⟩] };
      s.cmdInProgress = true ∧ s.nocOutstanding[0]? = some ⟨sentMessage, .message⟩ ∧ sentMessage.kind = .write ∧
      s.cmdState = .sendNoc none) ∧
    (let s := replying 0x0208020000200002#64 1#64;
      let e := s.ep 4;
      let idx := (0x1000#64 - e.bufAddr).toNat / e.msgSize.toNat;
      s.cmdInProgress = true ∧ s.cmdState.replyCtx = some ⟨4, 0x1000#64, some 0x1000#64, 0⟩ ∧
      s.nocOutstanding[0]? = some ⟨sentMessage, .message⟩ ∧ e.msgSize ≠ 0#16 ∧ idx < e.size.toNat ∧
      e.occupied.getLsbD idx = true ∧ e.unread.getLsbD idx = false ∧
      e.size.toNat ≤ (0x1100#64 - e.bufAddr).toNat / e.msgSize.toNat) ∧
    ((replying 0x200002#64 0#64).ep 4).msgSize = 0#16 ∧
    ((replying 0x0008020000200002#64 0#64).ep 4).occupied.getLsbD 0 = false ∧
    (let e := (replying 0x000802000020000A#64 0x0000000100000001#64).ep 4;
      e.msgSize ≠ 0#16 ∧ 0 < e.size.toNat ∧ e.occupied.getLsbD 0 = true ∧ e.unread.getLsbD 0 = true) := by decide

/-- EX1; and a ring that wraps: `rdPos` 3 of 4, slots 0 and 1 unread. -/
theorem witness_FetchTakesTheFirstUnread :
    (let s := core7 0x0208020000200002#64 1#64;
      s.cmdInProgress = false ∧ s.cmdState = .none ∧ (4#8 : BitVec 8).toNat < s.cfg.numEndpoints ∧
      (s.ep 4).type = 2#3 ∧
      ∀ k < (s.ep 4).size.toNat, (s.ep 4).unread.getLsbD (((s.ep 4).rdPos.toNat + k) % (s.ep 4).size.toNat) = false) ∧
    (let e := (core7 0x0600020000200012#64 0x0000000300000003#64).ep 4;
      e.type = 2#3 ∧ 1 < e.size.toNat ∧ e.unread.getLsbD ((e.rdPos.toNat + 1) % e.size.toNat) = true ∧
      ∀ j < 1, e.unread.getLsbD ((e.rdPos.toNat + j) % e.size.toNat) = false) := by decide

/-- A ring of four with slots 0 and 1 in use and slot 1 unread. -/
def ring : EpWords := ⟨0x000802000020000A#64, 0x1000#64, 0x0000000200000003#64⟩

theorem witness_FetchesFollowTheRing : RingOk ring where
  size := by decide
  rdPos := by decide
  wrPos := by decide
  unread := by decide
  range := by
    have h : ∀ i < 32, ring.size.toNat ≤ i → ring.occupied.getLsbD i = false := by decide
    intro i hi
    by_cases hl : i < 32
    · exact h i hl hi
    · exact BitVec.getLsbD_of_ge _ _ (by omega)
  count := by decide

theorem witness_RingOperationsKeepTheDiscipline :
    ring.freeSlot = some 2 ∧ (ring.occupied.getLsbD 0 = true ∧ ring.unread.getLsbD 0 = false) ∧
    ring.unreadSlot = some 1 ∧ ring.unread.getLsbD 1 = true := by decide

/-- Five acknowledged addresses: of a ring without slot size, at the end of the ring, of a free slot, of a fetched one, of
an unread one. -/
theorem witness_AckFreesTheSlot :
    (core7 0 0).cmdInProgress = false ∧ (core7 0 0).cmdState = .none ∧
    (let e := (core7 0x200002#64 0#64).ep 4;
      e.type = 2#3 ∧ e.msgSize = 0#16) ∧
    (let e := (core7 0x0208020000200002#64 1#64).ep 4;
      e.type = 2#3 ∧ e.msgSize ≠ 0#16 ∧ e.size.toNat ≤ (0x1100#64 - e.bufAddr).toNat / e.msgSize.toNat ∧
      (0x10FF#64 - e.bufAddr).toNat / e.msgSize.toNat < e.size.toNat ∧ e.occupied.getLsbD 3 = false ∧
      e.occupied.getLsbD 0 = true ∧ e.unread.getLsbD 0 = false) ∧
    (let e := (core7 0x000802000020000A#64 0x0000000100000001#64).ep 4;
      e.occupied.getLsbD 0 = true ∧ e.unread.getLsbD 0 = true ∧ 0 < e.size.toNat ∧ e.msgSize ≠ 0#16) := by decide

/-- S6; S4 with a message that just fits its slot. -/
theorem witness_MessageRefused :
    (let s := core7 0x0000020000100012#64 0x0000000300000003#64;
      let p := writeTo 0x0407002000000004#64 (header 4 ++ List.replicate 39 0);
      25 ≤ p.size ∧ s.dtu.vpeId.toNat ≠ (writeTo 0x040700C000000004#64 (header 4)).addr.vpeId.toNat ∧
      s.dtu.vpeId.toNat = p.addr.vpeId.toNat ∧ (decodeHeader p.data).flags &&& 0x09#8 ≠ 0x09#8 ∧
      p.addr.offset.toNat < s.cfg.numEndpoints ∧ (s.ep p.addr.offset.toNat).type = 2#3 ∧
      p.size = (s.ep p.addr.offset.toNat).msgSize.toNat ∧
      ∀ k < (s.ep p.addr.offset.toNat).size.toNat, (s.ep p.addr.offset.toNat).occupied.getLsbD k = true) ∧
    25 = (writeTo 0x040700C000000004#64 (header 4)).size := by decide

/-- S1, step 3, with the shortest message and with the longest; the second ring wraps to slot 0. -/
theorem witness_MessageAccepted :
    (let s := core7 0x20000200002#64 0#64;
      let p := writeTo 0x0407002000000004#64 (header 4);
      25 ≤ p.size ∧ s.dtu.vpeId.toNat = p.addr.vpeId.toNat ∧ (decodeHeader p.data).flags &&& 0x09#8 ≠ 0x09#8 ∧
      ¬ (decodeHeader p.data).flags &&& 0x03#8 = 0x03#8 ∧
      p.addr.offset.toNat < s.cfg.numEndpoints ∧ (s.ep 4).type = 2#3 ∧ p.size ≤ s.cfg.bufSize ∧
      p.size ≤ (s.ep 4).msgSize.toNat ∧ 0 < (s.ep 4).size.toNat ∧ (s.ep 4).occupied.getLsbD 0 = false ∧
      ({ s.cfg with bufSize := 24 } : Config).bufSize < p.size) ∧
    (let e := (core7 0x0018020000200002#64 0x8#64).ep 4;
      (header 4 ++ List.replicate 39 0).length = e.msgSize.toNat ∧ 1 < e.size.toNat ∧
      e.occupied.getLsbD ((e.wrPos.toNat + 1) % e.size.toNat) = false ∧
      ∀ j < 1, e.occupied.getLsbD ((e.wrPos.toNat + j) % e.size.toNat) = true) := by decide

/-- S3, step 4: a reply that grants credits arrives. -/
theorem witness_MessageAccepted_grants :
    let p := writeTo 0x0400004000000005#64 ([3, 7, 0, 4, 3, 8, 0, 1, 0, 0xBB] ++ List.replicate 23 0);
    25 ≤ p.size ∧ core0.dtu.vpeId.toNat = p.addr.vpeId.toNat ∧ (decodeHeader p.data).flags &&& 0x09#8 ≠ 0x09#8 ∧
    (decodeHeader p.data).flags &&& 0x03#8 = 0x03#8 ∧ (decodeHeader p.data).replyEp.toNat = 3 ∧
    p.addr.offset.toNat = 5 ∧ (core0.ep 5).type = 2#3 ∧ p.size ≤ (core0.ep 5).msgSize.toNat ∧
    0 < (core0.ep 5).size.toNat ∧ (core0.ep 5).occupied.getLsbD 0 = false := by decide

/-- The endpoint that gets the credits: with the largest number of credits, and with one more. -/
theorem witness_MessageAccepted_credits :
    (let g : EpWords := ⟨0x80201#64, 0x704FFBE#64, 0xAA#64⟩;
      g.type = 1#3 ∧ g.credits ≠ 0xFFFF#16 ∧ g.credits.toNat + g.maxMsgSize.toNat = 0xFFFE) ∧
    (let g : EpWords := ⟨0x80201#64, 0x704FFBF#64, 0xAA#64⟩;
      g.type = 1#3 ∧ g.credits ≠ 0xFFFF#16 ∧ 0xFFFE < g.credits.toNat + g.maxMsgSize.toNat) := by decide

/-- S3, step 4, at the largest number of credits and one beyond it. -/
theorem witness_CreditGrant :
    (let h := decodeHeader ([3, 7, 0, 4, 3] ++ List.replicate 20 0);
      h.flags &&& 0x03#8 = 0x03#8 ∧ h.replyEp.toNat < core0.cfg.numEndpoints ∧ (core0.ep h.replyEp.toNat).type = 1#3 ∧
      (core0.ep h.replyEp.toNat).credits ≠ 0xFFFF#16) ∧
    ¬ (decodeHeader (header 4)).flags &&& 0x03#8 = 0x03#8 ∧
    (let e : EpWords := ⟨0x80201#64, 0x704FFBE#64, 0#64⟩;
      e.credits.toNat + e.maxMsgSize.toNat = 0xFFFE) ∧
    (let e : EpWords := ⟨0x80201#64, 0x704FFBF#64, 0#64⟩;
      0xFFFE < e.credits.toNat + e.maxMsgSize.toNat) := by decide

theorem witness_CreditConservation :
    (core0.ep 3).credits ≠ 0xFFFF#16 ∧
    (core0.ep 3).creditRun [true, true, false] = some ⟨0x80201#64, 0x7040040#64, 0xAA#64⟩ ∧
    [true, true, false].count false ≤ [true, true, false].count true := by decide

theorem witness_MessageFaults :
    (writeTo 0x0407002000000004#64 (List.replicate 24 0)).size < 25 ∧
    (let s := core7 0x20000200002#64 0#64;
      let p := writeTo 0x0407002000000008#64 (header 4);
      let q := writeTo 0x0407002000000007#64 (header 4);
      let r := writeTo 0x0407002000000004#64 (header 4 ++ List.replicate 40 0);
      (25 ≤ p.size ∧ s.dtu.vpeId.toNat = p.addr.vpeId.toNat ∧ (decodeHeader p.data).flags &&& 0x09#8 ≠ 0x09#8 ∧
        s.cfg.numEndpoints ≤ p.addr.offset.toNat) ∧
      (q.addr.offset.toNat < s.cfg.numEndpoints ∧ (s.ep q.addr.offset.toNat).type ≠ 2#3) ∧
      (s.ep 4).type = 2#3 ∧ (s.ep 4).msgSize.toNat + 1 = r.size) := by decide

/-- R27, R439: a receive drives the suspend pin with MSG_CNT != 0, also where MSG_CNT wraps to 0 (R183). -/
theorem test_receive_wraps :
    (State.finishMsgReceive core0 4 0).out = [.setDenySuspend true, .wakeCore] ∧
    (State.finishMsgReceive { core0 with dtu := { core0.dtu with msgCnt := 0xFFFFFFFFFFFFFFFF#64 } } 4 0).out =
      [.setDenySuspend false, .wakeCore] := by decide

/-- S1, step 4. -/
theorem witness_ReceiveCompletes :
    (let ev := xfer .remoteWrite true 0;
      (xferCore ev).bufs[0]? = some (busy ev) ∧ (busy ev).free = false ∧ (busy ev).event = some ev ∧
      ev.type = .remoteWrite ∧ ev.flags.msgRecv = true ∧ ev.recv = some (4, 0) ∧ ev.pkt = some inboundWrite ∧
      ev.waiting = false ∧ ev.failed = false ∧ ev.size = 0 ∧ ev.outstanding = 0) := by decide

/-- PROG2; the region's last byte; one chunk. -/
theorem witness_ReadStarts_WriteStarts :
    core0.cmdInProgress = false ∧ (6#8 : BitVec 8).toNat < core0.cfg.numEndpoints ∧ (core0.ep 6).type = 3#3 ∧
    (core0.ep 6).memFlags.getLsbD 0 = true ∧ (core0.ep 6).memFlags.getLsbD 1 = true ∧
    (core0.operand 1 (·.offset)).toNat + (core0.operand 0 (·.dataSize)).toNat ≤ (core0.ep 6).reqSize.toNat ∧
    0xFFFF + 1 = (core0.ep 6).reqSize.toNat ∧ core0.operand 0 (·.dataSize) ≠ 0 ∧ core0.cfg.maxNocPacketSize ≤ core0.cfg.bufSize ∧
    nocAddr (core0.ep 6).remoteCore.toNat (core0.ep 6).memVpe.toNat ((core0.ep 6).remoteAddr + 0x100#64).toNat =
      some 0x0402000000002100#64 := by decide

theorem witness_MemCommandChecks :
    core0.cmdInProgress = false ∧ (6#8 : BitVec 8).toNat < core0.cfg.numEndpoints ∧ (core0.ep 6).type = 3#3 ∧
    (⟨0x80003#64, 0x2000#64, 0x21#64⟩ : EpWords).memFlags.getLsbD 1 = false ∧
    (⟨0x80003#64, 0x2000#64, 0x22#64⟩ : EpWords).memFlags.getLsbD 0 = false ∧
    (core0.ep 6).memFlags.getLsbD 0 = true ∧ (core0.ep 6).memFlags.getLsbD 1 = true ∧
    (core0.ep 6).reqSize.toNat < 0x10000 + 1 ∧ 0x10000 ≤ (core0.ep 6).reqSize.toNat := by decide

/-- The operands of PROG2's commands. -/
def prog2 : MemCtx := ⟨6, 0x800#64, 0x180#64, 0x100#64⟩

/-- V68, and a VPE of 2048: remote addresses that fit no NoC address. -/
theorem witness_NocAddrField :
    (let e : EpWords := ⟨0x8003#64, 0x1FFFFFFF00#64, 0x23#64⟩;
      e.type = 3#3 ∧ e.memFlags.getLsbD 0 = true ∧ e.memFlags.getLsbD 1 = true ∧ 0x100 + 8 ≤ e.reqSize.toNat ∧
      2 ^ 37 = (e.remoteAddr + 0x100#64).toNat) ∧
    (let e : EpWords := ⟨0x80003#64, 0x2000#64, 0x2000023#64⟩;
      e.type = 3#3 ∧ e.memFlags.getLsbD 0 = true ∧ e.memFlags.getLsbD 1 = true ∧ 2 ^ 11 = e.memVpe.toNat) ∧
    (let e : EpWords := ⟨0x80003#64, 0x1FFFFFFE00#64, 0x23#64⟩;
      2 ^ 37 = (e.remoteAddr + prog2.offset + BitVec.ofNat 64 256).toNat) := by decide

/-- PROG2: the responses to the first and the last chunk of READ and of WRITE, and an error response. -/
theorem witness_ChunkResponses :
    (let p := wire .readReq 0x0402000000002100 .read 2 [];
      let s := { core0 with
        cmdInProgress := true, cmdState := .memRead prog2 0, nocOutstanding := [⟨p, .readChunk true⟩] };
      s.cmdInProgress = true ∧ s.nocOutstanding[0]? = some ⟨p, .readChunk true⟩ ∧ s.cmdState = .memRead prog2 0 ∧
      p.kind = .read ∧ ([1, 2] : List Byte).length = p.size ∧ p.size ≤ s.cfg.bufSize ∧
      ErrorCode.vpeGone ≠ .noError) ∧
    (∀ last ∈ [true, false],
      let p := wire .writeReq 0x0402000000002100 .write 256 [];
      let s := { core0 with
        cmdInProgress := true, cmdState := .memWrite prog2 0, nocOutstanding := [⟨p, .writeChunk last⟩] };
      s.nocOutstanding[0]? = some ⟨p, .writeChunk last⟩ ∧ s.cmdState = .memWrite prog2 0 ∧ p.kind = .write ∧
      s.cfg.maxNocPacketSize ≤ s.cfg.bufSize) ∧
    (let e := core0.ep prog2.ep;
      nocAddr e.remoteCore.toNat e.memVpe.toNat (e.remoteAddr + prog2.offset + BitVec.ofNat 64 256).toNat =
        some 0x0402000000002200#64) := by decide

/-- PROG2, line 9: the end of the transfer that stores a chunk of a READ, the last or not. -/
theorem witness_ChunkResponses_stored :
    ∀ last ∈ [true, false],
      let ev := { xfer .localWrite false 0 with flags := ⟨false, last, false⟩, total := 256 };
      let s := { xferCore ev with cmdInProgress := true, cmdState := .memRead prog2 0 };
      s.bufs[0]? = some (busy ev) ∧ (busy ev).free = false ∧ (busy ev).event = some ev ∧ ev.type = .localWrite ∧
      ev.waiting = false ∧ ev.failed = false ∧ ev.size = 0 ∧ ev.outstanding = 0 ∧ s.cmdInProgress = true ∧
      s.cmdState = .memRead prog2 0 ∧ ev.flags.last = last := by decide

theorem witness_ReadRequestServed_WriteRequestServed :
    inWindow core0.cfg 0xF0000000 = true ∧ inWindow core0.cfg 0xF000012F = true ∧
    inWindow core0.cfg 0xF0000130 = false ∧ 0xF000012F < core0.cfg.regFileBaseAddr.toNat + 2 ^ 13 ∧
    (readFrom 0x0402000000002100#64 256).size ≤ core0.cfg.bufSize ∧
    core0.cfg.bufSize < (readFrom 0x0402000000002100#64 257).size ∧
    inWindow core0.cfg (readFrom 0x0402000000002100#64 257).addr.offset.toNat = false ∧
    (∀ type ∈ [XferType.remoteRead, XferType.remoteWrite],
      let ev := xfer type false 0;
      (xferCore ev).bufs[0]? = some (busy ev) ∧ (busy ev).free = false ∧ (busy ev).event = some ev ∧ ev.type = type ∧
      ev.flags.msgRecv = false ∧ ev.pkt = some inboundWrite ∧ inboundWrite.needsResponse = true ∧
      ev.waiting = false ∧ ev.failed = false ∧ ev.size = 0 ∧ ev.outstanding = 0) := by decide

theorem witness_PiecesStayInTheirBlock :
    (Config.vectors.valid = true ∧ 1 ≠ 0) ∧
    (let ev := xfer .localRead false 16;
      (xferCore ev).bufs[0]? = some (busy ev) ∧ (xferCore ev).event 0 = some ev) := by decide

/-- A request of a transfer. -/
def request (msgRecv : Bool) : XferReq where
  type := .remoteWrite
  remoteAddr := 0
  localAddr := 0x1000#64
  size := 1
  header := none
  payload := [9]
  pkt := none
  flags := ⟨msgRecv, false, false⟩
  pktType := .message
  recv := none

theorem witness_TransferTakesABuffer :
    (core0.cfg.bufSize < { request false with size := 257 }.size ∧ (request false).size ≤ core0.cfg.bufSize) ∧
    (let s := { xferCore (xfer .localRead false 16) with pendingTransfers := [request true] };
      s.pendingTransfers[0]? = some (request true) ∧ s.bufs[1]? = some idleBuf ∧
      idleBuf.free = true ∧
      (∀ j < 1, ∀ x, s.bufs[j]? = some x → x.free = false) ∧
      ((request true).flags.msgRecv = true →
        ∀ x ∈ s.bufs, x.free = false → ∀ ev, x.event = some ev → ev.flags.msgRecv = false)) ∧
    (∀ x ∈ [busy (xfer .localRead false 16), busy (xfer .localRead false 16)], x.free = false) ∧
    (∃ x ∈ (xferCore (xfer .remoteWrite true 16)).bufs, x.free = false ∧
      ∃ ev, x.event = some ev ∧ ev.flags.msgRecv = true) := by
  refine ⟨by decide, ⟨rfl, rfl, rfl, ?_, ?_⟩, by decide, ⟨busy (xfer .remoteWrite true 16), by decide, rfl, _, rfl, rfl⟩⟩
  · intro j hj x hx
    obtain rfl : j = 0 := by omega
    cases hx
    rfl
  · intro _ x hx hf ev he
    simp only [xferCore, List.mem_cons, List.not_mem_nil, or_false] at hx
    rcases hx with rfl | rfl
    · cases he
      rfl
    · cases he

theorem witness_FailedTransfers :
    ∀ tm ∈ [(XferType.localRead, false), (.remoteRead, false), (.remoteWrite, false), (.remoteWrite, true)],
      let ev := { xfer tm.1 tm.2 16 with failed := true };
      let s := { xferCore ev with cmdInProgress := true, cmdState := .sendXfer none };
      s.bufs[0]? = some (busy ev) ∧ (busy ev).free = false ∧ (busy ev).event = some ev ∧ ev.waiting = false ∧
      ev.failed = true ∧ ev.outstanding = 0 ∧ ev.type = tm.1 ∧ ev.flags.msgRecv = tm.2 ∧
      ev.pkt = some inboundWrite ∧ (tm.2 = true → ev.recv = some (4, 0)) ∧ s.cmdInProgress = true ∧
      s.cmdState = .sendXfer none := by decide

/-- The failed transfers of a REPLY, of a WRITE and of a READ. -/
theorem witness_FailedTransfers_of_commands :
    ∀ tc ∈ [(XferType.localRead, CmdState.sendXfer (some ⟨4, 0x1000#64, some 0x1000#64, 0⟩)),
        (.localRead, .memWrite prog2 0), (.localWrite, .memRead prog2 256)],
      let ev := { xfer tc.1 false 16 with failed := true };
      let s := { xferCore ev with cmdInProgress := true, cmdState := tc.2 };
      s.bufs[0]? = some (busy ev) ∧ (busy ev).free = false ∧ (busy ev).event = some ev ∧ ev.waiting = false ∧
      ev.failed = true ∧ ev.outstanding = 0 ∧ ev.type = tc.1 ∧ s.cmdState = tc.2 ∧ s.cmdInProgress = true := by decide

/-- A transfer of 16 bytes at 0x1000 in buffer 0 of a state that has the invariant. -/
theorem witness_LocalReadSendsWhatMemoryHolds_RemoteWriteStoresThePacket (type : XferType) :
    let s := smallCore type;
    Inv s ∧ s.cfg.tlbEntries = 0 ∧ s.event 0 = some (xfer type false 16) ∧
    (let ev := xfer type false 16;
      ev.type = type ∧ ev.flags.msgRecv = false ∧ ev.pkt = some inboundWrite ∧
      inboundWrite.needsResponse = true ∧ ev.waiting = false ∧ ev.failed = false ∧ ev.outstanding = 0 ∧
      ev.localAddr = ev.start ∧ ev.size = ev.total ∧ ev.base = 0 ∧ ev.start.toNat + ev.total ≤ 2 ^ 64 ∧
      s.cfg.backs ev.start.toNat ev.total = true) :=
  ⟨witness_Inv type, rfl, rfl, rfl, rfl, rfl, rfl, rfl, rfl, rfl, rfl, rfl, rfl, by cases type <;> decide,
    by cases type <;> decide⟩

/-- The buffer holds the packet's bytes. -/
theorem witness_RemoteWriteStoresThePacket_bytes :
    inboundWrite.data.length = (xfer .remoteWrite false 16).total ∧
    ((smallCore .remoteWrite).bufs[0]?.map fun buf => slice buf.bytes 0 16) = some inboundWrite.data := by decide

/-- The transfer of a SEND or REPLY that waits for it, in a state that has the invariant. -/
theorem witness_LocalReadSendsWhatMemoryHolds_sendXfer (r : Option ReplyCtx) :
    Inv { smallCore .localRead with cmdInProgress := true, cmdState := .sendXfer r } :=
  { witness_Inv .localRead with command := fun _ => rfl }

/-- The last step of a transfer of 16 bytes behind a header, for a SEND and a REPLY, and of one for a WRITE; the buffer is just
as long as what it sends. -/
theorem witness_LocalReadSendsWhatMemoryHolds_lastStep :
    ∀ fc ∈ [((⟨false, false, true⟩ : XferFlags), CmdState.sendXfer none),
        (⟨false, false, true⟩, .sendXfer (some ⟨4, 0x1000#64, some 0x1000#64, 0⟩)),
        (⟨false, true, false⟩, .memWrite prog2 0)],
      let ev := { xfer .localRead false 0 with base := 25, flags := fc.1 };
      let buf := { busy ev with bytes := header 4 ++ List.replicate 16 7 };
      let s := { core7 0x0008020000200002#64 1#64 with bufs := [buf, idleBuf], cmdState := fc.2 };
      s.bufs[0]? = some buf ∧ buf.free = false ∧ buf.event = some ev ∧ ev.type = .localRead ∧ ev.waiting = false ∧
      ev.failed = false ∧ ev.size = 0 ∧ ev.outstanding = 0 ∧ ev.base + ev.total = buf.bytes.length ∧
      s.cmdState = fc.2 := by decide

theorem witness_LocalMemoryIsAByteStore :
    Memory.wf [(0, 1#8), (2 ^ 64 - 1, 2#8)] = true ∧ ([1, 2] : List Byte).length ≤ 2 ^ 64 ∧ 0 < 1 ∧
    (∀ op ∈ [MemOp.read 8, MemOp.write [9]],
      let r : MemReq := ⟨0x1000#64, op, .cpu ⟨0, .read, false, 0, 8, [], []⟩⟩;
      ({ core0 with memOutstanding := [r] } : State).memOutstanding[0]? = some r ∧
      core0.cfg.backs r.addr.toNat r.op.size = true ∧
      ({ core0.cfg with localMem := [(0, 0x1000)] } : Config).backs r.addr.toNat r.op.size = false) := by decide

/-- The requests of a buffer, read and write, of a walk and of the header read of a REPLY. -/
theorem witness_LocalMemoryIsAByteStore_tags :
    let ev := { xfer .localRead false 16 with outstanding := 1 };
    let r0 : MemReq := ⟨0x1000#64, .read 8, .xfer 0 25⟩;
    let r1 : MemReq := ⟨0x1000#64, .write [9], .xfer 0 0⟩;
    let r2 : MemReq := ⟨0x1000#64, .read 8, .walk 0⟩;
    let r3 : MemReq := ⟨0x1000#64, .read 25, .replyHeader⟩;
    let s := { xferCore ev with memOutstanding := [r0, r1, r2, r3] };
    (s.memOutstanding[0]? = some r0 ∧ s.memOutstanding[1]? = some r1 ∧ s.memOutstanding[2]? = some r2 ∧
      s.memOutstanding[3]? = some r3) ∧
    s.bufs[0]? = some (busy ev) ∧ (busy ev).free = false ∧ (busy ev).event = some ev ∧
    ∀ r ∈ [r0, r1, r2, r3], s.cfg.backs r.addr.toNat r.op.size = true := by decide

/-- R309: an answer is stored at the place its request was made for, with the rest of the buffer unchanged. -/
theorem test_block_answer :
    after (memAnswer 0
        { xferCore { xfer .localRead false 2 with outstanding := 2 } with
          mem := [(0x1001, 7#8)]
          bufs := [{ busy { xfer .localRead false 2 with outstanding := 2 } with bytes := [1, 2, 3] }, idleBuf]
          memOutstanding := [⟨0x1001#64, .read 1, .xfer 0 1⟩] })
      (fun t => (t.bufs.head?.map fun b => (b.bytes, b.event.map (·.outstanding)), t.memOutstanding)) =
      some (some ([1, 7, 3], some 1), []) := by decide

/-- The four kinds of entry. -/
theorem witness_TlbLookupResults :
    (∀ e ∈ ([] : List TlbEntry), e.vpn ≠ vpnOf 0x4000) ∧
    ∀ e ∈ [(⟨4, 0#64, 0x1F, true⟩ : TlbEntry), ⟨4, 0#64, 0, false⟩, ⟨4, 0x80000#64, 0x01, false⟩,
        ⟨4, 0x80000#64, 0x09, false⟩],
      e ∈ [e] ∧ e.vpn = vpnOf 0x4000 ∧ ([e].map (·.vpn)).Nodup ∧
      (e.blocked = true ∨ e.flags = 0#5 ∨ e.flags &&& 0x09#5 ≠ 0x09#5 ∨ e.flags &&& 0x09#5 = 0x09#5) := by decide

theorem witness_TlbInsertAndBlock :
    (∃ e ∈ (tlbCore [⟨4, 0#64, 0, true⟩]).tlb, e.vpn = vpnOf 0x4000) ∧
    (tlbCore [⟨5, 0#64, 0, true⟩]).tlb.length < (tlbCore []).cfg.tlbEntries ∧
    (∃ e ∈ (tlbCore [⟨5, 0#64, 0, true⟩, ⟨6, 0#64, 0, false⟩]).tlb, e.blocked = false) ∧
    (0x0B#5 ≠ 0#5 ∧ 0x0B#5 &&& 0x09#5 = 0x09#5) ∧
    (∃ e ∈ (tlbCore [⟨5, 0#64, 0, true⟩]).tlb, e.blocked = true ∧ e.vpn ≠ vpnOf 0x4000) := by decide

/-- R332, R333: a full TLB with one unblocked entry, of another page. -/
theorem witness_TlbInsertAndBlock_victim :
    let s := tlbCore [⟨5, 0#64, 0, true⟩, ⟨6, 0x80000#64, 0x09, false⟩, ⟨7, 0#64, 0, true⟩, ⟨8, 0#64, 0, true⟩];
    s.cfg.tlbEntries = s.tlb.length ∧ (∀ e ∈ s.tlb, e.vpn ≠ vpnOf 0x4000) ∧ ∃ e ∈ s.tlb, e.blocked = false := by decide

/-- R333: a full TLB whose every entry is a blocked one of another page. -/
theorem witness_TlbInsertAndBlock_noPlace :
    let s := tlbCore [⟨5, 0#64, 0, true⟩, ⟨6, 0x80000#64, 0x09, true⟩, ⟨7, 0#64, 0, true⟩, ⟨8, 0#64, 0, true⟩];
    s.tlb ≠ [] ∧ s.cfg.tlbEntries = s.tlb.length ∧ ∀ e ∈ s.tlb, e.vpn ≠ vpnOf 0x4000 ∧ e.blocked = true := by decide

/-- A page without an entry, with a placeholder, with an entry that is blocked. -/
theorem witness_TlbInsertAndBlock_unblock :
    (∀ tlb ∈ [[], [(⟨4, 0#64, 0, true⟩ : TlbEntry)], [⟨4, 0x80000#64, 0x09, true⟩]],
      ((tlbCore tlb).tlb.map (·.vpn)).Nodup) ∧
    (⟨4, 0#64, 0, true⟩ : TlbEntry).vpn = vpnOf 0x4008 ∧ (0x09#5 ≠ 0#5 ∧ 0x09#5 &&& 0x01#5 = 0x01#5) := by decide

/-- A transfer with bytes left, and the four places of the page of its next block. -/
theorem witness_WalkGoesOn_transfer :
    (∀ type ∈ [XferType.localRead, .remoteWrite],
      let ev := xfer type false 16;
      let s := { tlbCore [] with bufs := [busy ev, idleBuf] };
      s.bufs[0]? = some (busy ev) ∧ (busy ev).free = false ∧ (busy ev).event = some ev ∧ ev.waiting = false ∧
      ev.failed = false ∧ ev.size ≠ 0 ∧ s.cfg.tlbEntries ≠ 0 ∧ ev.localAddr = 0x1000#64) ∧
    core0.cfg.tlbEntries = 0 ∧ 0x1000#64 = pageBase 0x1000#64 ∧
    ∀ access ∈ [0x09#5, 0x0A#5],
      tlbLookup [⟨1, 0x3000#64, 0x0B, false⟩] 0x1000 access = .hit 0x3000#64 ∧
      tlbLookup [] 0x1000 access = .miss ∧ tlbLookup [⟨1, 0x3000#64, 0x04, false⟩] 0x1000 access = .pagefault ∧
      tlbLookup [⟨1, 0x3000#64, 0, false⟩] 0x1000 access = .nomap := by decide

/-- The first step of a translate event: with GONE, and with each of the four results of a lookup. -/
theorem witness_WalkGoesOn :
    (∀ access ∈ [0x11#5, 0x09#5],
      let ev := { walkEvent .fresh with access := access };
      ({ tlbCore [] with translateEvents := [ev] } : State).translateEvents[0]? = some ev ∧ ev.phase = .fresh ∧
      ev.access.getLsbD 4 = decide (access = 0x11#5)) ∧
    tlbLookup (tlbCore []).tlb 0x4000 0x09#5 = .miss ∧
    tlbLookup (tlbCore [⟨4, 0x80000#64, 0x09, false⟩]).tlb 0x4000 0x09#5 = .hit 0x80000#64 ∧
    tlbLookup (tlbCore [⟨4, 0#64, 0, false⟩]).tlb 0x4000 0x09#5 = .nomap ∧
    tlbLookup (tlbCore [⟨4, 0#64, 0, true⟩]).tlb 0x4000 0x09#5 = .pagefault := by decide

/-- PROG4: its root entry, its leaf entry before and after the pager, and the retry walk of the record in flight. -/
theorem witness_WalkGoesOn_answers :
    (let ev := walkEvent (.walking 1 0x10000);
      ({ tlbCore [] with translateEvents := [ev] } : State).translateEvents.find? (fun e => e.id == ev.id) = some ev ∧
      ev.phase = .walking 1 0x10000 ∧ ev.waiter = .xfer 0 ∧
      (field 0x11003#64 0 4).setWidth 5 &&& (ev.access &&& 0x07#5) = ev.access &&& 0x07#5 ∧
      (field 0#64 0 4).setWidth 5 &&& (ev.access &&& 0x07#5) ≠ ev.access &&& 0x07#5) ∧
    (let ev := walkEvent (.walking 0 0x11000);
      ev.phase = .walking 0 0x11000 ∧
      (field 0x80009#64 0 4).setWidth 5 &&& (ev.access &&& 0x0F#5) = ev.access &&& 0x0F#5 ∧
      (field 0x80001#64 0 4).setWidth 5 &&& (ev.access &&& 0x0F#5) ≠ ev.access &&& 0x0F#5) ∧
    (let ev := { walkEvent (.walking 0 0x11000) with waiter := .retry fault4.token };
      ev.waiter = .retry fault4.token ∧ ({ core0 with pfQueue := [fault4] } : State).pfQueue = [fault4]) ∧
    bytesWord [3, 0x10, 1, 0, 0, 0, 0, 0] = 0x11003#64 := by decide

/-- A retry walk whose record has left the queue, or whose record is behind another. -/
theorem witness_WalkGoesOn_lateRetry :
    let ev := { walkEvent (.walking 0 0x11000) with waiter := .retry 8#64 };
    ev.waiter = .retry 8#64 ∧
    ∀ queue ∈ [[], [fault4]],
      let s := { tlbCore [] with translateEvents := [ev], pfQueue := queue };
      s.translateEvents.find? (fun e => e.id == ev.id) = some ev ∧ ev.phase = .walking 0 0x11000 ∧
      s.pfQueue = queue ∧ ∀ q ∈ queue, q.token ≠ 8#64 := by decide

/-- PROG4, with the smallest message size that holds an upcall, and one byte less. -/
theorem witness_PagefaultTaken :
    (let s := { core0 with
        dtu := { core0.dtu with pfEp := 5 }
        eps := core0.eps.set 5 ⟨0x189#64, 0x3010040#64, 0xCC#64⟩
        pfQueue := [fault4] };
      let e := s.ep s.dtu.pfEp.toNat;
      s.pfQueue = [fault4] ∧ fault4.toKernel = false ∧ s.dtu.pfEp.toNat < s.cfg.numEndpoints ∧
      (s.ep s.dtu.pfEp.toNat).type = 1#3 ∧ 49 = e.maxMsgSize.toNat ∧
      nocAddr e.tgtCore.toNat e.sendVpe.toNat e.tgtEp.toNat = some 0x0403000000000001#64) ∧
    (⟨0x181#64, 0x3010040#64, 0xCC#64⟩ : EpWords).maxMsgSize.toNat < 49 ∧ core0.pfQueue = [] := by decide

/-- R131: endpoints of PROG4 with the smallest VPE that fits no NoC address, and with the largest that fits. -/
theorem witness_PagefaultTaken_vpe :
    (let e : EpWords := ⟨0x40000189#64, 0x3010040#64, 0xCC#64⟩;
      e.type = 1#3 ∧ 49 ≤ e.maxMsgSize.toNat ∧ e.sendVpe.toNat = 2 ^ 11) ∧
    (let e : EpWords := ⟨0x3FF80189#64, 0x3010040#64, 0xCC#64⟩;
      e.type = 1#3 ∧ 49 ≤ e.maxMsgSize.toNat ∧ e.sendVpe.toNat = 2 ^ 11 - 1 ∧
      (nocAddr e.tgtCore.toNat e.sendVpe.toNat e.tgtEp.toNat).isSome = true) := by decide

/-- The kernel's endpoint is chosen when `PF_EP` is beyond the last endpoint, is no SEND endpoint, or the record goes to the
kernel; it is no SEND endpoint here. -/
theorem witness_PagefaultTaken_kernel :
    ¬ (8#64 : Word).toNat < core0.cfg.numEndpoints ∧ (core0.ep 5).type ≠ 1#3 ∧
    { fault4 with toKernel := true }.toKernel = true ∧ (core0.ep core0.cfg.syscallEp).type ≠ 1#3 := by decide

/-- The response to an upcall: for the record in flight, and for another. -/
theorem witness_PagefaultTaken_responses :
    let p := wire .pagefault 0x0403000000000001 .write 49 [];
    let s := { core0 with pfQueue := [fault4], nocOutstanding := [⟨p, .upcall 7⟩] };
    s.nocOutstanding[0]? = some ⟨p, .upcall 7⟩ ∧ p.kind = .write ∧ s.pfQueue = [fault4] ∧ fault4.token = 7#64 ∧
    fault4.token ≠ 8#64 ∧ ErrorCode.noRingSpace ≠ .noError := by decide

/-- The pager's replies: with the right token and every error word, with a wrong token, with too short a payload. -/
theorem witness_PagefaultReply :
    (∀ error ∈ [0, 3, 4, 7],
      let p := pagerReply 7 error;
      25 ≤ p.size ∧ core0.dtu.vpeId.toNat = p.addr.vpeId.toNat ∧ (decodeHeader p.data).flags &&& 0x09#8 = 0x09#8 ∧
      (decodeHeader p.data).label = fault4.token ∧ 8 ≤ (decodeHeader p.data).length.toNat ∧ 33 ≤ p.data.length ∧
      bytesWord (slice p.data 25 8) = error.setWidth 64) ∧
    (decodeHeader (pagerReply 8 0).data).label ≠ fault4.token ∧ core0.pfQueue = [] ∧
    (let p := writeTo 0x0400004000000008#64 ([0x0B, 3, 0, 1, 5, 7, 0, 0, 0, 7] ++ List.replicate 15 0);
      25 ≤ p.size ∧ (decodeHeader p.data).label = fault4.token ∧ (decodeHeader p.data).length.toNat + 1 = 8) ∧
    fault4.waiters = [.xfer 0] ∧ (∀ e ∈ core0.translateEvents, e.id ≠ core0.nextEvent) := by decide

theorem witness_OneUpcallAtATime :
    ({ core0 with pfQueue := [fault4] } : State).pfQueue ≠ [] ∧
    (∃ q ∈ [fault4], q.vpn = vpnOf 0x4008 ∧ q.access = 0x09#5) ∧
    (∀ q ∈ [fault4], ¬ (q.vpn = vpnOf 0x4008 ∧ q.access = 0x0A#5)) := by decide

/-- A resolved record with and without one behind it, and waiters that are transfers. -/
theorem witness_OneUpcallAtATime_resolved :
    ∀ rest ∈ [[], [{ fault4 with vpn := 5, virt := 0x5000#64 }]],
      let s := pagingCore (fault4 :: rest);
      s.pfQueue = fault4 :: rest ∧ s.pfQueue ≠ [] ∧ fault4.waiters = [0].map .xfer ∧
      after (resolvePagefault (some 0x80000#64) s) (fun t => t.pfQueue.length) = some rest.length := by decide

theorem witness_RepeatedPagefault : core0.lastPfVpn ≠ some 4 := by decide

theorem witness_UnknownExternalCommand :
    ({ core0 with extPending := some 5#64 } : State).extPending = some 5#64 ∧ 5 ≤ (5#64 : Word).toNat % 8 ∧
    5 ≤ (0xFFFFFFFFFFFFFFFF#64 : Word).toNat % 8 := by decide

theorem witness_CacheMemoryRequests :
    (readFrom 0x0402002000003008#64 8).addr.vpeId.toNat ≠ core0.dtu.vpeId.toNat ∧
    (let p := readFrom 0x0402004000003008#64 8;
      let r : MemReq := ⟨0x3008#64, .read 8, .cacheReq p⟩;
      p.addr.vpeId.toNat = core0.dtu.vpeId.toNat ∧ p.kind = .read ∧ (p.addr.offset.setWidth 64 : Word) = 0x3008#64 ∧
      core0.cfg.backs 0x3008 p.size = true ∧
      ({ core0 with memOutstanding := [r] } : State).memOutstanding[0]? = some r) ∧
    (let p := writeTo 0x0402004000003008#64 [7];
      let r : MemReq := ⟨0x3008#64, .write [7], .cacheReq p⟩;
      p.addr.vpeId.toNat = core0.dtu.vpeId.toNat ∧ p.kind = .write ∧ p.data = [7] ∧
      core0.cfg.backs 0x3008 p.data.length = true ∧
      ({ core0 with memOutstanding := [r] } : State).memOutstanding[0]? = some r) := by decide

/-- The response to a forwarded read, without a TLB, and with the three results a lookup with GONE may have. -/
theorem witness_CacheMemoryRequests_responses :
    let req : CpuReq := ⟨0, .read, false, 0x5008#64, 2, [], []⟩;
    let p := wire .cacheMemReq 0x0402000000003008 .read 2 [];
    let s := { core0 with nocOutstanding := [⟨p, .cpu req⟩] };
    s.nocOutstanding[0]? = some ⟨p, .cpu req⟩ ∧ ([7, 8] : List Byte).length = p.size ∧ p.kind = .read ∧
    ErrorCode.noMapping ≠ .noError ∧ ErrorCode.noMapping ≠ .vpeGone ∧ s.cfg.tlbEntries = 0 ∧
    (tlbCore []).cfg.tlbEntries ≠ 0 ∧ tlbLookup (tlbCore []).tlb req.addr 0x11#5 = .miss ∧
    tlbLookup (tlbCore [⟨5, 0#64, 0, false⟩]).tlb req.addr 0x11#5 = .nomap ∧
    tlbLookup (tlbCore [⟨5, 0x0402000000003000#64, 0x01, false⟩]).tlb req.addr 0x11#5 = .pagefault := by decide

/-- R399: a dropped kind inside the register window. -/
theorem witness_CpuMemoryAccesses_dropped :
    let req : CpuReq := ⟨0, .cleanEvict, false, 0xF0000040#64, 8, [], []⟩;
    inWindow core0.cfg req.addr.toNat = true ∧ req.kind = .cleanEvict := by decide

/-- V98, V98a, V98b; the last access that fits its page. -/
theorem witness_CpuMemoryAccesses :
    inWindow core0.cfg 0x4010 = false ∧
    (let req : CpuReq := ⟨0, .write, false, 0x4FF8#64, 8, List.replicate 8 1, []⟩;
      let s := { core0 with dtu := { core0.dtu with rwBarrier := 0x3FFF#64 } };
      inWindow s.cfg req.addr.toNat = false ∧ req.addr.toNat % 4096 + req.data.length = 4096 ∧
      s.barrierRejects req.addr = true ∧ core0.barrierRejects req.addr = false) ∧
    (∀ kind ∈ [CpuKind.read, .fetch], ∀ func ∈ [true, false],
      let req : CpuReq := ⟨0, kind, func, 0x4010#64, 8, [], []⟩;
      req.addr.toNat % 4096 + req.size ≤ 4096 ∧ req.kind ≠ .write ∧
      tlbLookup (tlbCore [⟨4, 0x80000#64, 0x07, false⟩]).tlb req.addr (if kind = .fetch then 0x04#5 else 0x01#5) =
        .hit 0x80000#64 ∧
      (0x80000#64 + pageOffset req.addr).getLsbD 58 = false ∧ core0.cfg.backs 0x80010 8 = true ∧
      core0.cfg.tlbEntries = 0 ∧ 0x4000#64 = pageBase req.addr) ∧
    tlbLookup (tlbCore [⟨4, 0x80000#64, 0x07, false⟩]).tlb 0x4010 0x02#5 = .hit 0x80000#64 := by decide

/-- V98b and R397: a page in another tile, and the replies to a functional access; a page that is unmapped, faults, or must
be walked for. -/
theorem witness_CpuMemoryAccesses_remote :
    (let page := 0x0402000000003000#64;
      let s := tlbCore [⟨5, page, 0x01, false⟩];
      tlbLookup s.tlb 0x5008 0x01#5 = .hit page ∧ (page + pageOffset 0x5008#64).getLsbD 58 = true ∧
      tlbLookup s.tlb 0x5008 (0x01#5 ||| 0x10#5) = .pagefault) ∧
    (let a := 0x0402000000003008#64;
      core0.cfg.tlbEntries = 0 ∧ (pageBase a + pageOffset a).getLsbD 58 = true ∧ inWindow core0.cfg a.toNat = false) ∧
    (∀ r ∈ [ErrorCode.noError, .vpeGone, .noMapping],
      let req : CpuReq := ⟨0, .read, true, 0x5008#64, 2, [], [(r, [7, 8])]⟩;
      req.func = true ∧ req.replies = (r, [7, 8]) :: [] ∧ ([7, 8] : List Byte).length = req.size) ∧
    tlbLookup (tlbCore [⟨5, 0#64, 0, false⟩]).tlb 0x5008 0x01#5 = .nomap ∧
    tlbLookup (tlbCore [⟨5, 0#64, 0, true⟩]).tlb 0x5008 0x01#5 = .pagefault ∧
    tlbLookup (tlbCore []).tlb 0x5008 0x01#5 = .miss := by decide

/-- PROG4's page tables, walked within one step: without the leaf entry, and with it. -/
theorem witness_CpuMemoryAccesses_walk :
    (let s := { tlbCore [] with
        dtu := { core0.dtu with rootPt := 0x10000#64 }
        mem := Memory.writeBytes [] 0x10000 (wordBytes 0x11003#64) };
      s.funcWalk 0x4010 0x01#5 (s.cfg.levelCnt - 1) s.dtu.rootPt = some none) ∧
    (let s := { tlbCore [] with
        dtu := { core0.dtu with rootPt := 0x10000#64 }
        mem := (Memory.writeBytes [] 0x10000 (wordBytes 0x11003#64)).writeBytes 0x11020 (wordBytes 0x80009#64) };
      s.funcWalk 0x4010 0x01#5 (s.cfg.levelCnt - 1) s.dtu.rootPt = some (some 0x80009#64)) := by decide

end Sys2Proof.Tests
end

section
/-! PROOF. Every step of every agent keeps the parameters and the invariant, and all but the delivery of a WRITE_REQ
keep the configuration: the laws of Laws/Keeps.lean put together for `exec`, for `runEvent` and for `step`. -/

namespace Sys2Proof.Machine

/-! ## What can configure -/

/-- The operation may write configuration registers: it is a register write of origin NOC, or may turn out to be one. -/
def instrConfigures : Instr → Bool
  | .regWrite port _ _ => !portIsCpu port
  | .writeReq _ => true
  | _ => false

/-- The raw form may stand for such an operation. -/
def rawConfigures : Raw → Bool
  | .registerWrite port _ _ => !portIsCpu port
  | .packet p => p.ptype == .writeReq
  | _ => false

/-- The event may bring such an operation. -/
def Event.configures : Event → Bool
  | .deliver p => p.ptype == .writeReq
  | _ => false

theorem decodeCommand_configures (w : Word) : instrConfigures (decodeCommand w) = false := by
  simp only [decodeCommand]; split <;> rfl

theorem decodeExternal_configures {w : Word} {i : Instr} (h : decodeExternal w = .ok i) :
    instrConfigures i = false := by
  simp only [decodeExternal] at h
  split at h <;> cases h <;> rfl

theorem decodePacket_configures {p : WirePacket} {i : Instr} (h : decodePacket p = .ok i) :
    instrConfigures i = (p.ptype == .writeReq) := by
  simp only [decodePacket] at h
  split at h
  · cases h
  · split at h
    · cases h
    · split at h <;> next hp => cases h; rw [hp]; rfl

theorem decode_configures {r : Raw} {i : Instr} (h : decode r = .ok i) : instrConfigures i = rawConfigures r := by
  cases r with
  | registerRead => cases h; rfl
  | registerWrite => cases h; rfl
  | command w => cases h; exact decodeCommand_configures w
  | external w => exact decodeExternal_configures h
  | packet p => exact decodePacket_configures h

/-! ## What a step preserves -/

/-- From `s` to `t` the parameters are kept and the invariant is; and the configuration unless `c` allows its change. -/
structure Preserves (c : Bool) (s t : State) : Prop where
  cfg : t.cfg = s.cfg
  inv : Inv s → Inv t
  config : c = false → SameConfig s t

theorem Keeps.preserves {s t : State} (h : Keeps s t) (c : Bool) : Preserves c s t :=
  ⟨h.config.cfg, h.inv, fun _ => h.config⟩

theorem Preserves.after {c : Bool} {s t u : State} (k : Preserves c t u) (h : Keeps s t) : Preserves c s u :=
  ⟨k.cfg.trans h.config.cfg, k.inv ∘ h.inv, fun hc => h.config.trans (k.config hc)⟩

theorem registerWrite_cfg {p : Port} {o : Nat} {d : List Byte} {s t : State} (h : registerWrite p o d s = .next t) :
    t.cfg = s.cfg := by
  have hw := (writeRegs_same (portIsCpu p) (dataWords d) o s).1
  simp only [registerWrite] at h
  split at h
  · cases p with
    | cpu id => cases h; exact hw
    | noc q =>
      simp only at h
      split at h <;> cases h <;> exact hw
  · cases h

theorem Preserves.registerWrite {p : Port} {o : Nat} {d : List Byte} {s t : State}
    (h : registerWrite p o d s = .next t) : Preserves (!portIsCpu p) s t where
  cfg := registerWrite_cfg h
  inv hi := hi.registerWrite h
  config hc := by
    cases p with
    | cpu id => exact (Keeps.registerWrite_cpu h).config
    | noc q => cases hc

/-! ## The operations -/

theorem Keeps.beginThenFinish {e : ErrorCode} {f : State → State} (hf : ∀ u, Keeps u (f u)) {s t : State}
    (h : andThen (Machine.beginCommand s) (fun u => Machine.finishCommand e (f u)) = .next t) : Keeps s t := by
  obtain ⟨u, hu, h⟩ := andThen_eq_next.1 h
  exact ((Keeps.beginCommand hu).trans (hf u)).trans (.finishCommand h)

theorem Keeps.clearTlb (s : State) : Keeps s { s with tlb := [] } :=
  .tlb _ s.draws (fun _ => List.nodup_nil) fun _ => Nat.zero_le _

theorem Keeps.thenAnswerExternal {s t u : State} (h : Keeps s u) (ht : t = u.answerExternal) : Keeps s t :=
  ht ▸ h.trans (.answerExternal u)

theorem Keeps.execCacheMemReq {p : Packet} {s t : State} (h : execCacheMemReq p s = .next t) : Keeps s t := by
  simp only [Machine.execCacheMemReq] at h
  split at h
  · cases h; exact .nocRespond ..
  · cases h; exact .memIssue _ _ _ _ fun _ => rfl

theorem Keeps.execRead {a : BitVec 8} {s t : State} (h : execRead a s = .next t) : Keeps s t := by
  simp only [Machine.execRead] at h
  exact .memCommand (fun _ _ _ hp hk => .readChunk hp hk) h

theorem Keeps.execWrite {a : BitVec 8} {s t : State} (h : execWrite a s = .next t) : Keeps s t := by
  simp only [Machine.execWrite] at h
  exact .memCommand (fun _ _ _ hp hk => .writeChunk hp hk) h

theorem Keeps.execReadReq {p : Packet} {s t : State} (h : execReadReq p s = .next t) : Keeps s t := by
  simp only [Machine.execReadReq] at h
  split at h
  · exact .registerRead h
  · exact .startTransfer h

theorem Preserves.execWriteReq {p : Packet} {s t : State} (h : execWriteReq p s = .next t) : Preserves true s t := by
  simp only [Machine.execWriteReq] at h
  split at h
  · exact .registerWrite (p := .noc p) h
  · exact (Keeps.startTransfer h).preserves _

/-- What an operation preserves. -/
theorem exec_preserves {i : Instr} {s t : State} (h : exec i s = .next t) : Preserves (instrConfigures i) s t := by
  cases i with
  | regRead port off size => exact (Keeps.registerRead h).preserves _
  | regWrite port off data => exact .registerWrite h
  | idle => cases h; exact (Keeps.refl s).preserves _
  | send arg => exact (Keeps.execSend h).preserves _
  | reply arg => exact (Keeps.execReply h).preserves _
  | read arg => exact (Keeps.execRead h).preserves _
  | write arg => exact (Keeps.execWrite h).preserves _
  | fetchMsg arg => exact (Keeps.execFetchMsg h).preserves _
  | ackMsg arg => exact (Keeps.execAckMsg h).preserves _
  | debugMsg payload =>
    exact (Keeps.beginThenFinish (fun u => .emit u (.trace (payload.setWidth 64))) h).preserves _
  | wakeupCore => cases h; exact (Keeps.thenAnswerExternal (.emit s _) rfl).preserves _
  | invPage arg =>
    cases h; exact (Keeps.thenAnswerExternal (.tlbRemove s (vpnOf (arg.setWidth 64))) rfl).preserves _
  | invTlb => cases h; exact (Keeps.thenAnswerExternal (.clearTlb s) rfl).preserves _
  | invCache => cases h; exact (Keeps.thenAnswerExternal (.emit s _) rfl).preserves _
  | injectIrq => cases h; exact (Keeps.thenAnswerExternal (.emit s _) rfl).preserves _
  | message p => exact (Keeps.receiveMessage h).preserves _
  | pagefault p => exact (Keeps.receiveMessage h).preserves _
  | readReq p => exact (Keeps.execReadReq h).preserves _
  | writeReq p => exact .execWriteReq h
  | cacheMemReq p => exact (Keeps.execCacheMemReq h).preserves _
  | cacheMemReqFunc p => exact (Keeps.execCacheMemReqFunc h).preserves _

/-- What a decoded operation preserves. -/
theorem execDecoded_preserves {r : Raw} {s t : State} (h : execDecoded (decode r) s = .next t) :
    Preserves (rawConfigures r) s t := by
  simp only [execDecoded] at h
  split at h
  · next i hd => exact decode_configures hd ▸ exec_preserves h
  · cases h
  · cases h

/-! ## The answers of local memory -/

/-- A block request of a buffer is answered: the buffer counts one request less (R309, R310). -/
theorem Keeps.blockAnswered {s : State} {k b pos n : Nat} {r : MemReq} (bytes : List Byte)
    (hr : s.memOutstanding[k]? = some r) (ht : r.tag = .xfer b pos) :
    Keeps s (State.blockAnswer { s with memOutstanding := s.memOutstanding.eraseIdx k } b pos n bytes) := by
  obtain ⟨hlt, hge⟩ := List.getElem?_eq_some_iff.1 hr
  have hcount : ∀ b', s.unanswered b' =
      (s.memOutstanding.eraseIdx k).countP (fun r => r.tag.forBuffer b') + if b = b' then 1 else 0 := by
    intro b'
    rw [State.unanswered, countP_eraseIdx s.memOutstanding (fun r => r.tag.forBuffer b') k hlt, hge, ht]
    simp [MemTag.forBuffer]
  cases hev : s.event b with
  | none =>
    have hsame : State.blockAnswer { s with memOutstanding := s.memOutstanding.eraseIdx k } b pos n bytes =
        { s with memOutstanding := s.memOutstanding.eraseIdx k } := by
      have hev' : State.event { s with memOutstanding := s.memOutstanding.eraseIdx k } b = none := hev
      simp only [State.blockAnswer, hev']
      split <;> [contradiction; rfl]
    rw [hsame]
    refine ⟨.of_eq rfl rfl rfl, fun hi => ?_⟩
    have h0 := hi.outstanding b
    have h1 := hcount b
    rw [hev] at h0
    simp only [Option.map_none, Option.getD_none, if_true] at h0 h1
    omega
  | some ev =>
    obtain ⟨buf, hb, hf, he⟩ := event_some hev
    have hset : State.blockAnswer { s with memOutstanding := s.memOutstanding.eraseIdx k } b pos n bytes =
        { s with
          memOutstanding := s.memOutstanding.eraseIdx k
          bufs := s.bufs.set b
            { buf with
              bytes := splice buf.bytes pos bytes
              offset := buf.offset + n
              event := some { ev with outstanding := ev.outstanding - 1 } } } := by
      have hev' : State.event { s with memOutstanding := s.memOutstanding.eraseIdx k } b = some ev := hev
      simp only [State.blockAnswer, hev', hb, State.setBuf]
    rw [hset]
    refine ⟨.of_eq rfl rfl rfl, fun hi => ?_⟩
    obtain ⟨hlen, -, hfit⟩ := hi.bufs buf (List.mem_of_getElem? hb)
    refine hi.setBuf hb ⟨by simp [hlen], by simp [hf], ?_⟩ ?_ _ ?_ ?_
    · intro x hx; cases hx; exact hfit ev he
    · intro hm; left; simpa [Buffer.holdsMsgRecv, he] using hm
    · intro b' hne
      have := hcount b'
      rw [if_neg (Ne.symm hne)] at this
      exact this.symm
    · have h0 := hi.outstanding b
      have h1 := hcount b
      rw [hev] at h0
      simp only [Option.map_some, Option.getD_some, if_true] at h0 h1 ⊢
      omega

theorem Keeps.memAnswer {k : Nat} {s t : State} (h : memAnswer k s = .next t) : Keeps s t := by
  simp only [Machine.memAnswer] at h
  split at h
  · cases h; exact .refl s
  · next r hr =>
    split at h
    · cases h; exact .refl s
    · generalize hu : ({ s with memOutstanding := s.memOutstanding.eraseIdx k } : State) = u at h
      have hk : (∀ b, r.tag.forBuffer b = false) → Keeps s (u.memPerform r.addr r.op).1 := fun hn =>
        hu ▸ (Keeps.answered hr hn).trans (.memPerform _ _ _)
      simp only [memDeliver] at h
      split at h
      · next b pos ht =>
        cases h
        have hcomm : (u.memPerform r.addr r.op).1 =
            { (s.memPerform r.addr r.op).1 with
              memOutstanding := (s.memPerform r.addr r.op).1.memOutstanding.eraseIdx k } := by
          subst hu; cases r.op <;> rfl
        have hr' : (s.memPerform r.addr r.op).1.memOutstanding[k]? = some r := by
          cases r.op <;> exact hr
        rw [hcomm]
        exact (Keeps.memPerform s _ _).trans (.blockAnswered _ hr' ht)
      · next id ht => exact (hk fun b => by rw [ht]; rfl).trans (.walkAnswer h)
      · next ht => exact (hk fun b => by rw [ht]; rfl).trans (.headerAnswer h)
      · next q ht => cases h; exact (hk fun b => by rw [ht]; rfl).trans (.emit _ _)
      · next p ht => cases h; exact (hk fun b => by rw [ht]; rfl).trans (.nocRespond ..)

/-! ## The agents -/

theorem Keeps.setExecPending (s : State) (b : Bool) : Keeps s { s with execPending := b } :=
  .plain (.of_eq rfl rfl rfl) rfl rfl rfl rfl rfl rfl id

theorem Keeps.setExtPending (s : State) (w : Option Word) : Keeps s { s with extPending := w } :=
  .plain (.of_eq rfl rfl rfl) rfl rfl rfl rfl rfl rfl id

theorem Keeps.setAgenda (s : State) (l : List Event) : Keeps s { s with agenda := l } :=
  .plain (.of_eq rfl rfl rfl) rfl rfl rfl rfl rfl rfl id

theorem registerAccess_configures (c : Config) (req : CpuReq) : rawConfigures (req.registerAccess c) = false := by
  simp only [CpuReq.registerAccess]; split <;> rfl

/-- What one step of an agent preserves. -/
theorem runEvent_preserves {e : Event} {s t : State} (h : runEvent e s = .next t) :
    Preserves (Event.configures e) s t := by
  cases e with
  | dispatch =>
    simp only [runEvent, dispatchStep] at h
    split at h
    · exact (execDecoded_preserves h).after (.setExecPending s false)
    · cases h; exact (Keeps.refl s).preserves _
  | extern =>
    simp only [runEvent, externStep] at h
    split at h
    · exact (execDecoded_preserves h).after (.setExtPending s none)
    · cases h; exact (Keeps.refl s).preserves _
  | xfer b => exact (Keeps.xferStep h).preserves _
  | xferPending k => cases h; exact (Keeps.servePending k s).preserves _
  | ptu k => exact (Keeps.ptuStep h).preserves _
  | memAnswer k => exact (Keeps.memAnswer h).preserves _
  | cpu req =>
    simp only [runEvent, cpuStep] at h
    split at h
    · cases h; exact (Keeps.refl s).preserves _
    · split at h
      · have hp := execDecoded_preserves h
        rwa [registerAccess_configures] at hp
      · exact (Keeps.cpuMemAccess h).preserves _
  | deliver p => exact execDecoded_preserves (r := .packet p) h
  | respond k r data => exact (Keeps.nocRespondStep h).preserves _

/-- No step that the DTU makes by itself configures it (R26, R470). -/
theorem configures_of_enabled {s : State} {e : Event} (h : e ∈ s.enabled) : Event.configures e = false := by
  cases e with
  | deliver p =>
    simp only [State.enabled, List.mem_append, List.mem_map, reduceCtorEq, and_false, exists_false, or_false] at h
    rcases h with h | h <;> split at h <;> simp at h
  | _ => rfl

/-- What a step of the machine preserves, by the event it runs. -/
theorem step_preserves {s t : State} (h : step s = .next t) :
    (∃ e rest, s.agenda = e :: rest ∧ Preserves (Event.configures e) s t) ∨ Preserves false s t := by
  simp only [step, nextStep] at h
  split at h
  · next e rest ha => exact .inl ⟨e, rest, ha, (runEvent_preserves h).after (.setAgenda s rest)⟩
  · split at h
    · next e he =>
      refine .inr ?_
      rw [← configures_of_enabled (mem_of_choose he)]
      exact (runEvent_preserves h).after (.drawn s 1)
    · cases h; exact .inr ((Keeps.refl s).preserves _)

/-! ## The obligations -/

/-- Settles O10: each agent's step keeps the invariant, whatever the agenda brings. -/
theorem stepKeepsInv : Obligations.StepKeepsInv := by
  unfold Obligations.StepKeepsInv
  intro s t hi h
  rcases step_preserves h with ⟨e, rest, -, hp⟩ | hp
  · exact hp.inv hi
  · exact hp.inv hi

/-- Settles O11: the only event that may configure is the delivery of a WRITE_REQ. -/
theorem onlyNocWritesConfigure : Obligations.OnlyNocWritesConfigure := by
  unfold Obligations.OnlyNocWritesConfigure
  intro s t h
  have fields : SameConfig s t → t.dtu.status = s.dtu.status ∧ t.dtu.rootPt = s.dtu.rootPt ∧
      t.dtu.pfEp = s.dtu.pfEp ∧ t.dtu.rwBarrier = s.dtu.rwBarrier ∧ t.dtu.vpeId = s.dtu.vpeId ∧
      t.dtu.extCmd = s.dtu.extCmd ∧ t.eps.map EpWords.type = s.eps.map EpWords.type :=
    fun k => ⟨k.status, k.rootPt, k.pfEp, k.rwBarrier, k.vpeId, k.extCmd, k.types⟩
  rcases step_preserves h with ⟨e, rest, ha, hp⟩ | hp
  · refine ⟨hp.cfg, fun hno => fields (hp.config ?_)⟩
    cases e with
    | deliver p => simpa [Event.configures] using hno p rest ha
    | _ => rfl
  · exact ⟨hp.cfg, fun _ => fields (hp.config rfl)⟩

end Sys2Proof.Machine
end

section
/-! PROOF. The register file: which register a window offset names, and that a replaced register is the only one that
changes (R20, R30, R40, R172). -/

namespace Sys2Proof.Machine

/-! ## The three regions of the window -/

theorem readReg_dtu (s : State) {off : Nat} (h : off < 0x40) : s.readReg off = s.dtu.get (off / 8) := if_pos h

theorem readReg_cmd (s : State) {off : Nat} (h : 0x40 ≤ off) (h' : off < 0x70) :
    s.readReg off = s.getCmd ((off - 0x40) / 8) := by
  rw [State.readReg, if_neg (Nat.not_lt.2 h), if_pos h']

theorem readReg_ep (s : State) {off : Nat} (h : 0x70 ≤ off) :
    s.readReg off = (s.ep ((off - 0x70) / 24)).get ((off - 0x70) % 24 / 8) := by
  rw [State.readReg, if_neg (by omega), if_neg (by omega)]

theorem writeReg_dtu (s : State) {off : Nat} (v : Word) (h : off < 0x40) :
    s.writeReg off v = { s with dtu := s.dtu.put v (off / 8) } := if_pos h

theorem writeReg_cmd (s : State) {off : Nat} (v : Word) (h : 0x40 ≤ off) (h' : off < 0x70) :
    s.writeReg off v = s.putCmd v ((off - 0x40) / 8) := by
  rw [State.writeReg, if_neg (Nat.not_lt.2 h), if_pos h']

theorem writeReg_ep (s : State) {off : Nat} (v : Word) (h : 0x70 ≤ off) :
    s.writeReg off v =
      s.setEp ((off - 0x70) / 24) ((s.ep ((off - 0x70) / 24)).put v ((off - 0x70) % 24 / 8)) := by
  rw [State.writeReg, if_neg (by omega), if_neg (by omega)]

/-- Word `k` of endpoint `i` stands at `0x70 + 24 i + 8 k` (R40). -/
theorem readReg_epWord (s : State) (i k : Nat) (hk : k < 3) : s.readReg (0x70 + 24 * i + 8 * k) = (s.ep i).get k := by
  have hi : (0x70 + 24 * i + 8 * k - 0x70) / 24 = i := by omega
  have hw : (0x70 + 24 * i + 8 * k - 0x70) % 24 / 8 = k := by omega
  rw [readReg_ep s (by omega), hi, hw]

/-! ## A read after a write -/

/-- Registers in two different regions do not meet, and within a region each number has its own register. -/
theorem readReg_writeReg (s : State) {off off' : Nat} (v : Word) (hlen : s.eps.length = s.cfg.numEndpoints)
    (h8 : off % 8 = 0) (hoff : off < s.cfg.windowSize) (h8' : off' % 8 = 0) :
    (s.writeReg off v).readReg off' = if off' = off then v else s.readReg off' := by
  rcases (by omega : off < 0x40 ∨ (0x40 ≤ off ∧ off < 0x70) ∨ 0x70 ≤ off) with hd | ⟨hc, hc'⟩ | he
  · rw [writeReg_dtu s v hd]
    rcases (by omega : off' < 0x40 ∨ (0x40 ≤ off' ∧ off' < 0x70) ∨ 0x70 ≤ off') with gd | ⟨gc, gc'⟩ | ge
    · rw [readReg_dtu _ gd, readReg_dtu _ gd, dtu_get_put _ _ _ _ (by omega) (by omega)]
      exact if_congr (by omega) rfl rfl
    · rw [if_neg (by omega), readReg_cmd _ gc gc', readReg_cmd _ gc gc']
      exact getCmd_congr _ _ rfl rfl _
    · rw [if_neg (by omega), readReg_ep _ ge, readReg_ep _ ge]; rfl
  · rw [writeReg_cmd s v hc hc']
    rcases (by omega : off' < 0x40 ∨ (0x40 ≤ off' ∧ off' < 0x70) ∨ 0x70 ≤ off') with gd | ⟨gc, gc'⟩ | ge
    · rw [if_neg (by omega), readReg_dtu _ gd, readReg_dtu _ gd, putCmd_dtu]
    · rw [readReg_cmd _ gc gc', readReg_cmd _ gc gc', cmd_get_put _ _ _ _ (by omega) (by omega)]
      exact if_congr (by omega) rfl rfl
    · rw [if_neg (by omega), readReg_ep _ ge, readReg_ep _ ge, State.ep, State.ep, putCmd_eps]
  · rw [writeReg_ep s v he]
    have hlt : (off - 0x70) / 24 < s.eps.length := by simp only [Config.windowSize] at hoff; omega
    rcases (by omega : off' < 0x40 ∨ (0x40 ≤ off' ∧ off' < 0x70) ∨ 0x70 ≤ off') with gd | ⟨gc, gc'⟩ | ge
    · rw [if_neg (by omega), readReg_dtu _ gd, readReg_dtu _ gd, State.setEp_dtu]
    · rw [if_neg (by omega), readReg_cmd _ gc gc', readReg_cmd _ gc gc']
      exact getCmd_congr _ _ rfl rfl _
    · rw [readReg_ep _ ge, readReg_ep _ ge, State.ep_setEp _ _ _ _ hlt]
      by_cases hsame : (off' - 0x70) / 24 = (off - 0x70) / 24
      · rw [if_pos hsame, hsame, ep_get_put _ _ _ _ (by omega) (by omega)]
        exact if_congr (by omega) rfl rfl
      · rw [if_neg hsame, if_neg (by rintro rfl; exact hsame rfl)]

/-! ## The obligations -/

/-- Settles O13, region by region of the window. -/
theorem registersAreSeparate : Obligations.RegistersAreSeparate := by
  unfold Obligations.RegistersAreSeparate
  intro s off v hlen h8 hoff
  refine ⟨?_, fun off' h8' hne => ?_⟩
  · rw [readReg_writeReg s v hlen h8 hoff h8, if_pos rfl]
  · rw [readReg_writeReg s v hlen h8 hoff h8', if_neg hne]

/-- Settles O12: the fixed offsets by evaluation, the endpoints by `readReg_epWord`. -/
theorem registerMap : Obligations.RegisterMap := by
  unfold Obligations.RegisterMap
  intro s
  refine ⟨rfl, rfl, rfl, rfl, rfl, rfl, rfl, rfl, rfl, rfl, rfl, rfl, rfl, rfl, fun i => ?_⟩
  exact ⟨readReg_epWord s i 0 (by omega), readReg_epWord s i 1 (by omega), readReg_epWord s i 2 (by omega)⟩

end Sys2Proof.Machine
end

section
/-! PROOF. The operations of a ring keep its discipline (R44, R276, and C2 for the count). The discipline is first said
bit by bit, so that each operation only has to account for the one bit it changes. -/

namespace Sys2Proof.Machine

/-- The discipline bit by bit: an unread slot is occupied. -/
theorem RingOk.occupied_of_unread {e : EpWords} (h : RingOk e) {i : Nat} (hi : e.unread.getLsbD i = true) :
    e.occupied.getLsbD i = true := (subset_iff _ _).1 h.unread i hi

/-- An occupied slot is a slot of the ring, and so one of the 32 of the bitmaps. -/
theorem RingOk.lt_size {e : EpWords} (h : RingOk e) {i : Nat} (hi : e.occupied.getLsbD i = true) :
    i < e.size.toNat ∧ i < 32 := by
  have hlt : i < e.size.toNat := by
    by_contra hge
    rw [h.range i (Nat.not_lt.1 hge)] at hi
    cases hi
  exact ⟨hlt, lt_of_lt_of_le hlt h.size⟩

/-- The count falls by one with the bit of an unread slot (C2). -/
theorem RingOk.count_clear {e : EpWords} (h : RingOk e) {i : Nat} (hi : e.unread.getLsbD i = true) :
    (e.msgCount - 1).toNat = popcount (clearSlot e.unread i) := by
  have hlt := (h.lt_size (h.occupied_of_unread hi)).2
  have hpop := popcount_clear e.unread i hlt hi
  have hle := popcount_le e.unread
  have hcount := h.count
  have h1 : (1#16 : BitVec 16).toNat = 1 := rfl
  bv_omega

/-- The count rises by one with the bit of a slot that becomes unread (C2). -/
theorem RingOk.count_set {e : EpWords} (h : RingOk e) {i : Nat} (ho : e.occupied.getLsbD i = true)
    (hi : e.unread.getLsbD i = false) : (e.msgCount + 1).toNat = popcount (setSlot e.unread i) := by
  have hpop := popcount_set e.unread i (h.lt_size ho).2 hi
  have hle := popcount_le e.unread
  have hcount := h.count
  bv_omega

/-- A slot position after an operation lies in the ring. -/
theorem next_slot_lt {e : EpWords} (h : e.size.toNat ≤ 32) (idx : Nat) (h0 : 0 < e.size.toNat) :
    (BitVec.ofNat 6 ((idx + 1) % e.size.toNat)).toNat < e.size.toNat := by
  rw [mod6 idx _ h h0]; exact Nat.mod_lt _ h0

/-- A slot that is occupied anew keeps the unread slots occupied and the bitmap within the ring (R254). -/
theorem RingOk.allocated {e : EpWords} (h : RingOk e) {idx : Nat} (hi : e.freeSlot = some idx) :
    RingOk (e.allocated idx) := by
  obtain ⟨-, hlt, -⟩ := scanRing_eq_some hi
  refine ⟨by simpa [EpWords.allocated] using h.size, by simpa [EpWords.allocated] using h.rdPos, ?_, ?_, ?_, ?_⟩
  · simpa [EpWords.allocated] using next_slot_lt h.size idx
  · rw [subset_iff]
    intro i hu
    have ho := h.occupied_of_unread (i := i) (by simpa [EpWords.allocated] using hu)
    simp [EpWords.allocated, getLsbD_setSlot, ho]
  · intro i hge
    have hge' : e.size.toNat ≤ i := by simpa [EpWords.allocated] using hge
    have hne : i ≠ idx := by omega
    simp [EpWords.allocated, getLsbD_setSlot, h.range i hge', hne]
  · simpa [EpWords.allocated] using h.count

/-- An occupied slot that becomes unread is counted (R258). -/
theorem RingOk.received {e : EpWords} (h : RingOk e) {idx : Nat} (ho : e.occupied.getLsbD idx = true)
    (hu : e.unread.getLsbD idx = false) : RingOk (e.received idx) := by
  refine ⟨by simpa [EpWords.received] using h.size, by simpa [EpWords.received] using h.rdPos,
    by simpa [EpWords.received] using h.wrPos, ?_, by simpa [EpWords.received] using h.range, ?_⟩
  · rw [subset_iff]
    intro i hi
    simp only [EpWords.received, EpWords.withUnread_unread, EpWords.withUnread_occupied, EpWords.withMsgCount_occupied,
      getLsbD_setSlot, Bool.or_eq_true, Bool.and_eq_true, decide_eq_true_eq] at hi ⊢
    rcases hi with hi | ⟨-, rfl⟩
    · exact h.occupied_of_unread hi
    · exact ho
  · simpa [EpWords.received] using h.count_set ho hu

/-- A fetched slot is no longer unread nor counted (R266). -/
theorem RingOk.fetched {e : EpWords} (h : RingOk e) {idx : Nat} (hi : e.unreadSlot = some idx) :
    RingOk (e.fetched idx) := by
  obtain ⟨hu, -, -⟩ := scanRing_eq_some hi
  refine ⟨by simpa [EpWords.fetched] using h.size, ?_, by simpa [EpWords.fetched] using h.wrPos, ?_,
    by simpa [EpWords.fetched] using h.range, by simpa [EpWords.fetched] using h.count_clear hu⟩
  · simpa [EpWords.fetched] using next_slot_lt h.size idx
  · rw [subset_iff]
    intro i hi
    have := h.occupied_of_unread (i := i) (by simp [EpWords.fetched, getLsbD_clearSlot] at hi; exact hi.1)
    simpa [EpWords.fetched] using this

/-- A slot that has been read and is freed (R271). -/
theorem RingOk.freed {e : EpWords} (h : RingOk e) {idx : Nat} (hu : e.unread.getLsbD idx = false) :
    RingOk (e.freed idx) := by
  refine ⟨by simpa [EpWords.freed] using h.size, by simpa [EpWords.freed] using h.rdPos,
    by simpa [EpWords.freed] using h.wrPos, ?_, ?_, by simpa [EpWords.freed] using h.count⟩
  · rw [subset_iff]
    intro i hi
    have hi' : e.unread.getLsbD i = true := by simpa [EpWords.freed] using hi
    have hne : i ≠ idx := by rintro rfl; rw [hu] at hi'; cases hi'
    simp [EpWords.freed, getLsbD_clearSlot, h.occupied_of_unread hi', hne]
  · intro i hge
    simp [EpWords.freed, getLsbD_clearSlot, h.range i (by simpa [EpWords.freed] using hge)]

/-- An unread slot that is freed loses its message too (R271, D24). -/
theorem RingOk.dropped {e : EpWords} (h : RingOk e) {idx : Nat} (hu : e.unread.getLsbD idx = true) :
    RingOk ((e.freed idx).unreadDropped idx) := by
  refine ⟨by simpa [EpWords.freed, EpWords.unreadDropped] using h.size,
    by simpa [EpWords.freed, EpWords.unreadDropped] using h.rdPos,
    by simpa [EpWords.freed, EpWords.unreadDropped] using h.wrPos, ?_, ?_,
    by simpa [EpWords.freed, EpWords.unreadDropped] using h.count_clear hu⟩
  · rw [subset_iff]
    intro i hi
    simp only [EpWords.unreadDropped, EpWords.freed, EpWords.withMsgCount_unread, EpWords.withUnread_unread,
      EpWords.withOccupied_unread, EpWords.withMsgCount_occupied, EpWords.withUnread_occupied,
      EpWords.withOccupied_occupied, getLsbD_clearSlot, Bool.and_eq_true] at hi ⊢
    exact ⟨h.occupied_of_unread hi.1, hi.2⟩
  · intro i hge
    have hge' : e.size.toNat ≤ i := by simpa [EpWords.freed, EpWords.unreadDropped] using hge
    simp [EpWords.freed, EpWords.unreadDropped, getLsbD_clearSlot, h.range i hge']

/-- Settles O31, one lemma per operation. -/
theorem ringOperationsKeepTheDiscipline : Obligations.RingOperationsKeepTheDiscipline := by
  unfold Obligations.RingOperationsKeepTheDiscipline
  intro e h
  exact ⟨fun _ => h.allocated, fun _ => h.received, fun _ => h.fetched, fun _ _ hu => h.freed hu,
    fun _ hu => h.dropped hu⟩

end Sys2Proof.Machine
end

section
/-! PROOF. The count of upcalls in a row for one page (R360), and that there is one upcall at a time (R110, R359,
R361). -/

namespace Sys2Proof.Machine

/-! ## Repeated page faults -/

/-- An upcall for another page than the last starts the count at 1. -/
theorem countPagefault_other {s : State} {vpn : BitVec 52} (h : s.lastPfVpn ≠ some vpn) :
    s.countPagefault vpn = { s with lastPfVpn := some vpn, pfRepeat := 1 } := by
  simp [State.countPagefault, h, pfRepeatLimit]

/-- Another upcall for the same page, below the limit. -/
theorem countPagefault_again {s : State} {vpn : BitVec 52} (h : s.lastPfVpn = some vpn) (hn : s.pfRepeat + 1 ≠ 100) :
    s.countPagefault vpn = { s with lastPfVpn := some vpn, pfRepeat := s.pfRepeat + 1 } := by
  simp only [State.countPagefault, h, if_true, pfRepeatLimit, if_neg hn]

/-- The upcall that reaches the limit. -/
theorem countPagefault_limit {s : State} {vpn : BitVec 52} (h : s.lastPfVpn = some vpn) (hn : s.pfRepeat + 1 = 100) :
    s.countPagefault vpn = { s with
      lastPfVpn := some vpn
      pfRepeat := 0
      dtu := { s.dtu with lastPf := vpn.setWidth 64 <<< 12 }
      out := s.out ++ [.injectIrq 0x41#64] } := by
  simp only [State.countPagefault, h, if_true, hn, pfRepeatLimit, pageBits, pfIrqVector]

/-- Below the limit every upcall only counts. -/
theorem countPagefault_iterate {s : State} {vpn : BitVec 52} (h : s.lastPfVpn ≠ some vpn) (n : Nat) (hn : n + 1 < 100) :
    (fun x : State => x.countPagefault vpn)^[n + 1] s = { s with lastPfVpn := some vpn, pfRepeat := n + 1 } := by
  induction n with
  | zero => exact countPagefault_other h
  | succ n ih =>
    rw [Function.iterate_succ_apply', ih (by omega)]
    exact countPagefault_again rfl (by simp only; omega)

/-- Settles O56: 99 upcalls by induction, then the one at the limit. -/
theorem repeatedPagefault : Obligations.RepeatedPagefault := by
  unfold Obligations.RepeatedPagefault
  intro s vpn h
  refine ⟨fun n h1 hn => ?_, ?_⟩
  · obtain ⟨m, rfl⟩ : ∃ m, n = m + 1 := ⟨n - 1, by omega⟩
    exact countPagefault_iterate h m hn
  · show (fun x : State => x.countPagefault vpn)^[98 + 1 + 1] s = _
    rw [Function.iterate_succ_apply', countPagefault_iterate h 98 (by omega)]
    exact countPagefault_limit rfl rfl

/-! ## Joining and waiting -/

/-- The queue after a fault that joins a record of its page and access. -/
def joinRecords (virt : Word) (access : BitVec 5) (w : Waiter) (queue : List PfRecord) : List PfRecord :=
  queue.map fun q => if q.vpn = vpnOf virt ∧ q.access = access then { q with waiters := q.waiters ++ [w] } else q

/-- A fault for which a record is queued joins it (R350). -/
theorem startPagefault_joins {s : State} {virt : Word} {access : BitVec 5} {w : Waiter}
    (h : ∃ q ∈ s.pfQueue, q.vpn = vpnOf virt ∧ q.access = access) :
    startPagefault virt access w s = .next { s with pfQueue := joinRecords virt access w s.pfQueue } := by
  have hany : (s.pfQueue.any fun q => q.vpn == vpnOf virt && q.access == access) = true := by simpa using h
  rw [startPagefault, if_pos hany]; rfl

/-- A fault for which none is queued, while another is, waits behind it (R350, R361). -/
theorem startPagefault_waits {s : State} {virt : Word} {access : BitVec 5} {w : Waiter} (hq : s.pfQueue ≠ [])
    (h : ∀ q ∈ s.pfQueue, ¬ (q.vpn = vpnOf virt ∧ q.access = access)) :
    startPagefault virt access w s =
      .next { s with pfQueue := s.pfQueue ++ [⟨vpnOf virt, virt, access, [w], false, 0#64⟩] } := by
  have hany : ¬ (s.pfQueue.any fun q => q.vpn == vpnOf virt && q.access == access) = true := by simpa using h
  have hne : ¬ s.pfQueue.isEmpty = true := by simpa using hq
  rw [startPagefault, if_neg hany]
  exact if_neg hne

theorem startPagefault_behind_another {s : State} (virt : Word) (access : BitVec 5) (w : Waiter)
    (hq : s.pfQueue ≠ []) :
    ∃ queue, startPagefault virt access w s = .next { s with pfQueue := queue } ∧
      ((∃ q ∈ s.pfQueue, q.vpn = vpnOf virt ∧ q.access = access) →
        queue.length = s.pfQueue.length ∧
        ∀ (k : Nat) q, s.pfQueue[k]? = some q →
          queue[k]? = some (if q.vpn = vpnOf virt ∧ q.access = access then { q with waiters := q.waiters ++ [w] }
            else q)) ∧
      ((∀ q ∈ s.pfQueue, ¬ (q.vpn = vpnOf virt ∧ q.access = access)) →
        queue = s.pfQueue ++ [⟨vpnOf virt, virt, access, [w], false, 0#64⟩]) := by
  by_cases h : ∃ q ∈ s.pfQueue, q.vpn = vpnOf virt ∧ q.access = access
  · refine ⟨_, startPagefault_joins h, fun _ => ⟨List.length_map _, fun k q hk => ?_⟩, fun hno => ?_⟩
    · rw [joinRecords, List.getElem?_map, hk, Option.map_some]
    · obtain ⟨q, hmem, hv⟩ := h
      exact absurd hv (hno q hmem)
  · have hno : ∀ q ∈ s.pfQueue, ¬ (q.vpn = vpnOf virt ∧ q.access = access) := fun q hm hv => h ⟨q, hm, hv⟩
    exact ⟨_, startPagefault_waits hq hno, fun hex => absurd hex h, fun _ => rfl⟩

/-! ## Resolving -/

/-- A resolution whose waiters can be told ends after them if no record was next, else with the upcall of that one
(R356, R359). -/
theorem resolvePagefault_told {page : Option Word} {s t : State} {q : PfRecord} {rest : List PfRecord}
    (hq : s.pfQueue = q :: rest)
    (ht : forEach (fun w => notify w page) q.waiters { s with pfQueue := rest } = .next t) :
    resolvePagefault page s = if rest = [] then .next t else sendPagefault t := by
  simp only [resolvePagefault, hq, ht, andThen_next]
  cases rest <;> rfl

/-- A waiting transfer that is told goes on with its block or fails (R306, R312). -/
def tellXfer (page : Option Word) (s : State) (b : Nat) : State :=
  match page with
  | some p => s.issueBlock b p
  | none => s.failBlock b

theorem notify_xfer (page : Option Word) (s : State) (b : Nat) :
    notify (.xfer b) page s = .next (tellXfer page s b) := by
  cases page <;> rfl

/-- Waiting transfers are told one after the other. -/
theorem forEach_notify_xfer (page : Option Word) (bs : List Nat) (s : State) :
    forEach (fun w => notify w page) (bs.map .xfer) s = .next (bs.foldl (tellXfer page) s) := by
  induction bs generalizing s with
  | nil => rfl
  | cons b bs ih =>
    rw [List.map_cons, forEach_cons, notify_xfer, andThen_next, ih]; rfl

/-- A resolution sends one upcall if a record is left and none if none is (R110, R359, R361). -/
theorem resolvePagefault_upcalls {page : Option Word} {s t : State} (hs : s.pfQueue ≠ [])
    (h : resolvePagefault page s = .next t) :
    ∃ new, t.out = s.out ++ new ∧ new.countP Output.isUpcall = if t.pfQueue = [] then 0 else 1 := by
  rcases resolvePagefault_eq_next h with ⟨hq, -⟩ | ⟨q, rest, u, -, hu, hend⟩
  · exact absurd hq hs
  · obtain ⟨told, hout, hcount, hhead⟩ := Faulted.waiters hu
    rcases hend with ⟨rfl, rfl⟩ | ⟨hrest, hsend⟩
    · refine ⟨told, hout, ?_⟩
      rw [hcount]
      by_cases ht : t.pfQueue = [] <;> simp [ht]
    · obtain ⟨r, rs, rfl⟩ := List.exists_cons_of_ne_nil hrest
      obtain ⟨joined, more, hu'⟩ := hhead r rs rfl
      rcases sendPagefault_eq_next hsend with ⟨hnil, -⟩ | ⟨r', rest', token, new, -, ht, hout', hone⟩
      · rw [hu'] at hnil; cases hnil
      · refine ⟨told ++ new, by rw [hout', hout, List.append_assoc], ?_⟩
        rw [List.countP_append, hcount, hone, ht, if_neg (by simp), if_neg (by simp)]

/-- Settles O55: what a fault does behind another, then what a resolution does, then how many upcalls it sends. -/
theorem oneUpcallAtATime : Obligations.OneUpcallAtATime := by
  unfold Obligations.OneUpcallAtATime
  refine ⟨fun s virt access w hq => startPagefault_behind_another virt access w hq, ?_,
    fun s t page hs h => resolvePagefault_upcalls hs h⟩
  intro s page q rest hq tell left
  refine ⟨fun u => rfl, fun w ws u v hw => ?_, fun t ht => ⟨fun hr => ?_, fun r rs hr => ⟨?_, ?_⟩⟩, fun bs hbs => ?_⟩
  · show forEach _ (w :: ws) u = _
    rw [forEach_cons, hw, andThen_next]
  · rw [resolvePagefault_told hq ht, if_pos hr]
  · rw [resolvePagefault_told hq ht, if_neg (by simp [hr])]
  · obtain ⟨-, -, -, hhead⟩ := Faulted.waiters ht
    exact hhead r rs hr
  · exact resolvePagefault_told hq (hbs ▸ forEach_notify_xfer page bs left)

end Sys2Proof.Machine
end

section
/-! PROOF. What starts a transfer and what its end does: inbound READ_REQ and WRITE_REQ (R293 to R298), an inbound
message (R250 to R261), and the chunks of READ and WRITE (R284 to R291). -/

namespace Sys2Proof.Machine

/-! ## Starting and ending a transfer -/

theorem startTransfer_tooLarge {r : XferReq} {s : State}
    (h : s.cfg.bufSize < r.size + (if r.header.isSome then headerSize else 0)) :
    startTransfer r s = .fault .transferTooLarge := if_pos h

/-- The end of a transfer that read local memory for a READ_REQ (R311). -/
theorem completeTransfer_remoteRead {bytes : List Byte} {ev : XferEvent} {p : Packet} (s : State)
    (ht : ev.type = .remoteRead) (hp : ev.pkt = some p) :
    completeTransfer bytes ev s = .next (s.nocRespond p .noError (slice bytes 0 ev.total)) := by
  simp only [completeTransfer, ht, hp]

/-- The end of a transfer that wrote local memory for a WRITE_REQ (R311). -/
theorem completeTransfer_remoteWrite {bytes : List Byte} {ev : XferEvent} {p : Packet} (s : State)
    (ht : ev.type = .remoteWrite) (hm : ev.flags.msgRecv = false) (hp : ev.pkt = some p)
    (hn : p.needsResponse = true) : completeTransfer bytes ev s = .next (s.nocRespond p .noError []) := by
  simp only [completeTransfer, ht, hm, hp, State.respondIfNeeded, hn, if_true]

/-- The end of a transfer that read local memory for a packet of this DTU (R311). -/
theorem completeTransfer_localRead {bytes : List Byte} {ev : XferEvent} (s : State) (ht : ev.type = .localRead)
    (hl : ev.base + ev.total ≤ bytes.length) :
    completeTransfer bytes ev s =
      .next (State.nocSend { s with cmdState := s.cmdState.packetSent } ev.pktType ev.remoteAddr .write
        (ev.base + ev.total) (slice bytes 0 (ev.base + ev.total))
        (if ev.flags.message then .message else .writeChunk ev.flags.last)) := by
  have hlen : (slice bytes 0 (ev.base + ev.total)).length = ev.base + ev.total := length_slice (by omega)
  simp only [completeTransfer, ht, hlen]

theorem packetSent_of_ne {c : CmdState} (h : ∀ r, c ≠ .sendXfer r) : c.packetSent = c := by
  cases c with
  | sendXfer r => exact absurd rfl (h r)
  | _ => rfl

/-! ## READ_REQ and WRITE_REQ -/

/-- An offset that 13 bits hold is the offset of the register access. -/
theorem toNat_windowOffset {c : Config} {a : Nat} (h : a < c.regFileBaseAddr.toNat + 2 ^ 13) :
    (BitVec.ofNat 13 (a - c.regFileBaseAddr.toNat)).toNat = windowOffset c a := by
  rw [BitVec.toNat_ofNat, windowOffset]
  exact Nat.mod_eq_of_lt (by omega)

theorem execReadReq_window {s : State} {p : Packet} (h : inWindow s.cfg p.addr.offset.toNat = true) :
    execReadReq p s = registerRead (.noc p) (windowOffset s.cfg p.addr.offset.toNat) p.size s := if_pos h

theorem execReadReq_memory {s : State} {p : Packet} (h : inWindow s.cfg p.addr.offset.toNat = false) :
    execReadReq p s = startTransfer (remoteXfer .remoteRead p) s := if_neg (by simp [h])

theorem execWriteReq_window {s : State} {p : Packet} (h : inWindow s.cfg p.addr.offset.toNat = true) :
    execWriteReq p s = registerWrite (.noc p) (windowOffset s.cfg p.addr.offset.toNat) p.data s := if_pos h

theorem execWriteReq_memory {s : State} {p : Packet} (h : inWindow s.cfg p.addr.offset.toNat = false) :
    execWriteReq p s = startTransfer (remoteXfer .remoteWrite p) s := if_neg (by simp [h])

/-- Settles O42: the register window, too large, the transfer, its end. -/
theorem readRequestServed : Obligations.ReadRequestServed := by
  unfold Obligations.ReadRequestServed
  intro s p
  refine ⟨fun hw hlt => ?_, fun hw hbig => ?_, fun hw hfit => ?_, ?_⟩
  · show execReadReq p s = execRegRead (.noc p) _ p.size s
    rw [execReadReq_window hw, execRegRead, toNat_windowOffset hlt]
  · exact (execReadReq_memory hw).trans (startTransfer_tooLarge hbig)
  · exact (execReadReq_memory hw).trans (startTransfer_ok hfit)
  · intro b buf ev hb hf he ht hp hw hfa hs ho
    rw [release_step hb hf he hw hfa ho hs, completeTransfer_remoteRead _ ht hp]; rfl

/-- Settles O43: the register window, too large, the transfer, its end. -/
theorem writeRequestServed : Obligations.WriteRequestServed := by
  unfold Obligations.WriteRequestServed
  intro s p
  refine ⟨fun hw hlt => ?_, fun hw hbig => ?_, fun hw hfit => ?_, ?_⟩
  · show execWriteReq p s = execRegWrite (.noc p) _ p.data s
    rw [execWriteReq_window hw, execRegWrite, toNat_windowOffset hlt]
  · exact (execWriteReq_memory hw).trans (startTransfer_tooLarge hbig)
  · exact (execWriteReq_memory hw).trans (startTransfer_ok hfit)
  · intro b buf ev hb hf he ht hm hp hn hw hfa hs ho
    rw [release_step hb hf he hw hfa ho hs, completeTransfer_remoteWrite _ ht hm hp hn]; rfl

/-! ## Credits -/

/-- The header grants credits to a SEND endpoint with bounded credits (R261). -/
def Header.grantsTo (h : Header) (s : State) : Prop :=
  h.flags &&& 0x03#8 = 0x03#8 ∧ h.replyEp.toNat < s.cfg.numEndpoints ∧ (s.ep h.replyEp.toNat).type = 1#3 ∧
    (s.ep h.replyEp.toNat).credits ≠ 0xFFFF#16

/-- Two header flags are set if the field of both is (R142). -/
theorem hasFlag_reply_grant (f : Byte) :
    (hasFlag f flagReply && hasFlag f flagGrantCredits) = true ↔ f &&& 0x03#8 = 0x03#8 := by
  revert f; decide

theorem hasFlag_reply_pagefault (f : Byte) :
    (hasFlag f flagReply && hasFlag f flagPagefault) = true ↔ f &&& 0x09#8 = 0x09#8 := by
  revert f; decide

/-- The test of `grantCredits`. -/
theorem grantsTo_iff {h : Header} {s : State} :
    (hasFlag h.flags flagReply && hasFlag h.flags flagGrantCredits && decide (h.replyEp.toNat < s.cfg.numEndpoints) &&
      (s.ep h.replyEp.toNat).type == typeSend && (s.ep h.replyEp.toNat).credits != creditsUnlim) = true ↔
    Header.grantsTo h s := by
  rw [Bool.and_eq_true, Bool.and_eq_true, Bool.and_eq_true, hasFlag_reply_grant, decide_eq_true_eq, beq_iff_eq,
    bne_iff_ne, and_assoc, and_assoc]
  rfl

theorem grantCredits_none {h : Header} {s : State} (hg : ¬ Header.grantsTo h s) : grantCredits h s = .next s := by
  rw [← grantsTo_iff] at hg
  exact if_neg hg

theorem grantCredits_overflow {h : Header} {s : State} (hg : Header.grantsTo h s)
    (ho : 0xFFFE < (s.ep h.replyEp.toNat).credits.toNat + (s.ep h.replyEp.toNat).maxMsgSize.toNat) :
    grantCredits h s = .fault .creditOverflow := by
  rw [← grantsTo_iff] at hg
  exact (if_pos hg).trans (if_pos ho)

theorem grantCredits_granted {h : Header} {s : State} (hg : Header.grantsTo h s)
    (ho : ¬ 0xFFFE < (s.ep h.replyEp.toNat).credits.toNat + (s.ep h.replyEp.toNat).maxMsgSize.toNat) :
    grantCredits h s = .next (s.setEp h.replyEp.toNat ((s.ep h.replyEp.toNat).withCredits
      ((s.ep h.replyEp.toNat).credits + (s.ep h.replyEp.toNat).maxMsgSize))) := by
  rw [← grantsTo_iff] at hg
  exact (if_pos hg).trans (if_neg ho)

/-- An endpoint that is not the one written; nothing is asked of the number of the written one. -/
theorem State.ep_setEp_ne (s : State) {a b : Nat} (w : EpWords) (h : a ≠ b) : (s.setEp a w).ep b = s.ep b := by
  simp only [State.ep, State.setEp, List.getD_eq_getElem?_getD, List.getElem?_set_ne h]

/-- A grant leaves the endpoint that receives the message alone: that one is no SEND endpoint. -/
theorem ep_of_granted {h : Header} {s : State} {t : Nat} (w : EpWords) (hg : Header.grantsTo h s)
    (ht : (s.ep t).type = 2#3) : (s.setEp h.replyEp.toNat w).ep t = s.ep t := by
  refine s.ep_setEp_ne w ?_
  rintro rfl
  have hsend := hg.2.2.1
  rw [ht] at hsend
  exact absurd hsend (by decide)

/-! ## An inbound message -/

/-- A message for this VPE that is no page-fault reply, and for which there is a free slot, gets the slot after its
credits are granted (R250, R252, R255, R261). -/
theorem receiveMessage_slot {s : State} {p : Packet} {idx : Nat} (hsize : headerSize ≤ p.size)
    (hvpe : s.dtu.vpeId.toNat = p.addr.vpeId.toNat) (hpf : (decodeHeader p.data).flags &&& 0x09#8 ≠ 0x09#8)
    (hep : p.addr.offset.toNat < s.cfg.numEndpoints) (htype : (s.ep p.addr.offset.toNat).type = typeReceive)
    (hfit : p.size ≤ (s.ep p.addr.offset.toNat).msgSize.toNat)
    (hslot : (s.ep p.addr.offset.toNat).freeSlot = some idx) :
    receiveMessage p s = andThen (grantCredits (decodeHeader p.data) s) fun u =>
      startTransfer (receiveXfer p ((s.ep p.addr.offset.toNat).slotAddr idx) p.addr.offset.toNat idx)
        (u.setEp p.addr.offset.toNat ((u.ep p.addr.offset.toNat).allocated idx)) := by
  have hv : s.dtu.vpeId = p.addr.vpeId.setWidth 64 := by
    apply BitVec.eq_of_toNat_eq
    rw [hvpe, BitVec.toNat_setWidth, Nat.mod_eq_of_lt (by omega)]
  have hflags := mt (hasFlag_reply_pagefault _).1 hpf
  simp only [receiveMessage]
  rw [if_neg (Nat.not_lt.2 hsize), if_neg (not_not_intro hv), if_neg hflags, withEndpoint_ok hep htype,
    if_neg (Nat.not_lt.2 hfit), hslot]

/-- Settles O33: the slot by `receiveMessage_slot`, the credits by the three cases of a grant. -/
theorem messageAccepted : Obligations.MessageAccepted := by
  unfold Obligations.MessageAccepted
  intro s i p hi hsize hvpe hpf hep htype h t e slot r g granted overflow hfit k hk hfree hbusy
  have hslot : e.freeSlot = some (slot k) :=
    scanRing_first hk (by simpa using hfree) fun j hj => by simpa using hbusy j hj
  have hexec : exec i s = andThen (grantCredits h s) fun u =>
      startTransfer (receiveXfer p (e.slotAddr (slot k)) t (slot k)) (u.setEp t ((u.ep t).allocated (slot k))) := by
    have hrecv : exec i s = receiveMessage p s := by rcases hi with rfl | rfl <;> rfl
    rw [hrecv, receiveMessage_slot hsize hvpe hpf hep htype hfit hslot]
  refine ⟨fun hg ho => ?_, fun hno hbig => ?_, fun eps heps hok => ?_⟩
  · rw [hexec, grantCredits_overflow hg ho, andThen_fault]
  · rw [hexec]
    by_cases hg : granted
    · rw [grantCredits_granted hg fun ho => hno ⟨hg, ho⟩, andThen_next]
      exact startTransfer_tooLarge hbig
    · rw [grantCredits_none hg, andThen_next]
      exact startTransfer_tooLarge hbig
  · rw [hexec]
    rcases heps with ⟨hg, rfl⟩ | ⟨hg, ho, rfl⟩
    · rw [grantCredits_none hg, andThen_next]
      exact startTransfer_ok hok
    · rw [grantCredits_granted hg ho, andThen_next, ep_of_granted _ hg htype]
      exact startTransfer_ok hok

/-! ## Chunks of READ and WRITE -/

/-- A response whose data is what R95 says reaches its waiter (R392). -/
theorem nocRespondStep_deliver {s : State} {k : Nat} {q : NocReq} {r : ErrorCode} {data : List Byte}
    (hq : s.nocOutstanding[k]? = some q) (hok : responseOk q.pkt r data = true) :
    nocRespondStep k r data s = nocDeliver q r data { s with nocOutstanding := s.nocOutstanding.eraseIdx k } := by
  simp only [nocRespondStep, hq, hok, Bool.true_eq_false, if_false]

theorem responseOk_read {p : WirePacket} {data : List Byte} (hk : p.kind = .read) (h : data.length = p.size) :
    responseOk p .noError data = true := by
  simp [responseOk, hk, h]

theorem responseOk_write {p : WirePacket} (hk : p.kind = .write) : responseOk p .noError [] = true := by
  simp [responseOk, hk]

theorem responseOk_error {p : WirePacket} {r : ErrorCode} {data : List Byte} (h : r ≠ .noError) :
    responseOk p r data = true := if_neg h

/-- A field that does not fit its width gives no NoC address (R131). -/
theorem nocAddr_misfit {core vpe off : Nat} (h : 2 ^ 11 ≤ vpe ∨ 2 ^ 37 ≤ off) : nocAddr core vpe off = none :=
  if_neg (by omega)

/-- The end of a READ or WRITE: the three operand registers are left open (R290). -/
theorem finishCommand_leavesOperandsOpen {s : State} (hp : s.cmdInProgress = true) (hm : s.cmdState.isMem = true)
    (err : ErrorCode) : ∃ a n o d, finishCommand err s = .next { s with
      command := finishedCommand s.cfg err
      opnd := { s.opnd with dataAddr := a, dataSize := n, offset := o }
      cmdInProgress := false
      cmdState := .none
      staleOperands := []
      draws := d } :=
  ⟨_, _, _, _, finishCommand_mem hp hm err⟩

/-- The request of the next chunk of a READ (R284). -/
theorem readChunk_sends {m : MemCtx} {at_ : Nat} {s : State} {w : Word} (h : s.chunkTarget m at_ = some w) :
    readChunk m at_ s = .next ({ s with cmdState := .memRead m at_ }.nocSend .readReq w .read
      (chunkLength s.cfg m.dataSize.toNat at_) [] (.readChunk (isLastChunk s.cfg m.dataSize.toNat at_))) := by
  simp only [readChunk, h]

theorem readChunk_misfit {m : MemCtx} {at_ : Nat} {s : State} (h : s.chunkTarget m at_ = none) :
    readChunk m at_ s = .fault .nocAddrField := by
  simp only [readChunk, h]

/-- The transfer of the next chunk of a WRITE (R287). -/
theorem writeChunk_starts {m : MemCtx} {at_ : Nat} {s : State} {w : Word} (h : s.chunkTarget m at_ = some w)
    (hfit : s.cfg.maxNocPacketSize ≤ s.cfg.bufSize) :
    writeChunk m at_ s = .next { s with
      cmdState := .memWrite m at_
      pendingTransfers := s.pendingTransfers ++
        [writeChunkXfer w (m.dataAddr + BitVec.ofNat 64 at_) (chunkLength s.cfg m.dataSize.toNat at_)
          (isLastChunk s.cfg m.dataSize.toNat at_)] } := by
  have hlen : chunkLength s.cfg m.dataSize.toNat at_ ≤ s.cfg.bufSize := le_trans (Nat.min_le_left _ _) hfit
  simp only [writeChunk, h]
  exact startTransfer_ok hlen

theorem writeChunk_misfit {m : MemCtx} {at_ : Nat} {s : State} (h : s.chunkTarget m at_ = none) :
    writeChunk m at_ s = .fault .nocAddrField := by
  simp only [writeChunk, h]

/-- The response to a chunk of READ starts the transfer that stores its data (R284, step B). -/
theorem nocDeliver_readChunk {s : State} {q : NocReq} {last : Bool} {m : MemCtx} {done : Nat} (data : List Byte)
    (hw : q.waiter = .readChunk last) (hc : s.cmdState = .memRead m done) :
    nocDeliver q .noError data s =
      startTransfer (readChunkXfer q.pkt.addr (m.dataAddr + BitVec.ofNat 64 done) data q.pkt.size last) s := by
  simp only [nocDeliver, hw, hc, ne_eq, not_true, if_false]

/-- The response to a chunk of WRITE that is not the last goes on with the next chunk (R287, step C). -/
theorem nocDeliver_writeChunk {s : State} {q : NocReq} {m : MemCtx} {done : Nat} (data : List Byte)
    (hw : q.waiter = .writeChunk false) (hc : s.cmdState = .memWrite m done) :
    nocDeliver q .noError data s = writeChunk m (done + q.pkt.size) s := by
  simp only [nocDeliver, hw, hc, ne_eq, not_true, Bool.false_eq_true, if_false]

/-- A failed chunk, and the last chunk of a WRITE, end the command. -/
theorem nocDeliver_chunk_ends {s : State} {q : NocReq} {r : ErrorCode} (data : List Byte) {last : Bool}
    (h : (q.waiter = .readChunk last ∧ r ≠ .noError) ∨ (q.waiter = .writeChunk last ∧ r ≠ .noError) ∨
      (q.waiter = .writeChunk true ∧ r = .noError)) : nocDeliver q r data s = finishCommand r s := by
  rcases h with ⟨hw, hr⟩ | ⟨hw, hr⟩ | ⟨hw, rfl⟩
  · simp only [nocDeliver, hw]; exact if_pos hr
  · simp only [nocDeliver, hw]; exact if_pos hr
  · simp only [nocDeliver, hw]; rfl

/-- Settles O41: the responses, then the end of the transfer of a READ. -/
theorem chunkResponses : Obligations.ChunkResponses := by
  unfold Obligations.ChunkResponses
  intro s m done hprog target chunk isLast misfit
  constructor
  · intro k p last r data t
    refine ⟨?_, ?_, ?_, ?_⟩
    · intro hq hc hk hlen hfit
      rw [nocRespondStep_deliver hq (responseOk_read hk hlen), nocDeliver_readChunk (s := t) data rfl hc]
      exact startTransfer_ok hfit
    · intro w hq hc hk htarget hfit
      rw [nocRespondStep_deliver hq (responseOk_write hk), nocDeliver_writeChunk (s := t) [] rfl hc]
      exact writeChunk_starts htarget hfit
    · intro hq hc hk hmis
      rw [nocRespondStep_deliver hq (responseOk_write hk), nocDeliver_writeChunk (s := t) [] rfl hc]
      exact writeChunk_misfit (nocAddr_misfit hmis)
    · intro hend
      obtain ⟨q, hq, hok, hwaiter, hmem⟩ : ∃ q, s.nocOutstanding[k]? = some q ∧ responseOk q.pkt r data = true ∧
          ((q.waiter = .readChunk last ∧ r ≠ .noError) ∨ (q.waiter = .writeChunk last ∧ r ≠ .noError) ∨
            (q.waiter = .writeChunk true ∧ r = .noError)) ∧ s.cmdState.isMem = true := by
        rcases hend with ⟨hq, hc, hr⟩ | ⟨hq, hc, hr⟩ | ⟨hq, hc, rfl, hk, rfl⟩
        · exact ⟨_, hq, responseOk_error hr, .inl ⟨rfl, hr⟩, by rw [hc]; rfl⟩
        · exact ⟨_, hq, responseOk_error hr, .inr (.inl ⟨rfl, hr⟩), by rw [hc]; rfl⟩
        · exact ⟨_, hq, responseOk_write hk, .inr (.inr ⟨rfl, rfl⟩), by rw [hc]; rfl⟩
      rw [nocRespondStep_deliver hq hok, nocDeliver_chunk_ends data hwaiter]
      exact finishCommand_leavesOperandsOpen (s := t) hprog hmem r
  · intro b buf ev hb hf he ht hw hfa hs ho hc t
    rw [release_step hb hf he hw hfa ho hs]
    have hmem : s.cmdState.isMem = true := by rw [hc]; rfl
    refine ⟨fun hlast => ?_, fun hlast hmis => ?_, fun w hlast htarget => ?_⟩
    · simp only [completeTransfer, ht, hlast, if_true]
      exact finishCommand_leavesOperandsOpen (s := t) hprog hmem .noError
    · simp only [completeTransfer, ht, hlast, Bool.false_eq_true, if_false, hc]
      exact readChunk_misfit (nocAddr_misfit hmis)
    · simp only [completeTransfer, ht, hlast, Bool.false_eq_true, if_false, hc]
      exact readChunk_sends (s := t) htarget

end Sys2Proof.Machine
end

section
/-! PROOF. A transfer without a TLB runs to its end: its blocks are issued and answered one after the other, which moves
all its bytes, and its last step completes it (R82, R305 to R311). The schedule that is shown answers each block before
the next is issued. -/

namespace Sys2Proof.Machine

/-! ## Bytes of a buffer and of memory -/

/-- The front of a buffer with a byte string laid over the rest of it. -/
theorem slice_splice {bs d : List Byte} {p : Nat} (h : p + d.length ≤ bs.length) :
    slice (splice bs p d) 0 (p + d.length) = slice bs 0 p ++ d := by
  have hp : (bs.take p ++ d).length = p + d.length := by simp; omega
  rw [splice_eq h, slice, slice, List.drop_zero, List.drop_zero, List.take_append_of_le_length hp.ge,
    List.take_of_length_le hp.le]

/-- The address after a byte, when bytes are left before the end of the address space. -/
theorem toNat_succ {a : Word} {n : Nat} (h : a.toNat + (n + 2) ≤ 2 ^ 64) : (a + 1).toNat = a.toNat + 1 := by
  have h1 : (1#64 : Word).toNat = 1 := rfl
  bv_omega

/-- A byte outside the written stretch. -/
theorem Memory.read_writeBytes_outside {m : Memory} (hm : Memory.wf m = true) {a : Word} {d : List Byte}
    (hs : a.toNat + d.length ≤ 2 ^ 64) {x : Nat} (hx : x < a.toNat ∨ a.toNat + d.length ≤ x) :
    (m.writeBytes a d).read x = m.read x := by
  induction d generalizing m a with
  | nil => rfl
  | cons v vs ih =>
    have hne : x ≠ a.toNat := by simp only [List.length_cons] at hx; omega
    have hone : (m.write a.toNat v).read x = m.read x := by rw [Memory.read_write hm, if_neg hne]
    cases vs with
    | nil => exact hone
    | cons w ws =>
      have hnext : (a + 1).toNat = a.toNat + 1 := toNat_succ (n := ws.length) hs
      simp only [List.length_cons] at hs hx ih
      rw [Memory.writeBytes, ih (Memory.wf_write hm a.isLt v) (by omega) (by omega), hone]

/-- A byte of the written stretch. -/
theorem Memory.read_writeBytes_inside {m : Memory} (hm : Memory.wf m = true) {a : Word} {d : List Byte}
    (hs : a.toNat + d.length ≤ 2 ^ 64) {k : Nat} (hk : k < d.length) :
    d[k]? = some ((m.writeBytes a d).read (a.toNat + k)) := by
  induction d generalizing m a k with
  | nil => cases hk
  | cons v vs ih =>
    have hwf := Memory.wf_write hm a.isLt v
    have hnext : vs ≠ [] → (a + 1).toNat = a.toNat + 1 := fun hne => by
      obtain ⟨w, ws, rfl⟩ := List.exists_cons_of_ne_nil hne
      exact toNat_succ (n := ws.length) hs
    simp only [List.length_cons] at hs hk
    rw [Memory.writeBytes]
    cases k with
    | zero =>
      have hfirst : ((m.write a.toNat v).writeBytes (a + 1) vs).read a.toNat = v := by
        cases vs with
        | nil => rw [Memory.writeBytes, Memory.read_write hm, if_pos rfl]
        | cons w ws =>
          rw [Memory.read_writeBytes_outside hwf (by rw [hnext (by simp)]; omega) (by rw [hnext (by simp)]; omega),
            Memory.read_write hm, if_pos rfl]
      rw [Nat.add_zero, hfirst]; rfl
    | succ k =>
      have hne : vs ≠ [] := List.ne_nil_of_length_pos (by omega)
      rw [List.getElem?_cons_succ, ih hwf (by rw [hnext hne]; omega) (by omega), hnext hne,
        Nat.add_assoc, Nat.add_comm 1 k]

/-! ## What moving bytes does -/

/-- The event after `n` bytes have moved: issued and answered. -/
def XferEvent.moved (ev : XferEvent) (n : Nat) : XferEvent :=
  { ev with localAddr := ev.localAddr + BitVec.ofNat 64 n, size := ev.size - n }

/-- The memory after the next `n` bytes of a transfer have moved. -/
def State.movedMem (s : State) (buf : Buffer) (ev : XferEvent) (n : Nat) : Memory :=
  if ev.type.writesLocal then s.mem.writeBytes ev.localAddr (slice buf.bytes ev.pos n) else s.mem

/-- The bytes of its buffer then. -/
def State.movedBytes (s : State) (buf : Buffer) (ev : XferEvent) (n : Nat) : List Byte :=
  if ev.type.writesLocal then buf.bytes else splice buf.bytes ev.pos (s.mem.readBytes ev.localAddr n)

/-- Its buffer then. -/
def State.movedBuf (s : State) (buf : Buffer) (ev : XferEvent) (n : Nat) : Buffer :=
  { buf with bytes := s.movedBytes buf ev n, offset := buf.offset + n, event := some (ev.moved n) }

/-- The state then. -/
def State.moved (s : State) (b : Nat) (buf : Buffer) (ev : XferEvent) (n : Nat) : State :=
  { s with mem := s.movedMem buf ev n, bufs := s.bufs.set b (s.movedBuf buf ev n) }

/-- A transfer that moves bytes without a TLB: buffer `b` is in use, nothing of it is on the way or has failed, and its
bytes lie in the buffer, in the address space and in backed memory. -/
structure Moving (s : State) (b : Nat) (buf : Buffer) (ev : XferEvent) : Prop where
  valid : s.cfg.valid = true
  noTlb : s.cfg.tlbEntries = 0
  here : s.bufs[b]? = some buf
  used : buf.free = false
  event : buf.event = some ev
  waiting : ev.waiting = false
  failed : ev.failed = false
  outstanding : ev.outstanding = 0
  space : ev.localAddr.toNat + ev.size ≤ 2 ^ 64
  place : (ev.localAddr - ev.start).toNat + ev.size ≤ 2 ^ 64
  fits : ev.pos + ev.size ≤ buf.bytes.length
  backed : s.cfg.backs ev.localAddr.toNat ev.size = true

theorem toNat_add_ofNat {a : Word} {n : Nat} (h : a.toNat + n < 2 ^ 64) :
    (a + BitVec.ofNat 64 n).toNat = a.toNat + n := by
  rw [BitVec.toNat_add, BitVec.toNat_ofNat]; omega

section
variable {s : State} {b : Nat} {buf : Buffer} {ev : XferEvent} {n : Nat}

@[simp] theorem State.length_movedBytes : (s.movedBytes buf ev n).length = buf.bytes.length := by
  simp only [State.movedBytes]; split <;> simp

/-- The event is where the bytes are, as long as some are left. -/
theorem Moving.offset_moved (h : Moving s b buf ev) (hn : n < ev.size) :
    ((ev.moved n).localAddr - (ev.moved n).start).toNat = (ev.localAddr - ev.start).toNat + n := by
  have hp := h.place
  have hsub : ev.localAddr + BitVec.ofNat 64 n - ev.start = (ev.localAddr - ev.start) + BitVec.ofNat 64 n := by
    bv_omega
  rw [XferEvent.moved, hsub, toNat_add_ofNat (by omega)]

theorem Moving.pos_moved (h : Moving s b buf ev) (hn : n < ev.size) : (ev.moved n).pos = ev.pos + n := by
  rw [XferEvent.pos, h.offset_moved hn, XferEvent.pos, Nat.add_assoc]; rfl

/-- A transfer of which bytes have moved, and are left, goes on. -/
theorem Moving.moved (h : Moving s b buf ev) (hn : n < ev.size) :
    Moving (s.moved b buf ev n) b (s.movedBuf buf ev n) (ev.moved n) where
  valid := h.valid
  noTlb := h.noTlb
  here := List.getElem?_set_self (List.getElem?_eq_some_iff.1 h.here).1
  used := h.used
  event := rfl
  waiting := h.waiting
  failed := h.failed
  outstanding := h.outstanding
  space := by
    have := h.space
    simp only [XferEvent.moved]; rw [toNat_add_ofNat (by omega)]; omega
  place := by
    have := h.place
    rw [h.offset_moved hn]; simp only [XferEvent.moved]; omega
  fits := by
    have := h.fits
    rw [h.pos_moved hn]; simp only [State.movedBuf, State.length_movedBytes, XferEvent.moved]; omega
  backed := by
    have := h.space
    refine backs_sub h.backed (n' := ev.size - n) ?_ ?_ (by omega)
    all_goals simp only [XferEvent.moved]; rw [toNat_add_ofNat (by omega)]; omega

/-- Moving `n` bytes and then `k` more is moving `n + k`. -/
theorem Moving.moved_moved (h : Moving s b buf ev) {k : Nat} (hn : n < ev.size) (hk : n + k ≤ ev.size) :
    (s.moved b buf ev n).moved b (s.movedBuf buf ev n) (ev.moved n) k = s.moved b buf ev (n + k) := by
  have hfits := h.fits
  have hpos := h.pos_moved hn
  have hmem : (s.moved b buf ev n).movedMem (s.movedBuf buf ev n) (ev.moved n) k = s.movedMem buf ev (n + k) := by
    cases hw : ev.type.writesLocal with
    | false => simp [State.movedMem, State.moved, XferEvent.moved, hw]
    | true =>
      have hlen : (slice buf.bytes ev.pos n).length = n := length_slice (by omega)
      have hw' : (ev.moved n).type.writesLocal = true := hw
      simp only [State.movedMem, State.moved, State.movedBuf, State.movedBytes, hw, hw', if_true, hpos]
      rw [slice_add, writeBytes_append, hlen]; rfl
  have hbytes : (s.moved b buf ev n).movedBytes (s.movedBuf buf ev n) (ev.moved n) k = s.movedBytes buf ev (n + k) := by
    cases hw : ev.type.writesLocal with
    | true => simp [State.movedBytes, State.movedBuf, XferEvent.moved, hw]
    | false =>
      have hw' : (ev.moved n).type.writesLocal = false := hw
      simp only [State.movedBytes, State.moved, State.movedBuf, State.movedMem, hw, hw', Bool.false_eq_true, if_false,
        hpos]
      rw [splice_splice (by simp) (by simp; omega), readBytes_add]; rfl
  have hev : (ev.moved n).moved k = ev.moved (n + k) := by
    simp only [XferEvent.moved, BitVec.add_assoc, ← BitVec.ofNat_add, Nat.sub_sub]
  have hbuf : (s.moved b buf ev n).movedBuf (s.movedBuf buf ev n) (ev.moved n) k = s.movedBuf buf ev (n + k) := by
    rw [State.movedBuf, hbytes, hev]
    simp only [State.movedBuf, Nat.add_assoc]
  rw [State.moved, hmem, hbuf]
  simp only [State.moved, List.set_set]

/-- Moving no byte changes nothing. -/
theorem Moving.moved_zero (h : Moving s b buf ev) : s.moved b buf ev 0 = s := by
  have hmem : s.movedMem buf ev 0 = s.mem := by simp [State.movedMem, slice, Memory.writeBytes]
  have hbytes : s.movedBytes buf ev 0 = buf.bytes := by simp [State.movedBytes, Memory.readBytes, splice_nil]
  have hev : ev.moved 0 = ev := by simp [XferEvent.moved]
  have hbuf : s.movedBuf buf ev 0 = buf := by rw [State.movedBuf, hbytes, hev, ← h.event]; rfl
  have hset : s.bufs.set b buf = s.bufs := by
    apply List.ext_getElem?
    intro i
    rw [List.getElem?_set]
    split
    · next hi => subst hi; rw [if_pos (List.getElem?_eq_some_iff.1 h.here).1, h.here]
    · rfl
  rw [State.moved, hmem, hbuf, hset]

/-! ## The run -/

/-- The state after the next block of `n` bytes has been issued (R308). -/
def State.issued (s : State) (b : Nat) (buf : Buffer) (ev : XferEvent) (n : Nat) : State :=
  { s with
    bufs := s.bufs.set b { buf with event := some (ev.advanced n) }
    memOutstanding := s.memOutstanding ++ [⟨ev.localAddr, blockOp buf ev n, .xfer b ev.pos⟩] }

/-- The next block is issued and then answered: its bytes have moved (R305 to R309). -/
theorem Moving.block (h : Moving s b buf ev) (hs : ev.size ≠ 0) (hn : n = blockPiece s.cfg ev.localAddr ev.size) :
    forEach runEvent [.xfer b, .memAnswer s.memOutstanding.length] s = .next (s.moved b buf ev n) := by
  obtain ⟨hpos, hle⟩ := blockPiece_pos h.valid ev.localAddr hs
  rw [← hn] at hpos hle
  have hfits := h.fits
  have hlt := (List.getElem?_eq_some_iff.1 h.here).1
  have hop : (blockOp buf ev n).size = n := by
    simp only [blockOp]
    split
    · exact length_slice (by omega)
    · rfl
  have hbacked : s.cfg.backs ev.localAddr.toNat n = true := backs_sub h.backed le_rfl (by omega) (by omega)
  have hissue : xferStep b s = .next (s.issued b buf ev n) :=
    xferStep_block h.noTlb h.here h.used h.event h.waiting h.failed hs hn
  have hanswer := memAnswer_block (s := s.issued b buf ev n) (buf := { buf with event := some (ev.advanced n) }) rfl
    (List.getElem?_set_self hlt) h.used rfl hop hbacked
  rw [forEach_cons, runEvent, hissue, andThen_next, forEach_cons, runEvent, hanswer, andThen_next, forEach_nil]
  have hout : ({ ev.advanced n with outstanding := (ev.advanced n).outstanding - 1 } : XferEvent) = ev.moved n := by
    simp only [XferEvent.advanced, XferEvent.moved, h.outstanding, h.waiting]
  cases hw : ev.type.writesLocal with
  | true =>
    simp only [State.issued, blockOp, hw, if_true, State.memPerform, State.funcWrite, splice_nil, hout,
      List.set_set, State.moved, State.movedMem, State.movedBuf, State.movedBytes]
  | false =>
    simp only [State.issued, blockOp, hw, Bool.false_eq_true, if_false, State.memPerform, hout,
      List.set_set, State.moved, State.movedMem, State.movedBuf, State.movedBytes]

/-- A transfer can move all its bytes: block by block, by induction on the bytes that are left. -/
theorem Moving.run (h : Moving s b buf ev) :
    ∃ events, forEach runEvent events s = .next (s.moved b buf ev ev.size) := by
  induction hsize : ev.size using Nat.strong_induction_on generalizing s buf ev with
  | _ size ih =>
    subst hsize
    by_cases hs : ev.size = 0
    · exact ⟨[], by rw [hs, h.moved_zero]; rfl⟩
    · obtain ⟨hpos, hle⟩ := blockPiece_pos h.valid ev.localAddr hs
      obtain ⟨n, hn⟩ : ∃ n, n = blockPiece s.cfg ev.localAddr ev.size := ⟨_, rfl⟩
      rw [← hn] at hpos hle
      have hblock := h.block hs hn
      by_cases hlast : n = ev.size
      · exact ⟨_, hlast ▸ hblock⟩
      · have hlt : n < ev.size := by omega
        obtain ⟨events, hrest⟩ := ih (ev.size - n) (by omega) (h.moved hlt) rfl
        refine ⟨[.xfer b, .memAnswer s.memOutstanding.length] ++ events, ?_⟩
        rw [forEach_append, hblock, andThen_next, hrest, h.moved_moved hlt (by omega)]
        congr 2; omega

/-- The state in which all bytes have moved and the buffer has been released. -/
def State.released (s : State) (b : Nat) (buf : Buffer) (ev : XferEvent) : State :=
  { s with mem := s.movedMem buf ev ev.size, bufs := s.bufs.set b (s.movedBuf buf ev ev.size).release }

/-- A transfer can run to its completion, which finds the bytes that have moved (R310, R311, R313). -/
theorem Moving.completes (h : Moving s b buf ev) :
    ∃ events, forEach runEvent events s =
      completeTransfer (s.movedBytes buf ev ev.size) (ev.moved ev.size) (s.released b buf ev) := by
  obtain ⟨events, hrun⟩ := h.run
  refine ⟨events ++ [.xfer b], ?_⟩
  have hb : (s.moved b buf ev ev.size).bufs[b]? = some (s.movedBuf buf ev ev.size) :=
    List.getElem?_set_self (List.getElem?_eq_some_iff.1 h.here).1
  have hend := release_step hb h.used rfl h.waiting h.failed h.outstanding (Nat.sub_self _)
  have hone : ∀ r : Result, andThen r (forEach runEvent []) = r := fun r => by cases r <;> rfl
  rw [forEach_append, hrun, andThen_next, forEach_cons, runEvent, hend, hone]
  simp only [State.moved, State.movedBuf, State.released, List.set_set]

theorem Moving.event_released (h : Moving s b buf ev) : (s.released b buf ev).event b = none := by
  have hb : (s.released b buf ev).bufs[b]? = some (s.movedBuf buf ev ev.size).release :=
    List.getElem?_set_self (List.getElem?_eq_some_iff.1 h.here).1
  simp only [State.event, hb, Buffer.release, if_true]

/-- A transfer at its beginning, in a state with the invariant, can move its bytes. -/
theorem Moving.of_inv (hi : Inv s) (h0 : s.cfg.tlbEntries = 0) (hb : s.bufs[b]? = some buf) (he : buf.event = some ev)
    (hw : ev.waiting = false) (hfa : ev.failed = false) (ho : ev.outstanding = 0) (hstart : ev.localAddr = ev.start)
    (hsize : ev.size = ev.total) (hspace : ev.start.toNat + ev.total ≤ 2 ^ 64)
    (hbacked : s.cfg.backs ev.start.toNat ev.total = true) : Moving s b buf ev ∧ ev.pos = ev.base := by
  obtain ⟨hlen, hfree, hfit⟩ := hi.bufs buf (List.mem_of_getElem? hb)
  have hzero : (ev.localAddr - ev.start).toNat = 0 := by rw [hstart, BitVec.sub_self]; rfl
  have hpos : ev.pos = ev.base := by rw [XferEvent.pos, hzero, Nat.add_zero]
  refine ⟨⟨hi.cfg, h0, hb, by rw [hfree, he]; rfl, he, hw, hfa, ho, ?_, ?_, ?_, ?_⟩, hpos⟩
  · rw [hstart, hsize]; exact hspace
  · rw [hzero, hsize]; omega
  · rw [hpos, hsize, hlen]; exact (hfit ev he).1
  · rw [hstart, hsize]; exact hbacked

end

/-! ## The obligations -/

/-- What the last step of a transfer that read local memory does, whatever has moved (R310, R311, R313). -/
theorem xferStep_localRead_last {s : State} {b : Nat} {buf : Buffer} {ev : XferEvent} (hb : s.bufs[b]? = some buf)
    (hf : buf.free = false) (he : buf.event = some ev) (ht : ev.type = .localRead) (hw : ev.waiting = false)
    (hfa : ev.failed = false) (hs : ev.size = 0) (ho : ev.outstanding = 0)
    (hl : ev.base + ev.total ≤ buf.bytes.length) :
    xferStep b s = .next (State.nocSend
      { s with bufs := s.bufs.set b buf.release, cmdState := s.cmdState.packetSent } ev.pktType ev.remoteAddr .write
        (ev.base + ev.total) (slice buf.bytes 0 (ev.base + ev.total))
        (if ev.flags.message then .message else .writeChunk ev.flags.last)) := by
  rw [release_step hb hf he hw hfa ho hs, completeTransfer_localRead _ ht hl]

/-- Settles O47: the run by `Moving.completes`, the last step by `xferStep_localRead_last`. -/
theorem localReadSendsWhatMemoryHolds : Obligations.LocalReadSendsWhatMemoryHolds := by
  unfold Obligations.LocalReadSendsWhatMemoryHolds
  refine ⟨?_, ?_⟩
  · intro s b buf ev hi h0 hb he ht hw hfa ho hstart hsize hspace hbacked p
    obtain ⟨hm, hpos⟩ := Moving.of_inv hi h0 hb he hw hfa ho hstart hsize hspace hbacked
    obtain ⟨events, hrun⟩ := hm.completes
    have hfits : ev.base + ev.total ≤ buf.bytes.length := by rw [← hpos, ← hsize]; exact hm.fits
    have hreads : ev.type.writesLocal = false := by rw [ht]; rfl
    have hdata : slice (s.movedBytes buf ev ev.size) 0 (ev.base + ev.total) =
        slice buf.bytes 0 ev.base ++ s.mem.readBytes ev.start ev.total := by
      have hlen : (s.mem.readBytes ev.start ev.total).length = ev.total := Memory.length_readBytes ..
      have h := slice_splice (bs := buf.bytes) (p := ev.base) (d := s.mem.readBytes ev.start ev.total)
        (by rw [hlen]; exact hfits)
      rw [hlen] at h
      rw [State.movedBytes, hreads, if_neg (by simp), hpos, hstart, hsize]
      exact h
    have hmem : (s.released b buf ev).mem = s.mem := by
      simp only [State.released, State.movedMem, hreads, Bool.false_eq_true, if_false]
    have hend : completeTransfer (s.movedBytes buf ev ev.size) (ev.moved ev.size) (s.released b buf ev) =
        .next (State.nocSend { s.released b buf ev with cmdState := s.cmdState.packetSent } ev.pktType ev.remoteAddr
          .write (ev.base + ev.total) (slice buf.bytes 0 ev.base ++ s.mem.readBytes ev.start ev.total)
          (if ev.flags.message then .message else .writeChunk ev.flags.last)) := by
      rw [← hdata]
      exact completeTransfer_localRead (ev := ev.moved ev.size) _ ht (by rw [State.length_movedBytes]; exact hfits)
    refine ⟨events, _, hrun.trans hend, rfl, rfl, ?_, ?_, hmem, rfl, rfl, rfl, hm.event_released⟩
    · intro r hc
      show s.cmdState.packetSent = _
      rw [hc]; rfl
    · intro hc
      exact packetSent_of_ne hc
  · intro s b buf ev hb hf he ht hw hfa hs ho hl p t
    rw [xferStep_localRead_last hb hf he ht hw hfa hs ho hl]
    refine ⟨fun r hc => ?_, fun hc => ?_⟩
    · rw [hc]; rfl
    · rw [packetSent_of_ne hc]; rfl

/-- Settles O48: the run by `Moving.completes`, the bytes by the laws of a written byte string. -/
theorem remoteWriteStoresThePacket : Obligations.RemoteWriteStoresThePacket := by
  unfold Obligations.RemoteWriteStoresThePacket
  intro s b buf ev p hi h0 hb he ht hrecv hp hneeds hw hfa ho hstart hsize hbase hspace hbacked
  obtain ⟨hm, hpos⟩ := Moving.of_inv hi h0 hb he hw hfa ho hstart hsize hspace hbacked
  obtain ⟨events, hrun⟩ := hm.completes
  have hfits : ev.total ≤ buf.bytes.length := by
    have := hm.fits
    rw [hpos, hbase, hsize] at this; omega
  have hlen : (slice buf.bytes 0 ev.total).length = ev.total := length_slice (by omega)
  have hwrites : ev.type.writesLocal = true := by rw [ht]; rfl
  have hmem : (s.released b buf ev).mem = s.mem.writeBytes ev.start (slice buf.bytes 0 ev.total) := by
    simp only [State.released, State.movedMem, hwrites, if_true, hpos, hbase, hstart, hsize]
  have hend := completeTransfer_remoteWrite (bytes := s.movedBytes buf ev ev.size) (ev := ev.moved ev.size)
    (s.released b buf ev) ht hrecv hp hneeds
  have hstored : ∀ k, k < ev.total →
      (slice buf.bytes 0 ev.total)[k]? = some ((s.released b buf ev).mem.read (ev.start.toNat + k)) := fun k hk => by
    rw [hmem]
    exact Memory.read_writeBytes_inside hi.mem (by rw [hlen]; exact hspace) (by rw [hlen]; exact hk)
  refine ⟨events, _, hrun.trans hend, fun k hk => ?_, fun hl hslice k hk => ?_, fun a ha => ?_, rfl, rfl, rfl, rfl,
    hm.event_released⟩
  · have h := hstored k hk
    rwa [slice, List.drop_zero, List.getElem?_take_of_lt hk] at h
  · have h := hstored k (hl ▸ hk)
    rwa [hslice] at h
  · show (s.released b buf ev).mem.read a = _
    rw [hmem]
    exact Memory.read_writeBytes_outside hi.mem (by rw [hlen]; exact hspace) (by rw [hlen]; exact ha)

end Sys2Proof.Machine
end

section
/-! PROOF. The encodings are exact (R95, R121 to R130): taking a word apart into consecutive fields loses no bit, and
what decodes is the encoding of what it decodes to. -/

namespace Sys2Proof.Machine

/-! ## Words and their fields -/

/-- Two fields of a word that meet are one field. -/
theorem field_append_field (w : Word) (lo n k : Nat) : field w (lo + n) k ++ field w lo n = field w lo (k + n) :=
  BitVec.extractLsb'_append_extractLsb'_eq_extractLsb' rfl

theorem field_whole (w : Word) : field w 0 64 = w := BitVec.extractLsb'_eq_self

/-- A command's fields cover COMMAND (R121). -/
theorem commandWord_fields (w : Word) : commandWord (field w 0 3) (field w 3 8) (field w 11 53) = w := by
  rw [commandWord, field_append_field w 3 8 53, field_append_field w 0 3 61, field_whole]

/-- So do the opcode and the wide argument of EXT_CMD and of DEBUG_MSG (R123, R128). -/
theorem wideWord_fields (w : Word) : wideWord (field w 0 3) (field w 3 61) = w := by
  rw [wideWord, field_append_field w 0 3 61, field_whole]

/-- The fields of a NoC address cover it, the reserved bits too (R130). -/
theorem encodeNocAddr_decodeNocAddr (w : Word) : encodeNocAddr (decodeNocAddr w) = w := by
  rw [encodeNocAddr, decodeNocAddr, field_append_field w 58 1 5, field_append_field w 48 10 6,
    field_append_field w 37 11 16, field_append_field w 0 37 27, field_whole]

/-- The opcode as a bit vector. -/
theorem opcode_eq {w : Word} {n : Nat} (h : (field w 0 3).toNat = n) : BitVec.ofNat 3 n = field w 0 3 := by
  rw [← h, BitVec.ofNat_toNat, BitVec.setWidth_eq]

/-! ## What decodes, by place -/

/-- Every value of COMMAND is the encoding of its command, which is IDLE exactly at opcode 0 (R122, R125). -/
theorem encode_decodeCommand (w : Word) :
    encode (decodeCommand w) = .command w ∧ (decodeCommand w).shapeOk = true ∧
      isCommand (decodeCommand w) = decide (field w 0 3 ≠ 0#3) := by
  have narrow : ∀ {n}, (field w 0 3).toNat = n → commandWord (BitVec.ofNat 3 n) (field w 3 8) (field w 11 53) = w :=
    fun h => by rw [opcode_eq h, commandWord_fields]
  have op : ∀ {n}, (field w 0 3).toNat = n → decide (field w 0 3 ≠ 0#3) = decide (BitVec.ofNat 3 n ≠ 0#3) :=
    fun h => by rw [opcode_eq h]
  simp only [decodeCommand]
  split
  case h_8 h0 h1 h2 h3 h4 h5 h6 =>
    simp only [imp_false] at h0 h1 h2 h3 h4 h5 h6
    have hw : (field w 0 3).toNat = 7 := by have := (field w 0 3).isLt; omega
    have wide : wideWord (BitVec.ofNat 3 7) (field w 3 61) = w := by rw [opcode_eq hw, wideWord_fields]
    exact ⟨congrArg Raw.command wide, rfl, (op hw).symm⟩
  all_goals
    next h => exact ⟨congrArg Raw.command (narrow h), rfl, (op h).symm⟩

/-- A value of EXT_CMD that decodes is the encoding of its command (R128, R129). -/
theorem encode_decodeExternal {w : Word} {i : Instr} (h : decodeExternal w = .ok i) :
    encode i = .external w ∧ i.shapeOk = true := by
  have wide : ∀ {n}, (field w 0 3).toNat = n → wideWord (BitVec.ofNat 3 n) (field w 3 61) = w :=
    fun h => by rw [opcode_eq h, wideWord_fields]
  simp only [decodeExternal] at h
  split at h
  case h_6 => cases h
  all_goals
    next hop => cases h; exact ⟨congrArg Raw.external (wide hop), rfl⟩

/-- A packet is closed again as it was opened. -/
theorem sealPacket_openPacket (p : WirePacket) : sealPacket p.ptype (openPacket p) = p := by
  simp only [sealPacket, openPacket, encodeNocAddr_decodeNocAddr]

/-- A packet that decodes is the encoding of its operation: its direction and its payload are those of its type (R95). -/
theorem encode_decodePacket {p : WirePacket} {i : Instr} (h : decodePacket p = .ok i) :
    encode i = .packet p ∧ i.shapeOk = true := by
  have sealed : ∀ {t}, p.ptype = t → sealPacket t (openPacket p) = p := fun h => h ▸ sealPacket_openPacket p
  simp only [decodePacket] at h
  split at h
  · cases h
  · next hkind =>
    rw [ne_eq, not_not] at hkind
    split at h
    · cases h
    · next hdata =>
      rw [Bool.not_eq_false] at hdata
      split at h <;> next ht =>
        cases h
        rw [ht] at hkind
        refine ⟨congrArg Raw.packet (sealed ht), ?_⟩
        simp_all [Instr.shapeOk, openPacket, packetKind]

/-! ## The obligation -/

/-- Settles O2: place by place, what decodes is the encoding of what it decodes to. -/
theorem encodeDecode : Obligations.EncodeDecode := by
  unfold Obligations.EncodeDecode
  refine ⟨fun w => ⟨decodeCommand w, rfl, (encode_decodeCommand w).2.2⟩, fun r i h => ?_⟩
  cases r with
  | registerRead => cases h; exact ⟨rfl, rfl⟩
  | registerWrite => cases h; exact ⟨rfl, rfl⟩
  | command w =>
    cases h
    obtain ⟨hencode, hshape, -⟩ := encode_decodeCommand w
    exact ⟨hencode, hshape⟩
  | external w => exact encode_decodeExternal h
  | packet p => exact encode_decodePacket h

end Sys2Proof.Machine
end

section
/-! PROOF. The operands of a command (R115, R472), and the pieces of a transfer (R84, R305). -/

namespace Sys2Proof.Machine

/-! ## Operands -/

/-- An operand of which all contents agree is that content. -/
theorem State.operand_agreed {s : State} {f : Operands → Word} (h : ∀ o ∈ s.staleOperands, f o = f s.opnd) (k : Nat) :
    s.operand k f = f s.opnd := by
  rw [State.operand, if_pos]
  simpa using h

/-- An operand is one of the contents that its register has had under the command. -/
theorem State.operand_mem (s : State) (k : Nat) (f : Operands → Word) :
    s.operand k f ∈ f s.opnd :: s.staleOperands.map f := by
  rw [State.operand]
  split
  · exact List.mem_cons_self
  · obtain ⟨x, hx⟩ := Option.isSome_iff_exists.1
      (choose_isSome (Config.freeChoice (s.draws + k)) (List.cons_ne_nil (f s.opnd) (s.staleOperands.map f)))
    rw [hx]
    exact mem_of_choose hx

/-- Settles O22. -/
theorem operandIsAContent : Obligations.OperandIsAContent := by
  unfold Obligations.OperandIsAContent
  intro s k f
  refine ⟨?_, fun h => State.operand_agreed h k⟩
  rcases List.mem_cons.1 (s.operand_mem k f) with h | h
  · exact .inl h
  · obtain ⟨o, ho, he⟩ := List.mem_map.1 h
    exact .inr ⟨o, ho, he.symm⟩

/-! ## Pieces -/

/-- Blocks fill a page exactly (R7). -/
theorem blockSize_dvd {c : Config} (hv : c.valid = true) : 0 < c.blockSize ∧ c.blockSize ∣ 4096 := by
  have sizes : ∀ b ∈ [8, 16, 32, 64, 128, 256, 512, 1024, 2048, 4096], 0 < b ∧ b ∣ 4096 := by decide
  simp only [Config.valid, Bool.and_eq_true, List.contains_iff_mem] at hv
  obtain ⟨⟨⟨⟨⟨⟨⟨⟨-, h⟩, -⟩, -⟩, -⟩, -⟩, -⟩, -⟩, -⟩ := hv
  exact sizes _ h

/-- The end of a block lies in the page in which the block begins: both count from a multiple of the block's size. -/
theorem mod_add_block_le {b p : Nat} (h0 : 0 < b) (hd : b ∣ p) (hp : 0 < p) (a : Nat) : a % p + (b - a % b) ≤ p := by
  obtain ⟨q, rfl⟩ := hd
  have hmod : a % (b * q) % b = a % b := Nat.mod_mul_right_mod a b q
  have hdiv : a % (b * q) / b < q := Nat.div_lt_of_lt_mul (Nat.mod_lt _ hp)
  have hsplit := Nat.div_add_mod (a % (b * q)) b
  have hlt := Nat.mod_lt a h0
  have hle : b * (a % (b * q) / b + 1) ≤ b * q := Nat.mul_le_mul_left b hdiv
  rw [hmod] at hsplit
  rw [Nat.mul_succ] at hle
  omega

/-- The request of a block moves no more bytes than asked for. -/
theorem blockOp_size_le (buf : Buffer) (ev : XferEvent) (n : Nat) : (blockOp buf ev n).size ≤ n := by
  rw [blockOp]
  split
  · exact List.length_take_le ..
  · exact le_rfl

/-- Settles O44: blocks fill a page exactly, and a block's request is for its piece by `issueBlock_eq`. -/
theorem piecesStayInTheirBlock : Obligations.PiecesStayInTheirBlock := by
  unfold Obligations.PiecesStayInTheirBlock
  refine ⟨fun c a n hv hn => ?_, fun s b page buf ev hb he => ?_⟩
  · obtain ⟨hpos, hdvd⟩ := blockSize_dvd hv
    have hlt := Nat.mod_lt a.toNat hpos
    have hpage := mod_add_block_le hpos hdvd (by omega) a.toNat
    rw [toNat_pageOffset]
    exact ⟨rfl, by omega, by omega, by omega⟩
  · obtain ⟨buf', hb', hfree, hevent⟩ := event_some he
    obtain rfl : buf = buf' := Option.some.inj (hb.symm.trans hb')
    rw [issueBlock_eq page hb hfree hevent]
    exact ⟨rfl, blockOp_size_le buf ev _⟩

end Sys2Proof.Machine
end

section
/-! PROOF. Local memory as a store of bytes (R82, R90, R163), and where its answers go (R241, R309, R341). -/

namespace Sys2Proof.Machine

/-! ## Written bytes -/

theorem inSpan_iff {a : Word} {n x : Nat} :
    inSpan a n x = true ↔ x < 2 ^ 64 ∧ (BitVec.ofNat 64 x - a).toNat < n := by
  rw [inSpan, Bool.and_eq_true, decide_eq_true_eq, decide_eq_true_eq]

/-- Counted from the next address, modulo 2^64, a place is nearer by one. -/
theorem toNat_sub_eq_succ {a : Word} {x : Nat} (hx : x < 2 ^ 64) (hne : x ≠ a.toNat) :
    (BitVec.ofNat 64 x - a).toNat = (BitVec.ofNat 64 x - (a + 1)).toNat + 1 := by
  have h1 : (1#64 : Word).toNat = 1 := rfl
  bv_omega

/-- Only the place itself is the last one counted from the next address. -/
theorem toNat_sub_next_self (a : Word) : (BitVec.ofNat 64 a.toNat - (a + 1)).toNat = 2 ^ 64 - 1 := by
  have h1 : (1#64 : Word).toNat = 1 := rfl
  bv_omega

/-- A read after a write of a byte string, addresses taken modulo 2^64: a byte of the stretch is the one written there, any
other is what it was. -/
theorem Memory.read_writeBytes {m : Memory} (hm : m.wf = true) {a : Word} {d : List Byte} (hd : d.length ≤ 2 ^ 64)
    (x : Nat) :
    (m.writeBytes a d).read x =
      if inSpan a d.length x then d.getD (BitVec.ofNat 64 x - a).toNat 0#8 else m.read x := by
  induction d generalizing m a with
  | nil => rw [if_neg (by simp [inSpan_iff]), Memory.writeBytes]
  | cons v vs ih =>
    rw [List.length_cons] at hd
    have htail := ih (Memory.wf_write hm a.isLt v) (a := a + 1) (by omega)
    rw [Memory.read_write hm] at htail
    rw [Memory.writeBytes, htail, List.length_cons]
    simp only [inSpan_iff]
    by_cases hself : x = a.toNat
    · subst hself
      have hzero : (BitVec.ofNat 64 a.toNat - a).toNat = 0 := by bv_omega
      rw [if_neg (by rw [toNat_sub_next_self]; omega), if_pos rfl, if_pos ⟨a.isLt, by omega⟩, hzero]
      rfl
    · rw [if_neg hself]
      by_cases hx : x < 2 ^ 64
      · rw [toNat_sub_eq_succ hx hself, List.getD_cons_succ]
        exact if_congr (and_congr_right' Nat.succ_lt_succ_iff.symm) rfl rfl
      · rw [if_neg (fun h => hx h.1), if_neg (fun h => hx h.1)]

/-! ## Answers -/

section
variable {s : State} {k : Nat} {r : MemReq}

theorem memAnswer_unbacked (hr : s.memOutstanding[k]? = some r) (hb : s.cfg.backs r.addr.toNat r.op.size = false) :
    memAnswer k s = .next s := by
  simp only [memAnswer, hr, hb, if_true]

/-- An answer of backed memory: the request is performed, and what it gives is delivered. -/
theorem memAnswer_backed (hr : s.memOutstanding[k]? = some r) (hb : s.cfg.backs r.addr.toNat r.op.size = true) :
    memAnswer k s =
      let t : State := { s with memOutstanding := s.memOutstanding.eraseIdx k }
      memDeliver r (t.memPerform r.addr r.op).2 (t.memPerform r.addr r.op).1 := by
  simp only [memAnswer, hr]
  exact if_neg (by simp [hb])

/-- The answer to a read: the bytes that are there. -/
theorem memAnswer_read (hr : s.memOutstanding[k]? = some r) {n : Nat} (hb : s.cfg.backs r.addr.toNat n = true)
    (hop : r.op = .read n) :
    memAnswer k s =
      memDeliver r (s.mem.readBytes r.addr n) { s with memOutstanding := s.memOutstanding.eraseIdx k } := by
  rw [memAnswer_backed hr (by rw [hop]; exact hb), hop]; rfl

/-- The answer to a write, which stores the bytes. -/
theorem memAnswer_write (hr : s.memOutstanding[k]? = some r) {d : List Byte}
    (hb : s.cfg.backs r.addr.toNat d.length = true) (hop : r.op = .write d) :
    memAnswer k s =
      memDeliver r [] { s with
        memOutstanding := s.memOutstanding.eraseIdx k
        mem := s.mem.writeBytes r.addr d } := by
  rw [memAnswer_backed hr (by rw [hop]; exact hb), hop]; rfl

end

/-- An answer that reaches a buffer in use (R309). -/
theorem blockAnswer_eq {s : State} {b pos n : Nat} {buf : Buffer} {ev : XferEvent} (bytes : List Byte)
    (hb : s.bufs[b]? = some buf) (hf : buf.free = false) (he : buf.event = some ev) :
    s.blockAnswer b pos n bytes = { s with
      bufs := s.bufs.set b { buf with
        bytes := splice buf.bytes pos bytes
        offset := buf.offset + n
        event := some { ev with outstanding := ev.outstanding - 1 } } } := by
  simp only [State.blockAnswer, hb, event_of hb hf he, State.setBuf]

/-! ## The obligation -/

/-- Settles O49: the laws of the store by `Memory.read_writeBytes` and `Memory.getElem_readBytes`; an answer is a read's or a
write's, and goes where its tag says. -/
theorem localMemoryIsAByteStore : Obligations.LocalMemoryIsAByteStore := by
  unfold Obligations.LocalMemoryIsAByteStore
  refine ⟨fun m a d hm hd => ⟨Memory.wf_writeBytes hm a d, Memory.read_writeBytes hm hd⟩, fun m a n k hk => ?_,
    fun s k r hr => ⟨memAnswer_unbacked hr, fun n req hb hop ht => ?_, fun d req hb hop ht => ?_,
      fun b pos buf ev ht hbuf hf he => ⟨fun n hb hop => ?_, fun d hb hop => ?_⟩,
      fun n hb hop => ⟨fun id ht => ?_, fun ht => ?_⟩⟩⟩
  · have hlt : k < (m.readBytes a n).length := by rw [Memory.length_readBytes]; exact hk
    rw [List.getElem?_eq_getElem hlt, Memory.getElem_readBytes m a n k hlt]
  · rw [memAnswer_read hr hb hop, memDeliver, ht]; rfl
  · rw [memAnswer_write hr hb hop, memDeliver, ht]; rfl
  · rw [memAnswer_read hr hb hop, memDeliver, ht, hop]
    exact congrArg Host.Outcome.next (blockAnswer_eq _ hbuf hf he)
  · rw [memAnswer_write hr hb hop, memDeliver, ht, hop]
    have hstored := blockAnswer_eq (pos := pos) (n := d.length) [] hbuf hf he
      (s := { s with memOutstanding := s.memOutstanding.eraseIdx k, mem := s.mem.writeBytes r.addr d })
    rw [splice_nil] at hstored
    exact congrArg Host.Outcome.next hstored
  · rw [memAnswer_read hr hb hop, memDeliver, ht]
  · rw [memAnswer_read hr hb hop, memDeliver, ht]

end Sys2Proof.Machine
end

section
/-! PROOF. The TLB after an insertion, a block and an unblock (R331 to R333, R336, R344). Each operation is said once, by
whether the page has an entry and, if not, by the place there is for one; the lookups follow. -/

namespace Sys2Proof.Machine

/-! ## The lookup, by the entry of the page -/

section
variable {tlb : List TlbEntry} {virt : Word} {access : BitVec 5} {e : TlbEntry}

theorem tlbFind_none {vpn : BitVec 52} (h : ∀ e ∈ tlb, e.vpn ≠ vpn) : tlbFind tlb vpn = none :=
  List.find?_eq_none.2 (by simpa using h)

theorem tlbLookup_miss (h : ∀ e ∈ tlb, e.vpn ≠ vpnOf virt) : tlbLookup tlb virt access = .miss := by
  simp only [tlbLookup, tlbFind_none h]

theorem tlbLookup_blocked (h : tlbFind tlb (vpnOf virt) = some e) (hb : e.blocked = true) :
    tlbLookup tlb virt access = .pagefault := by
  simp only [tlbLookup, h, hb, if_true]

theorem tlbLookup_nomap (h : tlbFind tlb (vpnOf virt) = some e) (hb : e.blocked = false) (hf : e.flags = 0#5) :
    tlbLookup tlb virt access = .nomap := by
  simp only [tlbLookup, h, hb, hf, Bool.false_eq_true, if_false, if_true]

/-- An entry that is neither blocked nor a placeholder gives what its rights give. -/
theorem tlbLookup_mapped (h : tlbFind tlb (vpnOf virt) = some e) (hb : e.blocked = false) (hf : e.flags ≠ 0#5) :
    tlbLookup tlb virt access = if e.flags &&& access = access then .hit e.phys else .pagefault := by
  simp only [tlbLookup, h, hb, hf, Bool.false_eq_true, if_false, grants, beq_iff_eq]

end

/-! ## The placement, by the place there is -/

section
variable {cap n : Nat} {tlb : List TlbEntry} {e : TlbEntry}

theorem tlbPlace_own (h : ∃ x ∈ tlb, x.vpn = e.vpn) :
    tlbPlace cap n tlb e = tlb.map fun x => if x.vpn = e.vpn then e else x :=
  if_pos (any_vpn.2 h)

theorem tlbPlace_other (h : ∀ x ∈ tlb, x.vpn ≠ e.vpn) :
    tlbPlace cap n tlb e =
      if tlb.length < cap then tlb ++ [e] else ((choose n (tlbVictims tlb)).map (tlb.set · e)).getD tlb := by
  rw [tlbPlace, if_neg (by rw [any_vpn]; rintro ⟨x, hx, hv⟩; exact h x hx hv)]
  cases choose n (tlbVictims tlb) <;> rfl

theorem tlbPlace_free (h : ∀ x ∈ tlb, x.vpn ≠ e.vpn) (hl : tlb.length < cap) : tlbPlace cap n tlb e = tlb ++ [e] := by
  rw [tlbPlace_other h, if_pos hl]

/-- Of a full TLB one entry that is not blocked is replaced. -/
theorem tlbPlace_victim (h : ∀ x ∈ tlb, x.vpn ≠ e.vpn) (hl : cap ≤ tlb.length) (hv : ∃ x ∈ tlb, x.blocked = false) :
    ∃ i x, tlb[i]? = some x ∧ x.blocked = false ∧ tlbPlace cap n tlb e = tlb.set i e := by
  obtain ⟨x, hx, hb⟩ := hv
  obtain ⟨i, hi⟩ := List.getElem?_of_mem hx
  have hmem : i ∈ tlbVictims tlb := mem_victims.2 ⟨x, hi, hb⟩
  obtain ⟨j, hj⟩ := Option.isSome_iff_exists.1 (choose_isSome n (List.ne_nil_of_mem hmem))
  obtain ⟨y, hy, hyb⟩ := mem_victims.1 (mem_of_choose hj)
  refine ⟨j, y, hy, hyb, ?_⟩
  rw [tlbPlace_other h, if_neg (by omega), hj]; rfl

theorem tlbPlace_full (h : ∀ x ∈ tlb, x.vpn ≠ e.vpn ∧ x.blocked = true) (hl : cap ≤ tlb.length) :
    tlbPlace cap n tlb e = tlb := by
  have hnone : tlbVictims tlb = [] := List.eq_nil_iff_forall_not_mem.2 fun i hi => by
    obtain ⟨x, hx, hb⟩ := mem_victims.1 hi
    rw [(h x (List.mem_of_getElem? hx)).2] at hb
    cases hb
  rw [tlbPlace_other fun x hx => (h x hx).1, if_neg (by omega), hnone]; rfl

end

/-! ## The operations -/

section
variable {s : State} {vpn : BitVec 52}

/-- The block of a page that has an entry marks it. -/
theorem tlbBlock_own (h : ∃ e ∈ s.tlb, e.vpn = vpn) :
    s.tlbBlock vpn = { s with tlb := s.tlb.map fun x => if x.vpn = vpn then { x with blocked := true } else x } := by
  obtain ⟨x, -, -, hfind, -⟩ := find_map id h fun _ hx => hx
  simp only [State.tlbBlock, hfind]

/-- The block of another page places a blocked placeholder. -/
theorem tlbBlock_other (h : ∀ e ∈ s.tlb, e.vpn ≠ vpn) :
    s.tlbBlock vpn = { s with
      tlb := tlbPlace s.cfg.tlbEntries (Config.freeChoice s.draws) s.tlb ⟨vpn, 0#64, 0#5, true⟩
      draws := s.draws + 1 } := by
  simp only [State.tlbBlock, tlbFind_none h]; rfl

/-- A page that has a place has a blocked entry after its block. -/
theorem tlbFind_tlbBlock
    (h : (∃ e ∈ s.tlb, e.vpn = vpn) ∨ s.tlb.length < s.cfg.tlbEntries ∨ ∃ e ∈ s.tlb, e.blocked = false) :
    ∃ e, tlbFind (s.tlbBlock vpn).tlb vpn = some e ∧ e.blocked = true := by
  by_cases hown : ∃ e ∈ s.tlb, e.vpn = vpn
  · obtain ⟨x, -, -, -, hfind⟩ := find_map (fun x => { x with blocked := true }) hown fun _ hx => hx
    rw [tlbBlock_own hown]
    exact ⟨_, hfind, rfl⟩
  · rw [tlbBlock_other fun e he hv => hown ⟨e, he, hv⟩]
    exact ⟨_, find_place _ _ s.tlb ⟨vpn, 0#64, 0#5, true⟩ h, rfl⟩

/-- A blocked entry of another page stays through a block. -/
theorem mem_tlbBlock {e : TlbEntry} (he : e ∈ s.tlb) (hb : e.blocked = true) (hv : e.vpn ≠ vpn) :
    e ∈ (s.tlbBlock vpn).tlb := by
  by_cases hown : ∃ x ∈ s.tlb, x.vpn = vpn
  · rw [tlbBlock_own hown]
    exact List.mem_map.2 ⟨e, he, if_neg hv⟩
  · rw [tlbBlock_other fun x hx hxv => hown ⟨x, hx, hxv⟩]
    exact mem_place _ _ _ _ _ he hb hv

theorem tlbUnblock_other (h : ∀ e ∈ s.tlb, e.vpn ≠ vpn) : s.tlbUnblock vpn = s := by
  simp only [State.tlbUnblock, tlbFind_none h]

theorem tlbUnblock_placeholder {e : TlbEntry} (h : tlbFind s.tlb vpn = some e) (hf : e.flags = 0#5) :
    s.tlbUnblock vpn = { s with tlb := s.tlb.filter fun x => x.vpn != vpn } := by
  simp only [State.tlbUnblock, h, hf, if_true]; rfl

theorem tlbUnblock_mapped {e : TlbEntry} (h : tlbFind s.tlb vpn = some e) (hf : e.flags ≠ 0#5) :
    s.tlbUnblock vpn = { s with tlb := s.tlb.map fun x => if x.vpn = vpn then { x with blocked := false } else x } := by
  simp only [State.tlbUnblock, h, hf, if_false]

/-- The page's entry after that has lost its block, and nothing else. -/
theorem tlbFind_tlbUnblock {e : TlbEntry} (h : tlbFind s.tlb vpn = some e) (hf : e.flags ≠ 0#5) :
    tlbFind (s.tlbUnblock vpn).tlb vpn = some { e with blocked := false } := by
  have hown : ∃ x ∈ s.tlb, x.vpn = vpn := ⟨e, List.mem_of_find?_eq_some h, by simpa using List.find?_some h⟩
  obtain ⟨x, -, -, hfind, hmap⟩ := find_map (fun x => { x with blocked := false }) hown fun _ hx => hx
  obtain rfl : e = x := Option.some.inj (h.symm.trans hfind)
  rw [tlbUnblock_mapped h hf]
  exact hmap

end

/-! ## The obligation -/

/-- Settles O51, operation by operation and place by place. -/
theorem tlbInsertAndBlock : Obligations.TlbInsertAndBlock := by
  unfold Obligations.TlbInsertAndBlock
  refine ⟨fun s virt access hnodup => ⟨tlbUnblock_other, fun e he hv => ?_⟩, fun s virt phys flags access =>
    ⟨fun hplace => ?_, ⟨_, rfl⟩, fun hown => ⟨tlbPlace_own hown, tlbBlock_own hown⟩, fun hother =>
      ⟨⟨_, tlbBlock_other hother⟩, fun hfree => ?_, fun hfull hvictim => ?_⟩, fun hall hfull => ?_,
      fun e he hb hv => ⟨mem_place _ _ _ _ _ he hb hv, mem_tlbBlock he hb hv⟩⟩⟩
  · have hfind : tlbFind s.tlb (vpnOf virt) = some e := hv ▸ find_vpn he hnodup
    refine ⟨fun hf => ⟨tlbUnblock_placeholder hfind hf, ?_⟩, fun hf => ⟨tlbUnblock_mapped hfind hf, ?_⟩⟩
    · rw [tlbUnblock_placeholder hfind hf]
      exact tlbLookup_miss fun x hx => by simpa using (List.mem_filter.1 hx).2
    · exact tlbLookup_mapped (e := { e with blocked := false }) (tlbFind_tlbUnblock hfind hf) rfl hf
  · have hinsert : tlbFind (s.tlbInsert (vpnOf virt) phys flags).tlb (vpnOf virt) =
        some ⟨vpnOf virt, phys, flags, false⟩ := find_place _ _ s.tlb ⟨vpnOf virt, phys, flags, false⟩ hplace
    obtain ⟨e, hblock, hblocked⟩ := tlbFind_tlbBlock hplace
    exact ⟨fun hf hr => (tlbLookup_mapped hinsert rfl hf).trans (if_pos hr), tlbLookup_nomap hinsert rfl,
      tlbLookup_blocked hblock hblocked⟩
  · rw [tlbBlock_other hother]
    exact ⟨tlbPlace_free hother hfree, tlbPlace_free hother hfree⟩
  · rw [tlbBlock_other hother]
    exact ⟨tlbPlace_victim hother hfull hvictim, tlbPlace_victim hother hfull hvictim⟩
  · rw [tlbBlock_other fun e he => (hall e he).1]
    exact ⟨tlbPlace_full hall hfull, tlbPlace_full hall hfull⟩

end Sys2Proof.Machine
end

section
/-! PROOF. The register writes of any form, size and origin (R174 to R181, R396): what the words of a write do, and what
follows it. The words are written one after the other, but since the registers are separate and a write of the CPU does not
reach the barrier, each register only depends on its own word and on the rights before the access. -/

namespace Sys2Proof.Machine

/-! ## Rights -/

/-- The access writes the register at offset `r`. -/
def State.writes (s : State) (cpu : Bool) (off size r : Nat) : Bool := covers off size r && s.mayWrite cpu r

theorem mayWrite_iff {s : State} {cpu : Bool} {r : Nat} :
    s.mayWrite cpu r = true ↔ cpu = false ∨ (0x40 ≤ r ∧ r < 0x70 ∧ (s.cfg.rwBarrierAppliesToRegs = false ∨
      s.barrierRejects (s.cfg.regFileBaseAddr + BitVec.ofNat 64 r) = false)) := by
  simp [State.mayWrite, and_assoc]

theorem writes_iff {s : State} {cpu : Bool} {off size r : Nat} :
    s.writes cpu off size r = true ↔ off ≤ r ∧ r < off + size ∧ s.mayWrite cpu r = true := by
  simp [State.writes, covers, and_assoc]

/-- The CPU writes no DTU register (R174). -/
theorem writes_cpu_extCmd (s : State) (off size : Nat) : s.writes true off size 0x38 = false := by
  simp [State.writes, State.mayWrite]

/-- An aligned access of one word writes its own register, if it may. -/
theorem writes_word (s : State) (cpu : Bool) {off r : Nat} (ho : off % 8 = 0) (hr : r % 8 = 0) :
    s.writes cpu off 8 r = (decide (r = off) && s.mayWrite cpu r) := by
  rw [State.writes, covers]
  congr 1
  rw [Bool.eq_iff_iff, Bool.and_eq_true, decide_eq_true_eq, decide_eq_true_eq, decide_eq_true_eq]
  omega

/-- The first register of an access is written if it may be. -/
theorem writes_first (s : State) (cpu : Bool) (off n : Nat) : s.writes cpu off (8 * (n + 1)) off = s.mayWrite cpu off := by
  rw [State.writes, covers, decide_eq_true le_rfl, decide_eq_true (by omega)]; rfl

/-- Any other is a register of the rest of the access. -/
theorem writes_rest (s : State) (cpu : Bool) {off r : Nat} (n : Nat) (ho : off % 8 = 0) (hr : r % 8 = 0) (h : r ≠ off) :
    s.writes cpu off (8 * (n + 1)) r = s.writes cpu (off + 8) (8 * n) r := by
  rw [State.writes, State.writes, covers, covers]
  congr 1
  rw [Bool.eq_iff_iff, Bool.and_eq_true, Bool.and_eq_true, decide_eq_true_eq, decide_eq_true_eq, decide_eq_true_eq,
    decide_eq_true_eq]
  omega

/-- The rights depend on the configuration alone. -/
theorem SameConfig.mayWrite_eq {s t : State} (h : SameConfig s t) (cpu : Bool) (r : Nat) :
    t.mayWrite cpu r = s.mayWrite cpu r := by
  simp only [State.mayWrite, State.barrierRejects, h.cfg, h.rwBarrier]

theorem mayWrite_writeRegs (s : State) (cpu : Bool) (off r : Nat) (ws : List Word) :
    (State.writeRegs cpu off ws s).mayWrite cpu r = s.mayWrite cpu r := by
  cases cpu with
  | false => rfl
  | true => exact (SameConfig.writeRegs ws off s).mayWrite_eq true r

/-- No word of an access changes what the words after it may write. -/
theorem writes_writeRegs (s : State) (cpu : Bool) (off off' size r : Nat) (ws : List Word) :
    (State.writeRegs cpu off ws s).writes cpu off' size r = s.writes cpu off' size r := by
  rw [State.writes, State.writes, mayWrite_writeRegs]

/-! ## The words of a write -/

theorem writeRegs_cons (cpu : Bool) (off : Nat) (v : Word) (vs : List Word) (s : State) :
    State.writeRegs cpu off (v :: vs) s = State.writeRegs cpu (off + 8) vs (State.writeRegs cpu off [v] s) := rfl

theorem writeRegs_one (cpu : Bool) (off : Nat) (v : Word) (s : State) :
    State.writeRegs cpu off [v] s = if s.mayWrite cpu off then s.writeReg off v else s := rfl

/-- A register replaced: nothing but registers changes. -/
theorem writeReg_only (s : State) (off : Nat) (v : Word) :
    s.writeReg off v = { s with
      dtu := (s.writeReg off v).dtu
      command := (s.writeReg off v).command
      opnd := (s.writeReg off v).opnd
      eps := (s.writeReg off v).eps } := by
  rcases (by omega : off < 0x40 ∨ (0x40 ≤ off ∧ off < 0x70) ∨ 0x70 ≤ off) with hd | ⟨hc, hc'⟩ | he
  · rw [writeReg_dtu s v hd]
  · rw [writeReg_cmd s v hc hc', putCmd_only]
  · rw [writeReg_ep s v he]; rfl

theorem writeRegs_only (cpu : Bool) (off : Nat) (ws : List Word) (s : State) :
    State.writeRegs cpu off ws s = { s with
      dtu := (State.writeRegs cpu off ws s).dtu
      command := (State.writeRegs cpu off ws s).command
      opnd := (State.writeRegs cpu off ws s).opnd
      eps := (State.writeRegs cpu off ws s).eps } := by
  induction ws generalizing off s with
  | nil => rfl
  | cons v vs ih =>
    have hone : State.writeRegs cpu off [v] s = { s with
        dtu := (State.writeRegs cpu off [v] s).dtu
        command := (State.writeRegs cpu off [v] s).command
        opnd := (State.writeRegs cpu off [v] s).opnd
        eps := (State.writeRegs cpu off [v] s).eps } := by
      rw [writeRegs_one]
      split
      · exact writeReg_only s off v
      · rfl
    rw [writeRegs_cons, ih, hone]

/-- A write of one word: its register has the word if it may be written. -/
theorem readReg_writeRegs_one (s : State) (cpu : Bool) (v : Word) {off r : Nat}
    (hlen : s.eps.length = s.cfg.numEndpoints) (ho : off % 8 = 0) (hw : off < s.cfg.windowSize) (hr : r % 8 = 0) :
    (State.writeRegs cpu off [v] s).readReg r = if r = off ∧ s.mayWrite cpu off = true then v else s.readReg r := by
  rw [writeRegs_one]
  by_cases hmay : s.mayWrite cpu off = true
  · rw [if_pos hmay, readReg_writeReg s v hlen ho hw hr]
    exact if_congr (by simp [hmay]) rfl rfl
  · rw [if_neg hmay, if_neg fun h => hmay h.2]

/-- A write of words: each register it writes has its own word, and every other is left alone. -/
theorem readReg_writeRegs {s : State} (cpu : Bool) {ws : List Word} {off r : Nat}
    (hlen : s.eps.length = s.cfg.numEndpoints) (ho : off % 8 = 0) (hw : off + 8 * ws.length ≤ s.cfg.windowSize)
    (hr : r % 8 = 0) :
    (State.writeRegs cpu off ws s).readReg r =
      if s.writes cpu off (8 * ws.length) r then ws.getD ((r - off) / 8) 0#64 else s.readReg r := by
  induction ws generalizing off s with
  | nil =>
    rw [if_neg]
    · rfl
    · rw [writes_iff]; simp only [List.length_nil]; omega
  | cons v vs ih =>
    rw [List.length_cons] at hw ⊢
    obtain ⟨hcfg, -, heps, -⟩ := writeRegs_same cpu [v] off s
    have htail := ih (s := State.writeRegs cpu off [v] s) (off := off + 8) (by rw [heps, hcfg]; exact hlen) (by omega)
      (by rw [hcfg]; omega)
    rw [writes_writeRegs, readReg_writeRegs_one s cpu v hlen ho (by omega) hr] at htail
    rw [writeRegs_cons, htail]
    by_cases hself : r = off
    · subst hself
      have hpast : s.writes cpu (r + 8) (8 * vs.length) r = false := by
        rw [Bool.eq_false_iff, ne_eq, writes_iff]; omega
      rw [writes_first, hpast, Nat.sub_self, if_neg Bool.false_ne_true]
      exact if_congr (by simp) rfl rfl
    · rw [writes_rest s cpu vs.length ho hr hself, if_neg fun h : r = off ∧ _ => hself h.1]
      cases hin : s.writes cpu (off + 8) (8 * vs.length) r with
      | false => rfl
      | true =>
        obtain ⟨hge, -, -⟩ := writes_iff.1 hin
        have hnext : (r - off) / 8 = (r - (off + 8)) / 8 + 1 := by omega
        rw [if_pos rfl, if_pos rfl, hnext, List.getD_cons_succ]

@[simp] theorem length_dataWords (data : List Byte) : (dataWords data).length = data.length / 8 := by simp [dataWords]

theorem dataWords_getD {data : List Byte} {k : Nat} (h : k < data.length / 8) :
    (dataWords data).getD k 0#64 = bytesWord (slice data (8 * k) 8) := by
  simp [dataWords, List.getD_eq_getElem?_getD, h]

/-! ## What follows the words -/

/-- Under a command, a write that changes an operand adds the contents before it (R115, R472). -/
theorem staleAfter_under {s t : State} {cw : Bool}
    (h : s.cmdInProgress = true ∨ (s.execPending = true ∧ field s.command 0 3 ≠ 0#3 ∧ cw = false)) :
    staleAfter s t cw = if t.opnd = s.opnd then s.staleOperands else s.staleOperands ++ [s.opnd] :=
  if_pos (by simpa [and_assoc] using h)

theorem staleAfter_idle {s t : State} {cw : Bool}
    (h : ¬(s.cmdInProgress = true ∨ (s.execPending = true ∧ field s.command 0 3 ≠ 0#3 ∧ cw = false))) :
    staleAfter s t cw = if cw then [] else s.staleOperands :=
  if_neg (by simpa [and_assoc] using h)

/-- A write that changes no operand and gives no command leaves the old contents as they are. -/
theorem staleAfter_same {s t : State} (h : t.opnd = s.opnd) : staleAfter s t false = s.staleOperands := by
  rw [staleAfter, if_pos h]; simp

section
variable (s : State) (cpu : Bool) (off : Nat) (data : List Byte)

/-- A register write changes registers, the events, the old contents and the outputs. -/
theorem afterRegWrite_only :
    s.afterRegWrite cpu off data = { s with
      dtu := (s.afterRegWrite cpu off data).dtu
      command := (s.afterRegWrite cpu off data).command
      opnd := (s.afterRegWrite cpu off data).opnd
      eps := (s.afterRegWrite cpu off data).eps
      execPending := (s.afterRegWrite cpu off data).execPending
      extPending := (s.afterRegWrite cpu off data).extPending
      staleOperands := (s.afterRegWrite cpu off data).staleOperands
      out := (s.afterRegWrite cpu off data).out } := by
  rw [State.afterRegWrite, writeRegs_only]

theorem afterRegWrite_execPending :
    (s.afterRegWrite cpu off data).execPending = (s.execPending || s.writes cpu off data.length 0x40) := by
  rw [State.afterRegWrite, writeRegs_only]; rfl

theorem afterRegWrite_extPending :
    (s.afterRegWrite cpu off data).extPending =
      if s.writes cpu off data.length 0x38 then some (s.afterRegWrite cpu off data).dtu.extCmd else s.extPending := by
  rw [State.afterRegWrite, writeRegs_only]; rfl

theorem afterRegWrite_staleOperands :
    (s.afterRegWrite cpu off data).staleOperands =
      staleAfter s (s.afterRegWrite cpu off data) (s.writes cpu off data.length 0x40) := rfl

theorem afterRegWrite_out :
    (s.afterRegWrite cpu off data).out = s.out ++ suspendPin s (s.afterRegWrite cpu off data) := by
  rw [State.afterRegWrite, writeRegs_only]; rfl

theorem afterRegWrite_length : (s.afterRegWrite cpu off data).eps.length = s.eps.length :=
  (writeRegs_same cpu (dataWords data) off s).2.2.1

end

/-- The registers after a write of good form. -/
theorem readReg_afterRegWrite {s : State} {cpu : Bool} {off r : Nat} {data : List Byte}
    (hok : regAccessOk s.cfg off data.length = true) (hlen : s.eps.length = s.cfg.numEndpoints) (hr : r % 8 = 0) :
    (s.afterRegWrite cpu off data).readReg r =
      if s.writes cpu off data.length r then bytesWord (slice data (r - off) 8) else s.readReg r := by
  simp only [regAccessOk, Bool.and_eq_true, beq_iff_eq, decide_eq_true_eq] at hok
  obtain ⟨⟨⟨ho, hsize⟩, -⟩, hend⟩ := hok
  have hwords : 8 * (dataWords data).length = data.length := by rw [length_dataWords]; omega
  have hread := readReg_writeRegs cpu (ws := dataWords data) hlen ho (by rw [hwords]; exact hend) hr
  rw [hwords] at hread
  have hregs : (s.afterRegWrite cpu off data).readReg r = (State.writeRegs cpu off (dataWords data) s).readReg r := rfl
  rw [hregs, hread]
  by_cases hin : s.writes cpu off data.length r = true
  · obtain ⟨h1, h2, -⟩ := writes_iff.1 hin
    have hplace : 8 * ((r - off) / 8) = r - off := by omega
    rw [if_pos hin, if_pos hin, dataWords_getD (by omega), hplace]
  · rw [if_neg hin, if_neg hin]

/-! ## The answer -/

theorem registerWrite_bad {s : State} {port : Port} {off : Nat} {data : List Byte}
    (h : regAccessOk s.cfg off data.length = false) : registerWrite port off data s = .fault .badRegAccess := by
  rw [registerWrite, if_neg (by simp [h])]

/-- A write that does not give an external command is answered at once (R180, R182). -/
theorem registerWrite_answered {s : State} {port : Port} {off : Nat} {data : List Byte}
    (hok : regAccessOk s.cfg off data.length = true) (hext : s.writes (portIsCpu port) off data.length 0x38 = false) :
    registerWrite port off data s =
      .next ((s.afterRegWrite (portIsCpu port) off data).emit (portAnswer port [])) := by
  rw [registerWrite, if_pos hok]
  cases port with
  | cpu id => rfl
  | noc p => exact if_neg (Bool.eq_false_iff.1 hext)

/-- The answer to one that does waits for the command (R388). -/
theorem registerWrite_waits {s : State} {p : Packet} {off : Nat} {data : List Byte}
    (hok : regAccessOk s.cfg off data.length = true) (hext : s.writes false off data.length 0x38 = true) :
    registerWrite (.noc p) off data s =
      .next { s.afterRegWrite false off data with extWaiting := s.extWaiting ++ [p] } := by
  rw [registerWrite, if_pos hok]
  refine (if_pos hext).trans ?_
  have hsame : (s.afterRegWrite false off data).extWaiting = s.extWaiting := by rw [afterRegWrite_only]
  simp only [portIsCpu, hsame]

/-- A write of good form does `afterRegWrite`, and is answered at once unless it wrote EXT_CMD. -/
theorem registerWrite_next {s : State} (port : Port) {off : Nat} {data : List Byte}
    (hok : regAccessOk s.cfg off data.length = true) :
    ∃ waiting out, registerWrite port off data s =
        .next { s.afterRegWrite (portIsCpu port) off data with extWaiting := waiting, out := out } ∧
      (s.writes (portIsCpu port) off data.length 0x38 = true →
        out = (s.afterRegWrite (portIsCpu port) off data).out ∧
        ∀ p, port = .noc p → waiting = s.extWaiting ++ [p]) ∧
      (s.writes (portIsCpu port) off data.length 0x38 = false → waiting = s.extWaiting ∧
        out = (s.afterRegWrite (portIsCpu port) off data).out ++ [portAnswer port []]) := by
  cases hext : s.writes (portIsCpu port) off data.length 0x38 with
  | false =>
    refine ⟨_, _, registerWrite_answered hok hext, (fun h => nomatch h), fun _ => ⟨?_, rfl⟩⟩
    rw [afterRegWrite_only]
  | true =>
    cases port with
    | cpu id => rw [portIsCpu, writes_cpu_extCmd] at hext; cases hext
    | noc p =>
      refine ⟨_, _, registerWrite_waits hok hext, fun _ => ⟨rfl, fun q hq => ?_⟩, (fun h => nomatch h)⟩
      cases hq; rfl

/-! ## One command register -/

section
variable {s : State} {cpu : Bool}

/-- A word that may not be written changes nothing. -/
theorem afterRegWrite_dropped {off : Nat} (v : Word) (ho : off % 8 = 0) (hno : s.mayWrite cpu off = false) :
    s.afterRegWrite cpu off (wordBytes v) = s := by
  have hregs : State.writeRegs cpu off (dataWords (wordBytes v)) s = s := by
    rw [dataWords_one, writeRegs_one, if_neg (by simp [hno])]
  have hnone : ∀ r, r % 8 = 0 → s.writes cpu off (wordBytes v).length r = false := fun r hr => by
    rw [length_wordBytes, writes_word s cpu ho hr]
    by_cases h : r = off
    · rw [h, hno, Bool.and_false]
    · rw [decide_eq_false h, Bool.false_and]
  have hcommand : s.writesCommand cpu off (wordBytes v).length = false := hnone 0x40 rfl
  have hext : s.writesExtCmd cpu off (wordBytes v).length = false := hnone 0x38 rfl
  simp only [State.afterRegWrite, hregs, hcommand, hext, staleAfter_same, suspendPin_same, Bool.or_false,
    List.append_nil, Bool.false_eq_true, if_false]

/-- A command register that may be written is replaced; COMMAND schedules the command (R176, R178). -/
theorem afterRegWrite_cmd {k : Nat} (v : Word) (hk : k < 6) (hmay : s.mayWrite cpu (0x40 + 8 * k) = true) :
    s.afterRegWrite cpu (0x40 + 8 * k) (wordBytes v) = { s.putCmd v k with
      execPending := s.execPending || k == 0
      staleOperands := staleAfter s (s.putCmd v k) (k == 0) } := by
  have hregs : State.writeRegs cpu (0x40 + 8 * k) (dataWords (wordBytes v)) s = s.putCmd v k := by
    have hnumber : (0x40 + 8 * k - 0x40) / 8 = k := by omega
    rw [dataWords_one, writeRegs_one, if_pos hmay, writeReg_cmd s v (by omega) (by omega), hnumber]
  have hwrites : ∀ r, r % 8 = 0 → s.writes cpu (0x40 + 8 * k) (wordBytes v).length r = decide (r = 0x40 + 8 * k) :=
    fun r hr => by
      rw [length_wordBytes, writes_word s cpu (by omega) hr]
      by_cases h : r = 0x40 + 8 * k
      · rw [h, hmay, Bool.and_true]
      · rw [decide_eq_false h, Bool.false_and]
  have hcommand : s.writesCommand cpu (0x40 + 8 * k) (wordBytes v).length = (k == 0) :=
    (hwrites 0x40 rfl).trans (by rw [beq_eq_decide]; exact decide_eq_decide.2 (by omega))
  have hext : s.writesExtCmd cpu (0x40 + 8 * k) (wordBytes v).length = false :=
    (hwrites 0x38 rfl).trans (decide_eq_false (by omega))
  obtain ⟨c, o, hput⟩ : ∃ c o, s.putCmd v k = { s with command := c, opnd := o } := ⟨_, _, putCmd_only s v k⟩
  simp only [State.afterRegWrite, hregs, hcommand, hext, hput, suspendPin_same, List.append_nil, Bool.false_eq_true,
    if_false]

end

/-! ## The obligation -/

theorem exec_regWrite (port : Port) (off : BitVec 13) (data : List Byte) (s : State) :
    exec (.regWrite port off data) s = registerWrite port off.toNat data s := rfl

/-- An aligned write of one command register is answered at once. -/
theorem exec_regWrite_cmd (s : State) (port : Port) {k : Nat} (v : Word) (hk : k < 6) :
    exec (.regWrite port (BitVec.ofNat 13 (0x40 + 8 * k)) (wordBytes v)) s =
      .next ((s.afterRegWrite (portIsCpu port) (0x40 + 8 * k) (wordBytes v)).emit (portAnswer port [])) := by
  have hoff : (BitVec.ofNat 13 (0x40 + 8 * k)).toNat = 0x40 + 8 * k := by rw [BitVec.toNat_ofNat]; omega
  have hok : regAccessOk s.cfg (0x40 + 8 * k) (wordBytes v).length = true := by
    rw [length_wordBytes]
    exact regOk (by omega) rfl (by decide) (by simp only [Config.windowSize]; omega)
  have hext : s.writes (portIsCpu port) (0x40 + 8 * k) (wordBytes v).length 0x38 = false := by
    rw [length_wordBytes, writes_word s _ (by omega) rfl, decide_eq_false (by omega), Bool.false_and]
  rw [exec_regWrite, hoff, registerWrite_answered hok hext]

/-- Settles O17: a single command register by `afterRegWrite_cmd`; any access by `readReg_afterRegWrite` for the registers
and the lemmas on what follows the words for the rest. -/
theorem regWriteOfACommandRegister : Obligations.RegWriteOfACommandRegister := by
  unfold Obligations.RegWriteOfACommandRegister
  refine ⟨fun s port k v hk => ⟨fun h => ?_, fun hcpu hbarrier hrejects => ?_⟩, fun s port off data =>
    ⟨registerWrite_bad, fun hok hlen => ?_⟩⟩
  · have hmay : s.mayWrite (portIsCpu port) (0x40 + 8 * k) = true :=
      mayWrite_iff.2 (h.imp_right fun h => ⟨by omega, by omega, h⟩)
    rw [exec_regWrite_cmd s port v hk, afterRegWrite_cmd v hk hmay]
    obtain ⟨c, o, hput⟩ : ∃ c o, s.putCmd v k = { s with command := c, opnd := o } := ⟨_, _, putCmd_only s v k⟩
    have hstale : staleAfter s (s.putCmd v k) (k == 0) =
        if s.cmdInProgress = true ∨ (s.execPending = true ∧ field s.command 0 3 ≠ 0#3 ∧ k ≠ 0) then
          if (s.putCmd v k).opnd = s.opnd then s.staleOperands else s.staleOperands ++ [s.opnd]
        else if k = 0 then [] else s.staleOperands := by
      by_cases hunder : s.cmdInProgress = true ∨ (s.execPending = true ∧ field s.command 0 3 ≠ 0#3 ∧ k ≠ 0)
      · rw [if_pos hunder, staleAfter_under (by simpa using hunder)]
      · rw [if_neg hunder, staleAfter_idle (by simpa using hunder)]
        exact if_congr beq_iff_eq rfl rfl
    rw [hstale, hput]; rfl
  · have hno : s.mayWrite (portIsCpu port) (0x40 + 8 * k) = false := by
      rw [Bool.eq_false_iff, ne_eq, mayWrite_iff]
      simp only [hcpu, hbarrier, hrejects, Bool.true_eq_false, or_self, and_false, not_false_eq_true]
    rw [exec_regWrite_cmd s port v hk, afterRegWrite_dropped v (by omega) hno]; rfl
  · intro written under
    have hw : ∀ r, written r ↔ s.writes (portIsCpu port) off.toNat data.length r = true := fun r => by
      rw [writes_iff, mayWrite_iff]
    have hw' : ∀ r, ¬ written r ↔ s.writes (portIsCpu port) off.toNat data.length r = false := fun r => by
      rw [hw, Bool.not_eq_true]
    have hunder : under ↔ s.cmdInProgress = true ∨ (s.execPending = true ∧ field s.command 0 3 ≠ 0#3 ∧
        s.writes (portIsCpu port) off.toNat data.length 0x40 = false) := by rw [← hw']
    obtain ⟨waiting, out, ht, hwaits, hanswers⟩ := registerWrite_next port hok
    refine ⟨_, ht, ?_, afterRegWrite_length .., fun r hr => ⟨fun h => ?_, fun h => ?_⟩, fun h => ?_, fun h => ?_,
      fun h => ?_, fun h => ?_, fun h => ?_, fun h => ⟨fun hc => ?_, fun hc => ?_⟩, fun p hp h => ?_, fun h => ?_⟩
    · exact congrArg (fun u : State => { u with extWaiting := waiting, out := out }) (afterRegWrite_only ..)
    · exact (readReg_afterRegWrite hok hlen hr).trans (if_pos ((hw r).1 h))
    · exact (readReg_afterRegWrite hok hlen hr).trans (if_neg fun hr' => h ((hw r).2 hr'))
    · rw [afterRegWrite_execPending, (hw _).1 h, Bool.or_true]
    · rw [afterRegWrite_execPending, (hw' _).1 h, Bool.or_false]
    · exact (afterRegWrite_extPending ..).trans (if_pos ((hw _).1 h))
    · exact (afterRegWrite_extPending ..).trans (if_neg fun h' => h ((hw _).2 h'))
    · exact staleAfter_under (hunder.1 h)
    · exact (staleAfter_idle (h ∘ hunder.2)).trans (if_pos ((hw _).1 hc))
    · exact (staleAfter_idle (h ∘ hunder.2)).trans (if_neg fun hc' => hc ((hw _).2 hc'))
    · obtain ⟨hout, hwaiting⟩ := hwaits ((hw _).1 h)
      exact ⟨hwaiting p hp, hout.trans (afterRegWrite_out ..)⟩
    · obtain ⟨hwaiting, hout⟩ := hanswers ((hw' _).1 h)
      exact ⟨hwaiting, by rw [hout, afterRegWrite_out]; rfl⟩

end Sys2Proof.Machine
end


section
/-! PROOF. An operation is decoded from its encoding (R121 to R130, R135), a header from the front of its message (R140,
R141): what each field of a packed word, and each stretch of the packed header, holds. -/

namespace Sys2Proof.Machine

/-! ## Fields of packed words -/

/-- The middle one of three parts of a word. -/
theorem extractLsb'_middle {n k m : Nat} (a : BitVec n) (b : BitVec k) (c : BitVec m) :
    (a ++ b ++ c).extractLsb' m k = b := by
  rw [BitVec.extractLsb'_append_eq_of_le le_rfl, Nat.sub_self, BitVec.extractLsb'_append_eq_right]

section
variable (op : BitVec 3) (arg : BitVec 8) (err : BitVec 53) (wide : BitVec 61)

theorem field_commandWord_opcode : field (commandWord op arg err) 0 3 = op := BitVec.extractLsb'_append_eq_right

theorem field_commandWord_arg : field (commandWord op arg err) 3 8 = arg := extractLsb'_middle err arg op

theorem field_commandWord_error : field (commandWord op arg err) 11 53 = err := by
  rw [field, commandWord, BitVec.extractLsb'_append_eq_of_le (by decide)]
  exact BitVec.extractLsb'_append_eq_left

theorem field_wideWord_opcode : field (wideWord op wide) 0 3 = op := BitVec.extractLsb'_append_eq_right

theorem field_wideWord_arg : field (wideWord op wide) 3 61 = wide := BitVec.extractLsb'_append_eq_left

end

/-- The fields of a packed NoC address (R130). -/
theorem decodeNocAddr_encodeNocAddr (a : NocAddr) : decodeNocAddr (encodeNocAddr a) = a := by
  obtain ⟨reserved, valid, core, vpe, off⟩ := a
  have hoff : field (reserved ++ valid ++ core ++ vpe ++ off) 0 37 = off := BitVec.extractLsb'_append_eq_right
  have hvpe : field (reserved ++ valid ++ core ++ vpe ++ off) 37 11 = vpe := extractLsb'_middle ..
  have hcore : field (reserved ++ valid ++ core ++ vpe ++ off) 48 10 = core := by
    rw [field, BitVec.extractLsb'_append_eq_of_le (by decide)]
    exact extractLsb'_middle ..
  have hvalid : field (reserved ++ valid ++ core ++ vpe ++ off) 58 1 = valid := by
    rw [field, BitVec.extractLsb'_append_eq_of_le (by decide), BitVec.extractLsb'_append_eq_of_le (by decide)]
    exact extractLsb'_middle ..
  have hreserved : field (reserved ++ valid ++ core ++ vpe ++ off) 59 5 = reserved := by
    rw [field, BitVec.extractLsb'_append_eq_of_le (by decide), BitVec.extractLsb'_append_eq_of_le (by decide),
      BitVec.extractLsb'_append_eq_of_le (by decide)]
    exact BitVec.extractLsb'_append_eq_left
  simp only [decodeNocAddr, encodeNocAddr, hoff, hvpe, hcore, hvalid, hreserved]

theorem decodeNocAddr_of_encode {w : Word} {a : NocAddr} (h : encodeNocAddr a = w) : decodeNocAddr w = a := by
  rw [← h, decodeNocAddr_encodeNocAddr]

/-- A tuple has a packed form exactly if its fields fit their widths (R131). -/
theorem nocAddr_eq_none {core vpe off : Nat} :
    nocAddr core vpe off = none ↔ 2 ^ 10 ≤ core ∨ 2 ^ 11 ≤ vpe ∨ 2 ^ 37 ≤ off := by
  simp only [nocAddr, ite_eq_right_iff, reduceCtorEq, imp_false]
  omega

theorem nocAddr_fits {core vpe off : Nat} (hc : core < 2 ^ 10) (hv : vpe < 2 ^ 11) (ho : off < 2 ^ 37) :
    nocAddr core vpe off =
      some (encodeNocAddr ⟨0#5, 1#1, BitVec.ofNat 10 core, BitVec.ofNat 11 vpe, BitVec.ofNat 37 off⟩) :=
  if_pos ⟨hc, hv, ho⟩

/-! ## Packets -/

/-- A packet of this type is opened as it was closed. -/
theorem openPacket_sealPacket {t : PacketType} {p : Packet} (h : p.ptype = t) : openPacket (sealPacket t p) = p := by
  subst h
  simp only [openPacket, sealPacket, decodeNocAddr_encodeNocAddr]

/-- The inbound operation that holds a packet of this type (R135). -/
def inboundInstr (t : PacketType) (p : Packet) : Instr :=
  match t with
  | .message => .message p
  | .pagefault => .pagefault p
  | .readReq => .readReq p
  | .writeReq => .writeReq p
  | .cacheMemReq => .cacheMemReq p
  | .cacheMemReqFunc => .cacheMemReqFunc p

theorem encode_inboundInstr (t : PacketType) (p : Packet) : encode (inboundInstr t p) = .packet (sealPacket t p) := by
  cases t <;> rfl

/-- What the encodings admit as a packet of this type: its tag, its direction, its payload (R95). -/
theorem shapeOk_inboundInstr {t : PacketType} {p : Packet} (h : (inboundInstr t p).shapeOk = true) :
    p.ptype = t ∧ (packetKind t).getD p.kind = p.kind ∧ p.dataOk = true := by
  cases t
  case cacheMemReq | cacheMemReqFunc =>
    simp only [inboundInstr, Instr.shapeOk, Bool.and_eq_true, beq_iff_eq] at h
    obtain ⟨htype, hdata⟩ := h
    exact ⟨htype, rfl, hdata⟩
  all_goals
    simp only [inboundInstr, Instr.shapeOk, Bool.and_eq_true, beq_iff_eq] at h
    obtain ⟨⟨htype, hkind⟩, hdata⟩ := h
    exact ⟨htype, hkind.symm, hdata⟩

/-- A packet of good form is the operation of its type (R135, R390). -/
theorem decodePacket_ok {p : WirePacket} (hkind : (packetKind p.ptype).getD p.kind = p.kind)
    (hdata : (openPacket p).dataOk = true) : decodePacket p = .ok (inboundInstr p.ptype (openPacket p)) := by
  simp only [decodePacket, hkind, hdata, ne_eq, not_true, Bool.true_eq_false, if_false]
  cases p.ptype <;> rfl

theorem decode_encode_inboundInstr {t : PacketType} {p : Packet} (h : (inboundInstr t p).shapeOk = true) :
    decode (encode (inboundInstr t p)) = .ok (inboundInstr t p) := by
  obtain ⟨htype, hkind, hdata⟩ := shapeOk_inboundInstr h
  have hopen : openPacket (sealPacket t p) = p := openPacket_sealPacket htype
  have hok := decodePacket_ok (p := sealPacket t p) hkind (hopen.symm ▸ hdata)
  rw [hopen] at hok
  rw [encode_inboundInstr]
  exact hok

/-! ## Operations -/

/-- Settles O1, by the place of the encoding: a command has its fields in COMMAND, DEBUG_MSG and the external commands
have a wide argument, a packet keeps its type tag, and a register access is its own raw form. -/
theorem decodeEncode : Obligations.DecodeEncode := by
  unfold Obligations.DecodeEncode
  intro i h
  cases i with
  | regRead | regWrite => rfl
  | idle | send | reply | read | write | fetchMsg | ackMsg =>
    simp only [encode, decode, decodeCommand, field_commandWord_opcode, field_commandWord_arg, field_commandWord_error]
    rfl
  | debugMsg =>
    simp only [encode, decode, decodeCommand, field_wideWord_opcode, field_wideWord_arg]
    rfl
  | wakeupCore | invPage | invTlb | invCache | injectIrq =>
    simp only [encode, decode, decodeExternal, field_wideWord_opcode, field_wideWord_arg]
    rfl
  | message p => exact decode_encode_inboundInstr (t := .message) h
  | pagefault p => exact decode_encode_inboundInstr (t := .pagefault) h
  | readReq p => exact decode_encode_inboundInstr (t := .readReq) h
  | writeReq p => exact decode_encode_inboundInstr (t := .writeReq) h
  | cacheMemReq p => exact decode_encode_inboundInstr (t := .cacheMemReq) h
  | cacheMemReqFunc p => exact decode_encode_inboundInstr (t := .cacheMemReqFunc) h

/-- Only a packet can be of bad shape (R95). -/
theorem shapeOk_of_no_packet {i : Instr} (h : ∀ p, encode i ≠ .packet p) : i.shapeOk = true := by
  cases i
  case message | pagefault | readReq | writeReq | cacheMemReq | cacheMemReqFunc => exact absurd rfl (h _)
  all_goals rfl

/-- The only command that a value of COMMAND stands for is the one that it encodes. -/
theorem decodeCommand_of_encode {w : Word} {i : Instr} (h : encode i = .command w) : decodeCommand w = i := by
  have hdecode := decodeEncode i (shapeOk_of_no_packet fun p => by rw [h]; exact nofun)
  rw [h] at hdecode
  exact Except.ok.inj hdecode

/-- So it is with EXT_CMD. -/
theorem decodeExternal_of_encode {w : Word} {i : Instr} (h : encode i = .external w) : decodeExternal w = .ok i := by
  have hdecode := decodeEncode i (shapeOk_of_no_packet fun p => by rw [h]; exact nofun)
  rw [h] at hdecode
  exact hdecode

/-- Opcodes 5, 6 and 7 are no external commands (R129). -/
theorem decodeExternal_unknown {w : Word} (h : 5 ≤ w.toNat % 8) : decodeExternal w = .error .unknownOpcode := by
  have hop : (field w 0 3).toNat = w.toNat % 8 := by
    rw [field, BitVec.extractLsb'_toNat, Nat.shiftRight_zero]
  simp only [decodeExternal]
  split
  case h_6 => rfl
  all_goals omega

/-- Settles O58. -/
theorem unknownExternalCommand : Obligations.UnknownExternalCommand := by
  unfold Obligations.UnknownExternalCommand
  intro s w hpending hop
  simp only [externStep, hpending, decode, decodeExternal_unknown hop, execDecoded]

/-- Settles O5: each word is the encoding of the operation, or of the NoC address, that it stands for. -/
theorem wordsDecode : Obligations.WordsDecode := by
  unfold Obligations.WordsDecode
  refine ⟨decodeCommand_of_encode rfl, decodeCommand_of_encode rfl, decodeCommand_of_encode rfl,
    decodeExternal_of_encode rfl, decodeExternal_of_encode rfl, decodeExternal_unknown (by decide),
    decodeNocAddr_of_encode (by decide), decodeNocAddr_of_encode (by decide)⟩

/-- Settles O3. -/
theorem nocAddrRoundTrip : Obligations.NocAddrRoundTrip := by
  unfold Obligations.NocAddrRoundTrip
  intro c v o hc hv ho
  refine ⟨_, nocAddr_fits hc hv ho, ?_⟩
  rw [decodeNocAddr_encodeNocAddr]
  simp only [BitVec.toNat_ofNat, Nat.mod_eq_of_lt hc, Nat.mod_eq_of_lt hv, Nat.mod_eq_of_lt ho, and_self]

/-! ## Headers -/

/-- The bytes of a field that they hold exactly give the field back (R80). -/
theorem ofNat_ofLeBytes_leBytes {w : Nat} (n : Nat) (hw : 2 ^ w = 256 ^ n) (v : BitVec w) :
    BitVec.ofNat w (ofLeBytes (leBytes n v.toNat)) = v := by
  rw [ofLeBytes_leBytes, ← hw, Nat.mod_eq_of_lt v.isLt, BitVec.ofNat_toNat, BitVec.setWidth_eq]

/-- The places of the fields in a message (R141): each stretch that `decodeHeader` takes apart holds one field. -/
theorem slices_encodeHeader (h : Header) (payload : List Byte) :
    let m := encodeHeader h ++ payload
    slice m 0 1 = leBytes 1 h.flags.toNat ∧ slice m 1 2 = leBytes 2 h.senderCore.toNat ∧
    slice m 3 1 = leBytes 1 h.senderEp.toNat ∧ slice m 4 1 = leBytes 1 h.replyEp.toNat ∧
    slice m 5 2 = leBytes 2 h.length.toNat ∧ slice m 7 2 = leBytes 2 h.senderVpe.toNat ∧
    slice m 9 8 = wordBytes h.label ∧ slice m 17 8 = wordBytes h.replyLabel :=
  ⟨rfl, rfl, rfl, rfl, rfl, rfl, rfl, rfl⟩

/-- Settles O4: the header's bytes are those of its fields, each at its place. -/
theorem headerRoundTrip : Obligations.HeaderRoundTrip := by
  unfold Obligations.HeaderRoundTrip
  intro h payload
  constructor
  · simp only [encodeHeader, List.length_append, length_leBytes, length_wordBytes]
  · obtain ⟨hflags, hcore, hep, hreply, hlength, hvpe, hlabel, hreplyLabel⟩ := slices_encodeHeader h payload
    simp only [decodeHeader, hflags, hcore, hep, hreply, hlength, hvpe, hlabel, hreplyLabel, bytesWord_wordBytes,
      ofNat_ofLeBytes_leBytes (w := 8) 1 rfl, ofNat_ofLeBytes_leBytes (w := 16) 2 rfl]

end Sys2Proof.Machine
end

section
/-! PROOF. The checks of SEND, REPLY, READ and WRITE, and the reply that is built when the stored header has been read
(R131, R232 to R245, R282 to R291). -/

namespace Sys2Proof.Machine

/-! ## SEND -/

/-- An endpoint whose credits are bounded pays `maxMsgSize` for a message (R232). -/
theorem lacksCredits_iff {e : EpWords} :
    e.lacksCredits = true ↔ ¬ (e.credits = 0xFFFF#16 ∨ e.maxMsgSize.toNat ≤ e.credits.toNat) := by
  rw [EpWords.lacksCredits, Bool.and_eq_true, bne_iff_ne, decide_eq_true_eq, not_or, Nat.not_le]
  rfl

/-- Settles O24, check by check in the order of `execSend`. -/
theorem sendRefused : Obligations.SendRefused := by
  unfold Obligations.SendRefused
  intro s arg err hidle hstate hrange htype e size paid
  have hep : ∀ k, withEndpoint { s with cmdInProgress := true } arg.toNat typeSend k = k e :=
    withEndpoint_ok hrange htype
  have hpaid : paid → ¬ e.lacksCredits = true := fun h hlacks => lacksCredits_iff.1 hlacks h
  simp only [exec, execSend, beginCommand_idle hidle, andThen_next, hep]
  refine ⟨fun h => ?_, fun h hbig => ?_, fun h hsize hmax hvpe => ?_⟩
  · have hreply : s.cmdState.replyCtx = none := by rw [hstate]; rfl
    have hmem : s.cmdState.isMem = false := by rw [hstate]; rfl
    rw [if_pos (lacksCredits_iff.2 h)]
    refine (finishCommand_plain (s := { s with cmdInProgress := true }) rfl hreply hmem .missCredits).trans ?_
    rw [State.closeCommand, hidle, hstate]
    rfl
  · rw [if_neg (hpaid h)]
    by_cases hsize : e.maxMsgSize.toNat < size.toNat + headerSize
    · exact if_pos hsize
    · exact (if_neg hsize).trans (if_pos (hbig.resolve_left hsize))
  · rw [if_neg (hpaid h)]
    refine (if_neg (Nat.not_lt.2 hsize)).trans ((if_neg (Nat.not_lt.2 hmax)).trans ?_)
    simp only [nocAddr_misfit (.inl hvpe)]

/-! ## READ and WRITE -/

/-- What READ and WRITE have in common: both check the same, keep their operands while they run, and begin with a chunk
that needs a NoC address for byte 0. -/
theorem exec_mem {i : Instr} {arg : BitVec 8} {err : BitVec 53} {right : Nat}
    (h : (i = .read arg err ∧ right = 0) ∨ (i = .write arg err ∧ right = 1)) (s : State) :
    ∃ start chunk, exec i s = memCommand arg right start chunk s ∧ (∀ m, (start m).isMem = true) ∧
      ∀ (m : MemCtx) (t : State), t.chunkTarget m 0 = none → chunk m t = .fault .nocAddrField := by
  rcases h with ⟨rfl, rfl⟩ | ⟨rfl, rfl⟩
  · exact ⟨(.memRead · 0), (readChunk · 0), rfl, fun _ => rfl, fun _ _ => readChunk_misfit⟩
  · exact ⟨(.memWrite · 0), (writeChunk · 0), rfl, fun _ => rfl, fun _ _ => writeChunk_misfit⟩

/-- The checks of a READ or WRITE that has begun, in their order (R282, R283, R291). -/
theorem memCommand_checks {s : State} {arg : BitVec 8} (right : Nat) (start : MemCtx → CmdState)
    (chunk : MemCtx → State → Result) (hidle : s.cmdInProgress = false) (hrange : arg.toNat < s.cfg.numEndpoints)
    (htype : (s.ep arg.toNat).type = typeMemory) {m : MemCtx} (hm : m = s.memOperands arg.toNat) {t : State}
    (ht : t = State.drawn { s with cmdInProgress := true, cmdState := start m } 3) :
    memCommand arg right start chunk s =
      if (s.ep arg.toNat).memFlags.getLsbD right = false then finishCommand .access t
      else if (s.ep arg.toNat).reqSize.toNat < m.offset.toNat + m.dataSize.toNat then .fault .memOutOfBounds
      else if m.dataSize = 0#64 then finishCommand .noError t
      else chunk m t := by
  subst hm ht
  rw [memCommand, beginCommand_idle hidle, andThen_next,
    withEndpoint_ok (s := { s with cmdInProgress := true }) hrange htype]
  rfl

/-- The first chunk has no NoC address if the endpoint's VPE or the remote address does not fit its field (R131). -/
theorem chunkTarget_first_misfit {s : State} {m : MemCtx}
    (h : 2 ^ 11 ≤ (s.ep m.ep).memVpe.toNat ∨ 2 ^ 37 ≤ ((s.ep m.ep).remoteAddr + m.offset).toNat) :
    s.chunkTarget m 0 = none := by
  rw [State.chunkTarget, BitVec.add_zero]
  exact nocAddr_misfit h

/-- Settles O40, check by check. -/
theorem memCommandChecks : Obligations.MemCommandChecks := by
  unfold Obligations.MemCommandChecks
  intro s i arg err right hidle hi hrange htype e size offset
  obtain ⟨start, chunk, hexec, hmem, hmisfit⟩ := exec_mem hi s
  obtain ⟨m, hm⟩ : ∃ m, m = s.memOperands arg.toNat := ⟨_, rfl⟩
  obtain ⟨t, ht⟩ : ∃ t, t = State.drawn { s with cmdInProgress := true, cmdState := start m } 3 := ⟨_, rfl⟩
  have hsize : size = m.dataSize.toNat := by rw [hm]; rfl
  have hoffset : offset = m.offset.toNat := by rw [hm]; rfl
  have hright : e.memFlags.getLsbD right = true → ¬ e.memFlags.getLsbD right = false := by simp
  rw [hexec, memCommand_checks right start chunk hidle hrange htype hm ht, hsize, hoffset]
  refine ⟨fun h => ?_, fun h hout => ?_, fun h hin hzero => ?_, fun h hin hpos haddr => ?_⟩
  · rw [if_pos h, ht]
    exact finishCommand_leavesOperandsOpen rfl (hmem m) .access
  · rw [if_neg (hright h), if_pos hout]
  · have hnone : m.dataSize = 0#64 := BitVec.eq_of_toNat_eq hzero
    have hfit : ¬ e.reqSize.toNat < m.offset.toNat + m.dataSize.toNat := by omega
    rw [if_neg (hright h), if_neg hfit, if_pos hnone, ht]
    exact finishCommand_leavesOperandsOpen rfl (hmem m) .noError
  · have hsome : m.dataSize ≠ 0#64 := fun h0 => hpos (congrArg BitVec.toNat h0)
    rw [if_neg (hright h), if_neg (Nat.not_lt.2 hin), if_neg hsome]
    refine hmisfit m t (chunkTarget_first_misfit ?_)
    rw [ht, hm]
    exact haddr

/-! ## REPLY -/

/-- The page is known not to be mapped. -/
theorem translateFor_nomap {s : State} {virt : Word} {access : BitVec 5} (w : Waiter) (h : s.cfg.tlbEntries ≠ 0)
    (hl : tlbLookup s.tlb virt access = .nomap) : translateFor virt access w s = notify w none s := by
  simp only [translateFor, h, hl, if_false]

section
variable {s : State} {ctx : ReplyCtx} {got bytes : List Byte}

/-- While bytes of the stored header are missing, the next piece is translated (R241). -/
theorem headerAnswer_missing (hc : s.cmdState = .replyHeader ctx got) (hlen : (got ++ bytes).length < 25) :
    headerAnswer bytes s =
      translateFor (ctx.msg + BitVec.ofNat 64 (got ++ bytes).length) 0x09#5 .replyHeader
        { s with cmdState := .replyHeader ctx (got ++ bytes) } := by
  simp only [headerAnswer, hc]
  exact if_pos hlen

theorem headerAnswer_complete (hc : s.cmdState = .replyHeader ctx got) (hlen : 25 ≤ (got ++ bytes).length) :
    headerAnswer bytes s = replyWithHeader ctx (decodeHeader (got ++ bytes)) s := by
  simp only [headerAnswer, hc]
  exact if_neg (Nat.not_lt.2 hlen)

/-- A further piece of the stored header is requested; the place of the header is that of the first (R241). -/
theorem issueHeaderPiece_further (page : Word) (hc : s.cmdState = .replyHeader ctx got) (hgot : 0 < got.length) :
    s.issueHeaderPiece page = { s with
      cmdState := .replyHeader ctx got
      memOutstanding := s.memOutstanding ++
        [⟨page + pageOffset (ctx.msg + BitVec.ofNat 64 got.length),
          .read (blockPiece s.cfg (ctx.msg + BitVec.ofNat 64 got.length) (25 - got.length)), .replyHeader⟩] } := by
  have hne : got.isEmpty = false := List.isEmpty_eq_false_iff.2 (List.ne_nil_of_length_pos hgot)
  simp only [State.issueHeaderPiece, hc, hne, Bool.false_eq_true, if_false]
  rfl

end

theorem hasFlag_replyEnabled {flags : Byte} : hasFlag flags flagReplyEnabled = true ↔ flags &&& 0x04#8 ≠ 0#8 := by
  rw [hasFlag, bne_iff_ne]
  rfl

section
variable {ctx : ReplyCtx} {h : Header} {s : State}

theorem replyWithHeader_disabled (hflag : h.flags &&& 0x04#8 = 0#8) :
    replyWithHeader ctx h s = .fault .replyDisabled :=
  if_pos (Bool.eq_false_iff.2 fun hset => hasFlag_replyEnabled.1 hset hflag)

theorem replyWithHeader_tooLarge (hflag : h.flags &&& 0x04#8 ≠ 0#8)
    (hbig : replyTooLarge s.cfg (s.operand 0 (·.dataSize)) = true) :
    replyWithHeader ctx h s = .fault .messageTooLarge := by
  simp only [replyWithHeader, hasFlag_replyEnabled.2 hflag, hbig, Bool.true_eq_false, if_false, if_true]

theorem replyWithHeader_misfit (hflag : h.flags &&& 0x04#8 ≠ 0#8)
    (hfit : replyTooLarge s.cfg (s.operand 0 (·.dataSize)) = false)
    (haddr : nocAddr h.senderCore.toNat h.senderVpe.toNat h.replyEp.toNat = none) :
    replyWithHeader ctx h s = .fault .nocAddrField := by
  simp only [replyWithHeader, hasFlag_replyEnabled.2 hflag, hfit, haddr, Bool.true_eq_false, Bool.false_eq_true,
    if_false]

theorem replyWithHeader_starts {target : Word} (hflag : h.flags &&& 0x04#8 ≠ 0#8)
    (hfit : replyTooLarge s.cfg (s.operand 0 (·.dataSize)) = false)
    (haddr : nocAddr h.senderCore.toNat h.senderVpe.toNat h.replyEp.toNat = some target) :
    replyWithHeader ctx h s =
      startTransfer
        (messageXfer target (s.operand 1 (·.dataAddr)) (s.operand 0 (·.dataSize)).toNat
          (s.replyHeader ctx.ep h (s.operand 0 (·.dataSize))))
        ({ s.setStoredFlags ctx.phys (h.flags &&& ~~~0x04#8) with
            cmdState := .sendXfer (some { ctx with flags := h.flags &&& ~~~0x04#8 }) }.drawn 2) := by
  simp only [replyWithHeader, hasFlag_replyEnabled.2 hflag, hfit, haddr, Bool.true_eq_false, Bool.false_eq_true,
    if_false]
  rfl

end

/-- Settles O26: the further pieces of the header by the outcome of their translation, then the checks of
`replyWithHeader` in their order. -/
theorem replyBuildsTheMessage : Obligations.ReplyBuildsTheMessage := by
  unfold Obligations.ReplyBuildsTheMessage
  refine ⟨fun s ctx got bytes hc hpos hlen => ?_, fun s ctx got bytes phys target hc hlen hphys => ?_⟩
  · intro a t
    rw [headerAnswer_missing hc hlen]
    refine ⟨fun page hpage => ?_, fun pf htlb hlook => translateFor_waits (s := t) .replyHeader pf htlb hlook,
      fun htlb hlook => translateFor_nomap (s := t) .replyHeader htlb hlook⟩
    rw [translateFor_known (s := t) .replyHeader hpage]
    exact congrArg Host.Outcome.next (issueHeaderPiece_further (s := t) page rfl hpos)
  · intro h size
    rw [headerAnswer_complete hc hlen]
    refine ⟨replyWithHeader_disabled, fun hflag hbig => replyWithHeader_tooLarge hflag (replyTooLarge_iff.2 hbig),
      fun hflag hmax h16 haddr => ?_, fun hflag haddr hmax h16 hbuf => ?_⟩
    · exact replyWithHeader_misfit hflag (replyTooLarge_eq_false hmax h16)
        (nocAddr_eq_none.2 (haddr.imp_right .inl))
    · rw [replyWithHeader_starts hflag (replyTooLarge_eq_false hmax h16) haddr, hphys]
      exact startTransfer_ok (le_trans hmax hbuf)

end Sys2Proof.Machine
end

section
/-! PROOF. The page-fault upcall (R350 to R353, R358): the endpoint it goes to, what is wrong with one, the packet,
and what the response to it does. -/

namespace Sys2Proof.Machine

/-! ## The endpoint -/

theorem pfEpValid_iff {s : State} :
    s.pfEpValid = true ↔ s.dtu.pfEp.toNat < s.cfg.numEndpoints ∧ (s.ep s.dtu.pfEp.toNat).type = 1#3 := by
  rw [State.pfEpValid, Bool.and_eq_true, decide_eq_true_eq, beq_iff_eq]
  rfl

/-- The endpoint PF_EP names, if it is a SEND endpoint and the record does not go to the kernel (R351). -/
theorem upcallEp_pager {s : State} (h : s.dtu.pfEp.toNat < s.cfg.numEndpoints ∧ (s.ep s.dtu.pfEp.toNat).type = 1#3) :
    s.upcallEp false = s.dtu.pfEp.toNat := by
  simp only [State.upcallEp, pfEpValid_iff.2 h, Bool.false_eq_true, if_false, if_true]

/-- SYSCALL_EP otherwise (R351). -/
theorem upcallEp_kernel {s : State} {toKernel : Bool} (h : toKernel = true ∨
    ¬ (s.dtu.pfEp.toNat < s.cfg.numEndpoints ∧ (s.ep s.dtu.pfEp.toNat).type = 1#3)) :
    s.upcallEp toKernel = s.cfg.syscallEp := by
  rcases h with rfl | h
  · rfl
  · simp only [State.upcallEp, mt pfEpValid_iff.1 h, Bool.false_eq_true, if_false, ite_self]

/-- The count of R360 changes neither the endpoints nor which one an upcall goes to. -/
theorem countPagefault_ep (s : State) (vpn : BitVec 52) (e : Nat) : (s.countPagefault vpn).ep e = s.ep e := by
  obtain ⟨heps, -⟩ := countPagefault_keeps s vpn
  rw [State.ep, heps, State.ep]

theorem countPagefault_upcallEp (s : State) (vpn : BitVec 52) (toKernel : Bool) :
    (s.countPagefault vpn).upcallEp toKernel = s.upcallEp toKernel := by
  obtain ⟨-, -, -, hcfg, hpfEp, -⟩ := countPagefault_keeps s vpn
  have hvalid : (s.countPagefault vpn).pfEpValid = s.pfEpValid := by
    rw [State.pfEpValid, countPagefault_ep, hcfg, hpfEp, State.pfEpValid]
  rw [State.upcallEp, hvalid, hcfg, hpfEp, State.upcallEp]

/-! ## What is wrong with it -/

section
variable {s : State} {q : PfRecord} {rest : List PfRecord} {n : Nat} (hq : s.pfQueue = q :: rest)
  (hn : s.upcallEp q.toKernel = n)
include hq hn

theorem sendPagefault_badEndpoint (h : s.cfg.numEndpoints ≤ n ∨ (s.ep n).type ≠ 1#3) :
    sendPagefault s = .fault .badEndpoint := by
  obtain ⟨-, -, -, hcfg, -⟩ := countPagefault_keeps s q.vpn
  simp only [sendPagefault, hq, countPagefault_upcallEp, hn, countPagefault_ep, hcfg]
  exact if_pos h

theorem sendPagefault_tooSmall (hrange : n < s.cfg.numEndpoints) (htype : (s.ep n).type = 1#3)
    (h : (s.ep n).maxMsgSize.toNat < 49) : sendPagefault s = .fault .messageTooLarge := by
  obtain ⟨-, -, -, hcfg, -⟩ := countPagefault_keeps s q.vpn
  have hgood : ¬ (s.cfg.numEndpoints ≤ n ∨ (s.ep n).type ≠ 1#3) := by simp [hrange, htype]
  simp only [sendPagefault, hq, countPagefault_upcallEp, hn, countPagefault_ep, hcfg]
  exact (if_neg hgood).trans (if_pos h)

theorem sendPagefault_misfit (hrange : n < s.cfg.numEndpoints) (htype : (s.ep n).type = 1#3)
    (hsize : 49 ≤ (s.ep n).maxMsgSize.toNat) (hvpe : 2 ^ 11 ≤ (s.ep n).sendVpe.toNat) :
    sendPagefault s = .fault .nocAddrField := by
  obtain ⟨-, -, -, hcfg, -⟩ := countPagefault_keeps s q.vpn
  have hgood : ¬ (s.cfg.numEndpoints ≤ n ∨ (s.ep n).type ≠ 1#3) := by simp [hrange, htype]
  simp only [sendPagefault, hq, countPagefault_upcallEp, hn, countPagefault_ep, hcfg, nocAddr_misfit (.inl hvpe)]
  exact (if_neg hgood).trans (if_neg (Nat.not_lt.2 hsize))

end

/-! ## The response -/

/-- A response that the NoC could deliver ends the wait, and nothing else (R358). -/
theorem nocDeliver_upcall_delivered {s : State} {q : NocReq} {token : Word} (hw : q.waiter = .upcall token)
    (data : List Byte) : nocDeliver q .noError data s = .next s := by
  simp only [nocDeliver, hw, ne_eq, not_true, false_and, if_false]

/-- An upcall that was not delivered sends its record to the tail, for the kernel (R357, R358). -/
theorem nocDeliver_upcall_failed {s : State} {q : NocReq} {token : Word} {r : ErrorCode} {record : PfRecord}
    {rest : List PfRecord} (hw : q.waiter = .upcall token) (data : List Byte) (hr : r ≠ .noError)
    (hq : s.pfQueue = record :: rest) (ht : record.token = token) :
    nocDeliver q r data s = sendPagefault { s with pfQueue := rest ++ [{ record with toKernel := true }] } := by
  have hhead : s.pfQueue.head?.map (·.token) = some token := by rw [hq, ← ht]; rfl
  simp only [nocDeliver, hw, requeuePagefault, hq]
  exact if_pos ⟨hr, hq ▸ hhead⟩

/-- A response for another record than the one at the head comes too late. -/
theorem nocDeliver_upcall_late {s : State} {q : NocReq} {token : Word} (hw : q.waiter = .upcall token) (r : ErrorCode)
    (data : List Byte) (h : ∀ record rest, s.pfQueue = record :: rest → record.token ≠ token) :
    nocDeliver q r data s = .next s := by
  have hhead : s.pfQueue.head?.map (·.token) ≠ some token := by
    cases hq : s.pfQueue with
    | nil => exact nofun
    | cons record rest => exact fun ht => h record rest hq (Option.some.inj ht)
  simp only [nocDeliver, hw]
  exact if_neg fun ht => hhead ht.2

/-! ## The obligation -/

/-- A fault with no other queued becomes the record at the head, with its upcall at once (R350). -/
theorem startPagefault_alone {s : State} (virt : Word) (access : BitVec 5) (w : Waiter) (hq : s.pfQueue = []) :
    startPagefault virt access w s =
      sendPagefault { s with pfQueue := [⟨vpnOf virt, virt, access, [w], false, 0#64⟩] } := by
  simp only [startPagefault, hq]
  rfl

/-- Settles O53: the endpoint, the checks of it and the packet, then the lone fault, then the responses. -/
theorem pagefaultTaken : Obligations.PagefaultTaken := by
  unfold Obligations.PagefaultTaken
  refine ⟨fun s q rest n hq => ?_, fun s virt access w => startPagefault_alone virt access w, ?_⟩
  · intro valid hep e
    have hn : s.upcallEp q.toKernel = n := by
      rcases hep with ⟨hpager, hvalid, rfl⟩ | ⟨hkernel, rfl⟩
      · rw [hpager]
        exact upcallEp_pager hvalid
      · exact upcallEp_kernel hkernel
    refine ⟨sendPagefault_badEndpoint hq hn, fun hrange htype => ⟨sendPagefault_tooSmall hq hn hrange htype,
      sendPagefault_misfit hq hn hrange htype, fun target hsize haddr => ?_⟩⟩
    obtain ⟨hceps, hcmem, hcqueue, hccfg, -, -, hcnoc, -⟩ := countPagefault_keeps s q.vpn
    obtain ⟨hteps, htmem, htqueue, htcfg, -, htnoc, -⟩ := tlbBlock_keeps (s.countPagefault q.vpn) q.vpn
    refine ⟨Config.freeWord ((s.countPagefault q.vpn).tlbBlock q.vpn).draws, ?_, hteps.trans hceps,
      htmem.trans hcmem, htqueue.trans hcqueue⟩
    rw [sendPagefault_ok hq hn hrange htype hsize haddr]
    simp only [State.nocSend, State.drawn, htcfg.trans hccfg, htnoc.trans hcnoc, upcallBody, List.append_assoc]
    rfl
  · intro s k p token hp hkind t
    refine ⟨?_, fun r hr => ⟨fun q rest hq ht => ?_, fun hlate => ?_⟩⟩
    · rw [nocRespondStep_deliver hp (responseOk_write hkind)]
      exact nocDeliver_upcall_delivered rfl []
    · rw [nocRespondStep_deliver hp (responseOk_error hr)]
      exact nocDeliver_upcall_failed (s := t) rfl [] hr hq ht
    · rw [nocRespondStep_deliver hp (responseOk_error hr)]
      exact nocDeliver_upcall_late (s := t) rfl r [] hlate

end Sys2Proof.Machine
end

section
/-! PROOF. One register access (R83, R173 to R175, R181): a read answers with the words it covers; a write of a DTU or an
endpoint register is dropped for the CPU and performed for the NoC. Neither reaches the command registers, so of the events
and pins only the external command and the suspend pin can follow. -/

namespace Sys2Proof.Machine

/-! ## Reads -/

theorem exec_regRead (port : Port) (off : BitVec 13) (size : Nat) (s : State) :
    exec (.regRead port off size) s = registerRead port off.toNat size s := rfl

theorem regAccessOk_iff {c : Config} {off size : Nat} :
    regAccessOk c off size = true ↔ off % 8 = 0 ∧ size % 8 = 0 ∧ size ≠ 0 ∧ off + size ≤ c.windowSize := by
  simp [regAccessOk, and_assoc]

theorem answerPort_eq (s : State) (port : Port) (data : List Byte) :
    s.answerPort port data = s.emit (portAnswer port data) := by
  cases port <;> rfl

theorem registerRead_answered {s : State} {port : Port} {off size : Nat} (h : regAccessOk s.cfg off size = true) :
    registerRead port off size s = .next (s.emit (portAnswer port (s.readRegs off (size / 8)))) := by
  rw [registerRead, if_pos h, answerPort_eq]

theorem registerRead_bad {s : State} {port : Port} {off size : Nat} (h : regAccessOk s.cfg off size = false) :
    registerRead port off size s = .fault .badRegAccess :=
  if_neg (Bool.eq_false_iff.1 h)

/-- Settles O14: the answer is `readRegs`, whose words are the registers covered. -/
theorem regReadAnswers : Obligations.RegReadAnswers := by
  unfold Obligations.RegReadAnswers
  refine fun s port off size => ⟨fun hok => ?_, registerRead_bad⟩
  obtain ⟨-, hsize, -, -⟩ := regAccessOk_iff.1 hok
  refine ⟨s.readRegs off.toNat (size / 8), registerRead_answered hok, ?_, fun k hk => ?_⟩
  · rw [length_readRegs]; omega
  · exact slice_readRegs s off.toNat (size / 8) k (by omega)

/-! ## Writes outside the command registers -/

section
variable {s : State} {off : Nat}

theorem exec_regWrite_ofNat (port : Port) (data : List Byte) (h : off < 2 ^ 13) :
    exec (.regWrite port (BitVec.ofNat 13 off) data) s = registerWrite port off data s := by
  rw [exec_regWrite, BitVec.toNat_ofNat, Nat.mod_eq_of_lt h]

/-- Every word of the NoC is performed (R174 to R177). -/
theorem writeRegs_noc_cons (s : State) (off : Nat) (v : Word) (vs : List Word) :
    State.writeRegs false off (v :: vs) s = State.writeRegs false (off + 8) vs (s.writeReg off v) := rfl

/-- An access covers no register that lies outside it. -/
theorem writes_outside (cpu : Bool) {size r : Nat} (h : r < off ∨ off + size ≤ r) : s.writes cpu off size r = false := by
  rw [Bool.eq_false_iff, ne_eq, writes_iff]; omega

/-- A word of the CPU for a register that is no command register is dropped silently (R174, R175). -/
theorem registerWrite_cpu_dropped (id : Nat) (v : Word) (ho : off % 8 = 0) (hw : off + 8 ≤ s.cfg.windowSize)
    (hout : off < 0x40 ∨ 0x70 ≤ off) :
    registerWrite (.cpu id) off (wordBytes v) s = .next { s with out := s.out ++ [.cpuAnswer id []] } := by
  have hno : s.mayWrite true off = false := by
    rw [Bool.eq_false_iff, ne_eq]
    intro hmay
    have := mayWrite_cpu hmay
    omega
  have hok : regAccessOk s.cfg off (wordBytes v).length = true := by
    rw [length_wordBytes]; exact regOk ho rfl (by decide) hw
  have hdropped : s.afterRegWrite (portIsCpu (.cpu id)) off (wordBytes v) = s := afterRegWrite_dropped v ho hno
  rw [registerWrite_answered hok (port := .cpu id) (writes_cpu_extCmd s off _), hdropped]
  rfl

/-- A write that changes DTU and endpoint registers only gives no command and leaves the operands' old contents. -/
theorem afterRegWrite_outside_commands {cpu : Bool} {data : List Byte} {d : DtuRegs} {es : List EpWords}
    (hregs : State.writeRegs cpu off (dataWords data) s = { s with dtu := d, eps := es })
    (hcommand : s.writes cpu off data.length 0x40 = false) :
    s.afterRegWrite cpu off data = { s with
      dtu := d
      eps := es
      extPending := if s.writes cpu off data.length 0x38 then some d.extCmd else s.extPending
      out := s.out ++ suspendPin s { s with dtu := d } } := by
  have hcw : s.writesCommand cpu off data.length = false := hcommand
  have hstale : staleAfter s { s with dtu := d, eps := es } false = s.staleOperands := staleAfter_same rfl
  simp only [State.afterRegWrite, hregs, hcw, hstale, Bool.or_false]
  rfl

end

/-! ## DTU registers -/

/-- Of the DTU registers, number 7 is EXT_CMD (R21). -/
theorem writes_dtu_extCmd (s : State) (k : Nat) (v : Word) :
    s.writes false (8 * k) (wordBytes v).length 0x38 = decide (k = 7) := by
  have hnumber : 0x38 = 8 * k ↔ k = 7 := by omega
  rw [length_wordBytes, writes_word s false (by omega) rfl, decide_eq_decide.2 hnumber]
  exact Bool.and_true _

section
variable {s : State} {k : Nat} (v : Word) (hk : k < 8)
include hk

theorem extCmd_put (d : DtuRegs) : (d.put v k).extCmd = if k = 7 then v else d.extCmd :=
  (dtu_get_put d v k 7 hk (by decide)).trans (if_congr eq_comm rfl rfl)

theorem msgCnt_put (d : DtuRegs) : (d.put v k).msgCnt = if k = 6 then v else d.msgCnt :=
  (dtu_get_put d v k 6 hk (by decide)).trans (if_congr eq_comm rfl rfl)

/-- Only a write of MSG_CNT that changes it drives the pin (assumption 29). -/
theorem suspendPin_put :
    suspendPin s { s with dtu := s.dtu.put v k } =
      if k = 6 ∧ v ≠ s.dtu.msgCnt then [.setDenySuspend (v != 0#64)] else [] := by
  have hput := msgCnt_put v hk s.dtu
  by_cases h6 : k = 6
  · rw [if_pos h6] at hput
    by_cases hsame : v = s.dtu.msgCnt
    · rw [if_neg fun h => h.2 hsame]
      exact suspendPin_same (hput.trans hsame)
    · rw [if_pos ⟨h6, hsame⟩, suspendPin_changed (by rwa [hput]), hput]
      rfl
  · rw [if_neg h6] at hput
    rw [if_neg fun h => h6 h.1]
    exact suspendPin_same hput

/-- A DTU register written by the NoC: EXT_CMD schedules the external command (R174, R178). -/
theorem afterRegWrite_dtu :
    s.afterRegWrite false (8 * k) (wordBytes v) = { s with
      dtu := s.dtu.put v k
      extPending := if k = 7 then some v else s.extPending
      out := s.out ++ if k = 6 ∧ v ≠ s.dtu.msgCnt then [.setDenySuspend (v != 0#64)] else [] } := by
  have hregs : State.writeRegs false (8 * k) (dataWords (wordBytes v)) s = { s with dtu := s.dtu.put v k } := by
    have hnumber : 8 * k / 8 = k := by omega
    rw [dataWords_one, writeRegs_noc_cons, writeReg_dtu s v (by omega), hnumber]
    rfl
  have hcommand : s.writes false (8 * k) (wordBytes v).length 0x40 = false :=
    writes_outside false (.inr (by rw [length_wordBytes]; omega))
  rw [afterRegWrite_outside_commands hregs hcommand, suspendPin_put v hk, extCmd_put v hk, writes_dtu_extCmd]
  by_cases h7 : k = 7
  · simp only [h7, decide_true, if_true]
  · simp only [h7, decide_false, Bool.false_eq_true, if_false]

end

/-- Settles O15: the CPU's word is dropped; the NoC's is `afterRegWrite_dtu`, whose answer waits if it is for EXT_CMD. -/
theorem regWriteOfADtuRegister : Obligations.RegWriteOfADtuRegister := by
  unfold Obligations.RegWriteOfADtuRegister
  intro s k v hk
  have hend : 8 * k + 8 ≤ s.cfg.windowSize := by simp only [Config.windowSize]; omega
  have hok : regAccessOk s.cfg (8 * k) (wordBytes v).length = true := by
    rw [length_wordBytes]; exact regOk (by omega) rfl (by decide) hend
  have hext := writes_dtu_extCmd s k v
  refine ⟨fun id => ?_, fun p => ?_⟩ <;> rw [exec_regWrite_ofNat _ _ (by omega)]
  · exact registerWrite_cpu_dropped id v (by omega) hend (.inl (by omega))
  · by_cases h7 : k = 7
    · have hpin : ¬ (k = 6 ∧ v ≠ s.dtu.msgCnt) := fun h => by omega
      rw [registerWrite_waits hok (hext.trans (decide_eq_true h7)), afterRegWrite_dtu v hk, if_neg hpin,
        List.append_nil, if_pos h7, if_pos h7, h7]
      rfl
    · rw [registerWrite_answered (port := .noc p) hok (hext.trans (decide_eq_false h7)), portIsCpu,
        afterRegWrite_dtu v hk, if_neg h7, if_neg h7]
      rfl

/-! ## Endpoint registers -/

section
variable {s : State} {i : Nat}

/-- Word `k` of endpoint `i` stands at `0x70 + 24 i + 8 k` (R40). -/
theorem writeReg_epWord (s : State) (i : Nat) {k : Nat} (v : Word) (hk : k < 3) :
    s.writeReg (0x70 + 24 * i + 8 * k) v = s.setEp i ((s.ep i).put v k) := by
  have hi : (0x70 + 24 * i + 8 * k - 0x70) / 24 = i := by omega
  have hw : (0x70 + 24 * i + 8 * k - 0x70) % 24 / 8 = k := by omega
  rw [writeReg_ep s v (by omega), hi, hw]

theorem State.setEp_setEp (s : State) (i : Nat) (w w' : EpWords) : (s.setEp i w).setEp i w' = s.setEp i w' := by
  simp only [State.setEp, List.set_set]

/-- The three words of an endpoint, written one after the other, replace it. -/
theorem writeRegs_endpoint (v v' v'' : Word) (hi : i < s.eps.length) :
    State.writeRegs false (0x70 + 24 * i) [v, v', v''] s = s.setEp i ⟨v, v', v''⟩ := by
  have hself : ∀ w, (s.setEp i w).ep i = w := fun w => by rw [State.ep_setEp s i i w hi, if_pos rfl]
  have hw0 (t : State) (u : Word) : t.writeReg (0x70 + 24 * i) u = t.setEp i ((t.ep i).put u 0) :=
    writeReg_epWord t i u (k := 0) (by decide)
  have hw1 (t : State) (u : Word) : t.writeReg (0x70 + 24 * i + 8) u = t.setEp i ((t.ep i).put u 1) :=
    writeReg_epWord t i u (k := 1) (by decide)
  have hw2 (t : State) (u : Word) : t.writeReg (0x70 + 24 * i + 8 + 8) u = t.setEp i ((t.ep i).put u 2) :=
    writeReg_epWord t i u (k := 2) (by decide)
  simp only [writeRegs_noc_cons, hw0, hw1, hw2, hself, State.setEp_setEp]
  rfl

/-- Words of the NoC that replace an endpoint do nothing else, and are answered at once (R175, R180). -/
theorem registerWrite_noc_ep {off : Nat} {data : List Byte} {w : EpWords} (p : Packet)
    (hok : regAccessOk s.cfg off data.length = true) (hoff : 0x70 ≤ off)
    (hregs : State.writeRegs false off (dataWords data) s = s.setEp i w) :
    registerWrite (.noc p) off data s =
      .next { s with eps := s.eps.set i w, out := s.out ++ [.nocResponse p .noError []] } := by
  have hnone : ∀ r, r < 0x70 → s.writes false off data.length r = false := fun r hr =>
    writes_outside false (.inl (by omega))
  have hafter := afterRegWrite_outside_commands (d := s.dtu) (es := s.eps.set i w) hregs (hnone 0x40 (by decide))
  rw [hnone 0x38 (by decide), suspendPin_same rfl, List.append_nil] at hafter
  rw [registerWrite_answered (port := .noc p) hok (hnone 0x38 (by decide)), portIsCpu, hafter]
  rfl

end

/-- Settles O16: the CPU's word is dropped; the NoC's words replace the endpoint's. -/
theorem regWriteOfAnEndpoint : Obligations.RegWriteOfAnEndpoint := by
  unfold Obligations.RegWriteOfAnEndpoint
  intro s i k v v' v'' hlen hi hmax hk
  have hend : 0x70 + 24 * i + 24 ≤ s.cfg.windowSize := by simp only [Config.windowSize]; omega
  have hok : ∀ j n, n ≠ 0 → j + n ≤ 3 → regAccessOk s.cfg (0x70 + 24 * i + 8 * j) (8 * n) = true := fun j n hn hj =>
    regOk (by omega) (by omega) (by omega) (by omega)
  refine ⟨fun id => ?_, fun p => ?_, fun p => ?_⟩ <;> rw [exec_regWrite_ofNat _ _ (by omega)]
  · exact registerWrite_cpu_dropped id v (by omega) (by omega) (.inr (by omega))
  · refine registerWrite_noc_ep p ?_ (by omega) ?_
    · rw [length_wordBytes]; exact hok k 1 (by decide) (by omega)
    · rw [dataWords_one, writeRegs_noc_cons, writeReg_epWord s i v hk]
      rfl
  · refine registerWrite_noc_ep p ?_ (by omega) ?_
    · simp only [List.length_append, length_wordBytes]
      exact hok 0 3 (by decide) (by decide)
    · rw [dataWords_three, writeRegs_endpoint v v' v'' (by omega)]

end Sys2Proof.Machine
end

section
/-! PROOF. The Dispatcher (R200 to R213, R246, R470): which function a step runs, the checks that every command begins
with, and the end of the command whose message packet has been answered. -/

namespace Sys2Proof.Machine

/-! ## What a step runs -/

/-- With a schedule given, the next step is its first event's (assumption 1). -/
theorem step_agenda {s : State} {e : Event} {rest : List Event} (h : s.agenda = e :: rest) :
    step s = runEvent e { s with agenda := rest } := by
  simp only [step, nextStep, h]

section
variable {s : State} {i : Instr}

theorem dispatchStep_pending (hp : s.execPending = true) (hd : decode (.command s.command) = .ok i) :
    dispatchStep s = exec i { s with execPending := false } := by
  simp only [dispatchStep, hp, hd, execDecoded, if_true]

theorem externStep_pending {w : Word} (hp : s.extPending = some w) (hd : decode (.external w) = .ok i) :
    externStep s = exec i { s with extPending := none } := by
  simp only [externStep, hp, hd, execDecoded]

theorem deliverStep_decoded {p : WirePacket} (hd : decode (.packet p) = .ok i) : deliverStep p s = exec i s := by
  simp only [deliverStep, hd, execDecoded]

/-- A request of a served kind in the register window is a register access (R170, R395; assumption 24). -/
theorem cpuStep_window {req : CpuReq} (hk : req.kind.unsupported = false)
    (hw : inWindow s.cfg req.addr.toNat = true) (hd : decode (req.registerAccess s.cfg) = .ok i) :
    cpuStep req s = exec i s := by
  simp only [cpuStep, hk, hw, hd, execDecoded, Bool.false_eq_true, if_false, if_true]

end

/-- Settles O6: the first event's step by `step_agenda`, then what each agent decodes. -/
theorem stepRunsTheDecodedOperation : Obligations.StepRunsTheDecodedOperation := by
  unfold Obligations.StepRunsTheDecodedOperation
  intro s rest i
  refine ⟨fun ha hp hd => ?_, fun w ha hp hd => ?_, fun p ha hd => ?_, fun req ha hk hw hd => ?_,
    fun _ => step_agenda, fun _ => step_agenda, fun _ => step_agenda, fun _ => step_agenda, fun _ => step_agenda,
    fun _ _ _ => step_agenda, fun _ => step_agenda⟩
  · exact (step_agenda ha).trans (dispatchStep_pending (s := { s with agenda := rest }) hp hd)
  · exact (step_agenda ha).trans (externStep_pending (s := { s with agenda := rest }) hp hd)
  · exact (step_agenda ha).trans (deliverStep_decoded hd)
  · exact (step_agenda ha).trans (cpuStep_window (s := { s with agenda := rest }) hk hw hd)

/-! ## The checks of a command -/

/-- Settles O19: IDLE makes no test, not even that of a command in progress. -/
theorem idleDoesNothing : Obligations.IdleDoesNothing := by
  unfold Obligations.IdleDoesNothing
  exact fun _ _ _ => rfl

section
variable {s : State} {e : Nat} {type : BitVec 3}

theorem withEndpoint_outOfRange (h : s.cfg.numEndpoints ≤ e) (k : EpWords → Result) :
    withEndpoint s e type k = .fault .endpointOutOfRange := if_pos h

theorem withEndpoint_otherType (h : e < s.cfg.numEndpoints) (ht : (s.ep e).type ≠ type) (k : EpWords → Result) :
    withEndpoint s e type k = .fault .badEndpoint := by
  rw [withEndpoint, if_neg (Nat.not_le.2 h), if_pos ht]

end

/-- Every command but IDLE begins with the in-progress test (R203). -/
theorem exec_command {i : Instr} (h : isCommand i = true) :
    ∃ k, ∀ s, exec i s = andThen (beginCommand s) k := by
  cases i
  case send | reply | read | write | fetchMsg | ackMsg | debugMsg => exact ⟨_, fun _ => rfl⟩
  all_goals cases h

/-- Every command that names an endpoint then tests that endpoint (R206). -/
theorem exec_endpointCommand {i : Instr} {e : BitVec 8} {type : BitVec 3} (h : endpointUse i = some (e, type)) :
    ∃ k : State → EpWords → Result,
      ∀ s, exec i s = andThen (beginCommand s) fun t => withEndpoint t e.toNat type (k t) := by
  cases i
  case send | reply | read | write | fetchMsg | ackMsg => cases h; exact ⟨_, fun _ => rfl⟩
  all_goals cases h

/-- Settles O20: the tests in their order, `beginCommand` and then `withEndpoint`. -/
theorem commandChecks : Obligations.CommandChecks := by
  unfold Obligations.CommandChecks
  refine fun s i => ⟨fun hi hbusy => ?_, fun e type hi hidle => ?_⟩
  · obtain ⟨k, hexec⟩ := exec_command hi
    rw [hexec, beginCommand_busy hbusy, andThen_fault]
  · obtain ⟨k, hexec⟩ := exec_endpointCommand hi
    rw [hexec, beginCommand_idle hidle, andThen_next]
    exact ⟨fun hrange => withEndpoint_outOfRange hrange _, fun hrange htype => withEndpoint_otherType hrange htype _⟩

/-! ## The end of a command -/

/-- The writes of R212. -/
theorem closeCommand_eq (s : State) (err : ErrorCode) :
    s.closeCommand err = { s with
      command := (errorCode s.cfg err).setWidth 64 <<< 11
      cmdInProgress := false
      cmdState := .none
      staleOperands := [] } := rfl

/-- Settles O21. -/
theorem debugMsgTraces : Obligations.DebugMsgTraces := by
  unfold Obligations.DebugMsgTraces
  intro s payload hidle hstate
  have hexec : exec (.debugMsg payload) s =
      finishCommand .noError (State.emit { s with cmdInProgress := true } (.trace (payload.setWidth 64))) := by
    simp only [exec, execDebugMsg, beginCommand_idle hidle, andThen_next]
  rw [hexec, finishCommand_plain rfl (by simp [hstate, CmdState.replyCtx]) (by simp [hstate, CmdState.isMem]),
    closeCommand_eq, hidle, hstate]
  rfl

/-! ### The slot that is freed -/

section
variable {s : State} {e : Nat} {m : Word}

/-- A ring with slots of no bytes has no slot to free (R271). -/
theorem ackMessage_noSlots (h : (s.ep e).msgSize = 0) : ackMessage e m s = .fault .badEndpoint := if_pos h

theorem ackMessage_outside (h0 : (s.ep e).msgSize ≠ 0) (h1 : (s.ep e).size.toNat ≤ (s.ep e).slotOf m) :
    ackMessage e m s = .fault .slotOutOfRange := by
  simp only [ackMessage, h0, h1, if_false, if_true]

theorem ackMessage_free (h0 : (s.ep e).msgSize ≠ 0) (h1 : (s.ep e).slotOf m < (s.ep e).size.toNat)
    (h2 : (s.ep e).occupied.getLsbD ((s.ep e).slotOf m) = false) :
    ackMessage e m s = .fault .slotNotOccupied := by
  simp only [ackMessage, h0, Nat.not_le.2 h1, h2, if_false, if_true]

end

/-- The endpoint after an unread slot was freed, its bitmaps those from before (R271). -/
theorem unreadDropped_freed (e : EpWords) (idx : Nat) :
    (e.freed idx).unreadDropped idx =
      ((e.withOccupied (clearSlot e.occupied idx)).withUnread (clearSlot e.unread idx)).withMsgCount
        (e.msgCount - 1) := by
  rw [EpWords.unreadDropped, EpWords.freed, EpWords.withOccupied_unread, EpWords.withOccupied_msgCount]

/-! ### REPLY -/

/-- Local memory when a REPLY ends: its message's header is marked if the receiver is gone and the header's place is
known (R246; assumption 9). -/
def State.memAfterReply (s : State) (ctx : ReplyCtx) (err : ErrorCode) : Memory :=
  if err = .vpeGone then ctx.phys.elim s.mem fun pa => s.mem.writeBytes pa [ctx.flags ||| 0x10#8] else s.mem

theorem finishMsgReply_eq (ctx : ReplyCtx) (err : ErrorCode) (s : State) :
    finishMsgReply ctx err s = ackMessage ctx.ep ctx.msg { s with mem := s.memAfterReply ctx err } := by
  rw [finishMsgReply, State.memAfterReply]
  split
  · cases ctx.phys <;> rfl
  · rfl

section
variable {s : State} {ctx : ReplyCtx} {err : ErrorCode} (hprog : s.cmdInProgress = true)
  (hctx : s.cmdState.replyCtx = some ctx)
include hprog hctx

/-- The end of a REPLY is the acknowledgement of its message (R213, R246). -/
theorem finishCommand_acknowledges :
    finishCommand err s = andThen (ackMessage ctx.ep ctx.msg { s with mem := s.memAfterReply ctx err })
      fun t => .next (t.closeCommand err) := by
  rw [finishCommand_reply hprog hctx, finishMsgReply_eq]

theorem finishCommand_notAcknowledged {f : Fault}
    (hack : ackMessage ctx.ep ctx.msg { s with mem := s.memAfterReply ctx err } = .fault f) :
    finishCommand err s = .fault f := by
  rw [finishCommand_acknowledges hprog hctx, hack, andThen_fault]

theorem finishCommand_acknowledged {t : State}
    (hack : ackMessage ctx.ep ctx.msg { s with mem := s.memAfterReply ctx err } = .next t) :
    finishCommand err s = .next (t.closeCommand err) := by
  rw [finishCommand_acknowledges hprog hctx, hack, andThen_next]

end

/-- The response to a packet that takes no data reaches the command that sent the message (R392). -/
theorem nocRespondStep_message {s : State} {k : Nat} {p : WirePacket} (r : ErrorCode)
    (hq : s.nocOutstanding[k]? = some ⟨p, .message⟩) (hk : p.kind = .write) :
    nocRespondStep k r [] s = finishCommand r { s with nocOutstanding := s.nocOutstanding.eraseIdx k } := by
  have hok : responseOk p r [] = true := by
    by_cases hr : r = .noError
    · rw [hr]; exact responseOk_write hk
    · exact responseOk_error hr
  exact nocRespondStep_deliver hq hok

/-- Settles O27: a REPLY by the outcomes of `ackMessage`, a SEND by `finishCommand_plain`. -/
theorem messageResponseFinishes : Obligations.MessageResponseFinishes := by
  unfold Obligations.MessageResponseFinishes
  constructor
  · intro s ctx r hprog hctx e idx ended
    obtain ⟨t, ht⟩ : ∃ t, t = { s with mem := s.memAfterReply ctx r } := ⟨_, rfl⟩
    have hfails {f : Fault} (hack : ackMessage ctx.ep ctx.msg t = .fault f) : finishCommand r s = .fault f :=
      finishCommand_notAcknowledged hprog hctx (ht ▸ hack)
    have hfrees {u : State} (hack : ackMessage ctx.ep ctx.msg t = .next u) :
        finishCommand r s = .next (u.closeCommand r) :=
      finishCommand_acknowledged hprog hctx (ht ▸ hack)
    have hep : t.ep ctx.ep = e := by rw [ht]; rfl
    have hidx : (t.ep ctx.ep).slotOf ctx.msg = idx := by rw [hep]; rfl
    rw [← hep]
    refine ⟨fun h0 => hfails (ackMessage_noSlots h0), fun h0 h1 => hfails (ackMessage_outside h0 (hidx ▸ h1)),
      fun h0 h1 h2 => hfails (ackMessage_free h0 (hidx ▸ h1) (hidx ▸ h2)), fun h0 h1 h2 h3 => ?_,
      fun h0 h1 h2 h3 => ?_⟩
    · rw [hfrees (ackMessage_occupied hidx h0 h1 h2), if_neg (by rw [h3]; exact Bool.false_ne_true), ht]
      rfl
    · rw [hfrees (ackMessage_occupied hidx h0 h1 h2), if_pos h3, unreadDropped_freed, ht]
      rfl
  · intro s k p r hprog hq hk
    have hdeliver := nocRespondStep_message r hq hk
    refine ⟨hdeliver, fun hsend => hdeliver.trans ?_⟩
    refine finishCommand_plain (s := { s with nocOutstanding := s.nocOutstanding.eraseIdx k }) hprog ?_ ?_ r
    · rw [hsend]; rfl
    · rw [hsend]; rfl

end Sys2Proof.Machine
end

section
/-! PROOF. A sequence of fetches follows the ring (R265 to R267), and credits are conserved over debits and grants
(R232, R234, R261, R275). -/

namespace Sys2Proof.Machine

/-! ## The ring from a slot on -/

/-- The slots from `start` on, wrapping, are the slots of the ring rotated. -/
theorem slots_from_eq_rotate (size start : Nat) :
    ((List.range size).map fun k => (start + k) % size) = (List.range size).rotate start := by
  refine List.ext_getElem (by simp) fun k hk hk' => ?_
  rw [List.getElem_map, List.getElem_range, List.getElem_rotate, List.getElem_range, List.length_range, Nat.add_comm]

/-- Starting behind a slot puts that slot last, after those that came before it. -/
theorem rotate_behind {size start idx : Nat} {before after : List Nat}
    (h : (List.range size).rotate start = before ++ idx :: after) :
    (List.range size).rotate ((idx + 1) % size) = after ++ (before ++ [idx]) := by
  have hidx : idx = (before.length + start) % size := by
    have hlen : before.length < ((List.range size).rotate start).length := by rw [h]; simp
    have hget := List.getElem_rotate (List.range size) start before.length hlen
    simpa [h] using hget
  have hplace : (idx + 1) % size = (start + (before ++ [idx]).length) % size := by
    rw [List.length_append, List.length_singleton, hidx, Nat.mod_add_mod]
    congr 1
    omega
  have hmod (n : Nat) : (List.range size).rotate (n % size) = (List.range size).rotate n := by
    simpa using List.rotate_mod (List.range size) n
  rw [hplace, hmod, ← List.rotate_rotate, h, List.append_cons, List.rotate_append_length_eq]

/-! ## The unread slots -/

/-- The unread slots of a ring in ring order from `rdPos` (R267). -/
def EpWords.unreadSlots (e : EpWords) : List Nat :=
  ((List.range e.size.toNat).rotate e.rdPos.toNat).filter fun i => e.unread.getLsbD i

theorem unreadSlot_eq_find (e : EpWords) :
    e.unreadSlot = ((List.range e.size.toNat).rotate e.rdPos.toNat).find? fun i => e.unread.getLsbD i := by
  rw [EpWords.unreadSlot, scanRing, slots_from_eq_rotate]

theorem unreadSlots_of_none {e : EpWords} (h : e.unreadSlot = none) : e.unreadSlots = [] := by
  rw [unreadSlot_eq_find, List.find?_eq_none] at h
  exact List.filter_eq_nil_iff.2 h

/-- A fetch takes the first unread slot, and leaves the others in their order (R266). -/
theorem unreadSlots_of_some {e : EpWords} {idx : Nat} (hsize : e.size.toNat ≤ 32) (h : e.unreadSlot = some idx) :
    e.unreadSlots = idx :: (e.fetched idx).unreadSlots := by
  obtain ⟨-, hlt, -⟩ := scanRing_eq_some h
  rw [unreadSlot_eq_find, List.find?_eq_some_iff_append] at h
  obtain ⟨hunread, before, after, hring, hread⟩ := h
  have hpos : (e.fetched idx).rdPos.toNat = (idx + 1) % e.size.toNat := by
    rw [EpWords.fetched, EpWords.withRdPos_rdPos, mod6 idx _ hsize (by omega)]
  have hbits (i : Nat) : (e.fetched idx).unread.getLsbD i = (e.unread.getLsbD i && decide (i ≠ idx)) := by
    simp [EpWords.fetched, getLsbD_clearSlot]
  have hnot : idx ∉ after := by
    have hnodup : (before ++ idx :: after).Nodup := hring ▸ List.nodup_rotate.2 List.nodup_range
    exact (List.nodup_cons.1 (List.nodup_append.1 hnodup).2.1).1
  have hbefore : ∀ i ∈ before, e.unread.getLsbD i = false := fun i hi => by simpa using hread i hi
  have hafter : ∀ i ∈ after, (e.fetched idx).unread.getLsbD i = e.unread.getLsbD i := fun i hi => by
    rw [hbits, decide_eq_true (ne_of_mem_of_not_mem hi hnot), Bool.and_true]
  have hskip : before.filter (fun i => e.unread.getLsbD i) = [] :=
    List.filter_eq_nil_iff.2 fun i hi => by simp [hbefore i hi]
  have hgone : (before ++ [idx]).filter (fun i => (e.fetched idx).unread.getLsbD i) = [] :=
    List.filter_eq_nil_iff.2 fun i hi => by
      rw [List.mem_append, List.mem_singleton] at hi
      rcases hi with hi | rfl
      · simp [hbits, hbefore i hi]
      · simp [hbits]
  have hring' : (List.range (e.fetched idx).size.toNat).rotate (e.fetched idx).rdPos.toNat =
      after ++ (before ++ [idx]) := by
    rw [hpos, show (e.fetched idx).size = e.size by simp [EpWords.fetched]]
    exact rotate_behind hring
  calc e.unreadSlots = idx :: after.filter fun i => e.unread.getLsbD i := by
        rw [EpWords.unreadSlots, hring, List.filter_append, hskip, List.nil_append, List.filter_cons_of_pos hunread]
    _ = idx :: after.filter fun i => (e.fetched idx).unread.getLsbD i := by
        rw [List.filter_congr hafter]
    _ = idx :: (e.fetched idx).unreadSlots := by
        rw [EpWords.unreadSlots, hring', List.filter_append, hgone, List.append_nil]

theorem fetchOrder_eq_unreadSlots {n : Nat} {e : EpWords} (hsize : e.size.toNat ≤ 32)
    (hn : e.unreadSlots.length ≤ n) : e.fetchOrder n = e.unreadSlots := by
  induction n generalizing e with
  | zero => rw [List.length_eq_zero_iff.1 (Nat.le_zero.1 hn), EpWords.fetchOrder]
  | succ n ih =>
    cases hslot : e.unreadSlot with
    | none => simp only [EpWords.fetchOrder, hslot, unreadSlots_of_none hslot]
    | some idx =>
      have hfirst := unreadSlots_of_some hsize hslot
      have hrest : (e.fetched idx).fetchOrder n = (e.fetched idx).unreadSlots := by
        refine ih (by simpa [EpWords.fetched] using hsize) ?_
        rw [hfirst, List.length_cons] at hn
        exact Nat.le_of_succ_le_succ hn
      simp only [EpWords.fetchOrder, hslot, hrest, hfirst]

/-- Settles O29, by induction on the fetches: each takes the first of the unread slots that are left, and a ring has at
most 32. -/
theorem fetchesFollowTheRing : Obligations.FetchesFollowTheRing := by
  unfold Obligations.FetchesFollowTheRing
  intro e h
  have hlen : e.unreadSlots.length ≤ 32 := by
    refine (List.length_filter_le ..).trans ?_
    rw [List.length_rotate, List.length_range]
    exact h.size
  rw [fetchOrder_eq_unreadSlots h.size hlen, slots_from_eq_rotate, EpWords.unreadSlots]

/-! ## Credits -/

/-- A field rewritten twice. -/
theorem setField_setField {len : Nat} (w : Word) (lo : Nat) (v v' : BitVec len) (hl : lo + len ≤ 64) :
    setField (setField w lo v) lo v' = setField w lo v' := by
  refine BitVec.eq_of_getLsbD_eq fun i _ => ?_
  simp only [getLsbD_setField _ _ _ _ hl]
  split <;> rfl

/-- A field rewritten with what it holds. -/
theorem setField_field (w : Word) (lo len : Nat) (hl : lo + len ≤ 64) : setField w lo (field w lo len) = w := by
  refine BitVec.eq_of_getLsbD_eq fun i _ => ?_
  rw [getLsbD_setField _ _ _ _ hl, getLsbD_field]
  split
  · next hi =>
    have hin : i - lo < len := by omega
    rw [decide_eq_true hin, Bool.true_and, Nat.add_sub_cancel' hi.1]
  · rfl

theorem EpWords.withCredits_withCredits (e : EpWords) (v v' : BitVec 16) :
    (e.withCredits v).withCredits v' = e.withCredits v' := by
  rw [EpWords.withCredits, EpWords.withCredits, setField_setField _ _ _ _ (by decide), EpWords.withCredits]

theorem EpWords.withCredits_self (e : EpWords) : e.withCredits e.credits = e := by
  rw [EpWords.withCredits, EpWords.credits, setField_field _ _ _ (by decide)]

/-- From `e` to `e'` this many messages were paid and this many grants received: the balance of bounded credits, which
stay bounded, and nothing else has changed (R275). -/
structure CreditsMoved (e e' : EpWords) (sends grants : Nat) : Prop where
  balance : e'.credits.toNat + e.maxMsgSize.toNat * sends = e.credits.toNat + e.maxMsgSize.toNat * grants
  bounded : e'.credits ≠ 0xFFFF#16
  frame : e' = e.withCredits e'.credits

theorem CreditsMoved.refl {e : EpWords} (h : e.credits ≠ 0xFFFF#16) : CreditsMoved e e 0 0 :=
  ⟨rfl, h, e.withCredits_self.symm⟩

theorem CreditsMoved.trans {e e' e'' : EpWords} {m n m' n' : Nat} (h : CreditsMoved e e' m n)
    (k : CreditsMoved e' e'' m' n') : CreditsMoved e e'' (m + m') (n + n') := by
  have hmax : e'.maxMsgSize = e.maxMsgSize := by rw [h.frame, EpWords.withCredits_maxMsgSize]
  refine ⟨?_, k.bounded, ?_⟩
  · have hfirst := h.balance
    have hsecond := k.balance
    rw [hmax] at hsecond
    rw [Nat.mul_add, Nat.mul_add]
    omega
  · calc e'' = e'.withCredits e''.credits := k.frame
      _ = (e.withCredits e'.credits).withCredits e''.credits := by rw [← h.frame]
      _ = e.withCredits e''.credits := e.withCredits_withCredits ..

/-- Credits that moved to a value below the sentinel (R43). -/
theorem creditsMoved_withCredits {e : EpWords} {v : BitVec 16} {m n : Nat} (hv : v.toNat < 0xFFFF)
    (h : v.toNat + e.maxMsgSize.toNat * m = e.credits.toNat + e.maxMsgSize.toNat * n) :
    CreditsMoved e (e.withCredits v) m n := by
  refine ⟨by rwa [EpWords.withCredits_credits], ?_, by rw [EpWords.withCredits_credits]⟩
  rw [EpWords.withCredits_credits]
  rintro rfl
  exact absurd hv (by decide)

theorem credits_lt_unlim {e : EpWords} (h : e.credits ≠ 0xFFFF#16) : e.credits.toNat < 0xFFFF := by bv_omega

/-- A send that does not lack credits pays `maxMsgSize` (R232, R234). -/
theorem CreditsMoved.debit {e : EpWords} (h : e.credits ≠ 0xFFFF#16) (hl : ¬ e.lacksCredits = true) :
    CreditsMoved e e.debited 1 0 := by
  have hpaid : e.maxMsgSize.toNat ≤ e.credits.toNat := (not_not.1 (mt lacksCredits_iff.2 hl)).resolve_left h
  have hsub : (e.credits - e.maxMsgSize).toNat = e.credits.toNat - e.maxMsgSize.toNat :=
    BitVec.toNat_sub_of_le hpaid
  have hlt := credits_lt_unlim h
  rw [show e.debited = e.withCredits (e.credits - e.maxMsgSize) from if_neg h]
  exact creditsMoved_withCredits (by omega) (by omega)

/-- A grant that does not overflow gives `maxMsgSize` back (R261). -/
theorem CreditsMoved.grant {e : EpWords} (h : ¬ 0xFFFE < e.credits.toNat + e.maxMsgSize.toNat) :
    CreditsMoved e (e.withCredits (e.credits + e.maxMsgSize)) 0 1 := by
  have hadd : (e.credits + e.maxMsgSize).toNat = e.credits.toNat + e.maxMsgSize.toNat :=
    BitVec.toNat_add_of_lt (by omega)
  exact creditsMoved_withCredits (by omega) (by omega)

theorem creditRun_moves {ops : List Bool} {e e' : EpWords} (h : e.credits ≠ 0xFFFF#16)
    (hrun : e.creditRun ops = some e') : CreditsMoved e e' (ops.count true) (ops.count false) := by
  induction ops generalizing e with
  | nil => cases hrun; exact .refl h
  | cons op ops ih =>
    cases op with
    | true =>
      obtain ⟨hl, hrest⟩ := Option.ite_none_left_eq_some.1 hrun
      have hone := CreditsMoved.debit h hl
      simpa [Nat.add_comm] using hone.trans (ih hone.bounded hrest)
    | false =>
      obtain ⟨ho, hrest⟩ := Option.ite_none_left_eq_some.1 hrun
      have hone := CreditsMoved.grant ho
      simpa [Nat.add_comm] using hone.trans (ih hone.bounded hrest)

/-- Settles O35, by induction on the debits and grants (`creditRun_moves`). -/
theorem creditConservation : Obligations.CreditConservation := by
  unfold Obligations.CreditConservation
  intro ops e e' h hrun
  obtain ⟨hbalance, hbounded, hframe⟩ := creditRun_moves h hrun
  refine ⟨hbalance, fun hle => ?_, hbounded, hframe⟩
  have hmul := Nat.mul_le_mul_left e.maxMsgSize.toNat hle
  omega

end Sys2Proof.Machine
end

section
/-! PROOF. What SEND, REPLY, FETCH_MSG and ACK_MSG do in the step that executes them (R231 to R241, R265 to R271). -/

namespace Sys2Proof.Machine

/-! ## SEND -/

/-- The endpoint after a send, its credits unlimited or not (R234). -/
theorem debited_eq (e : EpWords) :
    e.debited = if e.credits = 0xFFFF#16 then e else e.withCredits (e.credits - e.maxMsgSize) := rfl

/-- A SEND with which nothing is wrong starts its transfer (R234 to R237). -/
theorem execSend_starts {s : State} {arg : BitVec 8} {target : Word} (hidle : s.cmdInProgress = false)
    (hrange : arg.toNat < s.cfg.numEndpoints) (htype : (s.ep arg.toNat).type = typeSend)
    (hpaid : ¬ (s.ep arg.toNat).lacksCredits = true)
    (hsize : (s.operand 0 (·.dataSize)).toNat + headerSize ≤ (s.ep arg.toNat).maxMsgSize.toNat)
    (hmax : (s.ep arg.toNat).maxMsgSize.toNat ≤ s.cfg.maxNocPacketSize)
    (haddr : nocAddr (s.ep arg.toNat).tgtCore.toNat (s.ep arg.toNat).sendVpe.toNat (s.ep arg.toNat).tgtEp.toNat =
      some target) :
    execSend arg s =
      startTransfer
        (messageXfer target (s.operand 3 (·.dataAddr)) (s.operand 0 (·.dataSize)).toNat
          (s.sendHeader arg.toNat (s.operand 0 (·.dataSize)) (s.operand 1 (·.replyEpid))
            (s.operand 2 (·.replyLabel))))
        { s with
          eps := s.eps.set arg.toNat (s.ep arg.toNat).debited
          cmdInProgress := true
          cmdState := .sendXfer none
          draws := s.draws + 4 } := by
  have hep : ∀ k, withEndpoint { s with cmdInProgress := true } arg.toNat typeSend k = k (s.ep arg.toNat) :=
    withEndpoint_ok hrange htype
  simp only [execSend, beginCommand_idle hidle, andThen_next, hep, haddr]
  exact (if_neg hpaid).trans ((if_neg (Nat.not_lt.2 hsize)).trans (if_neg (Nat.not_lt.2 hmax)))

/-- The header of a SEND names the endpoint it was sent through, or no endpoint if its credits are unlimited (R235). -/
theorem sendHeader_eq (s : State) (arg : BitVec 8) (size replyEpid replyLabel : Word) :
    s.sendHeader arg.toNat size replyEpid replyLabel =
      { flags := 0x04#8
        senderCore := s.cfg.coreId.setWidth 16
        senderEp := if (s.ep arg.toNat).credits = 0xFFFF#16 then BitVec.ofNat 8 s.cfg.numEndpoints else arg
        replyEp := replyEpid.setWidth 8
        length := size.setWidth 16
        senderVpe := s.dtu.vpeId.setWidth 16
        label := (s.ep arg.toNat).label
        replyLabel := replyLabel } := by
  rw [State.sendHeader, BitVec.ofNat_toNat, BitVec.setWidth_eq]
  rfl

/-- Settles O23: the step by `execSend_starts`, its transfer fits a buffer since its packet does. -/
theorem sendStarts : Obligations.SendStarts := by
  unfold Obligations.SendStarts
  intro s arg err target hidle hrange htype e unlimited size hpaid hsize hmax hbuf haddr
  have hcredits : ¬ e.lacksCredits = true := fun hlacks => lacksCredits_iff.1 hlacks hpaid
  have hexec := execSend_starts hidle hrange htype hcredits hsize hmax haddr
  rw [sendHeader_eq] at hexec
  exact hexec.trans (startTransfer_ok ((hsize.trans hmax).trans hbuf))

/-! ## REPLY -/

/-- The state of a REPLY that has begun: nothing of the stored header is read yet (R241). -/
def State.replyBegun (s : State) (arg : BitVec 8) : State :=
  { s with
    cmdInProgress := true
    cmdState := .replyHeader ⟨arg.toNat, s.operand 1 (·.offset), none, 0#8⟩ []
    draws := s.draws + 2 }

/-- A REPLY tests its size and then translates the address of its message (R240, R241). -/
theorem execReply_eq {s : State} {arg : BitVec 8} (hidle : s.cmdInProgress = false)
    (hrange : arg.toNat < s.cfg.numEndpoints) (htype : (s.ep arg.toNat).type = typeReceive) :
    execReply arg s =
      if replyTooLarge s.cfg (s.operand 0 (·.dataSize)) then .fault .messageTooLarge
      else translateFor (s.operand 1 (·.offset)) 0x09#5 .replyHeader (s.replyBegun arg) := by
  have hep : ∀ k, withEndpoint { s with cmdInProgress := true } arg.toNat typeReceive k = k (s.ep arg.toNat) :=
    withEndpoint_ok hrange htype
  simp only [execReply, beginCommand_idle hidle, andThen_next, hep]
  rfl

/-- The first piece of the stored header is requested, and with it the place of the header is known (R241). -/
theorem issueHeaderPiece_first {s : State} {ctx : ReplyCtx} (page : Word) (hc : s.cmdState = .replyHeader ctx []) :
    s.issueHeaderPiece page = { s with
      cmdState := .replyHeader { ctx with phys := some (page + pageOffset ctx.msg) } []
      memOutstanding := s.memOutstanding ++
        [⟨page + pageOffset ctx.msg, .read (blockPiece s.cfg ctx.msg 25), .replyHeader⟩] } := by
  have hstart : ctx.msg + BitVec.ofNat 64 0 = ctx.msg := BitVec.add_zero _
  simp only [State.issueHeaderPiece, hc, List.length_nil, hstart]
  rfl

/-- Settles O25, by the outcome of the translation. -/
theorem replyStarts : Obligations.ReplyStarts := by
  unfold Obligations.ReplyStarts
  intro s arg err hidle hrange htype size m
  have hexec : exec (.reply arg err) s = _ := execReply_eq hidle hrange htype
  refine ⟨fun hbig => hexec.trans (if_pos (replyTooLarge_iff.2 hbig)), fun hmax h16 => ?_⟩
  rw [if_neg (Bool.eq_false_iff.1 (replyTooLarge_eq_false hmax h16))] at hexec
  refine ⟨fun page hpage => hexec.trans ?_,
    fun pf htlb hlook => hexec.trans (translateFor_waits (s := s.replyBegun arg) .replyHeader pf htlb hlook),
    fun htlb hlook => hexec.trans (translateFor_nomap (s := s.replyBegun arg) .replyHeader htlb hlook)⟩
  rw [translateFor_known (s := s.replyBegun arg) .replyHeader hpage]
  exact congrArg Host.Outcome.next (issueHeaderPiece_first (s := s.replyBegun arg) page rfl)

/-! ## FETCH_MSG -/

/-- The end of a command that waits for nothing: COMMAND is cleared (R212, D4). -/
theorem finishCommand_done {s : State} (hprog : s.cmdInProgress = true) (hstate : s.cmdState = .none) :
    finishCommand .noError s = .next { s with
      command := 0#64
      cmdInProgress := false
      cmdState := .none
      staleOperands := [] } := by
  have hreply : s.cmdState.replyCtx = none := by rw [hstate]; rfl
  have hmem : s.cmdState.isMem = false := by rw [hstate]; rfl
  rw [finishCommand_plain hprog hreply hmem, closeCommand_eq]
  rfl

/-- FETCH_MSG ends with the slot that it takes, or with none (R265, R266). -/
theorem execFetchMsg_eq {s : State} {arg : BitVec 8} (hidle : s.cmdInProgress = false)
    (hrange : arg.toNat < s.cfg.numEndpoints) (htype : (s.ep arg.toNat).type = typeReceive) :
    execFetchMsg arg s = finishCommand .noError
      ((s.ep arg.toNat).unreadSlot.elim
        { s with cmdInProgress := true, opnd := { s.opnd with offset := 0#64 } }
        (State.fetchSlot { s with cmdInProgress := true } arg.toNat)) := by
  have hep : ∀ k, withEndpoint { s with cmdInProgress := true } arg.toNat typeReceive k = k (s.ep arg.toNat) :=
    withEndpoint_ok hrange htype
  simp only [execFetchMsg, beginCommand_idle hidle, andThen_next, hep]
  cases (s.ep arg.toNat).unreadSlot <;> rfl

/-- Settles O28: no slot, or the first slot of the scan. -/
theorem fetchTakesTheFirstUnread : Obligations.FetchTakesTheFirstUnread := by
  unfold Obligations.FetchTakesTheFirstUnread
  intro s arg err hidle hstate hrange htype e slot
  have hexec : exec (.fetchMsg arg err) s = _ := execFetchMsg_eq hidle hrange htype
  refine ⟨fun hread => ?_, fun k hk hunread hread => ?_⟩
  · have hslot : e.unreadSlot = none := scanRing_none hread
    rw [hexec, hslot, Option.elim_none, hidle, hstate]
    exact finishCommand_done rfl rfl
  · have hslot : e.unreadSlot = some (slot k) := scanRing_first hk hunread hread
    rw [hexec, hslot, Option.elim_some, hidle, hstate]
    exact finishCommand_done rfl rfl

/-! ## ACK_MSG -/

/-- The state in which ACK_MSG frees its slot: the command has begun and has read OFFSET (R270). -/
def State.ackBegun (s : State) : State := State.drawn { s with cmdInProgress := true } 1

section
variable {s : State} {arg : BitVec 8} (hidle : s.cmdInProgress = false)
  (hrange : arg.toNat < s.cfg.numEndpoints) (htype : (s.ep arg.toNat).type = typeReceive)
include hidle hrange htype

/-- ACK_MSG is the acknowledgement of the address in OFFSET (R270). -/
theorem execAckMsg_eq :
    execAckMsg arg s =
      andThen (ackMessage arg.toNat (s.operand 0 (·.offset)) s.ackBegun) (finishCommand .noError) := by
  have hep : ∀ k, withEndpoint { s with cmdInProgress := true } arg.toNat typeReceive k = k (s.ep arg.toNat) :=
    withEndpoint_ok hrange htype
  simp only [execAckMsg, beginCommand_idle hidle, andThen_next, hep]
  rfl

theorem execAckMsg_fails {f : Fault}
    (hack : ackMessage arg.toNat (s.operand 0 (·.offset)) s.ackBegun = .fault f) :
    execAckMsg arg s = .fault f := by
  rw [execAckMsg_eq hidle hrange htype, hack, andThen_fault]

theorem execAckMsg_frees {t : State}
    (hack : ackMessage arg.toNat (s.operand 0 (·.offset)) s.ackBegun = .next t) :
    execAckMsg arg s = finishCommand .noError t := by
  rw [execAckMsg_eq hidle hrange htype, hack, andThen_next]

end

section
variable {e : Nat} {m : Word} {s : State} (h0 : (s.ep e).msgSize ≠ 0)
  (h1 : (s.ep e).slotOf m < (s.ep e).size.toNat) (h2 : (s.ep e).occupied.getLsbD ((s.ep e).slotOf m) = true)
include h0 h1 h2

/-- A slot that has been fetched is freed (R271). -/
theorem ackMessage_fetched (h3 : (s.ep e).unread.getLsbD ((s.ep e).slotOf m) = false) :
    ackMessage e m s = .next (s.setEp e ((s.ep e).freed ((s.ep e).slotOf m))) := by
  rw [ackMessage_occupied rfl h0 h1 h2, if_neg (ne_true_of_eq_false h3)]

/-- An unread slot loses its message too (R271, D24). -/
theorem ackMessage_unread (h3 : (s.ep e).unread.getLsbD ((s.ep e).slotOf m) = true) :
    ackMessage e m s =
      .next ((s.setEp e (((s.ep e).freed ((s.ep e).slotOf m)).unreadDropped ((s.ep e).slotOf m))).setMsgCnt
        (s.dtu.msgCnt - 1)) := by
  rw [ackMessage_occupied rfl h0 h1 h2, if_pos h3]

end

/-- Settles O30, by the outcomes of `ackMessage`. -/
theorem ackFreesTheSlot : Obligations.AckFreesTheSlot := by
  unfold Obligations.AckFreesTheSlot
  intro s arg err hidle hstate hrange htype e idx
  have hfails {f : Fault} := execAckMsg_fails (f := f) hidle hrange htype
  have hfrees {t : State} := execAckMsg_frees (t := t) hidle hrange htype
  refine ⟨fun h0 => hfails (ackMessage_noSlots h0), fun h0 h1 => hfails (ackMessage_outside h0 h1),
    fun h0 h1 h2 => hfails (ackMessage_free h0 h1 h2), fun h0 h1 h2 h3 => ?_, fun h0 h1 h2 h3 => ?_⟩
  · refine (hfrees (ackMessage_fetched h0 h1 h2 h3)).trans ?_
    rw [hidle, hstate]
    exact finishCommand_done rfl hstate
  · refine (hfrees (ackMessage_unread h0 h1 h2 h3)).trans ?_
    rw [hidle, hstate, ← unreadDropped_freed]
    exact finishCommand_done rfl hstate

end Sys2Proof.Machine
end

section
/-! PROOF. An inbound MESSAGE or PAGEFAULT (R250 to R261): what is wrong with it, how it is refused, the credits it
grants, the end of its receive; and the return from a page-fault upcall (R354 to R357). -/

namespace Sys2Proof.Machine

/-- MESSAGE and PAGEFAULT take the same path (R251). -/
theorem exec_inbound {i : Instr} {p : Packet} (h : i = .message p ∨ i = .pagefault p) (s : State) :
    exec i s = receiveMessage p s := by
  rcases h with rfl | rfl <;> rfl

/-! ## Which way a message goes -/

section
variable {s : State} {p : Packet}

theorem receiveMessage_noHeader (h : p.size < 25) : receiveMessage p s = .fault .missingHeader := if_pos h

/-- The test of R250 for the VPE, which compares a register with a field of the address. -/
theorem vpeId_eq_iff : s.dtu.vpeId = p.addr.vpeId.setWidth 64 ↔ s.dtu.vpeId.toNat = p.addr.vpeId.toNat := by
  rw [← BitVec.toNat_inj, BitVec.toNat_setWidth, Nat.mod_eq_of_lt (by omega)]

section
variable (hsize : 25 ≤ p.size)
include hsize

/-- A message for another VPE is answered VPE_GONE (R250). -/
theorem receiveMessage_otherVpe (hvpe : s.dtu.vpeId.toNat ≠ p.addr.vpeId.toNat) :
    receiveMessage p s = .next (s.nocRespond p .vpeGone []) :=
  (if_neg (Nat.not_lt.2 hsize)).trans (if_pos (mt vpeId_eq_iff.1 hvpe))

variable (hvpe : s.dtu.vpeId.toNat = p.addr.vpeId.toNat)
include hvpe

/-- A reply with PAGEFAULT returns from the upcall (R251). -/
theorem receiveMessage_pagefaultReply (hpf : (decodeHeader p.data).flags &&& 0x09#8 = 0x09#8) :
    receiveMessage p s = finishPagefault p s :=
  (if_neg (Nat.not_lt.2 hsize)).trans ((if_neg (not_not_intro (vpeId_eq_iff.2 hvpe))).trans
    (if_pos ((hasFlag_reply_pagefault _).2 hpf)))

variable (hpf : (decodeHeader p.data).flags &&& 0x09#8 ≠ 0x09#8)
include hpf

/-- Every other message is for an endpoint (R250). -/
theorem receiveMessage_endpoint :
    ∃ k : EpWords → Result,
      receiveMessage p s = withEndpoint s p.addr.offset.toNat typeReceive k ∧
      (∀ e, e.msgSize.toNat < p.size → k e = .fault .messageTooLarge) ∧
      ∀ e, p.size ≤ e.msgSize.toNat → e.freeSlot = none → k e = .next (s.nocRespond p .noRingSpace []) := by
  refine ⟨_, (if_neg (Nat.not_lt.2 hsize)).trans ((if_neg (not_not_intro (vpeId_eq_iff.2 hvpe))).trans
    (if_neg (mt (hasFlag_reply_pagefault _).1 hpf))), fun e h => if_pos h, fun e h hfull => ?_⟩
  simp only [if_neg (Nat.not_lt.2 h), hfull]

end

end

/-- Settles O36: the header, the endpoint's number, its type, the size of its slots. -/
theorem messageFaults : Obligations.MessageFaults := by
  unfold Obligations.MessageFaults
  intro s i p hi
  rw [exec_inbound hi]
  refine ⟨receiveMessage_noHeader, fun hsize hvpe hpf => ?_⟩
  obtain ⟨k, hrecv, hlarge, -⟩ := receiveMessage_endpoint hsize hvpe hpf
  rw [hrecv]
  refine ⟨fun hrange => withEndpoint_outOfRange hrange k,
    fun hrange htype => withEndpoint_otherType hrange htype k, fun hrange htype hbig => ?_⟩
  exact (withEndpoint_ok hrange htype k).trans (hlarge _ hbig)

/-- Settles O32: the wrong VPE, then a ring in which the scan finds no free slot. -/
theorem messageRefused : Obligations.MessageRefused := by
  unfold Obligations.MessageRefused
  intro s i p hi hsize
  rw [exec_inbound hi]
  refine ⟨receiveMessage_otherVpe hsize, fun hvpe hpf hrange htype hfit hfull => ?_⟩
  obtain ⟨k, hrecv, -, hring⟩ := receiveMessage_endpoint hsize hvpe hpf
  refine hrecv.trans ((withEndpoint_ok hrange htype k).trans (hring _ hfit (scanRing_none fun j hj => ?_)))
  rw [hfull _ (Nat.mod_lt _ (by omega)), Bool.not_true]

/-- Settles O34: `grantsTo` is the condition of the statement. -/
theorem creditGrant : Obligations.CreditGrant := by
  unfold Obligations.CreditGrant
  intro s h r e granted
  exact ⟨grantCredits_none, fun hg hfit => grantCredits_granted hg (Nat.not_lt.2 hfit), grantCredits_overflow⟩

/-! ## The end of a receive -/

/-- The end of a transfer that stored a message (R258, R259, R311). -/
theorem completeTransfer_message {bytes : List Byte} {ev : XferEvent} {t idx : Nat} {p : Packet} (s : State)
    (ht : ev.type = .remoteWrite) (hm : ev.flags.msgRecv = true) (hr : ev.recv = some (t, idx))
    (hp : ev.pkt = some p) :
    completeTransfer bytes ev s = .next ((s.finishMsgReceive t idx).respondIfNeeded (some p) .noError) := by
  simp only [completeTransfer, ht, hm, hr, hp]

/-- A response that leaves only if it is asked for (R259). -/
theorem respondIfNeeded_eq (s : State) (p : Packet) (r : ErrorCode) :
    s.respondIfNeeded (some p) r =
      { s with out := s.out ++ if p.needsResponse then [.nocResponse p r []] else [] } := by
  simp only [State.respondIfNeeded]
  split
  · rfl
  · rw [List.append_nil]

/-- The slot becomes unread, the counts rise, the pin follows, and the core is woken last (R258). -/
theorem finishMsgReceive_eq (s : State) (t idx : Nat) :
    s.finishMsgReceive t idx = { s with
      eps := s.eps.set t ((s.ep t).received idx)
      dtu := { s.dtu with msgCnt := s.dtu.msgCnt + 1 }
      out := s.out ++ [.setDenySuspend (s.dtu.msgCnt + 1 != 0#64), .wakeCore] } := by
  simp only [State.finishMsgReceive, State.emit, State.setMsgCnt, State.setEp, List.append_assoc]
  rfl

/-- Settles O37: the last step of the buffer releases it, and then the message is received. -/
theorem receiveCompletes : Obligations.ReceiveCompletes := by
  unfold Obligations.ReceiveCompletes
  intro s b t idx buf ev p hb hfree hev ht hm hr hp hw hfa hs ho
  rw [release_step hb hfree hev hw hfa ho hs, completeTransfer_message _ ht hm hr hp, respondIfNeeded_eq,
    finishMsgReceive_eq]
  rfl

/-! ## The return from a page-fault upcall -/

section
variable {s : State} {p : Packet}

/-- A reply that answers no upcall in flight (R354). -/
theorem finishPagefault_unknown (h : ∀ q rest, s.pfQueue = q :: rest → (decodeHeader p.data).label ≠ q.token) :
    finishPagefault p s = .fault .unknownPagefaultReply := by
  simp only [finishPagefault]
  cases hq : s.pfQueue with
  | nil => rfl
  | cons q rest => exact if_pos (h q rest hq)

variable {q : PfRecord} {rest : List PfRecord} (hq : s.pfQueue = q :: rest)
  (hlabel : (decodeHeader p.data).label = q.token)
include hq hlabel

/-- A reply without an error word (R354). -/
theorem finishPagefault_noError (h : (decodeHeader p.data).length.toNat < 8) :
    finishPagefault p s = .fault .missingHeader := by
  simp only [finishPagefault, hq]
  exact (if_neg (not_not_intro hlabel)).trans (if_pos (.inl h))

variable (hlen : 8 ≤ (decodeHeader p.data).length.toNat) (hdata : 33 ≤ p.data.length)
include hlen hdata

/-- The reply to the upcall in flight is answered, and does what its error word says (R354). -/
theorem finishPagefault_error {error : Word} (he : bytesWord (slice p.data 25 8) = error) :
    finishPagefault p s =
      match error.toNat with
      | 0 => .next (((s.nocRespond p .noError []).tlbUnblock q.vpn).retryWalk q)
      | 3 => requeuePagefault (s.nocRespond p .noError [])
      | 4 => resolvePagefault none ((s.nocRespond p .noError []).tlbInsert q.vpn 0 0)
      | _ => .fault .badPagefaultReply := by
  have hword : ¬ ((decodeHeader p.data).length.toNat < 8 ∨ p.data.length < headerSize + 8) := by
    rw [headerSize]
    omega
  subst he
  simp only [finishPagefault, hq]
  exact (if_neg (not_not_intro hlabel)).trans (if_neg hword)

theorem finishPagefault_badError (h0 : bytesWord (slice p.data 25 8) ≠ 0#64)
    (h3 : bytesWord (slice p.data 25 8) ≠ 3#64) (h4 : bytesWord (slice p.data 25 8) ≠ 4#64) :
    finishPagefault p s = .fault .badPagefaultReply := by
  rw [finishPagefault_error hq hlabel hlen hdata rfl]
  split
  case h_1 h => exact absurd (BitVec.eq_of_toNat_eq h) h0
  case h_2 h => exact absurd (BitVec.eq_of_toNat_eq h) h3
  case h_3 h => exact absurd (BitVec.eq_of_toNat_eq h) h4
  case h_4 => rfl

end

/-- The record at the head goes to the tail, for the kernel (R357). -/
theorem requeuePagefault_cons {s : State} {q : PfRecord} {rest : List PfRecord} (hq : s.pfQueue = q :: rest) :
    requeuePagefault s = sendPagefault { s with pfQueue := rest ++ [{ q with toKernel := true }] } := by
  simp only [requeuePagefault, hq]

/-- An unblock changes the TLB alone (R336). -/
theorem tlbUnblock_eq (s : State) (vpn : BitVec 52) :
    s.tlbUnblock vpn = { s with tlb := (s.tlbUnblock vpn).tlb } := by
  simp only [State.tlbUnblock]
  split
  · rfl
  · split <;> rfl

/-- The retry walk of a record is a walk of its own from the root (R341, R355); the events of the other walks have other
numbers. -/
theorem retryWalk_eq {s : State} (q : PfRecord) (h : ∀ e ∈ s.translateEvents, e.id ≠ s.nextEvent) :
    s.retryWalk q = { s with
      translateEvents := s.translateEvents ++
        [⟨s.nextEvent, q.virt, q.access, .retry q.token, false, .walking (s.cfg.levelCnt - 1) s.dtu.rootPt⟩]
      nextEvent := s.nextEvent + 1
      memOutstanding := s.memOutstanding ++
        [⟨pteAddr s.dtu.rootPt q.virt (s.cfg.levelCnt - 1), .read 8, .walk s.nextEvent⟩] } := by
  have hothers : s.translateEvents.map (fun e => if e.id = s.nextEvent then
      { e with phase := .walking (s.cfg.levelCnt - 1) s.dtu.rootPt } else e) = s.translateEvents :=
    (List.map_congr_left fun e he => if_neg (h e he)).trans (List.map_id' _)
  simp only [State.retryWalk, State.beginWalk, State.loadPte, List.map_append, hothers]
  simp only [List.map_cons, List.map_nil, if_true]
  rfl

/-- Settles O54: the checks of the reply, and then each error word by `finishPagefault_error`. -/
theorem pagefaultReply : Obligations.PagefaultReply := by
  unfold Obligations.PagefaultReply
  intro s i p q rest hi hsize hvpe hpf h error answered
  rw [exec_inbound hi, receiveMessage_pagefaultReply hsize hvpe hpf]
  refine ⟨fun hunknown => finishPagefault_unknown fun q' rest' hq' => ?_, finishPagefault_noError,
    fun hq hlabel hlen hdata => ⟨finishPagefault_badError hq hlabel hlen hdata, fun he => ?_, fun b he hrest hw => ?_,
      fun he => ?_, fun he hids => ?_⟩⟩
  · rcases hunknown with hnil | ⟨hq, hlabel⟩
    · rw [hnil] at hq'
      cases hq'
    · rw [hq] at hq'
      cases hq'
      exact hlabel
  · exact finishPagefault_error hq hlabel hlen hdata he
  · have hqueue : (answered.tlbInsert q.vpn 0#64 0#5).pfQueue = q :: rest := hq
    have htold : forEach (fun w => notify w none) q.waiters
        { answered.tlbInsert q.vpn 0#64 0#5 with pfQueue := rest } =
          .next ({ answered.tlbInsert q.vpn 0#64 0#5 with pfQueue := rest }.failBlock b) := by
      rw [hw]
      exact forEach_notify_xfer none [b] _
    have hresolve := resolvePagefault_told hqueue htold
    rw [if_pos hrest, hrest] at hresolve
    exact (finishPagefault_error hq hlabel hlen hdata he).trans hresolve
  · exact (finishPagefault_error hq hlabel hlen hdata he).trans (requeuePagefault_cons (s := answered) hq)
  · refine (finishPagefault_error hq hlabel hlen hdata he).trans (congrArg Host.Outcome.next ?_)
    show (answered.tlbUnblock q.vpn).retryWalk q = _
    rw [tlbUnblock_eq]
    exact retryWalk_eq q hids

end Sys2Proof.Machine
end

section
/-! PROOF. How READ and WRITE begin: past the checks, the first chunk is the chunk at byte 0 (R281 to R289). -/

namespace Sys2Proof.Machine

/-! ## The first chunk -/

theorem chunkLength_first (c : Config) (total : Nat) : chunkLength c total 0 = min c.maxNocPacketSize total := rfl

theorem isLastChunk_first (c : Config) (total : Nat) :
    isLastChunk c total 0 = decide (total ≤ c.maxNocPacketSize) := by
  rw [isLastChunk, Nat.zero_add]

/-- The first chunk goes to the address that the endpoint and the offset of the command give (R281). -/
theorem chunkTarget_first (s : State) (m : MemCtx) :
    s.chunkTarget m 0 = nocAddr (s.ep m.ep).remoteCore.toNat (s.ep m.ep).memVpe.toNat
      ((s.ep m.ep).remoteAddr + m.offset).toNat := by
  rw [State.chunkTarget, BitVec.add_zero]

/-! ## The commands -/

/-- The state of a READ or WRITE that has begun: its operands are read, nothing is requested yet (R281). -/
def State.memBegun (s : State) (c : CmdState) : State :=
  { s with
    cmdInProgress := true
    cmdState := c
    draws := s.draws + 3 }

/-- A READ or WRITE that passes its checks goes on with its first chunk (R282, R283, R291). -/
theorem memCommand_runs {s : State} {arg : BitVec 8} {right : Nat} (start : MemCtx → CmdState)
    (chunk : MemCtx → State → Result) (hidle : s.cmdInProgress = false) (hrange : arg.toNat < s.cfg.numEndpoints)
    (htype : (s.ep arg.toNat).type = typeMemory) (hright : (s.ep arg.toNat).memFlags.getLsbD right = true)
    (hin : (s.operand 1 (·.offset)).toNat + (s.operand 0 (·.dataSize)).toNat ≤ (s.ep arg.toNat).reqSize.toNat)
    (hsome : s.operand 0 (·.dataSize) ≠ 0) :
    memCommand arg right start chunk s =
      chunk (s.memOperands arg.toNat) (s.memBegun (start (s.memOperands arg.toNat))) := by
  have hallowed : ¬ (s.ep arg.toNat).memFlags.getLsbD right = false := by rw [hright]; exact Bool.noConfusion
  exact (memCommand_checks right start chunk hidle hrange htype rfl rfl).trans
    ((if_neg hallowed).trans ((if_neg (Nat.not_lt.2 hin)).trans (if_neg hsome)))

/-- Settles O38: past the checks, `readChunk_sends` at byte 0. -/
theorem readStarts : Obligations.ReadStarts := by
  unfold Obligations.ReadStarts
  intro s arg err target hidle hrange htype e size offset hright hin hsome haddr p
  have hbegun : exec (.read arg err) s =
      readChunk (s.memOperands arg.toNat) 0 (s.memBegun (.memRead (s.memOperands arg.toNat) 0)) :=
    memCommand_runs (.memRead · 0) (readChunk · 0) hidle hrange htype hright hin hsome
  have htarget : (s.memBegun (.memRead (s.memOperands arg.toNat) 0)).chunkTarget (s.memOperands arg.toNat) 0 =
      some target := (chunkTarget_first _ _).trans haddr
  rw [hbegun, readChunk_sends htarget, chunkLength_first, isLastChunk_first]
  rfl

/-- Settles O39: past the checks, `writeChunk_starts` at byte 0. -/
theorem writeStarts : Obligations.WriteStarts := by
  unfold Obligations.WriteStarts
  intro s arg err target hidle hrange htype e size offset hright hin hsome hfit haddr
  have hbegun : exec (.write arg err) s =
      writeChunk (s.memOperands arg.toNat) 0 (s.memBegun (.memWrite (s.memOperands arg.toNat) 0)) :=
    memCommand_runs (.memWrite · 0) (writeChunk · 0) hidle hrange htype hright hin hsome
  have htarget : (s.memBegun (.memWrite (s.memOperands arg.toNat) 0)).chunkTarget (s.memOperands arg.toNat) 0 =
      some target := (chunkTarget_first _ _).trans haddr
  rw [hbegun, writeChunk_starts htarget hfit, chunkLength_first, isLastChunk_first, BitVec.add_zero]
  rfl

end Sys2Proof.Machine
end

section
/-! PROOF. The life of a transfer around its blocks: how it gets its buffer (R302 to R304), how it ends without a mapping
(R312), and how it comes by the pages of its blocks: from the TLB, or by a walk of the page tables (R305, R335, R340 to R343,
R355). -/

namespace Sys2Proof.Machine

/-! ## Getting a buffer -/

theorem writesLocal_iff (t : XferType) : t.writesLocal = true ↔ t = .localWrite ∨ t = .remoteWrite := by
  cases t <;> decide

theorem preload_header {r : XferReq} {h : Header} (hh : r.header = some h) : r.preload = encodeHeader h := by
  simp only [XferReq.preload, hh]

theorem preload_payload {r : XferReq} (hh : r.header = none) :
    r.preload = if r.type = .localWrite ∨ r.type = .remoteWrite then r.payload else [] := by
  simp only [XferReq.preload, hh, writesLocal_iff]

theorem msgRecvBusy_iff (s : State) : s.msgRecvBusy = true ↔
    ∃ x ∈ s.bufs, x.free = false ∧ ∃ ev, x.event = some ev ∧ ev.flags.msgRecv = true := by
  simp only [State.msgRecvBusy, List.any_eq_true, Bool.and_eq_true, Bool.not_eq_true', Option.any_eq_true]

/-- Only a message receive is held back, and only by another message receive (R66, R303). -/
theorem canServe_iff (s : State) (r : XferReq) : s.canServe r = true ↔
    (∃ x ∈ s.bufs, x.free = true) ∧ (r.flags.msgRecv = true → s.msgRecvBusy = false) := by
  rw [State.canServe, Bool.and_eq_true, List.any_eq_true]
  cases r.flags.msgRecv <;> simp

section
variable {s : State} {k : Nat} {r : XferReq}

/-- A request that can be served takes the free buffer with the lowest index (R303, R304). -/
theorem servePending_serves {b : Nat} {buf : Buffer} (hr : s.pendingTransfers[k]? = some r)
    (hb : s.bufs[b]? = some buf) (hfree : buf.free = true)
    (hlow : ∀ j < b, ∀ x, s.bufs[j]? = some x → x.free = false) (hserve : s.canServe r = true) :
    servePending k s = { s with
      pendingTransfers := s.pendingTransfers.eraseIdx k
      bufs := s.bufs.set b (buf.allocate r) } := by
  obtain ⟨hlt, hget⟩ := List.getElem?_eq_some_iff.1 hb
  have hfirst : s.bufs.findIdx? (fun x => x.free) = some b := by
    refine List.findIdx?_eq_some_iff_getElem.2 ⟨hlt, hget ▸ hfree, fun j hj => ?_⟩
    rw [hlow j hj _ (List.getElem?_eq_getElem (hj.trans hlt))]
    exact Bool.noConfusion
  have hset : s.bufs.modify b (fun x => x.allocate r) = s.bufs.set b (buf.allocate r) := by
    rw [List.modify_eq_set_getElem?, hb]
    rfl
  simp only [servePending, hr, hfirst, hserve, if_true, hset]

/-- A request that cannot be served waits (R303). -/
theorem servePending_waits (hr : s.pendingTransfers[k]? = some r) (hserve : s.canServe r = false) :
    servePending k s = s := by
  have hnot : ¬ s.canServe r = true := by rw [hserve]; exact Bool.noConfusion
  simp only [servePending, hr]
  cases s.bufs.findIdx? (fun x => x.free) with
  | none => rfl
  | some b => exact if_neg hnot

end

/-- Settles O45: the size first; then the request that `canServe_iff` allows, and the two it holds back. -/
theorem transferTakesABuffer : Obligations.TransferTakesABuffer := by
  unfold Obligations.TransferTakesABuffer
  refine ⟨fun s r => ⟨startTransfer_tooLarge, startTransfer_ok⟩, fun s k r hr =>
    ⟨fun b buf hb hfree hlow hheld => ?_, fun hnone => servePending_waits hr ?_,
      fun hm hbusy => servePending_waits hr ?_⟩⟩
  · have hserve : s.canServe r = true := by
      refine (canServe_iff s r).2 ⟨⟨buf, List.mem_of_getElem? hb, hfree⟩, fun hm => ?_⟩
      rw [Bool.eq_false_iff, ne_eq, msgRecvBusy_iff]
      rintro ⟨x, hx, hused, ev, hev, hrecv⟩
      rw [hheld hm x hx hused ev hev] at hrecv
      exact Bool.noConfusion hrecv
    rw [servePending_serves hr hb hfree hlow hserve, Buffer.allocate]
    cases hh : r.header with
    | some h => rw [preload_header hh, XferReq.event, XferReq.base, hh]; rfl
    | none => rw [preload_payload hh, XferReq.event, XferReq.base, hh]; rfl
  · rw [Bool.eq_false_iff, ne_eq, canServe_iff]
    rintro ⟨⟨x, hx, hfree⟩, -⟩
    rw [hnone x hx] at hfree
    exact Bool.noConfusion hfree
  · rw [Bool.eq_false_iff, ne_eq, canServe_iff]
    rintro ⟨-, hidle⟩
    rw [(msgRecvBusy_iff s).2 hbusy] at hidle
    exact Bool.noConfusion (hidle hm)

/-! ## The end without a mapping -/

section
variable {s : State} {b : Nat} {buf : Buffer} {ev : XferEvent} {p : Packet}

/-- The last step of a buffer whose translation has failed (R312, R313). -/
theorem xferStep_failed (hb : s.bufs[b]? = some buf) (hfree : buf.free = false) (hev : buf.event = some ev)
    (hwait : ev.waiting = false) (hfail : ev.failed = true) (ho : ev.outstanding = 0) :
    xferStep b s = failTransfer ev { s with bufs := s.bufs.set b buf.release } := by
  have hready : ¬ ev.ready = false := by simp [XferEvent.ready, hwait, hfail, ho]
  simp only [xferStep, hb, event_of hb hfree hev, releaseBuf_eq hb]
  rw [if_neg hready, if_pos hfail]

/-- A transfer of the command in progress ends the command. -/
theorem failTransfer_command (ht : ev.type = .localRead ∨ ev.type = .localWrite) :
    failTransfer ev s = finishCommand .noMapping s := by
  rcases ht with ht | ht <;> simp only [failTransfer, ht]

/-- A transfer for an inbound request is answered. -/
theorem failTransfer_inbound (ht : ev.type = .remoteRead ∨ (ev.type = .remoteWrite ∧ ev.flags.msgRecv = false))
    (hp : ev.pkt = some p) : failTransfer ev s = .next (s.nocRespond p .noMapping []) := by
  rcases ht with ht | ⟨ht, hm⟩
  · simp only [failTransfer, ht, hp]
  · simp only [failTransfer, ht, hm, hp]

/-- A message is answered too, and its slot is free again. -/
theorem failTransfer_message {t idx : Nat} (ht : ev.type = .remoteWrite) (hm : ev.flags.msgRecv = true)
    (hr : ev.recv = some (t, idx)) (hp : ev.pkt = some p) :
    failTransfer ev s = .next ((s.setEp t ((s.ep t).freed idx)).nocRespond p .noMapping []) := by
  simp only [failTransfer, ht, hm, hr, hp]

end

/-- NO_MAPPING in the error field of COMMAND (R212, R410). -/
theorem finishedCommand_noMapping (c : Config) : finishedCommand c .noMapping = 0x2000#64 := by
  simp only [finishedCommand, errorCode]
  decide

/-- Settles O46: the buffer is released by `xferStep_failed`, and then what waits for the transfer is told. -/
theorem failedTransfers : Obligations.FailedTransfers := by
  unfold Obligations.FailedTransfers
  intro s b buf ev p hb hfree hev hwait hfail ho released
  rw [xferStep_failed hb hfree hev hwait hfail ho]
  refine ⟨fun ht hprog hstate => ?_, fun ctx ht hstate => failTransfer_command (.inl ht), fun m done hcmd hprog => ?_,
    fun ht hp => failTransfer_inbound ht hp, fun t idx ht hm hr hp => failTransfer_message ht hm hr hp⟩
  · have hreply : s.cmdState.replyCtx = none := by rw [hstate]; rfl
    have hmem : s.cmdState.isMem = false := by rw [hstate]; rfl
    have hclosed := finishCommand_plain (s := { s with bufs := s.bufs.set b buf.release }) hprog hreply hmem .noMapping
    rw [failTransfer_command (.inl ht), hclosed, State.closeCommand, finishedCommand_noMapping]
    rfl
  · have htype : ev.type = .localRead ∨ ev.type = .localWrite := hcmd.imp And.left And.left
    have hmem : s.cmdState.isMem = true := by
      rcases hcmd with ⟨-, hstate⟩ | ⟨-, hstate⟩ <;> rw [hstate] <;> rfl
    rw [failTransfer_command htype, ← finishedCommand_noMapping s.cfg]
    exact finishCommand_leavesOperandsOpen (s := { s with bufs := s.bufs.set b buf.release }) hprog hmem .noMapping

/-! ## The page of the next block -/

/-- The state in which buffer `b` waits for the page of its next block (R305). -/
def State.awaiting (s : State) (b : Nat) (buf : Buffer) (ev : XferEvent) : State :=
  { s with bufs := s.bufs.set b { buf with event := some { ev with waiting := true } } }

section
variable {s : State} {b : Nat} {buf : Buffer} {ev : XferEvent} (hb : s.bufs[b]? = some buf)
include hb

theorem setEvent_eq (ev' : XferEvent) :
    s.setEvent b ev' = { s with bufs := s.bufs.set b { buf with event := some ev' } } := by
  simp only [State.setEvent, hb, State.setBuf]

theorem awaiting_buf : (s.awaiting b buf ev).bufs[b]? = some { buf with event := some { ev with waiting := true } } :=
  List.getElem?_set_self (List.getElem?_eq_some_iff.1 hb).1

variable (hfree : buf.free = false)
include hfree

/-- A buffer that was waiting has its next block issued (R306, R308). -/
theorem issueBlock_awaiting (page : Word) : (s.awaiting b buf ev).issueBlock b page = { s with
    bufs := s.bufs.set b { buf with event := some (ev.advanced (blockPiece s.cfg ev.localAddr ev.size)) }
    memOutstanding := s.memOutstanding ++ [⟨page + pageOffset ev.localAddr,
      blockOp buf ev (blockPiece s.cfg ev.localAddr ev.size), .xfer b ev.pos⟩] } := by
  rw [issueBlock_eq page (awaiting_buf hb) hfree rfl]
  simp only [State.awaiting, List.set_set]
  rfl

/-- A buffer that was waiting has failed (R312). -/
theorem failBlock_awaiting : (s.awaiting b buf ev).failBlock b = { s with
    bufs := s.bufs.set b { buf with event := some { ev with waiting := false, failed := true } } } := by
  simp only [State.failBlock, event_of (awaiting_buf hb) hfree rfl, setEvent_eq (awaiting_buf hb)]
  simp only [State.awaiting, List.set_set]

/-- A buffer with bytes left asks for the page of its next block (R305, R306). -/
theorem xferStep_asks (hev : buf.event = some ev) (hwait : ev.waiting = false) (hfail : ev.failed = false)
    (hsize : ev.size ≠ 0) :
    xferStep b s = translateFor ev.localAddr ev.type.access (.xfer b) (s.awaiting b buf ev) := by
  have hready : ¬ ev.ready = false := by simp [XferEvent.ready, hwait, hfail, hsize]
  have hnot : ¬ ev.failed = true := by rw [hfail]; exact Bool.noConfusion
  simp only [xferStep, hb, event_of hb hfree hev, setEvent_eq hb]
  rw [if_neg hready, if_neg hnot, if_neg hsize]
  rfl

end

/-! ## The first step of a translate event -/

/-- The test for GONE is the test of its bit (R144, R342). -/
theorem grants_gone (access : BitVec 5) : grants access accGone = access.getLsbD 4 := by
  revert access; decide

section
variable {s : State} {k : Nat} {ev : TranslateEvent}

theorem ptuStep_fresh (hk : s.translateEvents[k]? = some ev) (hphase : ev.phase = .fresh) :
    ptuStep k s = ptuFirst ev s := by
  simp only [ptuStep, hk, hphase, if_true]

theorem ptuFirst_gone (hgone : ev.access.getLsbD 4 = true) :
    ptuFirst ev s = startPagefault ev.virt ev.access ev.waiter (s.dropEvent ev.id) := by
  rw [ptuFirst, grants_gone, if_pos hgone]

section
variable (hgone : ev.access.getLsbD 4 = false)
include hgone

theorem ptuFirst_hit {page : Word} (hl : tlbLookup s.tlb ev.virt ev.access = .hit page) :
    ptuFirst ev s = notify ev.waiter (some page) (s.dropEvent ev.id) := by
  simp only [ptuFirst, grants_gone, hgone, hl, Bool.false_eq_true, if_false]

theorem ptuFirst_nomap (hl : tlbLookup s.tlb ev.virt ev.access = .nomap) :
    ptuFirst ev s = notify ev.waiter none (s.dropEvent ev.id) := by
  simp only [ptuFirst, grants_gone, hgone, hl, Bool.false_eq_true, if_false]

theorem ptuFirst_pagefault (hl : tlbLookup s.tlb ev.virt ev.access = .pagefault) :
    ptuFirst ev s = startPagefault ev.virt ev.access ev.waiter (s.dropEvent ev.id) := by
  simp only [ptuFirst, grants_gone, hgone, hl, Bool.false_eq_true, if_false]

theorem ptuFirst_miss (hl : tlbLookup s.tlb ev.virt ev.access = .miss) :
    ptuFirst ev s = .next (s.loadPte ev (s.cfg.levelCnt - 1) s.dtu.rootPt) := by
  simp only [ptuFirst, grants_gone, hgone, hl, Bool.false_eq_true, if_false, State.beginWalk]

end

/-! ## The answer of an entry load -/

/-- Above the leaf INTERN is not asked for (R341). -/
theorem walkNeed_eq (access : BitVec 5) (level : Nat) :
    walkNeed access level = if level = 0 then access &&& 0x0F#5 else access &&& 0x07#5 := by
  rw [walkNeed, BitVec.and_assoc]
  rfl

theorem grants_walkNeed_iff (pte : Word) (access : BitVec 5) (level : Nat) :
    grants (pteRights pte) (walkNeed access level) = true ↔
      (field pte 0 4).setWidth 5 &&& (if level = 0 then access &&& 0x0F#5 else access &&& 0x07#5) =
        if level = 0 then access &&& 0x0F#5 else access &&& 0x07#5 := by
  rw [grants, walkNeed_eq, beq_iff_eq, pteRights]

section
variable {bytes : List Byte} {level : Nat} {table : Word}
  (hfind : s.translateEvents.find? (fun e => e.id == ev.id) = some ev) (hphase : ev.phase = .walking level table)
include hfind hphase

theorem walkAnswer_refused (hr : grants (pteRights (bytesWord bytes)) (walkNeed ev.access level) = false) :
    walkAnswer ev.id bytes s = walkFailed ev (s.dropEvent ev.id) := by
  simp only [walkAnswer, hfind, hphase, hr, if_true]

theorem walkAnswer_leaf (hr : grants (pteRights (bytesWord bytes)) (walkNeed ev.access level) = true)
    (hl : level = 0) : walkAnswer ev.id bytes s = walkDone ev (bytesWord bytes) (s.dropEvent ev.id) := by
  subst hl
  simp only [walkAnswer, hfind, hphase, hr, Bool.true_eq_false, if_false]

theorem walkAnswer_inner (hr : grants (pteRights (bytesWord bytes)) (walkNeed ev.access level) = true)
    (hl : level ≠ 0) : walkAnswer ev.id bytes s = .next (s.loadPte ev (level - 1) (pteBase (bytesWord bytes))) := by
  obtain ⟨l, rfl⟩ := Nat.exists_eq_succ_of_ne_zero hl
  simp only [walkAnswer, hfind, hphase, hr, Bool.true_eq_false, if_false]
  rfl

end

/-! ## The end of a walk -/

/-- The record at the head of the queue has this token (R355). -/
theorem head_token_of_cons {q : PfRecord} {rest : List PfRecord} (hq : s.pfQueue = q :: rest) :
    s.pfQueue.head?.map (·.token) = some q.token := by rw [hq]; rfl

theorem head_token_ne {token : Word} (hlate : ∀ q rest, s.pfQueue = q :: rest → q.token ≠ token) :
    s.pfQueue.head?.map (·.token) ≠ some token := by
  cases hq : s.pfQueue with
  | nil => simp
  | cons q rest => exact fun h => hlate q rest hq (Option.some.inj h)

theorem walkFailed_faults (hw : ∀ token, ev.waiter ≠ .retry token) :
    walkFailed ev s = startPagefault ev.virt ev.access ev.waiter s := by
  cases hwaiter : ev.waiter with
  | retry token => exact absurd hwaiter (hw token)
  | _ => simp only [walkFailed, hwaiter]

theorem walkFailed_retry {token : Word} (hw : ev.waiter = .retry token) :
    walkFailed ev s = if s.pfQueue.head?.map (·.token) = some token then sendPagefault s else .next s := by
  simp only [walkFailed, hw]

/-- The state in which the leaf entry has been put into the TLB (R343). -/
def State.filled (s : State) (ev : TranslateEvent) (pte : Word) : State :=
  s.tlbInsert (vpnOf ev.virt) (pteBase pte) (pteRights pte)

theorem walkDone_tells {pte : Word} (hw : ∀ token, ev.waiter ≠ .retry token) :
    walkDone ev pte s = notify ev.waiter (some (pteBase pte)) (s.filled ev pte) := by
  cases hwaiter : ev.waiter with
  | retry token => exact absurd hwaiter (hw token)
  | _ => simp only [walkDone, hwaiter, State.filled]

theorem walkDone_retry {token pte : Word} (hw : ev.waiter = .retry token) :
    walkDone ev pte s = if s.pfQueue.head?.map (·.token) = some token
      then resolvePagefault (some (pteBase pte)) (s.filled ev pte) else .next (s.filled ev pte) := by
  simp only [walkDone, hw]
  rfl

end

/-! ## The obligation, part by part -/

/-- How a transfer comes by the page of its next block: the first part of `WalkGoesOn`. -/
theorem xferStep_nextBlock {s : State} {b : Nat} {buf : Buffer} {ev : XferEvent} (hb : s.bufs[b]? = some buf)
    (hfree : buf.free = false) (hev : buf.event = some ev) (hwait : ev.waiting = false) (hfail : ev.failed = false)
    (hsize : ev.size ≠ 0) :
    (∀ page, (s.cfg.tlbEntries = 0 ∧ page = pageBase ev.localAddr) ∨
        (s.cfg.tlbEntries ≠ 0 ∧ tlbLookup s.tlb ev.localAddr ev.type.access = .hit page) →
      xferStep b s = .next ((s.awaiting b buf ev).issueBlock b page)) ∧
    (∀ pf, s.cfg.tlbEntries ≠ 0 →
        tlbLookup s.tlb ev.localAddr ev.type.access = (if pf then .pagefault else .miss) →
      xferStep b s = .next ((s.awaiting b buf ev).startTranslate ev.localAddr ev.type.access (.xfer b) pf)) ∧
    (s.cfg.tlbEntries ≠ 0 → tlbLookup s.tlb ev.localAddr ev.type.access = .nomap →
      xferStep b s = .next ((s.awaiting b buf ev).failBlock b)) := by
  have hasks := xferStep_asks hb hfree hev hwait hfail hsize
  exact ⟨fun page h => hasks.trans (translateFor_known (s := s.awaiting b buf ev) (.xfer b) h),
    fun pf h0 hl => hasks.trans (translateFor_waits (s := s.awaiting b buf ev) (.xfer b) pf h0 hl),
    fun h0 hl => hasks.trans (translateFor_nomap (s := s.awaiting b buf ev) (.xfer b) h0 hl)⟩

/-- Settles O52: the pages of a transfer, the first step of a translate event, the answer of an entry load by the level and the
rights, and the waiters. -/
theorem walkGoesOn : Obligations.WalkGoesOn := by
  unfold Obligations.WalkGoesOn
  refine ⟨fun s b buf ev hb hfree hev hwait hfail hsize => ?_, fun s ev bytes level table => ?_,
    fun s page b req => ⟨rfl, rfl, rfl, rfl, rfl, rfl⟩⟩
  · obtain ⟨hknown, hunknown, hunmapped⟩ := xferStep_nextBlock hb hfree hev hwait hfail hsize
    refine ⟨fun page h => ?_, fun pf h0 hl => hunknown pf h0 hl, fun h0 hl => ?_⟩
    · rw [hknown page h, issueBlock_awaiting hb hfree, XferEvent.advanced, hwait]
      rfl
    · rw [hunmapped h0 hl, failBlock_awaiting hb hfree, ← hwait]
  · intro left load
    refine ⟨fun k hk hphase => ?_, fun hfind hphase => ?_⟩
    · rw [ptuStep_fresh hk hphase]
      exact ⟨ptuFirst_gone, fun hgone =>
        ⟨fun page => ptuFirst_hit hgone, ptuFirst_nomap hgone, ptuFirst_pagefault hgone, ptuFirst_miss hgone⟩⟩
    · intro pte need rights base filled
      have hrights := grants_walkNeed_iff pte ev.access level
      have hrefused : rights &&& need ≠ need → walkAnswer ev.id bytes s = walkFailed ev left := fun hr =>
        walkAnswer_refused hfind hphase (Bool.eq_false_iff.2 fun h => hr (hrights.1 h))
      have hleaf : rights &&& need = need → level = 0 → walkAnswer ev.id bytes s = walkDone ev pte left := fun hr =>
        walkAnswer_leaf hfind hphase (hrights.2 hr)
      refine ⟨fun hr => walkAnswer_inner hfind hphase (hrights.2 hr), fun hw => ⟨fun hr hl => ?_, fun hr => ?_⟩,
        fun q rest hw hq => ⟨fun hr hl => ?_, fun hr => ?_⟩, fun token hw hlate => ⟨fun hr hl => ?_, fun hr => ?_⟩⟩
      · exact (hleaf hr hl).trans (walkDone_tells hw)
      · exact (hrefused hr).trans (walkFailed_faults hw)
      · exact (hleaf hr hl).trans ((walkDone_retry hw).trans (if_pos (head_token_of_cons (s := left) hq)))
      · exact (hrefused hr).trans ((walkFailed_retry hw).trans (if_pos (head_token_of_cons (s := left) hq)))
      · exact (hleaf hr hl).trans ((walkDone_retry hw).trans (if_neg (head_token_ne (s := left) hlate)))
      · exact (hrefused hr).trans ((walkFailed_retry hw).trans (if_neg (head_token_ne (s := left) hlate)))

end Sys2Proof.Machine
end

section
/-! PROOF. The lookup of a page in the TLB (R331), by the page's entry. -/

namespace Sys2Proof.Machine

/-- Settles O50: the entry found is the page's only one, and its tests are made in their order. -/
theorem tlbLookupResults : Obligations.TlbLookupResults := by
  unfold Obligations.TlbLookupResults
  refine fun tlb virt access => ⟨tlbLookup_miss, fun e he hv hnodup => ?_⟩
  have hfind : tlbFind tlb (vpnOf virt) = some e := hv ▸ find_vpn he hnodup
  exact ⟨tlbLookup_blocked hfind, tlbLookup_nomap hfind,
    fun hb hf hr => (tlbLookup_mapped hfind hb hf).trans (if_neg hr),
    fun hb hf hr => (tlbLookup_mapped hfind hb hf).trans (if_pos hr)⟩

end Sys2Proof.Machine
end

section
/-! PROOF. The CPU accesses outside the register window (R395 to R400): what a request is by its kind and the barrier,
what is known of its page, and where the access goes. -/

namespace Sys2Proof.Machine

/-! ## The access by its kind -/

/-- The bytes that a CPU access moves (R395). -/
theorem CpuReq.memOp_size (req : CpuReq) :
    req.memOp.size = if req.kind = .write then req.data.length else req.size := by
  rw [CpuReq.memOp, apply_ite MemOp.size]
  rfl

/-- The right that a CPU access asks for (R395). -/
theorem CpuKind.access_eq (k : CpuKind) :
    k.access = if k = .write then 0x02#5 else if k = .fetch then 0x04#5 else 0x01#5 := by
  cases k <;> rfl

theorem inOnePage_iff {req : CpuReq} :
    req.inOnePage = true ↔
      req.addr.toNat % 4096 + (if req.kind = .write then req.data.length else req.size) ≤ 4096 := by
  rw [CpuReq.inOnePage, decide_eq_true_iff, toNat_pageOffset, CpuReq.memOp_size]
  rfl

/-- The kinds that are served are those that are not dropped (R395, R399). -/
theorem unsupported_of_served {k : CpuKind} (h : k = .read ∨ k = .write ∨ k = .fetch) : k.unsupported = false := by
  rcases h with rfl | rfl | rfl <;> rfl

theorem cpuStep_dropped {req : CpuReq} (s : State)
    (h : req.kind = .invalidateReq ∨ req.kind = .badAddressError ∨ req.kind = .cleanEvict) :
    cpuStep req s = .next s := by
  have hk : req.kind.unsupported = true := by rcases h with h | h | h <;> rw [h] <;> rfl
  rw [cpuStep, if_pos hk]

section
variable {s : State} {req : CpuReq}

/-- A request outside the register window that lies in one page is a memory access (R395). -/
theorem cpuStep_memory (hk : req.kind = .read ∨ req.kind = .write ∨ req.kind = .fetch)
    (hw : inWindow s.cfg req.addr.toNat = false) (hp : req.inOnePage = true) :
    cpuStep req s =
      if req.isWrite && s.barrierRejects req.addr then .next (s.emit (.cpuAnswer req.id []))
      else if req.func then translateFunc req s
      else translateFor req.addr req.kind.access (.cpu req) s := by
  simp only [cpuStep, unsupported_of_served hk, hw, cpuMemAccess, hp, Bool.false_eq_true, Bool.true_eq_false, if_false]

/-- A write above the barrier is answered and dropped (R396). -/
theorem cpuStep_barrier (hk : req.kind = .write) (hw : inWindow s.cfg req.addr.toNat = false)
    (hp : req.inOnePage = true) (hb : s.barrierRejects req.addr = true) :
    cpuStep req s = .next { s with out := s.out ++ [.cpuAnswer req.id []] } := by
  have hclosed : (req.isWrite && s.barrierRejects req.addr) = true := by simp [CpuReq.isWrite, hk, hb]
  rw [cpuStep_memory (.inr (.inl hk)) hw hp, if_pos hclosed, State.emit]

/-- The request is an access whose page is asked for: of a served kind, outside the register window, in one page, and not
rejected by the barrier (R395, R396). -/
structure State.Translates (s : State) (req : CpuReq) : Prop where
  served : req.kind = .read ∨ req.kind = .write ∨ req.kind = .fetch
  outside : inWindow s.cfg req.addr.toNat = false
  inPage : req.inOnePage = true
  allowed : req.kind = .write → s.barrierRejects req.addr = false

theorem cpuStep_translates (h : s.Translates req) :
    cpuStep req s =
      if req.func then translateFunc req s else translateFor req.addr req.kind.access (.cpu req) s := by
  have hopen : ¬ (req.isWrite && s.barrierRejects req.addr) = true := by simpa [CpuReq.isWrite] using h.allowed
  rw [cpuStep_memory h.served h.outside h.inPage, if_neg hopen]

theorem cpuStep_timing (h : s.Translates req) (hf : req.func = false) :
    cpuStep req s = translateFor req.addr req.kind.access (.cpu req) s := by
  rw [cpuStep_translates h, hf]; rfl

theorem cpuStep_functional (h : s.Translates req) (hf : req.func = true) : cpuStep req s = translateFunc req s := by
  rw [cpuStep_translates h, hf]; rfl

/-! ## The translation of a functional access -/

theorem translateFunc_known {page : Word}
    (h : (s.cfg.tlbEntries = 0 ∧ page = pageBase req.addr) ∨
      (s.cfg.tlbEntries ≠ 0 ∧ tlbLookup s.tlb req.addr req.kind.access = .hit page)) :
    translateFunc req s = forwardRequest req page s := by
  rcases h with ⟨h0, rfl⟩ | ⟨h0, hl⟩
  · simp only [translateFunc, h0, if_true, notify]
  · simp only [translateFunc, h0, hl, if_false, notify]

section
variable (h0 : s.cfg.tlbEntries ≠ 0)
include h0

theorem translateFunc_nomap (hl : tlbLookup s.tlb req.addr req.kind.access = .nomap) :
    translateFunc req s = .next (s.cpuDummy req) := by
  simp only [translateFunc, h0, hl, if_false, notify]

theorem translateFunc_pagefault (hl : tlbLookup s.tlb req.addr req.kind.access = .pagefault) :
    translateFunc req s = startPagefault req.addr req.kind.access (.cpu req) s := by
  simp only [translateFunc, h0, hl, if_false]

variable (hl : tlbLookup s.tlb req.addr req.kind.access = .miss)
include hl

/-- The walk within the step has found the page: it goes into the TLB, and the access goes on (R397). -/
theorem translateFunc_walked {pte : Word}
    (hw : s.funcWalk req.addr req.kind.access (s.cfg.levelCnt - 1) s.dtu.rootPt = some (some pte)) :
    translateFunc req s =
      forwardRequest req (pteBase pte) (s.tlbInsert (vpnOf req.addr) (pteBase pte) (pteRights pte)) := by
  simp only [translateFunc, h0, hl, hw, if_false, notify]

theorem translateFunc_walkFaults
    (hw : s.funcWalk req.addr req.kind.access (s.cfg.levelCnt - 1) s.dtu.rootPt = some none) :
    translateFunc req s = startPagefault req.addr req.kind.access (.cpu req) s := by
  simp only [translateFunc, h0, hl, hw, if_false]

end

/-! ## What is known of the page -/

/-- With a known page the access is forwarded, functional or not (R395, R397). -/
theorem cpuStep_known {page : Word} (h : s.Translates req)
    (hpage : (s.cfg.tlbEntries = 0 ∧ page = pageBase req.addr) ∨
      (s.cfg.tlbEntries ≠ 0 ∧ tlbLookup s.tlb req.addr req.kind.access = .hit page)) :
    cpuStep req s = forwardRequest req page s := by
  cases hf : req.func with
  | false => exact (cpuStep_timing h hf).trans (translateFor_known _ hpage)
  | true => exact (cpuStep_functional h hf).trans (translateFunc_known hpage)

/-- A page known to be unmapped gives the dummy answer, functional or not (R395). -/
theorem cpuStep_nomap (h : s.Translates req) (h0 : s.cfg.tlbEntries ≠ 0)
    (hl : tlbLookup s.tlb req.addr req.kind.access = .nomap) : cpuStep req s = .next (s.cpuDummy req) := by
  cases hf : req.func with
  | false => exact (cpuStep_timing h hf).trans (translateFor_nomap _ h0 hl)
  | true => exact (cpuStep_functional h hf).trans (translateFunc_nomap h0 hl)

/-! ## Where an access goes -/

/-- The packet of an access to another tile (R397). -/
def State.cpuPacket (s : State) (req : CpuReq) (t : PacketType) (a : Word) : WirePacket :=
  ⟨t, a, if req.kind = .write then .write else .read, if req.kind = .write then req.data.length else req.size,
    if req.kind = .write then req.data else [], true, s.cfg.coreId⟩

theorem funcPacket_eq (a : Word) : s.funcPacket req a = s.cpuPacket req .cacheMemReqFunc a := by
  rw [State.funcPacket, State.cpuPacket, CpuReq.memOp_size]

section
variable {page : Word}

/-- An address in another tile: the packet goes out, and its response is awaited (R397). -/
theorem forwardCpu_remote {t : PacketType} (ht : (if req.func then PacketType.cacheMemReqFunc else .cacheMemReq) = t)
    (ha : (page + pageOffset req.addr).getLsbD 58 = true) :
    s.forwardCpu req page = { s with
      out := s.out ++ [.nocRequest (s.cpuPacket req t (page + pageOffset req.addr))]
      nocOutstanding := s.nocOutstanding ++ [⟨s.cpuPacket req t (page + pageOffset req.addr), .cpu req⟩] } := by
  simp only [State.forwardCpu, isNocAddress_eq, ha, if_true, ht, State.nocSend, State.cpuPacket, CpuReq.memOp_size]

section
variable (ha : (page + pageOffset req.addr).getLsbD 58 = false)
include ha

theorem forwardCpu_local (hf : req.func = false) :
    s.forwardCpu req page = { s with
      memOutstanding := s.memOutstanding ++ [⟨page + pageOffset req.addr, req.memOp, .cpu req⟩] } := by
  simp only [State.forwardCpu, isNocAddress_eq, ha, hf, Bool.false_and, Bool.false_eq_true, if_false, State.memIssue]

/-- A functional access is performed on backed local memory at once (R397). -/
theorem forwardCpu_performed (hf : req.func = true)
    (hb : s.cfg.backs (page + pageOffset req.addr).toNat
      (if req.kind = .write then req.data.length else req.size) = true) :
    s.forwardCpu req page = { s with
      mem := if req.kind = .write then s.mem.writeBytes (page + pageOffset req.addr) req.data else s.mem
      out := s.out ++ [.cpuAnswer req.id
        (if req.kind = .write then [] else s.mem.readBytes (page + pageOffset req.addr) req.size)] } := by
  rw [← CpuReq.memOp_size] at hb
  simp only [State.forwardCpu, isNocAddress_eq, ha, hf, hb, Bool.true_and, Bool.false_eq_true, if_false, if_true]
  by_cases hk : req.kind = .write
  · simp only [CpuReq.memOp, hk, if_true, State.memPerform, State.funcWrite, State.emit]
  · simp only [CpuReq.memOp, hk, if_false, State.memPerform, State.emit]

end

/-! ## The replies to a functional access -/

/-- With no reply at hand the access waits for one (assumption 8). -/
theorem forwardFunc_nil (hr : req.replies = []) : forwardFunc req [] page s = .next (s.forwardCpu req page) := by
  rw [forwardFunc, ← hr]

/-- The state in which the packet of a functional access has gone out. -/
def State.funcSent (s : State) (req : CpuReq) (a : Word) : State :=
  s.emit (.nocRequest (s.cpuPacket req .cacheMemReqFunc a))

/-- An unsuccessful reply is well-formed whatever it carries (R95). -/
theorem responseOk_of_ne {p : WirePacket} {r : ErrorCode} (data : List Byte) (hr : r ≠ .noError) :
    responseOk p r data = true := by
  rw [responseOk, if_neg hr]

section
variable {data : List Byte} {rest : List (ErrorCode × List Byte)}
  (ha : (page + pageOffset req.addr).getLsbD 58 = true)
include ha

theorem forwardFunc_success (hd : data.length = if req.kind = .write then 0 else req.size) :
    forwardFunc req ((.noError, data) :: rest) page s =
      .next ((s.funcSent req (page + pageOffset req.addr)).emit (.cpuAnswer req.id data)) := by
  have hok : responseOk (s.cpuPacket req .cacheMemReqFunc (page + pageOffset req.addr)) .noError data = true := by
    by_cases hk : req.kind = .write <;> simp_all [responseOk, State.cpuPacket]
  simp only [forwardFunc, isNocAddress_eq, ha, funcPacket_eq, hok, Bool.true_eq_false, if_false, State.funcSent]

theorem forwardFunc_failure {r : ErrorCode} (hr : r ≠ .noError) (hg : r ≠ .vpeGone) :
    forwardFunc req ((r, data) :: rest) page s =
      .next ((s.funcSent req (page + pageOffset req.addr)).cpuDummy req) := by
  simp only [forwardFunc, isNocAddress_eq, ha, funcPacket_eq, responseOk_of_ne data hr, Bool.true_eq_false, if_false,
    State.funcSent]

/-- Without a TLB, VPE_GONE sends the access out again (R398). -/
theorem forwardFunc_gone_untranslated (h0 : s.cfg.tlbEntries = 0) :
    forwardFunc req ((.vpeGone, data) :: rest) page s =
      forwardFunc req rest (pageBase req.addr) (s.funcSent req (page + pageOffset req.addr)) := by
  have hok (p : WirePacket) : responseOk p .vpeGone data = true := responseOk_of_ne data (by decide)
  have hsent (o : Output) : (s.emit o).cfg.tlbEntries = 0 := h0
  simp only [forwardFunc, isNocAddress_eq, ha, funcPacket_eq, hok, hsent, Bool.true_eq_false, if_false, if_true,
    State.funcSent]

/-- With a TLB, VPE_GONE asks for the page with GONE, and the page found faults (R342, R398). -/
theorem forwardFunc_gone_faults (h0 : s.cfg.tlbEntries ≠ 0)
    (hl : tlbLookup s.tlb req.addr (req.kind.access ||| accGone) = .pagefault) :
    forwardFunc req ((.vpeGone, data) :: rest) page s =
      startPagefault req.addr (req.kind.access ||| accGone) (.cpu { req with replies := rest })
        (s.funcSent req (page + pageOffset req.addr)) := by
  have hok (p : WirePacket) : responseOk p .vpeGone data = true := responseOk_of_ne data (by decide)
  have hsent (o : Output) : (s.emit o).cfg.tlbEntries ≠ 0 := h0
  have hfound (o : Output) : tlbLookup (s.emit o).tlb req.addr (req.kind.access ||| accGone) = .pagefault := hl
  simp only [forwardFunc, isNocAddress_eq, ha, funcPacket_eq, hok, hsent, hfound, Bool.true_eq_false, if_false,
    State.funcSent]

end

/-- Without a TLB an access to another tile never becomes a local one nor waits for the pager, so the replies that its
request still names play no part in it. -/
theorem forwardFunc_replies_unused (old l : List (ErrorCode × List Byte)) {s : State} (h0 : s.cfg.tlbEntries = 0)
    (ha : (pageBase req.addr + pageOffset req.addr).getLsbD 58 = true) :
    forwardFunc { req with replies := old } l (pageBase req.addr) s = forwardFunc req l (pageBase req.addr) s := by
  induction l generalizing s with
  | nil => rfl
  | cons reply rest ih =>
    obtain ⟨r, data⟩ := reply
    by_cases hg : r = .vpeGone
    · subst hg
      rw [forwardFunc_gone_untranslated (s := s) ha h0,
        forwardFunc_gone_untranslated (req := { req with replies := old }) ha h0]
      exact ih h0
    · cases r with
      | vpeGone => exact absurd rfl hg
      | _ => simp only [forwardFunc, isNocAddress_eq, ha, Bool.true_eq_false, if_false]; rfl

/-- The replies of the NoC to a functional access to another tile (R397, R398). -/
theorem forwardRequest_replied {r : ErrorCode} {data : List Byte} {rest : List (ErrorCode × List Byte)}
    (hf : req.func = true) (hr : req.replies = (r, data) :: rest)
    (hpage : s.cfg.tlbEntries = 0 → page = pageBase req.addr)
    (ha : (page + pageOffset req.addr).getLsbD 58 = true) :
    (r = .noError → data.length = (if req.kind = .write then 0 else req.size) →
      forwardRequest req page s =
        .next ((s.funcSent req (page + pageOffset req.addr)).emit (.cpuAnswer req.id data))) ∧
    (r ≠ .noError → r ≠ .vpeGone →
      forwardRequest req page s = .next ((s.funcSent req (page + pageOffset req.addr)).cpuDummy req)) ∧
    (r = .vpeGone → s.cfg.tlbEntries = 0 →
      forwardRequest req page s =
        forwardRequest { req with replies := rest } page (s.funcSent req (page + pageOffset req.addr))) ∧
    (r = .vpeGone → s.cfg.tlbEntries ≠ 0 →
      tlbLookup s.tlb req.addr (req.kind.access ||| accGone) = .pagefault →
      forwardRequest req page s =
        startPagefault req.addr (req.kind.access ||| accGone) (.cpu { req with replies := rest })
          (s.funcSent req (page + pageOffset req.addr))) := by
  rw [forwardRequest_func hf, hr]
  refine ⟨fun hno hd => ?_, fun hno hg => forwardFunc_failure ha hno hg, fun hg h0 => ?_, fun hg h0 hl => ?_⟩
  · subst hno
    exact forwardFunc_success ha hd
  · subst hg
    obtain rfl := hpage h0
    rw [forwardFunc_gone_untranslated ha h0, forwardRequest_func (req := { req with replies := rest }) hf]
    exact (forwardFunc_replies_unused rest rest (s := s.funcSent req _) h0 ha).symm
  · subst hg
    exact forwardFunc_gone_faults ha h0 hl

end
end

/-! ## The obligation -/

/-- Settles O60: the request by its kind and the barrier, then the access by what is known of its page and, of
a known one, by the address found there. -/
theorem cpuMemoryAccesses : Obligations.CpuMemoryAccesses := by
  unfold Obligations.CpuMemoryAccesses
  refine ⟨fun s req => cpuStep_dropped s, fun s req hw => ?_⟩
  intro op bytes access dummy packet
  have haccess : req.kind.access = access := req.kind.access_eq
  clear_value access
  subst haccess
  refine ⟨fun hk hp => cpuStep_barrier hk hw (inOnePage_iff.2 (by rwa [if_pos hk])), fun hk hp hb => ?_⟩
  have h : s.Translates req := ⟨hk, hw, inOnePage_iff.2 hp, hb⟩
  refine ⟨fun page hpage => ?_, fun h0 => ⟨cpuStep_nomap h h0, fun pf hf hl => ?_, fun hf hl => ?_, fun hf hl =>
    ⟨fun pte hwalk => ?_, fun hwalk => ?_⟩⟩⟩
  · intro a
    rw [cpuStep_known h hpage]
    refine ⟨fun hf ha => ?_, fun hf ha => ?_, fun hf ha hback => ?_, fun r data rest hf ha hr => ?_,
      fun hf ha hr => ?_⟩
    · rw [forwardRequest_timing hf, forwardCpu_local ha hf]; rfl
    · rw [forwardRequest_timing hf, forwardCpu_remote (t := .cacheMemReq) (by rw [hf]; rfl) ha]; rfl
    · rw [forwardRequest_func hf, forwardFunc_local ((isNocAddress_eq _).trans ha) id, forwardCpu_performed ha hf hback]
    · exact forwardRequest_replied hf hr (fun h0 => (hpage.resolve_right fun hit => hit.1 h0).2) ha
    · rw [forwardRequest_func hf, hr, forwardFunc_nil hr,
        forwardCpu_remote (t := .cacheMemReqFunc) (by rw [hf]; rfl) ha]; rfl
  · exact (cpuStep_timing h hf).trans (translateFor_waits _ pf h0 hl)
  · exact (cpuStep_functional h hf).trans (translateFunc_pagefault h0 hl)
  · exact (cpuStep_functional h hf).trans (translateFunc_walked h0 hl hwalk)
  · exact (cpuStep_functional h hf).trans (translateFunc_walkFaults h0 hl hwalk)

end Sys2Proof.Machine
end

section
/-! PROOF. The external commands (R383 to R388), the inbound cache-memory requests and the responses to those of this
tile (R392, R397, R398). -/

namespace Sys2Proof.Machine

/-! ## External commands -/

section
variable (s : State)

/-- A command that only sends an output: the output comes first, then the responses to the writers of EXT_CMD (R388). -/
theorem answerExternal_emit (o : Output) :
    (s.emit o).answerExternal = { s with
      extWaiting := []
      out := s.out ++ [o] ++ s.extWaiting.map fun p => .nocResponse p .noError [] } := rfl

/-- A command on the TLB: its only outputs are the responses to the writers of EXT_CMD (R388). -/
theorem answerExternal_withTlb (tlb : List TlbEntry) :
    ({ s with tlb := tlb } : State).answerExternal = { s with
      tlb := tlb
      extWaiting := []
      out := s.out ++ s.extWaiting.map fun p => .nocResponse p .noError [] } := rfl

end

/-- Settles O57: three commands send an output and two remove entries of the TLB; each then answers its writers. -/
theorem externalCommands : Obligations.ExternalCommands := by
  unfold Obligations.ExternalCommands
  intro s arg answers
  refine ⟨?wakeupCore, ?invPage, ?invTlb, ?invCache, ?injectIrq⟩
  case wakeupCore => exact congrArg Host.Outcome.next (answerExternal_emit s .wakeCore)
  case invPage =>
    exact congrArg Host.Outcome.next (answerExternal_withTlb s (tlbRemove s.tlb (vpnOf (arg.setWidth 64))))
  case invTlb => exact congrArg Host.Outcome.next (answerExternal_withTlb s [])
  case invCache => exact congrArg Host.Outcome.next (answerExternal_emit s .invalidateCaches)
  case injectIrq => exact congrArg Host.Outcome.next (answerExternal_emit s (.injectIrq (arg.setWidth 64)))

/-! ## Inbound cache-memory requests -/

theorem packetMemOp_read {p : Packet} (hk : p.kind = .read) : packetMemOp p = .read p.size := by
  rw [packetMemOp, hk]

theorem packetMemOp_write {p : Packet} (hk : p.kind = .write) : packetMemOp p = .write p.data := by
  rw [packetMemOp, hk]

section
variable {s : State} {p : Packet}

/-- The VPE that a packet names is not the one bound to this PE (R398). -/
theorem wrongVpe_iff : s.wrongVpe p = true ↔ p.addr.vpeId.toNat ≠ s.dtu.vpeId.toNat := by
  rw [State.wrongVpe, bne_iff_ne, ne_comm, ne_eq, vpeId_eq_iff, ne_comm]

theorem exec_cacheMemReq_gone (h : p.addr.vpeId.toNat ≠ s.dtu.vpeId.toNat) :
    exec (.cacheMemReq p) s = .next (s.nocRespond p .vpeGone []) := if_pos (wrongVpe_iff.2 h)

theorem exec_cacheMemReqFunc_gone (h : p.addr.vpeId.toNat ≠ s.dtu.vpeId.toNat) :
    exec (.cacheMemReqFunc p) s = .next (s.nocRespond p .vpeGone []) := if_pos (wrongVpe_iff.2 h)

section
variable (h : p.addr.vpeId.toNat = s.dtu.vpeId.toNat)
include h

theorem exec_cacheMemReq_issues :
    exec (.cacheMemReq p) s = .next (s.memIssue (packetPhys p) (packetMemOp p) (.cacheReq p)) :=
  if_neg (mt wrongVpe_iff.1 (not_not_intro h))

/-- A functional request to backed memory is performed and answered within the step (R398). -/
theorem exec_cacheMemReqFunc_performs (hb : s.cfg.backs (packetPhys p).toNat (packetMemOp p).size = true) :
    exec (.cacheMemReqFunc p) s =
      .next ((s.memPerform (packetPhys p) (packetMemOp p)).1.nocRespond p .noError
        (s.memPerform (packetPhys p) (packetMemOp p)).2) :=
  (if_neg (mt wrongVpe_iff.1 (not_not_intro h))).trans (if_pos hb)

end

/-! ## The responses at the requester -/

/-- The right that an access asks for when it is translated again (R342, R398). -/
theorem CpuKind.access_gone_eq (k : CpuKind) :
    k.access ||| accGone = if k = .write then 0x12#5 else if k = .fetch then 0x14#5 else 0x11#5 := by
  cases k <;> rfl

/-- A successful response with as many bytes as the request asked for is well-formed (R95). -/
theorem responseOk_of_length {p : WirePacket} {data : List Byte}
    (h : data.length = if p.kind = .write then 0 else p.size) : responseOk p .noError data = true := by
  cases hk : p.kind with
  | read => exact responseOk_read hk (by simpa [hk] using h)
  | write =>
    obtain rfl : data = [] := List.eq_nil_of_length_eq_zero (by simpa [hk] using h)
    exact responseOk_write hk

/-- Any result but success and VPE_GONE gives the dummy answer (R398). -/
theorem cpuResponse_failed {req : CpuReq} {r : ErrorCode} (data : List Byte) (hr : r ≠ .noError)
    (hg : r ≠ .vpeGone) : cpuResponse req r data s = .next (s.cpuDummy req) := by
  cases r with
  | noError => exact absurd rfl hr
  | vpeGone => exact absurd rfl hg
  | _ => rfl

/-- A well-formed response to a forwarded access (R392). -/
theorem nocRespondStep_cpu {k : Nat} {q : WirePacket} {req : CpuReq} {r : ErrorCode} {data : List Byte}
    (hq : s.nocOutstanding[k]? = some ⟨q, .cpu req⟩) (hok : responseOk q r data = true) :
    nocRespondStep k r data s =
      cpuResponse req r data { s with nocOutstanding := s.nocOutstanding.eraseIdx k } :=
  nocRespondStep_deliver hq hok

/-- VPE_GONE translates the access again, with GONE (R398). -/
theorem nocRespondStep_cpu_gone {k : Nat} {q : WirePacket} {req : CpuReq}
    (hq : s.nocOutstanding[k]? = some ⟨q, .cpu req⟩) (data : List Byte) :
    nocRespondStep k .vpeGone data s =
      translateFor req.addr (req.kind.access ||| accGone) (.cpu req)
        { s with nocOutstanding := s.nocOutstanding.eraseIdx k } :=
  nocRespondStep_cpu hq (responseOk_error nofun)

end

/-! ## The obligation -/

/-- Settles O59: the request by its VPE and kind, the answer of local memory, and then the response by its result and,
for VPE_GONE, by what is known of the page. -/
theorem cacheMemoryRequests : Obligations.CacheMemoryRequests := by
  unfold Obligations.CacheMemoryRequests
  refine ⟨fun s p => ⟨fun hv => ⟨exec_cacheMemReq_gone hv, exec_cacheMemReqFunc_gone hv⟩,
    fun hv hk => ⟨?_, fun hb => ?_⟩, fun hv hk => ⟨?_, fun hb => ?_⟩, fun k => ⟨fun hr hb => ?_, fun hr hb => ?_⟩⟩,
    fun s k p req data hq => ?_⟩
  · rw [exec_cacheMemReq_issues hv, packetMemOp_read hk]; rfl
  · rw [exec_cacheMemReqFunc_performs hv (by rwa [packetMemOp_read hk]), packetMemOp_read hk]; rfl
  · rw [exec_cacheMemReq_issues hv, packetMemOp_write hk]; rfl
  · rw [exec_cacheMemReqFunc_performs hv (by rwa [packetMemOp_write hk]), packetMemOp_write hk]; rfl
  · rw [memAnswer_read hr hb rfl]; rfl
  · rw [memAnswer_write hr hb rfl]; rfl
  · intro t access dummy
    have haccess : req.kind.access ||| accGone = access := req.kind.access_gone_eq
    have hgone := haccess ▸ nocRespondStep_cpu_gone hq data
    refine ⟨fun hd => nocRespondStep_cpu hq (responseOk_of_length hd), fun r hr hg => ?_, fun h0 => ?_,
      fun h0 => ⟨fun hl => ?_, fun pf hl => ?_⟩⟩
    · exact (nocRespondStep_cpu hq (responseOk_error hr)).trans (cpuResponse_failed data hr hg)
    · exact hgone.trans (translateFor_known (s := t) (.cpu req) (.inl ⟨h0, rfl⟩))
    · exact hgone.trans (translateFor_nomap (s := t) (.cpu req) h0 hl)
    · exact hgone.trans (translateFor_waits (s := t) (.cpu req) pf h0 hl)

end Sys2Proof.Machine
end

section
/-! PROOF. Privilege as the origin of a register access (R430, R431): no word the CPU writes leaves the command registers,
so of what follows the words only the flag of the command and the operands' old contents can change. -/

namespace Sys2Proof.Machine

section
variable (s : State)

/-- One word of the CPU: it is a command register's, or it is dropped. -/
theorem writeRegs_cpu_one (off : Nat) (v : Word) :
    State.writeRegs true off [v] s = { s with
      command := (State.writeRegs true off [v] s).command
      opnd := (State.writeRegs true off [v] s).opnd } := by
  rw [writeRegs_one]
  split
  case isTrue hmay =>
    obtain ⟨hlow, hhigh⟩ := mayWrite_cpu hmay
    rw [writeReg_cmd s v hlow hhigh, putCmd_only]
  case isFalse => rfl

/-- The words of a CPU access change command registers only (R174, R175). -/
theorem writeRegs_cpu_only (off : Nat) (ws : List Word) :
    State.writeRegs true off ws s = { s with
      command := (State.writeRegs true off ws s).command
      opnd := (State.writeRegs true off ws s).opnd } := by
  induction ws generalizing off s with
  | nil => rfl
  | cons v vs ih => rw [writeRegs_cons, ih, writeRegs_cpu_one]

/-- With its words, a CPU access gives a command at most: it reaches neither EXT_CMD nor MSG_CNT, whose events and pin
follow the writes of the NoC. -/
theorem afterRegWrite_cpu_only (off : Nat) (data : List Byte) :
    s.afterRegWrite true off data = { s with
      command := (s.afterRegWrite true off data).command
      opnd := (s.afterRegWrite true off data).opnd
      execPending := (s.afterRegWrite true off data).execPending
      staleOperands := (s.afterRegWrite true off data).staleOperands } := by
  have hext : s.writesExtCmd true off data.length = false := writes_cpu_extCmd s off data.length
  obtain ⟨c, o, hregs⟩ : ∃ c o, State.writeRegs true off (dataWords data) s = { s with command := c, opnd := o } :=
    ⟨_, _, writeRegs_cpu_only s off (dataWords data)⟩
  simp only [State.afterRegWrite, hregs, hext, suspendPin_same, List.append_nil, Bool.false_eq_true, if_false]

end

/-- Settles O18: a write of good form does `afterRegWrite`, framed by `afterRegWrite_cpu_only`, and is answered; any other
faults. -/
theorem cpuRegisterWritesStayInTheCommandRegisters : Obligations.CpuRegisterWritesStayInTheCommandRegisters := by
  unfold Obligations.CpuRegisterWritesStayInTheCommandRegisters
  intro s t id off data hstep
  rw [exec_regWrite] at hstep
  cases hok : regAccessOk s.cfg off.toNat data.length with
  | true =>
    have hanswered := registerWrite_answered (port := .cpu id) hok (writes_cpu_extCmd s off.toNat data.length)
    rw [hanswered, portIsCpu, afterRegWrite_cpu_only] at hstep
    cases hstep
    rfl
  | false =>
    rw [registerWrite_bad hok] at hstep
    cases hstep

end Sys2Proof.Machine
end

section
/-! PROOF. The machine at rest and after reset (R68, R450 to R452, R470): the step taken when no schedule is given, what a
quiescent DTU can still do, and the values reset leaves in the registers and engines. -/

namespace Sys2Proof.Machine

/-! ## The step without a schedule -/

section
variable {s : State}

/-- With nothing scheduled and nothing enabled the machine rests. -/
theorem step_rests (ha : s.agenda = []) (he : s.enabled = []) : step s = .next s := by
  simp only [step, nextStep, ha, he, choose]

/-- With nothing scheduled the next step is one of those that are enabled, by free choice (assumption 1). -/
theorem step_enabled (ha : s.agenda = []) (he : s.enabled ≠ []) :
    ∃ e ∈ s.enabled, step s = runEvent e (s.drawn 1) := by
  obtain ⟨e, hchoice⟩ := Option.isSome_iff_exists.1 (choose_isSome (Config.freeChoice s.draws) he)
  exact ⟨e, mem_of_choose hchoice, by simp only [step, nextStep, ha, hchoice]⟩

/-! ## Quiescence -/

/-- A quiescent DTU, part by part (R68). -/
theorem quiescent_iff : s.quiescent = true ↔
    s.cmdInProgress = false ∧ s.execPending = false ∧ s.extPending = none ∧ s.cmdState = .none ∧
    (∀ b ∈ s.bufs, b.free = true) ∧ s.pendingTransfers = [] ∧ s.pfQueue = [] ∧ s.translateEvents = [] ∧
    s.nocOutstanding = [] := by
  simp only [State.quiescent, Bool.and_eq_true, Bool.not_eq_true', Option.isNone_iff_eq_none, beq_iff_eq,
    List.all_eq_true, List.isEmpty_iff, and_assoc]

/-- Where all buffers are free there is no transfer event. -/
theorem event_of_free (hfree : ∀ b ∈ s.bufs, b.free = true) (b : Nat) : s.event b = none := by
  cases hev : s.event b with
  | none => rfl
  | some ev =>
    obtain ⟨buf, hbuf, hused, -⟩ := event_some hev
    rw [hfree buf (List.mem_of_getElem? hbuf)] at hused
    cases hused

/-- Agent by agent: a quiescent DTU whose memory requests are all answered has nothing it can do by itself. -/
theorem enabled_of_quiescent (hq : s.quiescent = true) (hmem : s.memOutstanding = []) : s.enabled = [] := by
  obtain ⟨-, hexec, hext, -, hfree, hpending, -, hwalks, -⟩ := quiescent_iff.1 hq
  have hbufs : (List.range s.bufs.length).filter (fun b => (s.event b).any XferEvent.ready) = [] :=
    List.filter_eq_nil_iff.2 fun b _ => by simp [event_of_free hfree b]
  simp only [State.enabled, hexec, hext, hbufs, hpending, hwalks, hmem]
  rfl

end

/-- Settles O7: the choice of the next step by `step_rests` and `step_enabled`, the rest by `enabled_of_quiescent`. -/
theorem scheduleIsFree : Obligations.ScheduleIsFree := by
  unfold Obligations.ScheduleIsFree
  intro s ha
  exact ⟨step_rests ha, step_enabled ha, enabled_of_quiescent⟩

/-! ## The registers after reset -/

section
variable (c : Config) (m : Memory)

/-- Every endpoint is 0 after reset, whether it is one of the N or not (R450). -/
theorem ep_resetOf (i : Nat) : (State.resetOf c m).ep i = ⟨0, 0, 0⟩ := by
  rw [State.ep, State.resetOf, List.getD_eq_getElem?_getD, List.getElem?_replicate]
  split <;> rfl

/-- Every word of such an endpoint is 0. -/
theorem get_zeroEp (k : Nat) : EpWords.get ⟨0, 0, 0⟩ k = 0#64 := by
  unfold EpWords.get; split <;> rfl

/-- Every command register is 0 after reset (R450). -/
theorem getCmd_resetOf (k : Nat) : (State.resetOf c m).getCmd k = 0#64 := by
  unfold State.getCmd; split <;> rfl

/-- The registers after reset: `RW_BARRIER` has its own value, all others are 0 (R450). -/
theorem readReg_resetOf {off : Nat} (h8 : off % 8 = 0) :
    (State.resetOf c m).readReg off = if off = 0x20 then c.resetRwBarrier else 0#64 := by
  rcases (by omega : off < 0x40 ∨ (0x40 ≤ off ∧ off < 0x70) ∨ 0x70 ≤ off) with hd | ⟨hc, hc'⟩ | he
  · obtain ⟨k, rfl⟩ := Nat.dvd_of_mod_eq_zero h8
    have hk : k < 8 := by omega
    interval_cases k <;> rfl
  · rw [readReg_cmd _ hc hc', if_neg (by omega), getCmd_resetOf]
  · rw [readReg_ep _ he, if_neg (by omega), ep_resetOf, get_zeroEp]

/-! ## The engines after reset -/

/-- Every buffer is free after reset (R451). -/
theorem buf_of_mem_resetOf {b : Buffer} (hb : b ∈ (State.resetOf c m).bufs) : b = Buffer.unused c :=
  List.eq_of_mem_replicate hb

/-- No operation is in flight after reset (R451). -/
theorem quiescent_resetOf : (State.resetOf c m).quiescent = true :=
  quiescent_iff.2 ⟨rfl, rfl, rfl, rfl, fun b hb => by rw [buf_of_mem_resetOf c m hb]; rfl, rfl, rfl, rfl, rfl⟩

end

/-- Settles O8: the registers by `readReg_resetOf`, the engines by `quiescent_resetOf`. -/
theorem resetValues : Obligations.ResetValues := by
  unfold Obligations.ResetValues
  intro c m
  refine ⟨fun off h8 hne => ?_, readReg_resetOf c m rfl, rfl, quiescent_resetOf c m, rfl, rfl, rfl, rfl,
    List.length_replicate, List.length_replicate⟩
  rw [readReg_resetOf c m h8, if_neg hne]

/-! ## The invariant after reset -/

/-- A buffer as reset leaves it meets what the invariant asks of every buffer (R58, R59). -/
theorem unused_ok (c : Config) : (Buffer.unused c).ok c :=
  ⟨List.length_replicate, rfl, fun _ hev => by cases hev⟩

/-- The machine starts in its invariant: all buffers are free, and every queue and the TLB are empty. -/
theorem inv_resetOf {c : Config} {m : Memory} (hc : c.valid = true) (hm : m.wf = true) : Inv (State.resetOf c m) where
  cfg := hc
  mem := hm
  eps := List.length_replicate
  bufCount := List.length_replicate
  bufs b hb := by rw [buf_of_mem_resetOf c m hb]; exact unused_ok c
  msgRecv := by
    have hnone : (State.resetOf c m).bufs.countP Buffer.holdsMsgRecv = 0 :=
      List.countP_eq_zero.2 fun b hb => by rw [buf_of_mem_resetOf c m hb]; exact Bool.false_ne_true
    omega
  pending _ hr := by cases hr
  outstanding b := by
    obtain ⟨-, -, -, -, hfree, -⟩ := quiescent_iff.1 (quiescent_resetOf c m)
    rw [event_of_free hfree b]
    rfl
  tlbKeys := List.nodup_nil
  tlbSize := Nat.zero_le _
  faults := List.nodup_nil
  command hcmd := absurd rfl hcmd

/-- Settles O9: `inv_resetOf`, and for `State.reset` the parameters of the vectors, with nothing loaded. -/
theorem resetHasInv : Obligations.ResetHasInv := by
  unfold Obligations.ResetHasInv
  exact ⟨fun c m => inv_resetOf, inv_resetOf (by decide) Memory.wf_nil⟩

end Sys2Proof.Machine
end
